-- ==== Sys2Proof/Word.lean ====
section
/-! DEFINITION. Word types of the engine (R8, R11, R13): every value is unsigned. -/

namespace Sys2Proof

/-- A host register or command word: 32 bits (R11). -/
abbrev Word := BitVec 32

/-- An address or data word of the target: 16 bits (R8). -/
abbrev Half := BitVec 16

/-- An opcode or status byte: 8 bits (R8). -/
abbrev Byte := BitVec 8

/-- The count field of a multi-word command: 5 bits, meaning 1 to 32 words (R8). -/
abbrev Count := BitVec 5

/-- The command code: 4 bits (R78). -/
abbrev Code := BitVec 4

end Sys2Proof
end

