-- ==== Sys2Proof/Config.lean ====
section
/-! DEFINITION. Constants the source fixes (R9) and the parameters it leaves open (R10, R12): the latter are opaque,
so that nothing can be proved of their values. Free values of draws stand here too. -/

namespace Sys2Proof.Config

/-- STATUS_OK: the only status value that means success (R9). -/
def statusOk : Byte := 0xEA#8

/-- OPC_CHECK: the wire opcode of the liveness check (R9, R92). -/
def opcCheck : Byte := 0x00#8

/-- BUDGET_WRITE (R9, R121): WRITEW and WRITEN. -/
def budgetWrite : Nat := 0x800

/-- BUDGET_ERASE_ALL (R9, R121). -/
def budgetEraseAll : Nat := 0x60000

/-- BUDGET_ERASE_PAGE (R9, R121). -/
def budgetErasePage : Nat := 0x9600

/-- WRAP_WORDS: the target's multi-word addressing block (R9). -/
def wrapWords : Nat := 0x20

/-- PAGE_MASK: ERASEPAGE clears the low 7 address bits (R9, R61). -/
def pageMask : Half := 0xFF80#16

/-- MAXN: the largest count field (R9). -/
def maxN : Nat := 31

/-- Number of entries of DBUF (R11): `MAXN + 1`. -/
def dbufEntries : Nat := maxN + 1

/-- OPC_READ, a parameter (R10; log 10). -/
opaque opcRead : Byte

/-- The upper three bits of OPC_READN_BASE, a parameter (R10; log 10). -/
opaque opcReadnTop : BitVec 3

/-- OPC_READN_BASE: its bits 4 to 0 are 0 (R10, D20; log 11). -/
def opcReadnBase : Byte := opcReadnTop ++ 0#5

/-- OPC_WRITE, a parameter (R10; log 10). -/
opaque opcWrite : Byte

/-- The upper three bits of OPC_WRITEN_BASE, a parameter (R10; log 10). -/
opaque opcWritenTop : BitVec 3

/-- OPC_WRITEN_BASE: its bits 4 to 0 are 0 (R10, D20; log 11). -/
def opcWritenBase : Byte := opcWritenTop ++ 0#5

/-- OPC_ERASE_ALL, a parameter (R10; log 10). -/
opaque opcEraseAll : Byte

/-- OPC_ERASE_PAGE, a parameter (R10; log 10). -/
opaque opcErasePage : Byte

/-- OPC_CHIPID, a parameter (R10; log 10). -/
opaque opcChipid : Byte

/-- UNLOCK_PAIRS, a parameter: eight pairs (byte for PGM, byte for OE), by index (R10, R90; log 10). -/
opaque unlockPairs : Fin 8 → Byte × Byte

/-- The three named durations (R10, R171). -/
inductive Delay where
  | half
  | settle
  | pwroff
  deriving DecidableEq, Repr

/-- T_HALF, T_SETTLE and T_PWROFF in a unit the spec does not fix: parameters (R10, R171; log 12). -/
opaque duration : Delay → Nat

/-- The bias of DAT while it is an input (R10). -/
inductive DatPull where
  | none
  | up
  | down
  deriving DecidableEq, Repr, Inhabited

/-- DAT_PULL, a parameter (R10, R27; log 3). -/
opaque datPull : DatPull

/-- CODE_WORDS, the code-memory size in words: a parameter that no rule enforces (R10, R39; log 13). -/
opaque codeWords : Nat

/-- USER_WORDS, the user-memory size in words: a parameter that no rule enforces (R10, R39; log 13). -/
opaque userWords : Nat

/-- The conventional host pin of the port with a given index in LINES: 8, 9, 10, 11, 12 for
PWR_N, CLK, OE, PGM and DAT (R12). -/
def pinDefault (port : Fin 5) : Nat :=
  match port with
  | 0 => 8
  | 1 => 9
  | 2 => 10
  | 3 => 11
  | 4 => 12

/-- PIN_PWR, PIN_CLK, PIN_OE, PIN_PGM and PIN_DAT: board parameters with no effect on any rule (R12; log 13). -/
opaque pin : Fin 5 → Nat

/-- The free value of the k-th sample taken on DAT when neither the target nor the bias fixes it (R27; log 2). -/
opaque drawLevel : Nat → Bool

/-- The free value of the k-th host read, for the bits the spec leaves unspecified (R40, R50; log 15). -/
opaque readDraw : Nat → Word

end Sys2Proof.Config
end

