-- ==== Sys2Proof/Syntax.lean ====
section
/-! DEFINITION. The host commands (R3, R79), the fields of a command word (R78) and the assembler's lines (R83). -/

namespace Sys2Proof

/-- The eleven host commands, one constructor per row of spec/opcode_table.json.
Operands are the fields of the command word the row uses (R79). -/
inductive Instr where
  | powerup
  | shutdown
  | check
  | readw (addr : Half)
  | readn (addr : Half) (n : Count)
  | writew (addr : Half)
  | writen (addr : Half) (n : Count)
  | eraseall
  | erasepage (addr : Half)
  | readid
  | unlock
  deriving DecidableEq, Repr

/-- The five fields of format CMDW (R78), from the most significant down:
`word = (addr, rsv1, n, rsv0, code)`. -/
structure Cmdw where
  addr : Half
  rsv1 : BitVec 3
  n    : Count
  rsv0 : BitVec 4
  code : Code
  deriving DecidableEq, Repr

/-- One line of the assembler syntax (R83): the commands, the pseudo-instructions READK, WRITEK and ERASE,
and the host-side directives DBUF and WAIT. Numbers stand as they are written, unchecked. -/
inductive AsmLine where
  | powerup
  | shutdown
  | check
  | eraseall
  | readid
  | unlock
  | readw (addr : Nat)
  | writew (addr : Nat)
  | erasepage (addr : Nat)
  | readn (addr n : Nat)
  | writen (addr n : Nat)
  | readk (addr k : Nat)
  | writek (addr k : Nat)
  | erase (addr : Nat)
  | dbuf (i v : Nat)
  | wait
  deriving DecidableEq, Repr

end Sys2Proof
end

