-- ==== Sys2Proof/WellFormed.lean ====
section
/-! DEFINITION. What a well-formed command word is (R80), what the assembler accepts (R83), and the shape of a host
access (R59). -/

namespace Sys2Proof

/-- The codes that name a command (R79): 0x1 to 0xB. -/
def Cmdw.codeUsed (c : Cmdw) : Bool := decide (1 ≤ c.code.toNat ∧ c.code.toNat ≤ 0xB)

/-- Both reserved fields are 0 (R80). -/
def Cmdw.reservedClear (c : Cmdw) : Bool := c.rsv0 == 0#4 && c.rsv1 == 0#3

/-- The commands that use the count field: READN and WRITEN (R79). -/
def Cmdw.usesCount (c : Cmdw) : Bool := c.code == 0x5#4 || c.code == 0x7#4

/-- The commands that use the address field: READW, READN, WRITEW, WRITEN and ERASEPAGE (R79). -/
def Cmdw.usesAddr (c : Cmdw) : Bool :=
  c.code == 0x4#4 || c.code == 0x5#4 || c.code == 0x6#4 || c.code == 0x7#4 || c.code == 0x9#4

/-- The count field is used or 0 (R80). -/
def Cmdw.countOk (c : Cmdw) : Bool := c.usesCount || c.n == 0#5

/-- The address field is used or 0 (R80). -/
def Cmdw.addrOk (c : Cmdw) : Bool := c.usesAddr || c.addr == 0#16

/-- `legal(v)` of R80: all four conditions. -/
def Cmdw.legal (c : Cmdw) : Bool := c.codeUsed && c.reservedClear && c.countOk && c.addrOk

/-- The fields of the command word of a command (R78, R79): its CODE, the operands in their places, and 0 in every
reserved or unused field. -/
def Instr.fields : Instr → Cmdw
  | .powerup       => ⟨0#16, 0#3, 0#5, 0#4, 0x1#4⟩
  | .shutdown      => ⟨0#16, 0#3, 0#5, 0#4, 0x2#4⟩
  | .check         => ⟨0#16, 0#3, 0#5, 0#4, 0x3#4⟩
  | .readw addr    => ⟨addr, 0#3, 0#5, 0#4, 0x4#4⟩
  | .readn addr n  => ⟨addr, 0#3, n, 0#4, 0x5#4⟩
  | .writew addr   => ⟨addr, 0#3, 0#5, 0#4, 0x6#4⟩
  | .writen addr n => ⟨addr, 0#3, n, 0#4, 0x7#4⟩
  | .eraseall      => ⟨0#16, 0#3, 0#5, 0#4, 0x8#4⟩
  | .erasepage addr => ⟨addr, 0#3, 0#5, 0#4, 0x9#4⟩
  | .readid        => ⟨0#16, 0#3, 0#5, 0#4, 0xA#4⟩
  | .unlock        => ⟨0#16, 0#3, 0#5, 0#4, 0xB#4⟩

/-- A command is well-formed when its word is legal. The operand types leave no other command: this holds of every
`Instr` (Laws/PerInstr.lean), and the check has its content on the words a host may write (`Cmdw.legal`). -/
def Instr.wellFormed (i : Instr) : Bool := i.fields.legal

/-- The ranges the assembler asks for (R83): 16-bit addresses, counts 0 to 31, word counts 1 to 32, DBUF indices
0 to 31, DBUF values that fit a host register. -/
def AsmLine.wellFormed : AsmLine → Bool
  | .powerup | .shutdown | .check | .eraseall | .readid | .unlock | .wait => true
  | .readw a | .writew a | .erasepage a | .erase a => decide (a < 0x10000)
  | .readn a n | .writen a n => decide (a < 0x10000 ∧ n ≤ Config.maxN)
  | .readk a k | .writek a k => decide (a < 0x10000 ∧ 1 ≤ k ∧ k ≤ Config.dbufEntries)
  | .dbuf i v => decide (i ≤ Config.maxN ∧ v < 0x100000000)

/-- A host access the window supports: 32 bits wide at an offset that is a multiple of 4 (R59). -/
def accessSupported (off width : Nat) : Bool := width == 4 && off % 4 == 0

end Sys2Proof
end

