-- ==== Sys2Proof/Decode.lean ====
section
/-! DEFINITION. Reading a command word (R78 to R82), total on any word and rejecting by name, then the encoder, the
assembler's expansion (R83), and the host's table view. -/

namespace Sys2Proof

/-- Why a command word is illegal (R80), in the order the four conditions stand there; `tooShort` is for a byte
string that holds no whole word (R82: no word is variable-length). -/
inductive DecodeError where
  | unusedCode
  | reservedBits
  | unusedCountSet
  | unusedAddrSet
  | tooShort
  deriving DecidableEq, Repr

/-- The fields of a word at their positions (R78). -/
def splitWord (v : Word) : Cmdw where
  addr := v.extractLsb' 16 16
  rsv1 := v.extractLsb' 13 3
  n    := v.extractLsb' 8 5
  rsv0 := v.extractLsb' 4 4
  code := v.extractLsb' 0 4

/-- The word of five fields (R78): ADDR, RSV1, N, RSV0, CODE from the most significant down. -/
def joinWord (c : Cmdw) : Word := c.addr ++ c.rsv1 ++ c.n ++ c.rsv0 ++ c.code

/-- The command a CODE names (R79), with its operands taken as R81 says: no scaling, no sign. -/
def commandOf (c : Cmdw) : Option Instr :=
  match c.code.toNat with
  | 0x1 => some .powerup
  | 0x2 => some .shutdown
  | 0x3 => some .check
  | 0x4 => some (.readw c.addr)
  | 0x5 => some (.readn c.addr c.n)
  | 0x6 => some (.writew c.addr)
  | 0x7 => some (.writen c.addr c.n)
  | 0x8 => some .eraseall
  | 0x9 => some (.erasepage c.addr)
  | 0xA => some .readid
  | 0xB => some .unlock
  | _   => none

/-- Decoding of the fields: the four checks of R80 by name, then the command. -/
def decodeFields (c : Cmdw) : Except DecodeError Instr :=
  match commandOf c with
  | none => .error .unusedCode
  | some i =>
    if c.reservedClear = false then .error .reservedBits
    else if c.countOk = false then .error .unusedCountSet
    else if c.addrOk = false then .error .unusedAddrSet
    else .ok i

/-- The command of a word, or the name of what makes it illegal (R80, R82). -/
def decode (v : Word) : Except DecodeError Instr := decodeFields (splitWord v)

/-- A register's word from its four bytes in address order: byte `j` carries bits `8j+7` to `8j` (R57; log 26). -/
def wordOfBytes (b0 b1 b2 b3 : Byte) : Word := b3 ++ b2 ++ b1 ++ b0

/-- The four bytes of a word in address order (R57). -/
def bytesOfWord (v : Word) : List Byte :=
  [v.extractLsb' 0 8, v.extractLsb' 8 8, v.extractLsb' 16 8, v.extractLsb' 24 8]

/-- Decoding of a byte string: one word of four bytes, and what follows it. -/
def decodeBytes : List Byte → Except DecodeError (Instr × List Byte)
  | b0 :: b1 :: b2 :: b3 :: rest =>
    match decode (wordOfBytes b0 b1 b2 b3) with
    | .ok i => .ok (i, rest)
    | .error e => .error e
  | _ => .error .tooShort

/-- The word of a command (R78, R79). -/
def encode (i : Instr) : Word := joinWord i.fields

/-- The bytes of a command's word in address order. -/
def encodeBytes (i : Instr) : List Byte := bytesOfWord (encode i)

/-- The command of an assembler line, pseudo-instructions expanded (R83); `none` for a directive and for a line out
of range. -/
def expandLine (l : AsmLine) : Option Instr :=
  if l.wellFormed = false then none
  else
    match l with
    | .powerup => some .powerup
    | .shutdown => some .shutdown
    | .check => some .check
    | .eraseall => some .eraseall
    | .readid => some .readid
    | .unlock => some .unlock
    | .readw a => some (.readw (BitVec.ofNat 16 a))
    | .writew a => some (.writew (BitVec.ofNat 16 a))
    | .erasepage a => some (.erasepage (BitVec.ofNat 16 a))
    | .readn a n => some (.readn (BitVec.ofNat 16 a) (BitVec.ofNat 5 n))
    | .writen a n => some (.writen (BitVec.ofNat 16 a) (BitVec.ofNat 5 n))
    | .readk a k => some (.readn (BitVec.ofNat 16 a) (BitVec.ofNat 5 (k - 1)))
    | .writek a k => some (.writen (BitVec.ofNat 16 a) (BitVec.ofNat 5 (k - 1)))
    | .erase a => some (.erasepage (BitVec.ofNat 16 a))
    | .dbuf _ _ => none
    | .wait => none

/-- The host's table view: the word of a table row, given `nbits` of its bits (all above are 0), laid out as the
window's bytes and decoded. -/
def decodeTableWord (nbits w : Nat) : Option Instr :=
  match decodeBytes (bytesOfWord (BitVec.ofNat 32 (w % 2 ^ nbits))) with
  | .ok (i, _) => some i
  | .error _ => none

end Sys2Proof
end

