-- ==== Sys2Proof/Machine/State.lean ====
section
/-! DEFINITION. The engine's state (10_state.md), the model's own fields beside it, the state after reset (R47), and
the reasons a step can stop. -/

namespace Sys2Proof.Machine

open Sys2Proof

/-- The five line ports (R24), in the order of their indices in LINES. -/
inductive Line where
  | pwrN
  | clk
  | oe
  | pgm
  | dat
  deriving DecidableEq, Repr

/-- The direction of a port (R15, R25). -/
inductive Dir where
  | input
  | output
  deriving DecidableEq, Repr

/-- A port: its direction and its output latch, kept apart (R25). -/
structure Port where
  dir : Dir
  out : Bool
  deriving DecidableEq, Repr

/-- The five ports (R24). -/
structure Ports where
  pwrN : Port
  clk  : Port
  oe   : Port
  pgm  : Port
  dat  : Port
  deriving DecidableEq, Repr

/-- The values of MODE (R29). -/
inductive Mode where
  | unknown
  | write
  | read
  | writeData
  deriving DecidableEq, Repr

/-- The failure causes that are ever produced (R141). Codes 6 and 7 have no value here (R38, S17). -/
inductive Cause where
  | none
  | illegal
  | checkFail
  | statusMismatch
  | pollTimeout
  | pollStatus
  deriving DecidableEq, Repr

/-- The sequencer position (R28): IDLE, or RUNNING with the command code, the index of the next operation in the
command's list, and, at the poll loop, the index inside the loop's body (log 9). -/
inductive SeqPos where
  | idle
  | running (cmd : Code) (step sub : Nat)
  deriving DecidableEq, Repr

/-- A line primitive as it stands in the line trace (R15, R16). -/
inductive LineEvent where
  | setDir (l : Line) (d : Dir)
  | drive (l : Line) (b : Bool)
  | sleep (t : Config.Delay)
  | sample (l : Line) (b : Bool)
  deriving DecidableEq, Repr

/-- What the target does with DAT at one sample: it drives a level, or leaves the line alone (R27). -/
inductive TargetLevel where
  | drives (b : Bool)
  | undriven
  deriving DecidableEq, Repr

/-- What the outside does at the engine's interface: a host access (R14), the reset input asserted or released (R158),
or another agent driving the same five lines (R69, R155). -/
inductive HostAct where
  | read (off width : Nat)
  | write (off width : Nat) (v : Word)
  | assertReset
  | releaseReset
  | foreignDrive
  deriving DecidableEq, Repr

/-- One pending act: `gap = none` waits until BUSY = 0 (the WAIT of R83); `gap = some n` happens after the running
command has taken `n` more sequencer steps, or ended (log 4). -/
structure HostEvent where
  gap : Option Nat
  act : HostAct
  deriving DecidableEq, Repr

/-- The state: every piece R23 to R47 name, then the model's own fields (INVENTORY.md, heading State). -/
structure State where
  /-- Directions and latches of the five ports (R24, R25). -/
  ports : Ports
  /-- MODE (R29). -/
  mode : Mode
  /-- The sequencer position (R28). -/
  seq : SeqPos
  /-- SHIFT16 (R33). -/
  shift16 : Half
  /-- SHIFT8 (R33). -/
  shift8 : Byte
  /-- BITCNT (R33; log 8). -/
  bitcnt : BitVec 5
  /-- POLLCTR (R33). -/
  pollctr : BitVec 19
  /-- WIDX (R33). -/
  widx : BitVec 6
  /-- The internal status match (R35). -/
  matched : Bool
  /-- The internal ready bit of the poller (R35). -/
  ready : Bool
  /-- LCODE (R34). -/
  lcode : Code
  /-- LN (R34). -/
  ln : Count
  /-- LADDR (R34). -/
  laddr : Half
  /-- BUSY (R35). -/
  busy : Bool
  /-- OK (R35). -/
  ok : Bool
  /-- OVR (R35). -/
  ovr : Bool
  /-- CAUSE (R35). -/
  cause : Cause
  /-- CMD (R37). -/
  cmd : Word
  /-- PULSECNT (R41). -/
  pulsecnt : Word
  /-- SETTLECNT (R42). -/
  settlecnt : Word
  /-- LASTSTAT, its bits 7 to 0 (R43). -/
  laststat : Byte
  /-- POLLCNT, its bits 18 to 0 (R44). -/
  pollcnt : BitVec 19
  /-- DBUF (R45). -/
  dbuf : Vector Half 32
  /-- Whether the reset input is asserted (R158). -/
  resetAsserted : Bool
  /-- The model's own: the line trace, newest primitive first (R16; log 1). -/
  trace : List LineEvent
  /-- The model's own: what the target does at the coming samples of DAT as an input (R7, R27; log 2). -/
  samples : List TargetLevel
  /-- The model's own: samples of DAT as an input taken so far, the index of the free values (log 2). -/
  sampleDraws : Nat
  /-- The model's own: the results of the host's reads, newest first (log 14). -/
  reads : List (Nat × Word)
  /-- The model's own: host reads done so far, the index of the free values (log 15). -/
  readDraws : Nat
  /-- The model's own: what the outside will do, in order (log 4). -/
  pending : List HostEvent
  deriving DecidableEq, Repr

/-- An undriven port with its latch at 0 (R47). -/
def Port.atReset : Port := ⟨.input, false⟩

/-- The state after reset (R47), the reset input released again (R158). DBUF and the internal registers, which R47 leaves unspecified, are 0 (log 6, log 7);
the model's own fields are empty. -/
def State.reset : State where
  ports := ⟨.atReset, .atReset, .atReset, .atReset, .atReset⟩
  mode := .unknown
  seq := .idle
  shift16 := 0#16
  shift8 := 0#8
  bitcnt := 0#5
  pollctr := 0#19
  widx := 0#6
  matched := false
  ready := false
  lcode := 0#4
  ln := 0#5
  laddr := 0#16
  busy := false
  ok := false
  ovr := false
  cause := .none
  cmd := 0#32
  pulsecnt := 0#32
  settlecnt := 0#32
  laststat := 0#8
  pollcnt := 0#19
  dbuf := Vector.replicate 32 0#16
  resetAsserted := false
  trace := []
  samples := []
  sampleDraws := 0
  reads := []
  readDraws := 0
  pending := []

/-- Why a step stops with a fault. -/
inductive Fault where
  /-- Raised by the step when BUSY = 1 and the sequencer has no next operation (IDLE, or a position past the end of
  the command's list). No run reaches such a state. Safe: the model stops where the hardware has no such state. -/
  | sequencerLost
  deriving DecidableEq, Repr

/-- Why a step is refused. -/
inductive Refusal where
  /-- Raised by a dispatch arm that has no meaning yet. Safe. No arm raises it. -/
  | notModelled (mnemonic : String)
  /-- Raised by a host access that is not 32 bits wide at a multiple of 4: "a model refuses it" (R59). Safe. -/
  | unsupportedAccess (off width : Nat)
  /-- Raised when another agent drives the engine's lines: "outside the model and is refused" (R155). Safe. -/
  | foreignDriver
  deriving DecidableEq, Repr

end Sys2Proof.Machine
end

