-- ==== Sys2Proof/Machine/Flags.lean ====
section
/-! DEFINITION. The codes of MODE and CAUSE, the status comparison, and the 32-bit views a host read returns
(R38 to R44). -/

namespace Sys2Proof.Machine

open Sys2Proof

/-- The encoding of MODE (R29). -/
def modeCode : Mode → BitVec 2
  | .unknown => 0#2
  | .write => 1#2
  | .read => 2#2
  | .writeData => 3#2

/-- The encoding of CAUSE (R38, R141). -/
def causeCode : Cause → BitVec 3
  | .none => 0#3
  | .illegal => 1#3
  | .checkFail => 2#3
  | .statusMismatch => 3#3
  | .pollTimeout => 4#3
  | .pollStatus => 5#3

/-- The status comparison: exact equality on all 8 bits (R115). -/
def statusMatches (b : Byte) : Bool := b == Config.statusOk

/-- STATUS (R38). -/
def statusReg (s : State) : Word :=
  0#22 ++ modeCode s.mode ++ 0#1 ++ causeCode s.cause ++ 0#1 ++ BitVec.ofBool s.ovr ++ BitVec.ofBool s.ok
    ++ BitVec.ofBool s.busy

/-- GEOM (R39). -/
def geomReg : Word := BitVec.ofNat 16 Config.userWords ++ BitVec.ofNat 16 Config.codeWords

/-- The bit of DIR for a port: 1 when its direction is Out (R40). -/
def dirBit (p : Port) : BitVec 1 := BitVec.ofBool (p.dir == .output)

/-- The bit of IN for a port: its latch when it is an output, and a draw when it is an input (R27, R40). -/
def inBit (p : Port) (draw : Bool) : BitVec 1 :=
  match p.dir with
  | .output => BitVec.ofBool p.out
  | .input => BitVec.ofBool draw

/-- DIR, five bits, port i at bit i (R40). -/
def linesDir (p : Ports) : BitVec 5 := dirBit p.dat ++ dirBit p.pgm ++ dirBit p.oe ++ dirBit p.clk ++ dirBit p.pwrN

/-- OUT, five bits, port i at bit i (R40). -/
def linesOut (p : Ports) : BitVec 5 :=
  BitVec.ofBool p.dat.out ++ BitVec.ofBool p.pgm.out ++ BitVec.ofBool p.oe.out ++ BitVec.ofBool p.clk.out
    ++ BitVec.ofBool p.pwrN.out

/-- IN, five bits, port i at bit i; bit i of `draw` stands for an input port's level (R40). -/
def linesIn (p : Ports) (draw : Word) : BitVec 5 :=
  inBit p.dat (draw.getLsbD 4) ++ inBit p.pgm (draw.getLsbD 3) ++ inBit p.oe (draw.getLsbD 2)
    ++ inBit p.clk (draw.getLsbD 1) ++ inBit p.pwrN (draw.getLsbD 0)

/-- LINES (R40). -/
def linesReg (s : State) (draw : Word) : Word :=
  0#11 ++ linesIn s.ports draw ++ 0#3 ++ linesOut s.ports ++ 0#3 ++ linesDir s.ports

/-- LASTSTAT (R43). -/
def laststatReg (s : State) : Word := s.laststat.setWidth 32

/-- POLLCNT (R44). -/
def pollcntReg (s : State) : Word := s.pollcnt.setWidth 32

end Sys2Proof.Machine
end

