-- ==== Sys2Proof/Machine/Operands.lean ====
section
/-! DEFINITION. What the write-direction frames carry: the wire opcodes (R92), the values (R61, R81), and the bits of
the frames (R85, R86); the target's multi-word address (R66). -/

namespace Sys2Proof.Machine

open Sys2Proof

/-- Where an opcode frame's byte comes from (R92). -/
inductive OpcodeSrc where
  | const (op : Byte)
  | withCount (base : Byte)
  deriving DecidableEq, Repr

/-- Where a value frame's word comes from (R81, R131, R132, R133, R134). -/
inductive ValueSrc where
  | const (v : Half)
  | laddr
  | page
  | dbuf (i : Nat)
  deriving DecidableEq, Repr

/-- The base address of the 128-word page of an address (R61). -/
def pageBase (a : Half) : Half := a &&& Config.pageMask

/-- DBUF entry i (R45), read through its index; an index past 31 names no entry and is not used by any command. -/
def dbufGet (s : State) (i : Nat) : Half := s.dbuf.getD i 0#16

/-- The wire opcode: a constant, or a base with LN in its low bits (R92). -/
def opcodeOf (src : OpcodeSrc) (s : State) : Byte :=
  match src with
  | .const op => op
  | .withCount base => base ||| s.ln.setWidth 8

/-- The value sent: a constant, LADDR, LADDR's page base, or a DBUF entry. -/
def valueOf (src : ValueSrc) (s : State) : Half :=
  match src with
  | .const v => v
  | .laddr => s.laddr
  | .page => pageBase s.laddr
  | .dbuf i => dbufGet s i

/-- The opcode frame: the opcode, then its complement (R85, R107). -/
def opcodeFrame (op : Byte) : BitVec 16 := op ++ ~~~op

/-- The value frame: the value, then its complement (R86, R109). -/
def valueFrame (v : Half) : BitVec 32 := v ++ ~~~v

/-- The target word that word `i` of a multi-word command addresses: the count wraps inside the 32-word block (R66). -/
def wrapAddr (a : Half) (i : Nat) : Half := (a &&& 0xFFE0#16) ||| ((a + BitVec.ofNat 16 i) &&& 0x001F#16)

end Sys2Proof.Machine
end

