-- ==== Sys2Proof/Machine/Ops.lean ====
section
/-! DEFINITION. The named operations over the state: the line primitives (R15, R25), the pulse (R102), sampling (R27),
the datapath (R110, R111, R116), accept (R48), and the two ways a command ends (R144). -/

namespace Sys2Proof.Machine

open Sys2Proof

/-- A port by its name. -/
def portOf (p : Ports) (l : Line) : Port :=
  match l with
  | .pwrN => p.pwrN
  | .clk => p.clk
  | .oe => p.oe
  | .pgm => p.pgm
  | .dat => p.dat

/-- The ports with one port replaced. -/
def withPort (p : Ports) (l : Line) (q : Port) : Ports :=
  match l with
  | .pwrN => { p with pwrN := q }
  | .clk => { p with clk := q }
  | .oe => { p with oe := q }
  | .pgm => { p with pgm := q }
  | .dat => { p with dat := q }

/-- The ports after `SetDir` (R25): the latch is kept. -/
def portsSetDir (p : Ports) (l : Line) (d : Dir) : Ports := withPort p l ⟨d, (portOf p l).out⟩

/-- The ports after `Drive` (R25): the direction is kept. -/
def portsDrive (p : Ports) (l : Line) (b : Bool) : Ports := withPort p l ⟨(portOf p l).dir, b⟩

/-- `SetDir(l, d)` (R15). -/
def setDir (l : Line) (d : Dir) (s : State) : State :=
  { s with ports := portsSetDir s.ports l d, trace := .setDir l d :: s.trace }

/-- `Drive(l, b)` (R15). -/
def drive (l : Line) (b : Bool) (s : State) : State :=
  { s with ports := portsDrive s.ports l b, trace := .drive l b :: s.trace }

/-- `Sleep(T)` (R15): it only stands in the trace, since no time is kept (R22; log 12). -/
def sleepFor (t : Config.Delay) (s : State) : State := { s with trace := .sleep t :: s.trace }

/-- The end of a `Clk()`: PULSECNT counts it, modulo 2^32 (R41, R102). -/
def countPulse (s : State) : State := { s with pulsecnt := s.pulsecnt + 1#32 }

/-- A settle delay is counted (R42). -/
def countSettle (s : State) : State := { s with settlecnt := s.settlecnt + 1#32 }

/-- `Clk()`: two equal holds, then the count (R102, R103). -/
def clkPulse (s : State) : State :=
  countPulse (sleepFor .half (drive .clk false (sleepFor .half (drive .clk true s))))

/-- `x[MODE] <- m` (R29). -/
def setMode (m : Mode) (s : State) : State := { s with mode := m }

/-- The level of the k-th sample of DAT as an input: what the target drives; the bias or a draw when it drives nothing;
a draw when the model is told nothing of the target (R27; log 2, log 3). -/
def levelOf (t : Option TargetLevel) (k : Nat) : Bool :=
  match t with
  | some (.drives b) => b
  | some .undriven =>
    match Config.datPull with
    | .none => Config.drawLevel k
    | .up => true
    | .down => false
  | none => Config.drawLevel k

/-- The level the j-th coming sample of DAT as an input will give, counted from 0. -/
def upcoming (s : State) (j : Nat) : Bool := levelOf s.samples[j]? (s.sampleDraws + j)

/-- The level of DAT now: the port's own latch as an output, the target's level as an input (R27; log 18). -/
def datLevel (s : State) : Bool :=
  match s.ports.dat.dir with
  | .output => s.ports.dat.out
  | .input => upcoming s 0

/-- The state after `Sample(DAT)`: the event with its bit stands in the trace (R15); as an input, the target's next
level is used up. -/
def afterSample (s : State) : State :=
  match s.ports.dat.dir with
  | .output => { s with trace := .sample .dat s.ports.dat.out :: s.trace }
  | .input =>
    { s with
      trace := .sample .dat (upcoming s 0) :: s.trace
      samples := s.samples.tail
      sampleDraws := s.sampleDraws + 1 }

/-- A bit shifted into the word accumulator from the top (R110). -/
def shiftWordIn (w : Half) (b : Bool) : Half := (w >>> 1) ||| ((BitVec.ofBool b).setWidth 16 <<< 15)

/-- A bit shifted into the status accumulator from the bottom (R111). -/
def shiftStatusIn (w : Byte) (b : Bool) : Byte := (w <<< 1) ||| (BitVec.ofBool b).setWidth 8

/-- `b <- Sample(DAT)` into SHIFT16 (R110). -/
def sampleWord (s : State) : State := { afterSample s with shift16 := shiftWordIn s.shift16 (datLevel s) }

/-- `b <- Sample(DAT)` into SHIFT8 (R111, R116). -/
def sampleStatus (s : State) : State := { afterSample s with shift8 := shiftStatusIn s.shift8 (datLevel s) }

/-- `b <- Sample(DAT)` of one poll tick: POLLCTR counts it, and a 1 is ready (R116). -/
def samplePoll (s : State) : State :=
  { afterSample s with pollctr := s.pollctr + 1#19, ready := if datLevel s then true else s.ready }

/-- The start of a poll: nothing seen, no tick counted (R116). -/
def startPoll (s : State) : State := { s with pollctr := 0#19, ready := false }

/-- POLLCNT takes the ticks of the poll (R116, R44). -/
def latchPollCount (s : State) : State := { s with pollcnt := s.pollctr }

/-- LASTSTAT takes the assembled status byte, matching or not, and the status match is formed (R43, R111, R116). -/
def latchStatus (s : State) : State := { s with laststat := s.shift8, matched := statusMatches s.shift8 }

/-- BITCNT takes the number of the current bit in its frame (R33; log 8). -/
def setBit (j : Nat) (s : State) : State := { s with bitcnt := BitVec.ofNat 5 j }

/-- WIDX takes the index of the current word (R33, R130, R132). -/
def setWidx (i : Nat) (s : State) : State := { s with widx := BitVec.ofNat 6 i }

/-- DBUF with one entry replaced; an index past 31 names no entry. -/
def dbufSet (d : Vector Half 32) (i : Nat) (w : Half) : Vector Half 32 := d.setIfInBounds i w

/-- `x[DBUF][i] <- SHIFT16` at the end of a RecvWord (R110, R129, R130, R135). -/
def storeWord (i : Nat) (s : State) : State := { s with dbuf := dbufSet s.dbuf i s.shift16 }

/-- TAKING A FAILURE, `fail(c)`, in one step (R144): OK, CAUSE, BUSY and the sequencer position; nothing else. There is
no return from it: the engine is IDLE and takes the next command (R148). -/
def failCommand (c : Cause) (s : State) : State :=
  { s with ok := false, cause := c, busy := false, seq := .idle }

/-- `succeed()`, in one step (R144). -/
def succeedCommand (s : State) : State :=
  { s with ok := true, cause := .none, busy := false, seq := .idle }

/-- ACCEPT of a command word (R48), in one step: the word and its fields are latched, BUSY is set, the flags and the
counters are cleared, and the sequencer starts. -/
def accept (v : Word) (s : State) : State :=
  { s with
    cmd := v
    lcode := (splitWord v).code
    ln := (splitWord v).n
    laddr := (splitWord v).addr
    busy := true
    ok := false
    cause := .none
    ovr := false
    pulsecnt := 0#32
    settlecnt := 0#32
    laststat := 0#8
    pollcnt := 0#19
    seq := .running (splitWord v).code 0 0 }

/-- DISPATCH of a command (R124): the engine stands at the start of the rule for it, with the operands the accept
latched. In a state an accept of the command's word left it changes nothing (log 22). -/
def dispatch (i : Instr) (s : State) : State :=
  { s with
    lcode := i.fields.code
    ln := i.fields.n
    laddr := i.fields.addr
    busy := true
    seq := .running i.fields.code 0 0 }

/-- BLOCK RESET (R158, R159): every piece of the engine's state takes its reset value. What lies outside the engine
stays: the level of the reset input, the line trace so far, the target's coming levels, the host's pending accesses and
what it has read (log 21). -/
def blockReset (s : State) : State :=
  { State.reset with
    resetAsserted := s.resetAsserted
    trace := s.trace
    samples := s.samples
    sampleDraws := s.sampleDraws
    reads := s.reads
    readDraws := s.readDraws
    pending := s.pending }

/-- The state as the reset input holds it: while the input is asserted, every piece of state takes its reset value
(R158). -/
def underReset (s : State) : State := if s.resetAsserted then blockReset s else s

/-- The reset input is asserted: the block reset happens, and a running command is aborted (R158, R159). -/
def assertReset (s : State) : State := { blockReset s with resetAsserted := true }

/-- The reset input is released: "when it ends, every piece of state takes the value" (R158). -/
def releaseReset (s : State) : State := { underReset s with resetAsserted := false }

end Sys2Proof.Machine
end

