-- ==== Sys2Proof/Machine/Sequencer.lean ====
section
/-! DEFINITION. The sequencer's operations and how a list of them runs (R28): a command is its fixed list of
operations, each one line primitive or one register write, and the run stops at `fail` or `succeed` (R17). -/

namespace Sys2Proof.Machine

open Sys2Proof

/-- One operation of the sequencer. -/
inductive Micro where
  /-- `SetDir(l, d)`. -/
  | setDir (l : Line) (d : Dir)
  /-- `Drive(l, b)`. -/
  | drive (l : Line) (b : Bool)
  /-- `Drive(OE, f[k])` of an opcode frame (R107). -/
  | driveOpcodeBit (src : OpcodeSrc) (k : Nat)
  /-- `Drive(OE, f[k])` of a value frame (R109). -/
  | driveValueBit (src : ValueSrc) (k : Nat)
  /-- `Sleep(T)`. -/
  | sleep (t : Config.Delay)
  /-- PULSECNT + 1 (R102). -/
  | countPulse
  /-- SETTLECNT + 1 (R98, R99). -/
  | countSettle
  /-- `x[MODE] <- m`. -/
  | setMode (m : Mode)
  /-- An operation of a mode change that is skipped when MODE is already `m` (R98, R99). -/
  | unlessMode (m : Mode) (a : Micro)
  /-- BITCNT takes the number of the bit. -/
  | setBit (j : Nat)
  /-- WIDX takes the index of the word. -/
  | setWidx (i : Nat)
  /-- `b <- Sample(DAT)` into SHIFT16. -/
  | sampleWord
  /-- `b <- Sample(DAT)` into SHIFT8. -/
  | sampleStatus
  /-- `b <- Sample(DAT)` of a poll tick. -/
  | samplePoll
  /-- DBUF[i] takes SHIFT16. -/
  | storeWord (i : Nat)
  /-- LASTSTAT takes SHIFT8 and the status match is formed. -/
  | latchStatus
  /-- POLLCTR and ready are cleared. -/
  | startPoll
  /-- `while POLLCTR < B and not ready`: one Clk and one sample each time (R116). -/
  | pollLoop (budget : Nat)
  /-- POLLCNT takes POLLCTR. -/
  | latchPollCount
  /-- `fail(c)` unless the status matched. -/
  | failUnlessMatch (c : Cause)
  /-- `fail(c)` unless ready was seen. -/
  | failUnlessReady (c : Cause)
  /-- `fail(c)`. -/
  | fail (c : Cause)
  /-- `succeed()`. -/
  | succeed
  deriving DecidableEq, Repr

/-- One tick of the poll: a Clk and a sample (R116). -/
def pollTick (s : State) : State := samplePoll (clkPulse s)

/-- The poll loop with at most `n` ticks left: it ends at the first sample of 1 (R116, R117). -/
def pollTicks : Nat → State → State
  | 0, s => s
  | n + 1, s => if s.ready then s else pollTicks n (pollTick s)

/-- What one operation does. -/
def execMicro : Micro → State → State
  | .setDir l d, s => setDir l d s
  | .drive l b, s => drive l b s
  | .driveOpcodeBit src k, s => drive .oe ((opcodeFrame (opcodeOf src s)).getLsbD k) s
  | .driveValueBit src k, s => drive .oe ((valueFrame (valueOf src s)).getLsbD k) s
  | .sleep t, s => sleepFor t s
  | .countPulse, s => countPulse s
  | .countSettle, s => countSettle s
  | .setMode m, s => setMode m s
  | .unlessMode m a, s => if s.mode = m then s else execMicro a s
  | .setBit j, s => setBit j s
  | .setWidx i, s => setWidx i s
  | .sampleWord, s => sampleWord s
  | .sampleStatus, s => sampleStatus s
  | .samplePoll, s => samplePoll s
  | .storeWord i, s => storeWord i s
  | .latchStatus, s => latchStatus s
  | .startPoll, s => startPoll s
  | .pollLoop budget, s => pollTicks (budget - s.pollctr.toNat) s
  | .latchPollCount, s => latchPollCount s
  | .failUnlessMatch c, s => if s.matched then s else failCommand c s
  | .failUnlessReady c, s => if s.ready then s else failCommand c s
  | .fail c, s => failCommand c s
  | .succeed, s => succeedCommand s

/-- A list of operations run to its end, or to the first `fail` or `succeed`: no operation follows the end of a
command (R17, R144). -/
def run : List Micro → State → State
  | [], s => s
  | m :: ms, s => if s.busy then run ms (execMicro m s) else s

end Sys2Proof.Machine
end

