-- ==== Sys2Proof/Machine/Modes.lean ====
section
/-! DEFINITION. The primitives of 40_mode_and_clock.md as lists of sequencer operations, and the mode transition
function (R104). -/

namespace Sys2Proof.Machine

open Sys2Proof

/-- Clk (R102): the four line primitives and the count. -/
def clkOps : List Micro :=
  [.drive .clk true, .sleep .half, .drive .clk false, .sleep .half, .countPulse]

/-- Shutdown (R96): every latch before any driver (D16). -/
def shutdownOps : List Micro :=
  [.drive .clk false, .drive .oe false, .drive .pgm false, .drive .dat false, .drive .pwrN true,
   .setDir .pwrN .output, .setDir .clk .output, .setDir .oe .output, .setDir .pgm .output, .setDir .dat .output,
   .setMode .unknown]

/-- PowerUp (R97). -/
def powerUpOps : List Micro := shutdownOps ++ [.sleep .pwroff, .drive .pwrN false]

/-- SetWriteMode (R98): nothing when MODE is Write. -/
def setWriteModeOps : List Micro :=
  [.unlessMode .write (.drive .dat false), .unlessMode .write (.setDir .dat .output),
   .unlessMode .write (.drive .clk false), .unlessMode .write (.drive .oe false),
   .unlessMode .write (.drive .pgm true),
   .unlessMode .write (.sleep .settle), .unlessMode .write .countSettle,
   .unlessMode .write (.setMode .write)]

/-- SetReadMode (R99): nothing when MODE is Read. -/
def setReadModeOps : List Micro :=
  [.unlessMode .read (.setDir .dat .input),
   .unlessMode .read (.drive .clk false), .unlessMode .read (.drive .oe false),
   .unlessMode .read (.drive .pgm false),
   .unlessMode .read (.sleep .settle), .unlessMode .read .countSettle,
   .unlessMode .read (.setMode .read)]

/-- EnterWriteData (R100): always performed, without a settle delay. -/
def enterWriteDataOps : List Micro := [.drive .pgm false, .setMode .writeData]

/-- The four mode-changing primitives of R104. -/
inductive ModeOp where
  | shutdown
  | setWriteMode
  | setReadMode
  | enterWriteData
  deriving DecidableEq, Repr

/-- `modeStep` (R104): the mode afterwards, and whether the call performs `Sleep(T_SETTLE)`. -/
def modeStep : ModeOp → Mode → Mode × Bool
  | .shutdown, _ => (.unknown, false)
  | .setWriteMode, .write => (.write, false)
  | .setWriteMode, _ => (.write, true)
  | .setReadMode, .read => (.read, false)
  | .setReadMode, _ => (.read, true)
  | .enterWriteData, _ => (.writeData, false)

/-- The operations of a mode-changing primitive. -/
def modeOps : ModeOp → List Micro
  | .shutdown => shutdownOps
  | .setWriteMode => setWriteModeOps
  | .setReadMode => setReadModeOps
  | .enterWriteData => enterWriteDataOps

end Sys2Proof.Machine
end

