-- ==== Sys2Proof/Machine/Transport.lean ====
section
/-! DEFINITION. The serializers of 41_transport.md and the poll of 42_poller.md as lists of sequencer operations. -/

namespace Sys2Proof.Machine

open Sys2Proof

/-- The body of a loop repeated for 0 to `n - 1`, in increasing order (R17). -/
def repeatOps (n : Nat) (body : Nat → List Micro) : List Micro := (List.range n).flatMap body

/-- One bit of an opcode frame, sent: on OE before its pulse (R84, R107). Bit `j` in pulse order is `f[15 - j]`. -/
def opcodeBitOps (src : OpcodeSrc) (j : Nat) : List Micro :=
  [.setBit j, .driveOpcodeBit src (15 - j)] ++ clkOps

/-- One bit of a value frame, sent (R84, R109). Bit `j` in pulse order is `f[31 - j]`. -/
def valueBitOps (src : ValueSrc) (j : Nat) : List Micro :=
  [.setBit j, .driveValueBit src (31 - j)] ++ clkOps

/-- One bit received into SHIFT8: sampled after its pulse (R84, R111). -/
def statusBitOps (j : Nat) : List Micro := [.setBit j] ++ clkOps ++ [.sampleStatus]

/-- One bit received into SHIFT16: sampled after its pulse (R84, R110). -/
def wordBitOps (j : Nat) : List Micro := [.setBit j] ++ clkOps ++ [.sampleWord]

/-- RecvStatus (R111): eight bits, the trailing pulse, then LASTSTAT and the comparison. -/
def recvStatusOps : List Micro := setReadModeOps ++ repeatOps 8 statusBitOps ++ clkOps ++ [.latchStatus]

/-- RecvStatus by a caller that fails on a mismatch (R18). -/
def checkStatusOps (c : Cause) : List Micro := recvStatusOps ++ [.failUnlessMatch c]

/-- SendOpcode (R107), by a caller that fails with `c` (R18). -/
def sendOpcodeOps (src : OpcodeSrc) (c : Cause) : List Micro :=
  setWriteModeOps ++ repeatOps 16 (opcodeBitOps src) ++ checkStatusOps c

/-- SendValue (R109), by a caller that fails with `c` (R18). -/
def sendValueOps (src : ValueSrc) (c : Cause) : List Micro :=
  setWriteModeOps ++ enterWriteDataOps ++ repeatOps 32 (valueBitOps src) ++ checkStatusOps c

/-- RecvWord (R110): the word stands in SHIFT16. -/
def recvWordOps : List Micro := setReadModeOps ++ repeatOps 16 wordBitOps

/-- Pulses (R112). -/
def pulsesOps (n : Nat) : List Micro := repeatOps n fun _ => clkOps

/-- The body of the poll loop (R116), as the sequencer steps through it. -/
def pollBodyOps : List Micro := clkOps ++ [.samplePoll]

/-- Poll (R116), by a caller that fails with POLL_TIMEOUT or POLL_STATUS: no status bit is read after a timeout, and
no trailing pulse follows the status. -/
def pollOps (budget : Nat) : List Micro :=
  setReadModeOps ++ [.startPoll, .pollLoop budget, .latchPollCount, .failUnlessReady .pollTimeout]
    ++ repeatOps 8 statusBitOps ++ [.latchStatus, .failUnlessMatch .pollStatus]

/-- Check (R125). -/
def checkOps : List Micro := sendOpcodeOps (.const Config.opcCheck) .checkFail

end Sys2Proof.Machine
end

