-- ==== Sys2Proof/Machine/Lifecycle.lean ====
section
/-! DEFINITION. The lifecycle commands POWERUP and SHUTDOWN (R126, R127), the liveness check CHECK (R128), UNLOCK
(R136), and the outcome of an illegal word (R137). -/

namespace Sys2Proof.Machine

open Sys2Proof

/-- POWERUP: `PowerUp(); succeed()` (R126). -/
def powerupProgram : List Micro := powerUpOps ++ [.succeed]

/-- POWERUP (R126). -/
def execPowerup (s : State) : Host.Outcome State Fault Refusal :=
  .next (run powerupProgram (dispatch .powerup s))

/-- SHUTDOWN: `Shutdown(); succeed()` (R127). -/
def shutdownProgram : List Micro := shutdownOps ++ [.succeed]

/-- SHUTDOWN (R127). -/
def execShutdown (s : State) : Host.Outcome State Fault Refusal :=
  .next (run shutdownProgram (dispatch .shutdown s))

/-- CHECK: the liveness check is the whole command (R128). -/
def checkProgram : List Micro := checkOps ++ [.succeed]

/-- CHECK (R128). -/
def execCheck (s : State) : Host.Outcome State Fault Refusal :=
  .next (run checkProgram (dispatch .check s))

/-- One sub-bit of an unlock pair: PGM, then OE, then the pulse (R90, R136). -/
def unlockBitOps (pair : Byte × Byte) (j : Nat) : List Micro :=
  [.setBit j, .drive .pgm (pair.1.getLsbD (7 - j)), .drive .oe (pair.2.getLsbD (7 - j))] ++ clkOps

/-- One unlock pair: eight sub-bits, most significant first (R90). -/
def unlockPairOps (pair : Byte × Byte) : List Micro := repeatOps 8 (unlockBitOps pair)

/-- UNLOCK: the eight pairs in order; no check, no status, no mode change (R136). -/
def unlockProgram : List Micro :=
  repeatOps 8 (fun n => unlockPairOps (Config.unlockPairs (Fin.ofNat 8 n))) ++ [.succeed]

/-- UNLOCK (R136). -/
def execUnlock (s : State) : Host.Outcome State Fault Refusal :=
  .next (run unlockProgram (dispatch .unlock s))

/-- An illegal word: `fail(ILLEGAL)` and no line primitive (R137). -/
def illegalProgram : List Micro := [.fail .illegal]

/-- The engine runs the outcome of an illegal word (R137). -/
def execIllegal (s : State) : Host.Outcome State Fault Refusal := .next (run illegalProgram s)

end Sys2Proof.Machine
end

