-- ==== Sys2Proof/Machine/Reads.lean ====
section
/-! DEFINITION. The read commands READW (R129), READN (R130) and READID (R135). -/

namespace Sys2Proof.Machine

open Sys2Proof

/-- READW (R129). -/
def readwProgram : List Micro :=
  checkOps ++ sendOpcodeOps (.const Config.opcRead) .statusMismatch ++ sendValueOps .laddr .statusMismatch
    ++ pulsesOps 2 ++ recvWordOps ++ [.storeWord 0] ++ checkStatusOps .statusMismatch ++ pulsesOps 2 ++ [.succeed]

/-- READW (R129). -/
def execReadw (addr : Half) (s : State) : Host.Outcome State Fault Refusal :=
  .next (run readwProgram (dispatch (.readw addr) s))

/-- One word of READN: no pulse between words (R130). -/
def readWordOps (i : Nat) : List Micro := [.setWidx i] ++ recvWordOps ++ [.storeWord i]

/-- READN with count field `n` (R130): `n + 1` words, one final status. -/
def readnProgram (n : Count) : List Micro :=
  checkOps ++ sendOpcodeOps (.withCount Config.opcReadnBase) .statusMismatch ++ sendValueOps .laddr .statusMismatch
    ++ pulsesOps 2 ++ repeatOps (n.toNat + 1) readWordOps ++ checkStatusOps .statusMismatch ++ pulsesOps 2
    ++ [.succeed]

/-- READN (R130). -/
def execReadn (addr : Half) (n : Count) (s : State) : Host.Outcome State Fault Refusal :=
  .next (run (readnProgram n) (dispatch (.readn addr n) s))

/-- READID: no address frame, three turnaround pulses (R135). -/
def readidProgram : List Micro :=
  checkOps ++ sendOpcodeOps (.const Config.opcChipid) .statusMismatch ++ pulsesOps 3 ++ recvWordOps ++ [.storeWord 0]
    ++ checkStatusOps .statusMismatch ++ pulsesOps 2 ++ [.succeed]

/-- READID (R135). -/
def execReadid (s : State) : Host.Outcome State Fault Refusal :=
  .next (run readidProgram (dispatch .readid s))

end Sys2Proof.Machine
end

