-- ==== Sys2Proof/Machine/Writes.lean ====
section
/-! DEFINITION. The write commands WRITEW (R131) and WRITEN (R132), and the erase commands ERASEALL (R133) and
ERASEPAGE (R134). -/

namespace Sys2Proof.Machine

open Sys2Proof

/-- WRITEW (R131). -/
def writewProgram : List Micro :=
  checkOps ++ sendOpcodeOps (.const Config.opcWrite) .statusMismatch ++ sendValueOps .laddr .statusMismatch
    ++ sendValueOps (.dbuf 0) .statusMismatch ++ pollOps Config.budgetWrite ++ pulsesOps 2 ++ [.succeed]

/-- WRITEW (R131). -/
def execWritew (addr : Half) (s : State) : Host.Outcome State Fault Refusal :=
  .next (run writewProgram (dispatch (.writew addr) s))

/-- One word of WRITEN: a value frame with its own status (R132). -/
def writeWordOps (i : Nat) : List Micro := [.setWidx i] ++ sendValueOps (.dbuf i) .statusMismatch

/-- WRITEN with count field `n` (R132): `n + 1` words, one poll after all of them. -/
def writenProgram (n : Count) : List Micro :=
  checkOps ++ sendOpcodeOps (.withCount Config.opcWritenBase) .statusMismatch ++ sendValueOps .laddr .statusMismatch
    ++ repeatOps (n.toNat + 1) writeWordOps ++ pollOps Config.budgetWrite ++ pulsesOps 2 ++ [.succeed]

/-- WRITEN (R132). -/
def execWriten (addr : Half) (n : Count) (s : State) : Host.Outcome State Fault Refusal :=
  .next (run (writenProgram n) (dispatch (.writen addr n) s))

/-- ERASEALL: address 0 is sent (R133). -/
def eraseallProgram : List Micro :=
  checkOps ++ sendOpcodeOps (.const Config.opcEraseAll) .statusMismatch ++ sendValueOps (.const 0#16) .statusMismatch
    ++ pollOps Config.budgetEraseAll ++ pulsesOps 2 ++ [.succeed]

/-- ERASEALL (R133). -/
def execEraseall (s : State) : Host.Outcome State Fault Refusal :=
  .next (run eraseallProgram (dispatch .eraseall s))

/-- ERASEPAGE: the masked address is sent; CMD and LADDR keep the unmasked one (R134, D46). -/
def erasepageProgram : List Micro :=
  checkOps ++ sendOpcodeOps (.const Config.opcErasePage) .statusMismatch ++ sendValueOps .page .statusMismatch
    ++ pollOps Config.budgetErasePage ++ pulsesOps 2 ++ [.succeed]

/-- ERASEPAGE (R134). -/
def execErasepage (addr : Half) (s : State) : Host.Outcome State Fault Refusal :=
  .next (run erasepageProgram (dispatch (.erasepage addr) s))

end Sys2Proof.Machine
end

