-- ==== Sys2Proof/Machine/Dispatch.lean ====
section
/-! DEFINITION. The meaning of each command, from accept to complete (R124). -/

namespace Sys2Proof.Machine

open Sys2Proof

def exec (i : Instr) (s : State) : Host.Outcome State Fault Refusal :=
  match i with
  | .powerup => Sys2Proof.Machine.execPowerup s
  | .shutdown => Sys2Proof.Machine.execShutdown s
  | .check => Sys2Proof.Machine.execCheck s
  | .readw addr => Sys2Proof.Machine.execReadw addr s
  | .readn addr n => Sys2Proof.Machine.execReadn addr n s
  | .writew addr => Sys2Proof.Machine.execWritew addr s
  | .writen addr n => Sys2Proof.Machine.execWriten addr n s
  | .eraseall => Sys2Proof.Machine.execEraseall s
  | .erasepage addr => Sys2Proof.Machine.execErasepage addr s
  | .readid => Sys2Proof.Machine.execReadid s
  | .unlock => Sys2Proof.Machine.execUnlock s

end Sys2Proof.Machine
end

