-- ==== Sys2Proof/Machine/HostPort.lean ====
section
/-! DEFINITION. Host reads and writes of the register window (R36 to R50). -/

namespace Sys2Proof.Machine

open Sys2Proof

/-- The index of the DBUF entry at an offset: entry i stands at 0x40 + 4*i, i = 0 to 31 (R36, R45). -/
def dbufIndex (off : Nat) : Option Nat :=
  if 0x40 ≤ off ∧ off < 0xC0 then some ((off - 0x40) / 4) else none

/-- The value of a host read at an offset; `draw` stands for the bits the spec leaves unspecified: IN of input ports
(R40), and all of a DBUF read while BUSY = 1 (R50). Reserved offsets read 0 (R46). -/
def windowRead (off : Nat) (draw : Word) (s : State) : Word :=
  match off with
  | 0x00 => s.cmd
  | 0x04 => statusReg s
  | 0x08 => geomReg
  | 0x0C => linesReg s draw
  | 0x10 => s.pulsecnt
  | 0x14 => s.settlecnt
  | 0x18 => laststatReg s
  | 0x1C => pollcntReg s
  | _ =>
    match dbufIndex off with
    | some i => if s.busy then draw else (dbufGet s i).setWidth 32
    | none => 0#32

/-- A host write at an offset (R45, R46, R48, R49, R64): CMD accepts, or is dropped and sets OVR; DBUF stores the low
half while idle; every other write has no effect. -/
def windowWrite (off : Nat) (v : Word) (s : State) : State :=
  if off = 0x00 then
    if s.busy then { s with ovr := true } else accept v s
  else
    match dbufIndex off with
    | some i => if s.busy then s else { s with dbuf := dbufSet s.dbuf i (v.setWidth 16) }
    | none => s

/-- A host write happens. While the reset input is asserted it has no effect: every piece of state stays at its reset
value (R158). -/
def hostWrite (off : Nat) (v : Word) (s : State) : State := if s.resetAsserted then s else windowWrite off v s

/-- A host read happens: its result goes to the host, and nothing of the engine changes (R64). -/
def hostRead (off : Nat) (s : State) : State :=
  { s with
    reads := (off, windowRead off (Config.readDraw s.readDraws) s) :: s.reads
    readDraws := s.readDraws + 1 }

/-- One act of the outside world: an access of a supported shape, refused otherwise (R59); the reset input asserted or
released (R158); another driver of the lines, refused (R69, R155). -/
def serve (a : HostAct) (s : State) : Host.Outcome State Fault Refusal :=
  match a with
  | .read off width =>
    if accessSupported off width then .next (hostRead off s) else .refused (.unsupportedAccess off width)
  | .write off width v =>
    if accessSupported off width then .next (hostWrite off v s) else .refused (.unsupportedAccess off width)
  | .assertReset => .next (assertReset s)
  | .releaseReset => .next (releaseReset s)
  | .foreignDrive => .refused .foreignDriver

end Sys2Proof.Machine
end

