-- ==== Sys2Proof/Machine/Engine.lean ====
section
/-! DEFINITION. How the engine runs the accepted command (R28, R124): whole in one step when nothing lands in between
(R21), or as many sequencer steps as pass before the next access of the host (R49, R50, R159). -/

namespace Sys2Proof.Machine

open Sys2Proof

/-- The operations of a command: the list its meaning runs. -/
def programOf (i : Instr) : List Micro :=
  match i with
  | .powerup => powerupProgram
  | .shutdown => shutdownProgram
  | .check => checkProgram
  | .readw _ => readwProgram
  | .readn _ n => readnProgram n
  | .writew _ => writewProgram
  | .writen _ n => writenProgram n
  | .eraseall => eraseallProgram
  | .erasepage _ => erasepageProgram
  | .readid => readidProgram
  | .unlock => unlockProgram

/-- The operations of the accepted word: its command's, or those of an illegal word (R124). -/
def programAt (s : State) : List Micro :=
  match decode s.cmd with
  | .ok i => programOf i
  | .error _ => illegalProgram

/-- The sequencer's position is written, unless the command has ended. -/
def placeAt (c : Code) (k j : Nat) (s : State) : State :=
  if s.busy then { s with seq := .running c k j } else s

/-- One step of the sequencer (R28): the operation at its position, then the next position. At the poll loop it steps
through the loop's body and jumps back to its start, until ready or the budget is used up (log 9). -/
def sequencerStep (s : State) : State :=
  match s.seq with
  | .idle => s
  | .running c k j =>
    if s.busy = false then s
    else
      match (programAt s)[k]? with
      | none => s
      | some (.pollLoop budget) =>
        if j = 0 ∧ (s.ready = true ∨ budget ≤ s.pollctr.toNat) then placeAt c (k + 1) 0 s
        else
          match pollBodyOps[j]? with
          | none => placeAt c k 0 s
          | some m => placeAt c k ((j + 1) % pollBodyOps.length) (execMicro m s)
      | some m => placeAt c (k + 1) 0 (execMicro m s)

/-- `n` steps of the sequencer; after the command's end nothing more happens. -/
def advance : Nat → State → State
  | 0, s => s
  | n + 1, s => advance n (sequencerStep s)

/-- What is left of the poll tick in progress, at position `k`, `j` of a list. -/
def restOfTick (prog : List Micro) (k j : Nat) : List Micro :=
  match prog[k]? with
  | some (.pollLoop _) => if j = 0 then [] else pollBodyOps.drop j
  | _ => []

/-- The running command run to its end from its position; in an idle state nothing happens. -/
def finish (s : State) : State :=
  match s.seq with
  | .idle => s
  | .running _ k j => run ((programAt s).drop k) (run (restOfTick (programAt s) k j) s)

/-- The sequencer stands at an operation of the command's list. -/
def seqInProgram (s : State) : Bool :=
  match s.seq with
  | .idle => false
  | .running _ k _ => decide (k < (programAt s).length)

/-- The accepted word, read by the decoder: the engine's fetch (R48, R70). -/
def fetch (s : State) : Except DecodeError Instr := decode s.cmd

/-- The engine's turn with nothing landing in between: a command just accepted runs whole, by its meaning (R21, R124);
a command interrupted by a host access runs on to its end. -/
def engineTurn (s : State) : Host.Outcome State Fault Refusal :=
  match s.seq with
  | .running _ 0 0 =>
    match fetch s with
    | .ok i => exec i s
    | .error _ => execIllegal s
  | _ => if seqInProgram s then .next (finish s) else .fault .sequencerLost

/-- The turn of the engine or of the outside (R7): while BUSY = 1, the engine runs, and an access the host does not hold
back lands after its sequencer steps; while idle, the next access happens; with none, the engine waits (R160). -/
def nextTurn (s : State) : Host.Outcome State Fault Refusal :=
  match s.pending with
  | [] => if s.busy then engineTurn s else .next s
  | ⟨gap, act⟩ :: rest =>
    if s.busy then
      match gap with
      | none => engineTurn s
      | some n => serve act (advance n { s with pending := rest })
    else serve act { s with pending := rest }

/-- The next step of the machine: while the reset input is asserted, every step starts from the reset values (R158). -/
def nextStep (s : State) : Host.Outcome State Fault Refusal := nextTurn (underReset s)

end Sys2Proof.Machine
end

