-- ==== Sys2Proof/Machine/Step.lean ====
section
/-! DEFINITION. The step of the machine, and the state in which the next step runs a given command word. -/

namespace Sys2Proof.Machine

open Sys2Proof

/-- One step (Engine.lean). -/
def step (s : State) : Host.Outcome State Fault Refusal := nextStep s

/-- `s` with a command word accepted from the host (R48), the reset input released, and no access landing before the word
has run: the very next step runs it (log 5). `nbits` bits of the word are given; the bits above are 0. -/
def State.withFetchWord (s : State) (nbits w : Nat) : State :=
  { accept (BitVec.ofNat 32 (w % 2 ^ nbits)) s with resetAsserted := false, pending := [] }

end Sys2Proof.Machine
end

