-- ==== Sys2Proof/Machine/Assembler.lean ====
section
/-! DEFINITION. Assembler lines as the host accesses they stand for (R83). -/

namespace Sys2Proof.Machine

open Sys2Proof

/-- The access of one line: a command is one CMD write of its word; `DBUF i, v` is a write at 0x40 + 4*i; WAIT reads
STATUS until BUSY = 0, of which the model keeps the last read (log 25). A line out of range has none. -/
def lineEvent (l : AsmLine) : Option HostEvent :=
  if l.wellFormed = false then none
  else
    match l with
    | .dbuf i v => some ⟨some 0, .write (0x40 + 4 * i) 4 (BitVec.ofNat 32 v)⟩
    | .wait => some ⟨none, .read 0x04 4⟩
    | l =>
      match expandLine l with
      | some i => some ⟨some 0, .write 0x00 4 (encode i)⟩
      | none => none

/-- The accesses of a program, in order; `none` when a line is out of range. -/
def assemble : List AsmLine → Option (List HostEvent)
  | [] => some []
  | l :: ls =>
    match lineEvent l, assemble ls with
    | some e, some es => some (e :: es)
    | _, _ => none

end Sys2Proof.Machine
end

