-- ==== Sys2Proof/Machine/TargetMem.lean ====
section
/-! DEFINITION. The word memory of the reference target (R73): a list of (address, word) pairs in one canonical form,
addresses strictly rising and no entry equal to what an unlisted address reads as. -/

namespace Sys2Proof.Machine

open Sys2Proof

/-- A word memory: what an unlisted address reads as, and the listed words (log 19). -/
structure TargetMem where
  erased : Half
  cells  : List (Nat × Half)
  deriving DecidableEq, Repr

/-- The word a list of cells holds at an address. -/
def cellsRead : List (Nat × Half) → Nat → Option Half
  | [], _ => none
  | (b, w) :: cs, a => if a = b then some w else cellsRead cs a

/-- The cells without the one at an address. -/
def cellsErase : List (Nat × Half) → Nat → List (Nat × Half)
  | [], _ => []
  | (b, w) :: cs, a => if a = b then cs else (b, w) :: cellsErase cs a

/-- The cells with the word at an address set, in rising order. -/
def cellsInsert : List (Nat × Half) → Nat → Half → List (Nat × Half)
  | [], a, v => [(a, v)]
  | (b, w) :: cs, a, v =>
    if a < b then (a, v) :: (b, w) :: cs
    else if a = b then (a, v) :: cs
    else (b, w) :: cellsInsert cs a v

/-- Reading the word at an address: a listed word, or the erased value (R73). -/
def targetRead (m : TargetMem) (a : Half) : Half := (cellsRead m.cells a.toNat).getD m.erased

/-- Writing a word by plain replacement (R77); writing the erased value unlists the address. -/
def targetWrite (m : TargetMem) (a v : Half) : TargetMem :=
  if v = m.erased then { m with cells := cellsErase m.cells a.toNat }
  else { m with cells := cellsInsert m.cells a.toNat v }

/-- Erasing every word (R77). -/
def targetEraseAll (m : TargetMem) : TargetMem := { m with cells := [] }

/-- Erasing the 128-word page of an address (R77). -/
def targetErasePage (m : TargetMem) (a : Half) : TargetMem :=
  { m with
    cells := m.cells.filter fun c =>
      !(decide ((pageBase a).toNat ≤ c.1) && decide (c.1 < (pageBase a).toNat + 128)) }

/-- Addresses strictly rising from `lo`, within 16 bits, and no word equal to the erased value. -/
def cellsWf (erased : Half) : Nat → List (Nat × Half) → Bool
  | _, [] => true
  | lo, (b, w) :: cs => decide (lo ≤ b) && decide (b < 0x10000) && !(w == erased) && cellsWf erased (b + 1) cs

/-- The canonical form holds. -/
def targetWf (m : TargetMem) : Bool := cellsWf m.erased 0 m.cells

end Sys2Proof.Machine
end

