-- ==== Sys2Proof/Machine/RefTarget.lean ====
section
/-! DEFINITION. The reference target RT (R72 to R77): a test fixture that answers a command's samples. It stands beside
the machine; no rule of the engine depends on it. -/

namespace Sys2Proof.Machine

open Sys2Proof

/-- RT's state (R73): the memory with its erased value RT_ERASED, RT_ID and RT_K. -/
structure RefTarget where
  mem   : TargetMem
  id    : Half
  delay : Nat
  deriving DecidableEq, Repr

/-- The eight status samples: the bits of STATUS_OK, most significant first (R74). -/
def statusLevels : List Bool := (List.range 8).map fun j => Config.statusOk.getLsbD (7 - j)

/-- The sixteen samples of a word, bit 0 first (R75). -/
def wordLevels (w : Half) : List Bool := (List.range 16).map fun j => w.getLsbD j

/-- The samples of a poll with a budget (R76): 0 for the first RT_K, then 1 and the status; only 0 when RT_K reaches the
budget. -/
def pollLevels (k budget : Nat) : List Bool :=
  if k < budget then List.replicate k false ++ true :: statusLevels else List.replicate budget false

/-- The words RT presents for word 0 to `n` of a READN from an address (R66, R75). -/
def wordsLevels (m : TargetMem) (a : Half) (n : Nat) : List Bool :=
  (List.range (n + 1)).flatMap fun i => wordLevels (targetRead m (wrapAddr a i))

/-- The levels RT presents at the samples of a command, in order (R74, R75, R76). -/
def rtLevels (rt : RefTarget) (i : Instr) : List Bool :=
  match i with
  | .powerup | .shutdown | .unlock => []
  | .check => statusLevels
  | .readw addr =>
    statusLevels ++ statusLevels ++ statusLevels ++ wordLevels (targetRead rt.mem addr) ++ statusLevels
  | .readn addr n =>
    statusLevels ++ statusLevels ++ statusLevels ++ wordsLevels rt.mem addr n.toNat ++ statusLevels
  | .writew _ =>
    statusLevels ++ statusLevels ++ statusLevels ++ statusLevels ++ pollLevels rt.delay Config.budgetWrite
  | .writen _ n =>
    statusLevels ++ statusLevels ++ statusLevels ++ (List.range (n.toNat + 1)).flatMap (fun _ => statusLevels)
      ++ pollLevels rt.delay Config.budgetWrite
  | .eraseall => statusLevels ++ statusLevels ++ statusLevels ++ pollLevels rt.delay Config.budgetEraseAll
  | .erasepage _ => statusLevels ++ statusLevels ++ statusLevels ++ pollLevels rt.delay Config.budgetErasePage
  | .readid => statusLevels ++ statusLevels ++ wordLevels rt.id ++ statusLevels

/-- RT's memory after words 0 to `n - 1` of a multi-word write (R66, R77). -/
def rtWriteWords (m : TargetMem) (a : Half) (s : State) : Nat → TargetMem
  | 0 => m
  | n + 1 => targetWrite (rtWriteWords m a s n) (wrapAddr a n) (dbufGet s n)

/-- RT after a command run from `s`: its memory changes when it first presents ready in the command's poll, within the
budget (R77). -/
def rtAfter (rt : RefTarget) (i : Instr) (s : State) : RefTarget :=
  match i with
  | .writew addr =>
    if rt.delay < Config.budgetWrite then { rt with mem := targetWrite rt.mem addr (dbufGet s 0) } else rt
  | .writen addr n =>
    if rt.delay < Config.budgetWrite then { rt with mem := rtWriteWords rt.mem addr s (n.toNat + 1) } else rt
  | .eraseall => if rt.delay < Config.budgetEraseAll then { rt with mem := targetEraseAll rt.mem } else rt
  | .erasepage addr => if rt.delay < Config.budgetErasePage then { rt with mem := targetErasePage rt.mem addr } else rt
  | .powerup | .shutdown | .check | .readw _ | .readn _ _ | .readid | .unlock => rt

/-- The machine with RT on its lines for one command: RT's levels come first. -/
def withTarget (rt : RefTarget) (i : Instr) (s : State) : State :=
  { s with samples := (rtLevels rt i).map TargetLevel.drives ++ s.samples }

end Sys2Proof.Machine
end

