-- ==== Sys2Proof/Machine/Wire.lean ====
section
/-! DEFINITION. The wire frames of 30_encoding.md as line traces, and what the coming samples say: the words in which
claims about commands are stated. -/

namespace Sys2Proof.Machine

open Sys2Proof

/-- The status byte that eight samples make, from sample `k` of those to come on: most significant bit first (R88). -/
def statusByte (s : State) (k : Nat) : Byte :=
  BitVec.ofBool (upcoming s k) ++ BitVec.ofBool (upcoming s (k + 1)) ++ BitVec.ofBool (upcoming s (k + 2))
    ++ BitVec.ofBool (upcoming s (k + 3)) ++ BitVec.ofBool (upcoming s (k + 4)) ++ BitVec.ofBool (upcoming s (k + 5))
    ++ BitVec.ofBool (upcoming s (k + 6)) ++ BitVec.ofBool (upcoming s (k + 7))

/-- The status byte from sample `k` on is the success constant (R115). -/
def statusGood (s : State) (k : Nat) : Bool := statusByte s k == Config.statusOk

/-- A word made of sixteen samples from sample `k` on: sample `j` is bit `j` (R87). -/
def wordBitsAre (s : State) (k : Nat) (w : Half) : Prop := ∀ j, j < 16 → w.getLsbD j = upcoming s (k + j)

/-- The poll that starts at sample `m` sees its first 1 at iteration `k` (R117). -/
def readyAt (s : State) (m k : Nat) : Prop := upcoming s (m + k) = true ∧ ∀ j, j < k → upcoming s (m + j) = false

/-- The poll that starts at sample `m` sees no 1 within a budget (R118). -/
def neverReady (s : State) (m budget : Nat) : Prop := ∀ j, j < budget → upcoming s (m + j) = false

/-- The `n` coming levels from sample `k` on. -/
def levels (s : State) (k n : Nat) : List Bool := (List.range n).map fun j => upcoming s (k + j)

/-- One Clk (R102). -/
def clkEvents : List LineEvent := [.drive .clk true, .sleep .half, .drive .clk false, .sleep .half]

/-- Bare pulses (R91). -/
def pulseEvents (n : Nat) : List LineEvent := (List.replicate n clkEvents).flatten

/-- Bits sent: each on OE before its pulse (R84). -/
def bitsOutEvents (bits : List Bool) : List LineEvent := bits.flatMap fun b => .drive .oe b :: clkEvents

/-- Bits received: each sampled on DAT after its pulse (R84). -/
def bitsInEvents (bits : List Bool) : List LineEvent := bits.flatMap fun b => clkEvents ++ [.sample .dat b]

/-- The bits of a frame of `n` bits, most significant first (R85, R86). -/
def msbFirst {n : Nat} (f : BitVec n) : List Bool := (List.range n).map fun j => f.getLsbD (n - 1 - j)

/-- The line primitives of SetWriteMode entered in a mode (R98). -/
def writeModeEvents (m : Mode) : List LineEvent :=
  if m = .write then []
  else [.drive .dat false, .setDir .dat .output, .drive .clk false, .drive .oe false, .drive .pgm true, .sleep .settle]

/-- The line primitives of SetReadMode entered in a mode (R99). -/
def readModeEvents (m : Mode) : List LineEvent :=
  if m = .read then []
  else [.setDir .dat .input, .drive .clk false, .drive .oe false, .drive .pgm false, .sleep .settle]

/-- The line primitives of Shutdown (R96). -/
def shutdownEvents : List LineEvent :=
  [.drive .clk false, .drive .oe false, .drive .pgm false, .drive .dat false, .drive .pwrN true,
   .setDir .pwrN .output, .setDir .clk .output, .setDir .oe .output, .setDir .pgm .output, .setDir .dat .output]

/-- The line primitives of PowerUp (R97). -/
def powerUpEvents : List LineEvent := shutdownEvents ++ [.sleep .pwroff, .drive .pwrN false]

/-- A status frame entered in a mode, with its eight samples (R88, R111). -/
def statusEvents (m : Mode) (bits : List Bool) : List LineEvent :=
  readModeEvents m ++ bitsInEvents bits ++ clkEvents

/-- An opcode frame entered in a mode, and its status (R85, R107). -/
def opcodeEvents (m : Mode) (op : Byte) (bits : List Bool) : List LineEvent :=
  writeModeEvents m ++ bitsOutEvents (msbFirst (opcodeFrame op)) ++ statusEvents .write bits

/-- A value frame entered in a mode, and its status (R86, R109). -/
def valueEvents (m : Mode) (v : Half) (bits : List Bool) : List LineEvent :=
  writeModeEvents m ++ [.drive .pgm false] ++ bitsOutEvents (msbFirst (valueFrame v)) ++ statusEvents .writeData bits

/-- A poll in Read mode that sees ready after `k` samples of 0, and its status (R89, R116). -/
def pollEvents (k : Nat) (bits : List Bool) : List LineEvent :=
  bitsInEvents (List.replicate k false ++ [true]) ++ bitsInEvents bits

/-- The unlock frame (R90). -/
def unlockEvents : List LineEvent :=
  (List.range 8).flatMap fun n => (List.range 8).flatMap fun j =>
    [.drive .pgm ((Config.unlockPairs (Fin.ofNat 8 n)).1.getLsbD (7 - j)),
     .drive .oe ((Config.unlockPairs (Fin.ofNat 8 n)).2.getLsbD (7 - j))] ++ clkEvents

/-- Value frames for DBUF entries 0 to `n - 1`, entered in Read mode, with statuses from sample `k` on (R132). -/
def wordFrameEvents (s : State) (k n : Nat) : List LineEvent :=
  (List.range n).flatMap fun i => valueEvents .read (dbufGet s i) (levels s (k + 8 * i) 8)

/-- The line trace of a successful run of a command from `s` (R95), with ready seen at iteration `k` of its poll. -/
def commandEvents (i : Instr) (s : State) (k : Nat) : List LineEvent :=
  let check := opcodeEvents s.mode Config.opcCheck (levels s 0 8)
  match i with
  | .powerup => powerUpEvents
  | .shutdown => shutdownEvents
  | .check => check
  | .readw a =>
    check ++ opcodeEvents .read Config.opcRead (levels s 8 8) ++ valueEvents .read a (levels s 16 8) ++ pulseEvents 2
      ++ bitsInEvents (levels s 24 16) ++ statusEvents .read (levels s 40 8) ++ pulseEvents 2
  | .readn a n =>
    check ++ opcodeEvents .read (Config.opcReadnBase ||| n.setWidth 8) (levels s 8 8)
      ++ valueEvents .read a (levels s 16 8) ++ pulseEvents 2
      ++ bitsInEvents (levels s 24 (16 * (n.toNat + 1)))
      ++ statusEvents .read (levels s (24 + 16 * (n.toNat + 1)) 8) ++ pulseEvents 2
  | .writew a =>
    check ++ opcodeEvents .read Config.opcWrite (levels s 8 8) ++ valueEvents .read a (levels s 16 8)
      ++ wordFrameEvents s 24 1 ++ pollEvents k (levels s (33 + k) 8) ++ pulseEvents 2
  | .writen a n =>
    check ++ opcodeEvents .read (Config.opcWritenBase ||| n.setWidth 8) (levels s 8 8)
      ++ valueEvents .read a (levels s 16 8) ++ wordFrameEvents s 24 (n.toNat + 1)
      ++ pollEvents k (levels s (25 + 8 * (n.toNat + 1) + k) 8) ++ pulseEvents 2
  | .eraseall =>
    check ++ opcodeEvents .read Config.opcEraseAll (levels s 8 8) ++ valueEvents .read 0#16 (levels s 16 8)
      ++ pollEvents k (levels s (25 + k) 8) ++ pulseEvents 2
  | .erasepage a =>
    check ++ opcodeEvents .read Config.opcErasePage (levels s 8 8) ++ valueEvents .read (pageBase a) (levels s 16 8)
      ++ pollEvents k (levels s (25 + k) 8) ++ pulseEvents 2
  | .readid =>
    check ++ opcodeEvents .read Config.opcChipid (levels s 8 8) ++ pulseEvents 3 ++ bitsInEvents (levels s 16 16)
      ++ statusEvents .read (levels s 32 8) ++ pulseEvents 2
  | .unlock => unlockEvents

/-- The eight commands that begin with the liveness check (R125). -/
def isChipCommand (i : Instr) : Bool :=
  match i with
  | .powerup | .shutdown | .unlock => false
  | .check | .readw _ | .readn _ _ | .writew _ | .writen _ _ | .eraseall | .erasepage _ | .readid => true

/-- The poll budget of a command that polls (R121). -/
def budgetOf (i : Instr) : Option Nat :=
  match i with
  | .writew _ | .writen _ _ => some Config.budgetWrite
  | .eraseall => some Config.budgetEraseAll
  | .erasepage _ => some Config.budgetErasePage
  | .powerup | .shutdown | .check | .readw _ | .readn _ _ | .readid | .unlock => none

/-- The samples a command takes before its poll: 8 for each status (R138, R139). -/
def pollStart (i : Instr) : Nat :=
  match i with
  | .writew _ => 32
  | .writen _ n => 24 + 8 * (n.toNat + 1)
  | .eraseall | .erasepage _ => 24
  | .powerup | .shutdown | .check | .readw _ | .readn _ _ | .readid | .unlock => 0

/-- The pulses of a command before its poll (R139). -/
def pulsesBeforePoll (i : Instr) : Nat :=
  match i with
  | .writew _ => 132
  | .writen _ n => 91 + 41 * (n.toNat + 1)
  | .eraseall | .erasepage _ => 91
  | .powerup | .shutdown | .check | .readw _ | .readn _ _ | .readid | .unlock => 0

/-- The causes a command can report (R143). -/
def causesOf (i : Instr) : List Cause :=
  match i with
  | .powerup | .shutdown | .unlock => [.none]
  | .check => [.none, .checkFail]
  | .readw _ | .readn _ _ | .readid => [.none, .checkFail, .statusMismatch]
  | .writew _ | .writen _ _ | .eraseall | .erasepage _ =>
    [.none, .checkFail, .statusMismatch, .pollTimeout, .pollStatus]

/-- Every status of a command's frames before its poll, from sample `0` to `8 * n`, is good. -/
def statusesGood (s : State) (n : Nat) : Prop := ∀ j, j < n → statusGood s (8 * j) = true

end Sys2Proof.Machine
end

