-- ==== Sys2Proof/Safety.lean ====
section
/-! DEFINITION. What a safe run of the engine is: the invariant of its states, and the rules its line trace keeps. -/

namespace Sys2Proof.Machine

open Sys2Proof

/-- The line trace in the order the primitives were performed (R16). -/
def lineTrace (s : State) : List LineEvent := s.trace.reverse

/-- Number of clock pulses of a trace: rising drives of CLK (R102). -/
def pulsesOf : List LineEvent → Nat
  | [] => 0
  | .drive .clk true :: es => pulsesOf es + 1
  | _ :: es => pulsesOf es

/-- Number of settle delays of a trace (R42). -/
def settlesOf : List LineEvent → Nat
  | [] => 0
  | .sleep .settle :: es => settlesOf es + 1
  | _ :: es => settlesOf es

/-- Number of samples of DAT of a trace. -/
def samplesOf : List LineEvent → Nat
  | [] => 0
  | .sample _ _ :: es => samplesOf es + 1
  | _ :: es => samplesOf es

/-- The sum of the delays of a trace: the least time it takes (R172, R173). -/
def sleepTime : List LineEvent → Nat
  | [] => 0
  | .sleep t :: es => Config.duration t + sleepTime es
  | _ :: es => sleepTime es

/-- The ports after the primitives of a trace, in order (R25). -/
def replayPorts : List LineEvent → Ports → Ports
  | [], p => p
  | .setDir l d :: es, p => replayPorts es (portsSetDir p l d)
  | .drive l b :: es, p => replayPorts es (portsDrive p l b)
  | _ :: es, p => replayPorts es p

/-- No pulse starts between a change of a port's direction and the settle delay after it (R106): `waiting` says that
such a delay is due. -/
def settledFrom : Bool → List LineEvent → Bool
  | _, [] => true
  | _, .setDir _ _ :: es => settledFrom true es
  | _, .sleep .settle :: es => settledFrom false es
  | waiting, .drive .clk true :: es => !waiting && settledFrom waiting es
  | waiting, _ :: es => settledFrom waiting es

/-- Every sample is taken on DAT while DAT is an input (R27, R169), from ports `p`. -/
def sampledAsInput : List LineEvent → Ports → Bool
  | [], _ => true
  | .setDir l d :: es, p => sampledAsInput es (portsSetDir p l d)
  | .drive l b :: es, p => sampledAsInput es (portsDrive p l b)
  | .sample .dat _ :: es, p => p.dat.dir == .input && sampledAsInput es p
  | .sample _ _ :: _, _ => false
  | .sleep _ :: es, p => sampledAsInput es p

/-- The mode invariant (R30): DAT is an output in Write and WriteData, an input in Read; Unknown asks for neither. -/
def datFollowsMode (m : Mode) (d : Dir) : Bool :=
  match m with
  | .write | .writeData => d == .output
  | .read => d == .input
  | .unknown => true

/-- The ports after one primitive (R25). -/
def portsAfter (e : LineEvent) (p : Ports) : Ports := replayPorts [e] p

/-- MODE as the trace shows it, after one primitive performed with ports `p`. Only Shutdown sets the direction of PGM
(R26, R96), only SetWriteMode and SetReadMode sleep T_SETTLE (R42), with PGM at 1 and at 0 (R98, R99), and PGM driven 0
in Write is EnterWriteData (R100). (SetReadMode drives it 0 in Write too, and its settle delay then makes MODE Read
before any pulse.) -/
def modeAfter (e : LineEvent) (m : Mode) (p : Ports) : Mode :=
  match e with
  | .setDir .pgm _ => .unknown
  | .sleep .settle => if p.pgm.out then .write else .read
  | .drive .pgm false => if m = .write then .writeData else m
  | _ => m

/-- MODE as a trace shows it at its end, from MODE `m` and ports `p`. -/
def replayMode : List LineEvent → Mode → Ports → Mode
  | [], m, _ => m
  | e :: es, m, p => replayMode es (modeAfter e m p) (portsAfter e p)

/-- A pulse starts at this primitive (R102). -/
def risesClk (e : LineEvent) : Bool := e == .drive .clk true

/-- Every pulse of a trace finds DAT in the direction that MODE asks for (R30, R165), from MODE `m` and ports `p`. -/
def modeKept : List LineEvent → Mode → Ports → Bool
  | [], _, _ => true
  | e :: es, m, p =>
    (!risesClk e || datFollowsMode m p.dat.dir) && modeKept es (modeAfter e m p) (portsAfter e p)

/-- The next operation of the sequencer starts a pulse (R102). -/
def startsPulse (s : State) : Bool := (sequencerStep s).trace == .drive .clk true :: s.trace

/-- Whether the sequencer is RUNNING. -/
def isRunning (q : SeqPos) : Bool :=
  match q with
  | .idle => false
  | .running _ _ _ => true

/-- The code the sequencer runs is LCODE (R28, R34). -/
def runsLatched (s : State) : Bool :=
  match s.seq with
  | .idle => true
  | .running c _ _ => c == s.lcode

/-- At a command boundary MODE is Unknown or Read, DAT is an input when MODE is Read, and the latches of CLK and DAT
are 0 (R24, R30, R32). -/
structure Boundary (s : State) : Prop where
  mode_unknown_or_read : s.mode = .unknown ∨ s.mode = .read
  read_means_input : s.mode = .read → s.ports.dat.dir = .input
  clk_idles_low : s.ports.clk.out = false
  dat_latch_low : s.ports.dat.out = false

/-- The mode invariant of R30 in the registers themselves: wherever the sequencer of the running command comes to start
a pulse, DAT is an output if MODE is Write or WriteData, and an input if MODE is Read (R30, R165). -/
def pulsesFollowMode (s : State) : Prop :=
  ∀ n, startsPulse (advance n s) = true →
    datFollowsMode (advance n s).mode (advance n s).ports.dat.dir = true

/-- The invariant every step keeps. BUSY and the sequencer position agree (R28, R48, R144); OK and CAUSE read 0 while
BUSY = 1, and OK = 1 goes with CAUSE = NONE (R38); the latched operands are CMD's fields (R34, R48); a running command
stands at an operation of its list, its coming pulses keep the mode invariant (R30, R165), and where it ends the command
boundary rules hold (R32); while the reset input is asserted, every piece of state has its reset value (R158). -/
structure Inv (s : State) : Prop where
  busy_is_running : s.busy = isRunning s.seq
  busy_clears_ok : s.busy = true → s.ok = false
  busy_clears_cause : s.busy = true → s.cause = .none
  ok_means_no_cause : s.ok = true → s.cause = .none
  latched_code : s.lcode = (splitWord s.cmd).code
  latched_count : s.ln = (splitWord s.cmd).n
  latched_addr : s.laddr = (splitWord s.cmd).addr
  runs_latched : runsLatched s = true
  in_program : s.busy = true → seqInProgram s = true
  ends : (finish s).busy = false
  boundary : Boundary (finish s)
  pulses_follow_mode : pulsesFollowMode s
  reset_holds : s.resetAsserted = true → blockReset s = s

/-- Every piece of state R47 gives a value has it (R47, R158): the sequencer, MODE, the ports, the flags, CMD, the
latched operands and the counters. -/
structure AtReset (s : State) : Prop where
  seq : s.seq = .idle
  mode : s.mode = .unknown
  ports : ∀ l, portOf s.ports l = ⟨.input, false⟩
  busy : s.busy = false
  ok : s.ok = false
  ovr : s.ovr = false
  cause : s.cause = .none
  cmd : s.cmd = 0#32
  lcode : s.lcode = 0#4
  ln : s.ln = 0#5
  laddr : s.laddr = 0#16
  pulsecnt : s.pulsecnt = 0#32
  settlecnt : s.settlecnt = 0#32
  laststat : s.laststat = 0#8
  pollcnt : s.pollcnt = 0#19

/-- What every command leaves as it found it, and what its dispatch latches: CMD, OVR and the host's side stay; LCODE,
LN and LADDR are the command's fields; the reset input stays; the engine is idle again (R34, R51, R64). -/
structure CommandFrame (i : Instr) (s t : State) : Prop where
  cmd : t.cmd = s.cmd
  ovr : t.ovr = s.ovr
  reads : t.reads = s.reads
  readDraws : t.readDraws = s.readDraws
  pending : t.pending = s.pending
  resetAsserted : t.resetAsserted = s.resetAsserted
  lcode : t.lcode = i.fields.code
  ln : t.ln = i.fields.n
  laddr : t.laddr = i.fields.addr
  busy : t.busy = false
  seq : t.seq = .idle

/-- What every chip command leaves of the ports: PWR_N as it was, the directions of CLK, OE and PGM as they were, CLK, OE
and PGM low, DAT an input with its latch at 0; and MODE = Read (R26, R51, R98, R99, R145). -/
structure ChipLines (s t : State) : Prop where
  mode : t.mode = .read
  pwrN : t.ports.pwrN = s.ports.pwrN
  clk : t.ports.clk = ⟨s.ports.clk.dir, false⟩
  oe : t.ports.oe = ⟨s.ports.oe.dir, false⟩
  pgm : t.ports.pgm = ⟨s.ports.pgm.dir, false⟩
  dat : t.ports.dat.dir = .input
  datLatch : s.mode ≠ .write → t.ports.dat.out = false

/-- Settle delays of a chip command: one fewer when MODE was already Write, which is so at no command boundary
(R32, R98). -/
def settlesFrom (s : State) (n : Nat) : Nat := if s.mode = .write then n - 1 else n

/-- What is counted from `s` to `t`: pulses, DAT samples and settle delays (R41, R42, R138). -/
structure Counted (nPulses nSamples nSettles : Nat) (s t : State) : Prop where
  pulsecnt : t.pulsecnt = s.pulsecnt + BitVec.ofNat 32 nPulses
  settlecnt : t.settlecnt = s.settlecnt + BitVec.ofNat 32 (settlesFrom s nSettles)
  samples : t.samples = s.samples.drop nSamples
  sampleDraws : t.sampleDraws = s.sampleDraws + nSamples

/-- A successful run of a chip command (R17, R95, R138): OK, no cause, LASTSTAT = 0xEA, the counts, the line trace with
ready at iteration `k` of its poll, the lines, and the frame. -/
structure ChipSuccess (i : Instr) (k nPulses nSamples nSettles : Nat) (s t : State) : Prop where
  ok : t.ok = true
  cause : t.cause = .none
  laststat : t.laststat = Config.statusOk
  counted : Counted nPulses nSamples nSettles s t
  trace : t.trace = (commandEvents i s k).reverse ++ s.trace
  lines : ChipLines s t
  frame : CommandFrame i s t

/-- A failed run of a chip command (R139, R144, R145). -/
structure ChipFailure (i : Instr) (c : Cause) (nPulses nSamples nSettles : Nat) (s t : State) : Prop where
  ok : t.ok = false
  cause : t.cause = c
  counted : Counted nPulses nSamples nSettles s t
  lines : ChipLines s t
  frame : CommandFrame i s t

/-- PWR_N, CLK, OE and PGM are outputs (R26). -/
structure LinesDriven (s : State) : Prop where
  pwrN : s.ports.pwrN.dir = .output
  clk : s.ports.clk.dir = .output
  oe : s.ports.oe.dir = .output
  pgm : s.ports.pgm.dir = .output

/-- `legal(v)`, bit by bit (R80). -/
def legalWord (v : Word) : Prop :=
  (1 ≤ (v.extractLsb' 0 4).toNat ∧ (v.extractLsb' 0 4).toNat ≤ 0xB) ∧
    (v.extractLsb' 4 4 = 0#4 ∧ v.extractLsb' 13 3 = 0#3) ∧
    (v.extractLsb' 0 4 ∈ [0x5#4, 0x7#4] ∨ v.extractLsb' 8 5 = 0#5) ∧
    (v.extractLsb' 0 4 ∈ [0x4#4, 0x5#4, 0x6#4, 0x7#4, 0x9#4] ∨ v.extractLsb' 16 16 = 0#16)

/-- The state with the registers no host register shows cleared: SHIFT16, SHIFT8, BITCNT, POLLCTR, WIDX and the two
internal one-bit results (R33, R35). -/
def forgetInternals (s : State) : State :=
  { s with
    shift16 := 0#16
    shift8 := 0#8
    bitcnt := 0#5
    pollctr := 0#19
    widx := 0#6
    matched := false
    ready := false }

/-- The next act of the outside world is the block reset (R158). -/
def resetIsNext (s : State) : Bool :=
  match s.pending with
  | ⟨_, .assertReset⟩ :: _ => true
  | _ => false

/-- No act of the outside lands before the running command has ended. -/
def nothingLands (s : State) : Bool :=
  match s.pending with
  | [] => true
  | ⟨none, _⟩ :: _ => true
  | ⟨some _, _⟩ :: _ => false

end Sys2Proof.Machine
end

