-- ==== Sys2Proof/Certificates/Slice0/Obligations.lean ====
section
/-! DEFINITION. The statements for the provers, one `def Obligations.<Name> : Prop` each; OBLIGATIONS.json lists them with
the rules they come from. -/

open Sys2Proof Sys2Proof.Machine

/-! ## Encoding -/

/-- Every well-formed command decodes back from its word, and from its word's bytes whatever follows them. -/
def Obligations.EncodedCommandDecodesBack : Prop :=
  ∀ (i : Instr) (rest : List Byte), i.wellFormed = true →
    decode (encode i) = .ok i ∧ decodeBytes (encodeBytes i ++ rest) = .ok (i, rest)

/-- A word decodes exactly when it is legal (R80); then it is the word of the command it decodes to. An illegal word ends
in the step after its accept: OK = 0, CAUSE = ILLEGAL, BUSY = 0, and nothing else changes (R137). -/
def Obligations.IllegalWordsRunNothing : Prop :=
  (∀ v : Word, (∃ i, decode v = .ok i) ↔ legalWord v) ∧
    (∀ (v : Word) (i : Instr), decode v = .ok i → encode i = v) ∧
    ∀ (s : State) (v : Word), ¬legalWord v → s.resetAsserted = false → nothingLands s = true →
      step (accept v s) =
        .next { accept v s with ok := false, cause := .illegal, busy := false, seq := .idle }

/-- Words of 95_test_vectors.md, section 2.1: legal ones decode to their commands, illegal ones are rejected by name. -/
def Obligations.WrittenWordsDecode : Prop :=
  decode 0x12000004#32 = .ok (.readw 0x1200#16) ∧ decode 0x003E0305#32 = .ok (.readn 0x003E#16 3#5) ∧
    decode 0x001F0107#32 = .ok (.writen 0x001F#16 1#5) ∧ decode 0x12340009#32 = .ok (.erasepage 0x1234#16) ∧
    decode 0x0000000C#32 = .error .unusedCode ∧ decode 0x00000014#32 = .error .reservedBits ∧
    decode 0x00000103#32 = .error .unusedCountSet ∧ decode 0x00010008#32 = .error .unusedAddrSet

/-! ## Accept, step, complete -/

/-- A step runs the command the accepted word decodes to, when the reset input is released and nothing lands before the
command's end. -/
def Obligations.StepRunsTheAcceptedCommand : Prop :=
  ∀ (s : State) (c : Code) (i : Instr), s.resetAsserted = false → s.busy = true → s.seq = .running c 0 0 → nothingLands s = true →
    i.wellFormed = true → decode s.cmd = .ok i → step s = exec i s

/-- A CMD write while idle, with the reset input released, is the accept (R48): what it writes, and that it writes nothing
else but the list of pending accesses. The command then runs by its meaning, and an illegal word fails, in the step that
follows. (That the whole command is one step, the one after the accept, and the list of pending accesses are the model's
choice: log 4.) -/
def Obligations.AcceptLatchesAndClears : Prop :=
  ∀ (s : State) (g : Option Nat) (v : Word) (rest : List HostEvent), s.resetAsserted = false → s.busy = false →
    s.pending = ⟨g, .write 0x00 4 v⟩ :: rest →
    ∃ t, step s = .next t ∧
      t = { s with
            pending := rest
            cmd := v
            lcode := v.extractLsb' 0 4
            ln := v.extractLsb' 8 5
            laddr := v.extractLsb' 16 16
            busy := true
            ok := false
            cause := .none
            ovr := false
            pulsecnt := 0#32
            settlecnt := 0#32
            laststat := 0#8
            pollcnt := 0#19
            seq := .running (v.extractLsb' 0 4) 0 0 } ∧
      (nothingLands t = true →
        (∀ i : Instr, decode v = .ok i → step t = exec i t) ∧
        (¬legalWord v → step t = .next { t with ok := false, cause := .illegal, busy := false, seq := .idle }))

/-! ## Host accesses while a command runs -/

/-- While BUSY = 1, a CMD write only sets OVR, and a write to any other register does nothing (R49). -/
def Obligations.BusyWritesAreDropped : Prop :=
  ∀ (s : State) (off : Nat) (v : Word), s.busy = true →
    windowWrite off v s = { s with ovr := if off = 0x00 then true else s.ovr }

/-- Stopping the sequencer after any number of its steps and letting it run on ends as the command's meaning does. -/
def Obligations.InterruptedRunEndsAsTheWholeRun : Prop :=
  ∀ (s : State) (i : Instr) (n : Nat),
    exec i (accept (encode i) s) = .next (finish (advance n (accept (encode i) s)))

/-- Host writes and reads that land while a command runs do not change how it ends: only OVR and the host's own record
differ. -/
def Obligations.BusyAccessesDoNotChangeTheRun : Prop :=
  ∀ (s : State) (off : Nat) (v : Word), s.busy = true →
    finish (windowWrite off v s) = { finish s with ovr := if off = 0x00 then true else s.ovr } ∧
      finish (hostRead off s) =
        { finish s with
          reads := (off, windowRead off (Config.readDraw s.readDraws) s) :: s.reads
          readDraws := s.readDraws + 1 }

/-- The block reset (R158, R159). Asserted, it aborts a running command wherever the sequencer stands: every register has
its reset value, no status is reported, and the line trace so far stays; in an idle state it gives the same values. While
it is asserted, every step leaves those values and adds nothing to the line trace, whatever the host does: a CMD write is
no accept, and with nothing pending the engine stays so. It is asserted until the step that releases it, which leaves the
same values. (The value of DBUF and of the internal registers is the model's own: log 6, log 7.) -/
def Obligations.ResetAbortsARunningCommand : Prop :=
  (∀ (s : State) (n : Nat) (rest : List HostEvent), s.resetAsserted = false → s.busy = true →
    s.pending = ⟨some n, .assertReset⟩ :: rest →
    ∃ t, step s = .next t ∧ AtReset t ∧ statusReg t = 0#32 ∧ t.resetAsserted = true ∧
      t.trace = (advance n { s with pending := rest }).trace ∧ t.pending = rest) ∧
  (∀ (s : State) (g : Option Nat) (rest : List HostEvent), s.busy = false → s.pending = ⟨g, .assertReset⟩ :: rest →
    ∃ t, step s = .next t ∧ AtReset t ∧ t.resetAsserted = true ∧ t.trace = s.trace ∧ t.pending = rest) ∧
  (∀ s t : State, s.resetAsserted = true → step s = .next t →
    AtReset t ∧ t.trace = s.trace ∧ t.pending = s.pending.tail ∧
      (t.resetAsserted = false ↔ ∃ g rest, s.pending = ⟨g, .releaseReset⟩ :: rest)) ∧
  ∀ s : State, s.resetAsserted = true →
    (s.pending = [] → ∃ t, step s = .next t) ∧
      (∀ g v rest, s.pending = ⟨g, .write 0x00 4 v⟩ :: rest → ∃ t, step s = .next t) ∧
      ∀ g rest, s.pending = ⟨g, .releaseReset⟩ :: rest → ∃ t, step s = .next t

/-! ## The register window -/

/-- The fields of STATUS (R38): each flag at its bit, the codes of CAUSE and MODE, 0 everywhere else; it reads 0 after
reset, and writes to it are ignored. -/
def Obligations.StatusFieldsAtTheirBits : Prop :=
  (∀ s : State,
    (statusReg s).getLsbD 0 = s.busy ∧ (statusReg s).getLsbD 1 = s.ok ∧ (statusReg s).getLsbD 2 = s.ovr ∧
      (statusReg s).getLsbD 3 = false ∧ (statusReg s).getLsbD 7 = false ∧ (statusReg s).extractLsb' 10 22 = 0#22 ∧
      (s.cause, (statusReg s).extractLsb' 4 3) ∈
        [(Cause.none, 0#3), (.illegal, 1#3), (.checkFail, 2#3), (.statusMismatch, 3#3), (.pollTimeout, 4#3),
          (.pollStatus, 5#3)] ∧
      (s.mode, (statusReg s).extractLsb' 8 2) ∈
        [(Mode.unknown, 0#2), (.write, 1#2), (.read, 2#2), (.writeData, 3#2)]) ∧
    statusReg State.reset = 0#32 ∧ ∀ (s : State) (v : Word), windowWrite 0x04 v s = s

/-- The fields of LINES (R40): direction, latch and level of port i at bits i, 8 + i and 16 + i, in the order PWR_N, CLK,
OE, PGM, DAT; a port that is an output reads its own latch, an input port reads the draw; 0 everywhere else. DIR and OUT
are 0 after reset. A host read of LINES is no sample: the line trace and the target's coming levels stay. -/
def Obligations.LinesFieldsAtTheirBits : Prop :=
  (∀ (s : State) (d : Word) (l : Line) (i : Nat),
    (l, i) ∈ [(Line.pwrN, 0), (Line.clk, 1), (Line.oe, 2), (Line.pgm, 3), (Line.dat, 4)] →
    (linesReg s d).getLsbD i = ((portOf s.ports l).dir == .output) ∧
      (linesReg s d).getLsbD (8 + i) = (portOf s.ports l).out ∧
      ((portOf s.ports l).dir = .output → (linesReg s d).getLsbD (16 + i) = (portOf s.ports l).out) ∧
      ((portOf s.ports l).dir = .input → (linesReg s d).getLsbD (16 + i) = d.getLsbD i) ∧
      (linesReg s d).extractLsb' 5 3 = 0#3 ∧ (linesReg s d).extractLsb' 13 3 = 0#3 ∧
      (linesReg s d).extractLsb' 21 11 = 0#11) ∧
    (∀ d : Word, (linesReg State.reset d).extractLsb' 0 16 = 0#16) ∧
    ∀ s : State, (hostRead 0x0C s).trace = s.trace ∧ (hostRead 0x0C s).samples = s.samples ∧
      (hostRead 0x0C s).sampleDraws = s.sampleDraws ∧
      (hostRead 0x0C s).reads = (0x0C, linesReg s (Config.readDraw s.readDraws)) :: s.reads

/-- The map of the window (R36) as a read sees it, with the reserved offsets (R46). -/
def Obligations.WindowReadsFollowTheMap : Prop :=
  ∀ (s : State) (d : Word),
    windowRead 0x00 d s = s.cmd ∧ windowRead 0x04 d s = statusReg s ∧
      windowRead 0x08 d s = BitVec.ofNat 16 Config.userWords ++ BitVec.ofNat 16 Config.codeWords ∧
      windowRead 0x0C d s = linesReg s d ∧ windowRead 0x10 d s = s.pulsecnt ∧ windowRead 0x14 d s = s.settlecnt ∧
      windowRead 0x18 d s = s.laststat.setWidth 32 ∧ windowRead 0x1C d s = s.pollcnt.setWidth 32 ∧
      (∀ off, 0x20 ≤ off → off < 0x40 ∨ 0xC0 ≤ off → windowRead off d s = 0#32) ∧
      (∀ i, i < 32 → windowRead (0x40 + 4 * i) d s = if s.busy then d else (dbufGet s i).setWidth 32)

/-- DBUF while idle (R45): a write to entry i stores the low half there and nowhere else; reading it back gives it
zero-extended. Writes to the reserved and read-only offsets do nothing (R46, R64). -/
def Obligations.DbufWriteReadsBack : Prop :=
  ∀ (s : State) (d v : Word) (i : Nat), s.busy = false → i < 32 →
    (windowRead (0x40 + 4 * i) d (windowWrite (0x40 + 4 * i) v s) = (v.setWidth 16).setWidth 32) ∧
      (∀ j, j < 32 → j ≠ i → dbufGet (windowWrite (0x40 + 4 * i) v s) j = dbufGet s j) ∧
      (∃ b, windowWrite (0x40 + 4 * i) v s = { s with dbuf := b }) ∧
      (∀ off, off ≠ 0 → off < 0x40 ∨ 0xC0 ≤ off → windowWrite off v s = s)

/-- A supported host read changes nothing of the engine: only the host's record of reads (R64). -/
def Obligations.ReadsHaveNoSideEffect : Prop :=
  ∀ (s : State) (off : Nat), off % 4 = 0 →
    ∃ w, serve (.read off 4) s =
      .next { s with reads := (off, w) :: s.reads, readDraws := s.readDraws + 1 } ∧
      w = windowRead off (Config.readDraw s.readDraws) s

/-- An access of another width, or at an offset that is no multiple of 4, is refused; every other access happens (R59), a
write as the window says, or without effect while the reset input is asserted (R158). A second driver of the lines is
refused (R69, R155): that it comes as the act foreignDrive of the list of pending acts, and its refusal there, is the
model's form (log 17). -/
def Obligations.UnsupportedAccessesAreRefused : Prop :=
  ∀ (s : State) (off width : Nat) (v : Word),
    (width ≠ 4 ∨ off % 4 ≠ 0 →
      serve (.read off width) s = .refused (.unsupportedAccess off width) ∧
        serve (.write off width v) s = .refused (.unsupportedAccess off width)) ∧
      (width = 4 ∧ off % 4 = 0 →
        serve (.read off width) s = .next (hostRead off s) ∧
          serve (.write off width v) s = .next (if s.resetAsserted then s else windowWrite off v s)) ∧
      serve .foreignDrive s = .refused .foreignDriver

/-- The state after reset: the values R47 states. -/
def Obligations.ResetLeavesTheStatedValues : Prop :=
  State.reset.seq = .idle ∧ State.reset.mode = .unknown ∧
    (∀ l, portOf State.reset.ports l = ⟨.input, false⟩) ∧
    State.reset.busy = false ∧ State.reset.ok = false ∧ State.reset.ovr = false ∧ State.reset.cause = .none ∧
    State.reset.cmd = 0#32 ∧ State.reset.lcode = 0#4 ∧ State.reset.ln = 0#5 ∧ State.reset.laddr = 0#16 ∧
    State.reset.pulsecnt = 0#32 ∧ State.reset.settlecnt = 0#32 ∧ State.reset.laststat = 0#8 ∧
    State.reset.pollcnt = 0#19 ∧
    (∀ d : Word, windowRead 0x08 d State.reset =
      BitVec.ofNat 16 Config.userWords ++ BitVec.ofNat 16 Config.codeWords)

/-! ## The primitives -/

/-- SetWriteMode, SetReadMode and EnterWriteData (R98, R99, R100): the whole state afterwards; the first two do nothing
when MODE already is theirs. -/
def Obligations.ModeChangesReconfigureTheLines : Prop :=
  ∀ s : State, s.busy = true →
    run setWriteModeOps s =
      (if s.mode = .write then s
      else
        { s with
          ports := ⟨s.ports.pwrN, ⟨s.ports.clk.dir, false⟩, ⟨s.ports.oe.dir, false⟩, ⟨s.ports.pgm.dir, true⟩,
            ⟨.output, false⟩⟩
          trace := [.drive .dat false, .setDir .dat .output, .drive .clk false, .drive .oe false, .drive .pgm true,
            .sleep .settle].reverse ++ s.trace
          settlecnt := s.settlecnt + 1#32
          mode := .write }) ∧
    run setReadModeOps s =
      (if s.mode = .read then s
      else
        { s with
          ports := ⟨s.ports.pwrN, ⟨s.ports.clk.dir, false⟩, ⟨s.ports.oe.dir, false⟩, ⟨s.ports.pgm.dir, false⟩,
            ⟨.input, s.ports.dat.out⟩⟩
          trace := [.setDir .dat .input, .drive .clk false, .drive .oe false, .drive .pgm false,
            .sleep .settle].reverse ++ s.trace
          settlecnt := s.settlecnt + 1#32
          mode := .read }) ∧
    run enterWriteDataOps s =
      { s with
        ports := { s.ports with pgm := ⟨s.ports.pgm.dir, false⟩ }
        trace := .drive .pgm false :: s.trace
        mode := .writeData }

/-- The mode-changing primitives follow the table of R104, row by row: MODE afterwards, and a settle delay exactly where
the table marks one. PowerUp ends as Shutdown does; Clk, a sub-bit of UNLOCK and bare pulses keep MODE. -/
def Obligations.ModePrimitivesFollowTheTable : Prop :=
  ∀ s : State, s.busy = true →
    (∀ (op : ModeOp) (m m' : Mode) (settles : Nat),
      (op, m, m', settles) ∈
        [(.shutdown, .unknown, .unknown, 0), (.setWriteMode, .unknown, .write, 1), (.setReadMode, .unknown, .read, 1),
          (.enterWriteData, .unknown, .writeData, 0),
          (.shutdown, .write, .unknown, 0), (.setWriteMode, .write, .write, 0), (.setReadMode, .write, .read, 1),
          (.enterWriteData, .write, .writeData, 0),
          (.shutdown, .read, .unknown, 0), (.setWriteMode, .read, .write, 1), (.setReadMode, .read, .read, 0),
          (.enterWriteData, .read, .writeData, 0),
          (.shutdown, .writeData, .unknown, 0), (.setWriteMode, .writeData, .write, 1),
          (.setReadMode, .writeData, .read, 1), (.enterWriteData, .writeData, .writeData, 0)] →
      modeStep op m = (m', settles == 1) ∧
        (s.mode = m → (run (modeOps op) s).mode = m' ∧
          ∃ es, (run (modeOps op) s).trace = es.reverse ++ s.trace ∧ settlesOf es = settles)) ∧
      (run powerUpOps s).mode = .unknown ∧ (run clkOps s).mode = s.mode ∧
      (∀ pair j, (run (unlockBitOps pair j) s).mode = s.mode) ∧ ∀ n, (run (pulsesOps n) s).mode = s.mode

/-- Clk (R102, R103): four line primitives, one count, CLK low again, and nothing else. A group of bare pulses (R112) is
that many of them. -/
def Obligations.ClkIsOnePulse : Prop :=
  ∀ s : State, s.busy = true →
    run clkOps s =
      { s with
        ports := { s.ports with clk := ⟨s.ports.clk.dir, false⟩ }
        trace := [.sleep .half, .drive .clk false, .sleep .half, .drive .clk true] ++ s.trace
        pulsecnt := s.pulsecnt + 1#32 } ∧
    ∀ n, 0 < n →
      run (pulsesOps n) s =
        { s with
          ports := { s.ports with clk := ⟨s.ports.clk.dir, false⟩ }
          trace := (List.replicate n
            [LineEvent.sleep .half, .drive .clk false, .sleep .half, .drive .clk true]).flatten ++ s.trace
          pulsecnt := s.pulsecnt + BitVec.ofNat 32 n }

/-- SendOpcode and SendValue (R107, R109): the frame on OE, most significant bit first, then its complement, then the
status; two settle delays, one fewer when MODE was Write; the run fails with the caller's cause exactly when the status
byte is not 0xEA. -/
def Obligations.FramesGoOutMsbFirstWithComplement : Prop :=
  ∀ (s : State) (c : Cause) (op : OpcodeSrc) (v : ValueSrc), s.busy = true →
    ((run (sendOpcodeOps op c) s).trace =
        (opcodeEvents s.mode (opcodeOf op s) (levels s 0 8)).reverse ++ s.trace ∧
      Counted 25 8 2 s (run (sendOpcodeOps op c) s) ∧
      (run (sendOpcodeOps op c) s).mode = .read ∧ (run (sendOpcodeOps op c) s).laststat = statusByte s 0 ∧
      (run (sendOpcodeOps op c) s).busy = (statusByte s 0 == 0xEA#8) ∧
      (statusByte s 0 ≠ 0xEA#8 → (run (sendOpcodeOps op c) s).cause = c)) ∧
    ((run (sendValueOps v c) s).trace =
        (valueEvents s.mode (valueOf v s) (levels s 0 8)).reverse ++ s.trace ∧
      Counted 41 8 2 s (run (sendValueOps v c) s) ∧
      (run (sendValueOps v c) s).mode = .read ∧ (run (sendValueOps v c) s).laststat = statusByte s 0 ∧
      (run (sendValueOps v c) s).busy = (statusByte s 0 == 0xEA#8) ∧
      (statusByte s 0 ≠ 0xEA#8 → (run (sendValueOps v c) s).cause = c))

/-- RecvWord (R110, R87): sixteen pulses, a sample after each; sample j is bit j of the word, whatever SHIFT16 held; it
never fails, and it touches no other data. -/
def Obligations.ReceivedWordIsLsbFirst : Prop :=
  ∀ s : State, s.busy = true → (s.mode = .read → s.ports.dat.dir = .input) →
    (∀ j, j < 16 → (run recvWordOps s).shift16.getLsbD j = upcoming s j) ∧
      (run recvWordOps s).trace =
        (readModeEvents s.mode ++ bitsInEvents (levels s 0 16)).reverse ++ s.trace ∧
      (run recvWordOps s).pulsecnt = s.pulsecnt + 16#32 ∧
      (run recvWordOps s).samples = s.samples.drop 16 ∧ (run recvWordOps s).mode = .read ∧
      (run recvWordOps s).busy = true ∧
      (run recvWordOps s).dbuf = s.dbuf ∧ (run recvWordOps s).laststat = s.laststat

/-- RecvStatus (R111, R88, R115): eight pulses with a sample after each, most significant bit first, whatever SHIFT8 held,
and a ninth pulse; the byte is in LASTSTAT whether it matches or not; the match is exact equality with 0xEA, on all eight
bits. -/
def Obligations.StatusByteIsMsbFirst : Prop :=
  ∀ s : State, s.busy = true → (s.mode = .read → s.ports.dat.dir = .input) →
    (∀ j, j < 8 → (run recvStatusOps s).laststat.getLsbD (7 - j) = upcoming s j) ∧
      (run recvStatusOps s).trace = (statusEvents s.mode (levels s 0 8)).reverse ++ s.trace ∧
      (run recvStatusOps s).pulsecnt = s.pulsecnt + 9#32 ∧
      (run recvStatusOps s).samples = s.samples.drop 8 ∧ (run recvStatusOps s).mode = .read ∧
      ((run recvStatusOps s).matched = true ↔ (run recvStatusOps s).laststat = 0xEA#8)

/-- Poll (R116 to R120) with a budget POLLCTR can hold, in Read mode. Ready first seen at iteration k: k + 1 ticks, then
eight status samples and no trailing pulse, and the poll passes exactly when they are 0xEA. No ready within the budget:
exactly that many pulses and samples, LASTSTAT unchanged, POLL_TIMEOUT. -/
def Obligations.PollEndsAtTheFirstReadyOrTheBudget : Prop :=
  ∀ (s : State) (b : Nat), s.busy = true → s.mode = .read → s.ports.dat.dir = .input → b < 2 ^ 19 →
    (∀ k, k < b → readyAt s 0 k →
      (run (pollOps b) s).trace = (pollEvents k (levels s (k + 1) 8)).reverse ++ s.trace ∧
        (run (pollOps b) s).pollcnt = BitVec.ofNat 19 (k + 1) ∧
        (run (pollOps b) s).pulsecnt = s.pulsecnt + BitVec.ofNat 32 (k + 9) ∧
        (run (pollOps b) s).samples = s.samples.drop (k + 9) ∧
        (run (pollOps b) s).laststat = statusByte s (k + 1) ∧
        (run (pollOps b) s).busy = (statusByte s (k + 1) == 0xEA#8) ∧
        (statusByte s (k + 1) ≠ 0xEA#8 → (run (pollOps b) s).cause = .pollStatus)) ∧
    (neverReady s 0 b →
      (run (pollOps b) s).trace = (bitsInEvents (List.replicate b false)).reverse ++ s.trace ∧
        (run (pollOps b) s).pollcnt = BitVec.ofNat 19 b ∧
        (run (pollOps b) s).pulsecnt = s.pulsecnt + BitVec.ofNat 32 b ∧
        (run (pollOps b) s).samples = s.samples.drop b ∧
        (run (pollOps b) s).laststat = s.laststat ∧
        (run (pollOps b) s).busy = false ∧ (run (pollOps b) s).cause = .pollTimeout)

/-- The multi-word address of the target (R66): its formula, and what it means: the block of the start address, the count
wrapped inside it. -/
def Obligations.MultiWordAddressWrapsInItsBlock : Prop :=
  ∀ (a : Half) (i : Nat),
    wrapAddr a i = (a &&& 0xFFE0#16) ||| ((a + BitVec.ofNat 16 i) &&& 0x001F#16) ∧
      (wrapAddr a i).toNat / 32 = a.toNat / 32 ∧ (wrapAddr a i).toNat % 32 = (a.toNat + i) % 32

/-- ERASEPAGE's masked address (R61) is the base of the 128-word page that holds the address. -/
def Obligations.PageBaseIsTheStartOfThePage : Prop :=
  ∀ a : Half, (pageBase a).toNat = a.toNat / 128 * 128

/-! ## The commands: where they complete, with what result, and what they leave alone -/

/-- POWERUP (R126, R97): its word; and, from every state, the whole next state. -/
def Obligations.PowerupCompletes : Prop :=
  encode .powerup = 0x00000001#32 ∧
  ∀ s : State,
    exec .powerup s =
      .next { s with
              lcode := 0x1#4, ln := 0#5, laddr := 0#16
              ports := ⟨⟨.output, false⟩, ⟨.output, false⟩, ⟨.output, false⟩, ⟨.output, false⟩, ⟨.output, false⟩⟩
              mode := .unknown
              trace := powerUpEvents.reverse ++ s.trace
              ok := true, cause := .none, busy := false, seq := .idle }

/-- SHUTDOWN (R127, R96): its word; and, from every state, the whole next state. -/
def Obligations.ShutdownCompletes : Prop :=
  encode .shutdown = 0x00000002#32 ∧
  ∀ s : State,
    exec .shutdown s =
      .next { s with
              lcode := 0x2#4, ln := 0#5, laddr := 0#16
              ports := ⟨⟨.output, true⟩, ⟨.output, false⟩, ⟨.output, false⟩, ⟨.output, false⟩, ⟨.output, false⟩⟩
              mode := .unknown
              trace := shutdownEvents.reverse ++ s.trace
              ok := true, cause := .none, busy := false, seq := .idle }

/-- UNLOCK (R136): its word; and, from every state: 64 pulses, no sample, no settle, MODE and DAT as they were, PGM and OE at the last
sub-bit of the last pair, OK = 1. -/
def Obligations.UnlockCompletes : Prop :=
  encode .unlock = 0x0000000B#32 ∧
  ∀ s : State, ∃ t, exec .unlock s = .next t ∧
    CommandFrame .unlock s t ∧ t.ok = true ∧ t.cause = .none ∧ t.mode = s.mode ∧
      t.trace = unlockEvents.reverse ++ s.trace ∧ t.pulsecnt = s.pulsecnt + 64#32 ∧ t.settlecnt = s.settlecnt ∧
      t.samples = s.samples ∧ t.sampleDraws = s.sampleDraws ∧ t.dbuf = s.dbuf ∧ t.laststat = s.laststat ∧
      t.pollcnt = s.pollcnt ∧
      t.ports = { s.ports with
                  clk := ⟨s.ports.clk.dir, false⟩
                  oe := ⟨s.ports.oe.dir, (Config.unlockPairs 7).2.getLsbD 0⟩
                  pgm := ⟨s.ports.pgm.dir, (Config.unlockPairs 7).1.getLsbD 0⟩ }

/-- CHECK (R128, R125): its word; and, from every state, the command completes: with OK when the target answers 0xEA, with
CHECK_FAIL otherwise, after 25 pulses and two settle delays either way; DBUF and POLLCNT are unchanged. -/
def Obligations.CheckCompletes : Prop :=
  encode .check = 0x00000003#32 ∧
  ∀ s : State, ∃ t, exec .check s = .next t ∧
    (statusByte s 0 = 0xEA#8 → ChipSuccess .check 0 25 8 2 s t) ∧
    (statusByte s 0 ≠ 0xEA#8 → ChipFailure .check .checkFail 25 8 2 s t) ∧
    t.trace = (opcodeEvents s.mode 0x00#8 (levels s 0 8)).reverse ++ s.trace ∧
    t.laststat = statusByte s 0 ∧ t.dbuf = s.dbuf ∧ t.pollcnt = s.pollcnt

/-- READW (R129), from every state whose target answers 0xEA to each status: DBUF[0] is the word received, least
significant bit first; the other entries are unchanged. -/
def Obligations.ReadWordSucceeds : Prop :=
  ∀ (s : State) (a : Half), statusesGood s 3 → statusGood s 40 = true →
    ∃ t, exec (.readw a) s = .next t ∧ ChipSuccess (.readw a) 0 120 48 6 s t ∧ t.pollcnt = s.pollcnt ∧
      wordBitsAre s 24 (dbufGet t 0) ∧ ∀ j, 0 < j → j < 32 → dbufGet t j = dbufGet s j

/-- READN (R130): words 0 to N in DBUF[0..N], back to back; the entries above N unchanged. -/
def Obligations.ReadWordsSucceeds : Prop :=
  ∀ (s : State) (a : Half) (n : Count), statusesGood s 3 → statusGood s (24 + 16 * (n.toNat + 1)) = true →
    ∃ t, exec (.readn a n) s = .next t ∧
      ChipSuccess (.readn a n) 0 (104 + 16 * (n.toNat + 1)) (32 + 16 * (n.toNat + 1)) 6 s t ∧
      t.pollcnt = s.pollcnt ∧ (∀ j, j ≤ n.toNat → wordBitsAre s (24 + 16 * j) (dbufGet t j)) ∧
      ∀ j, n.toNat < j → j < 32 → dbufGet t j = dbufGet s j

/-- READID (R135): no address frame, three turnaround pulses, the ID word in DBUF[0]. -/
def Obligations.ReadChipIdSucceeds : Prop :=
  ∀ s : State, statusesGood s 2 → statusGood s 32 = true →
    ∃ t, exec .readid s = .next t ∧ ChipSuccess .readid 0 80 40 4 s t ∧ t.pollcnt = s.pollcnt ∧
      wordBitsAre s 16 (dbufGet t 0) ∧ ∀ j, 0 < j → j < 32 → dbufGet t j = dbufGet s j

/-- WRITEW (R131), ready seen at iteration k within the budget 0x800: DBUF[0] goes out after the address; DBUF is
unchanged; POLLCNT = k + 1. -/
def Obligations.WriteWordSucceeds : Prop :=
  ∀ (s : State) (a : Half) (k : Nat), statusesGood s 4 → readyAt s 32 k → k < 0x800 →
    statusGood s (33 + k) = true →
    ∃ t, exec (.writew a) s = .next t ∧ ChipSuccess (.writew a) k (143 + k) (41 + k) 8 s t ∧
      t.pollcnt = BitVec.ofNat 19 (k + 1) ∧ t.dbuf = s.dbuf

/-- WRITEN (R132), every word's status good, ready seen at iteration k within the budget 0x800. -/
def Obligations.WriteWordsSucceeds : Prop :=
  ∀ (s : State) (a : Half) (n : Count) (k : Nat), statusesGood s (n.toNat + 4) →
    readyAt s (24 + 8 * (n.toNat + 1)) k → k < 0x800 → statusGood s (25 + 8 * (n.toNat + 1) + k) = true →
    ∃ t, exec (.writen a n) s = .next t ∧
      ChipSuccess (.writen a n) k (102 + 41 * (n.toNat + 1) + k) (33 + 8 * (n.toNat + 1) + k)
        (6 + 2 * (n.toNat + 1)) s t ∧
      t.pollcnt = BitVec.ofNat 19 (k + 1) ∧ t.dbuf = s.dbuf

/-- ERASEALL (R133): address 0 is sent; the budget is 0x60000. -/
def Obligations.EraseAllSucceeds : Prop :=
  ∀ (s : State) (k : Nat), statusesGood s 3 → readyAt s 24 k → k < 0x60000 → statusGood s (25 + k) = true →
    ∃ t, exec .eraseall s = .next t ∧ ChipSuccess .eraseall k (102 + k) (33 + k) 6 s t ∧
      t.pollcnt = BitVec.ofNat 19 (k + 1) ∧ t.dbuf = s.dbuf

/-- ERASEPAGE (R134): the page base is sent, while CMD and LADDR keep the unmasked address; the budget is 0x9600. -/
def Obligations.ErasePageSucceeds : Prop :=
  ∀ (s : State) (a : Half) (k : Nat), statusesGood s 3 → readyAt s 24 k → k < 0x9600 →
    statusGood s (25 + k) = true →
    ∃ t, exec (.erasepage a) s = .next t ∧ ChipSuccess (.erasepage a) k (102 + k) (33 + k) 6 s t ∧
      t.pollcnt = BitVec.ofNat 19 (k + 1) ∧ t.dbuf = s.dbuf ∧ t.laddr = a

/-! ## Failures -/

/-- A failed liveness check ends every chip command there (R125): 25 pulses, MODE = Read, CHECK_FAIL, no frame but the
check, DBUF and POLLCNT unchanged. The other commands take no sample at all. -/
def Obligations.FailedCheckEndsEveryChipCommand : Prop :=
  ∀ (s : State) (i : Instr),
    (isChipCommand i = true → statusByte s 0 ≠ 0xEA#8 →
      ∃ t, exec i s = .next t ∧ ChipFailure i .checkFail 25 8 2 s t ∧
        t.trace = (opcodeEvents s.mode 0x00#8 (levels s 0 8)).reverse ++ s.trace ∧
        t.laststat = statusByte s 0 ∧ t.dbuf = s.dbuf ∧ t.pollcnt = s.pollcnt) ∧
    (isChipCommand i = false →
      ∃ t es, exec i s = .next t ∧ t.trace = es.reverse ++ s.trace ∧ samplesOf es = 0 ∧ t.ok = true)

/-- A bad status after the command's own opcode ends it with STATUS_MISMATCH after 50 pulses (R139); DBUF unchanged. -/
def Obligations.BadOpcodeStatusEndsTheCommand : Prop :=
  ∀ (s : State) (i : Instr), isChipCommand i = true → i ≠ .check → statusGood s 0 = true → statusGood s 8 = false →
    ∃ t, exec i s = .next t ∧ ChipFailure i .statusMismatch 50 16 4 s t ∧ t.laststat = statusByte s 8 ∧
      t.dbuf = s.dbuf ∧ t.pollcnt = s.pollcnt

/-- A bad status after the address ends a command that sends one with STATUS_MISMATCH after 91 pulses (R139); DBUF
unchanged. -/
def Obligations.BadAddressStatusEndsTheCommand : Prop :=
  ∀ (s : State) (i : Instr), isChipCommand i = true → i ≠ .check → i ≠ .readid → statusesGood s 2 →
    statusGood s 16 = false →
    ∃ t, exec i s = .next t ∧ ChipFailure i .statusMismatch 91 24 6 s t ∧ t.laststat = statusByte s 16 ∧
      t.dbuf = s.dbuf ∧ t.pollcnt = s.pollcnt

/-- A bad final status of a read command (R129, R130, R135, R139): STATUS_MISMATCH without the trailing pulses; the words
received stand in DBUF, the other entries are unchanged. -/
def Obligations.BadFinalStatusOfReadsKeepsTheWords : Prop :=
  (∀ (s : State) (a : Half), statusesGood s 3 → statusGood s 40 = false →
    ∃ t, exec (.readw a) s = .next t ∧ ChipFailure (.readw a) .statusMismatch 118 48 6 s t ∧
      t.laststat = statusByte s 40 ∧ wordBitsAre s 24 (dbufGet t 0) ∧
      ∀ j, 0 < j → j < 32 → dbufGet t j = dbufGet s j) ∧
  (∀ (s : State) (a : Half) (n : Count), statusesGood s 3 → statusGood s (24 + 16 * (n.toNat + 1)) = false →
    ∃ t, exec (.readn a n) s = .next t ∧
      ChipFailure (.readn a n) .statusMismatch (102 + 16 * (n.toNat + 1)) (32 + 16 * (n.toNat + 1)) 6 s t ∧
      t.laststat = statusByte s (24 + 16 * (n.toNat + 1)) ∧
      (∀ j, j ≤ n.toNat → wordBitsAre s (24 + 16 * j) (dbufGet t j)) ∧
      ∀ j, n.toNat < j → j < 32 → dbufGet t j = dbufGet s j) ∧
  (∀ s : State, statusesGood s 2 → statusGood s 32 = false →
    ∃ t, exec .readid s = .next t ∧ ChipFailure .readid .statusMismatch 78 40 4 s t ∧
      t.laststat = statusByte s 32 ∧ wordBitsAre s 16 (dbufGet t 0) ∧
      ∀ j, 0 < j → j < 32 → dbufGet t j = dbufGet s j)

/-- A bad status of word j of a write command (R139): STATUS_MISMATCH after 91 + 41·(j+1) pulses, no later word and no
poll; DBUF unchanged. -/
def Obligations.BadWordStatusEndsTheWrite : Prop :=
  (∀ (s : State) (a : Half), statusesGood s 3 → statusGood s 24 = false →
    ∃ t, exec (.writew a) s = .next t ∧ ChipFailure (.writew a) .statusMismatch 132 32 8 s t ∧ t.dbuf = s.dbuf ∧
      t.pollcnt = s.pollcnt) ∧
  (∀ (s : State) (a : Half) (n : Count) (j : Nat), j ≤ n.toNat → statusesGood s (j + 3) →
    statusGood s (8 * (j + 3)) = false →
    ∃ t, exec (.writen a n) s = .next t ∧
      ChipFailure (.writen a n) .statusMismatch (91 + 41 * (j + 1)) (24 + 8 * (j + 1)) (6 + 2 * (j + 1)) s t ∧
      t.dbuf = s.dbuf ∧ t.pollcnt = s.pollcnt)

/-- A poll timeout (R118, R139) of every command that polls: POLL_TIMEOUT, exactly the budget's pulses and samples,
POLLCNT = the budget, LASTSTAT = 0xEA from the last value frame, no trailing pulse; DBUF unchanged. -/
def Obligations.PollTimeoutEndsTheCommand : Prop :=
  ∀ (s : State) (i : Instr) (b : Nat), budgetOf i = some b → statusesGood s (pollStart i / 8) →
    neverReady s (pollStart i) b →
    ∃ t, exec i s = .next t ∧
      ChipFailure i .pollTimeout (pulsesBeforePoll i + b) (pollStart i + b) (2 * (pollStart i / 8)) s t ∧
      t.pollcnt = BitVec.ofNat 19 b ∧ t.laststat = Config.statusOk ∧ t.dbuf = s.dbuf

/-- A bad status of the poll (R139): POLL_STATUS after k + 9 pulses of the poll, no trailing pulse; DBUF unchanged. -/
def Obligations.BadPollStatusEndsTheCommand : Prop :=
  ∀ (s : State) (i : Instr) (b k : Nat), budgetOf i = some b → statusesGood s (pollStart i / 8) →
    readyAt s (pollStart i) k → k < b → statusGood s (pollStart i + k + 1) = false →
    ∃ t, exec i s = .next t ∧
      ChipFailure i .pollStatus (pulsesBeforePoll i + k + 9) (pollStart i + k + 9) (2 * (pollStart i / 8)) s t ∧
      t.pollcnt = BitVec.ofNat 19 (k + 1) ∧ t.laststat = statusByte s (pollStart i + k + 1) ∧ t.dbuf = s.dbuf

/-- Which causes a legal command can report (R143), and that OK = 1 exactly without one (R149). -/
def Obligations.CommandsReportOnlyTheirCauses : Prop :=
  ∀ (s : State) (i : Instr), ∃ t, exec i s = .next t ∧ t.cause ∈ causesOf i ∧ (t.ok = true ↔ t.cause = .none)

/-- Every cause the table of R143 gives a command is reported in some state. -/
def Obligations.EveryListedCauseOccurs : Prop :=
  ∀ (i : Instr) (c : Cause), c ∈ causesOf i → ∃ s t, exec i s = .next t ∧ t.cause = c

/-- The internal registers a command does not use it leaves alone (R33): SHIFT16 changes only where a word is received,
POLLCTR and ready only in a poll, WIDX only in READN and WRITEN, SHIFT8 and the status match only in a chip command, and
none of them in POWERUP and SHUTDOWN. -/
def Obligations.UnusedInternalRegistersStay : Prop :=
  ∀ (s : State) (i : Instr), ∃ t, exec i s = .next t ∧
    ((∀ a, i ≠ .readw a) → (∀ a n, i ≠ .readn a n) → i ≠ .readid → t.shift16 = s.shift16) ∧
    (budgetOf i = none → t.pollctr = s.pollctr ∧ t.ready = s.ready) ∧
    ((∀ a n, i ≠ .readn a n) → (∀ a n, i ≠ .writen a n) → t.widx = s.widx) ∧
    (isChipCommand i = false → t.shift8 = s.shift8 ∧ t.matched = s.matched) ∧
    (i = .powerup ∨ i = .shutdown → t.bitcnt = s.bitcnt)

/-- The internal registers are never read before they are written (R33): two states that differ in nothing else run every
command to states that differ in nothing else. So their values at reset (log 7) reach nothing the host or the target
sees. -/
def Obligations.InternalRegistersDoNotMatter : Prop :=
  ∀ (s u : State) (i : Instr), forgetInternals s = forgetInternals u →
    ∃ t v, exec i s = .next t ∧ exec i u = .next v ∧ forgetInternals t = forgetInternals v

/-! ## The line trace of every command, from every state -/

/-- PULSECNT, SETTLECNT and the samples used up count the line trace, and the ports stand where the trace's primitives
put them (R16, R25, R41, R42). -/
def Obligations.CountersAndPortsFollowTheTrace : Prop :=
  ∀ (s : State) (i : Instr), ∃ t es, exec i s = .next t ∧ t.trace = es.reverse ++ s.trace ∧
    t.pulsecnt = s.pulsecnt + BitVec.ofNat 32 (pulsesOf es) ∧
    t.settlecnt = s.settlecnt + BitVec.ofNat 32 (settlesOf es) ∧
    t.samples = s.samples.drop (samplesOf es) ∧ t.sampleDraws = s.sampleDraws + samplesOf es ∧
    t.ports = replayPorts es s.ports

/-- No pulse starts before the settle delay of the last reconfiguration has ended (R106). -/
def Obligations.NoPulseBeforeTheSettleDelay : Prop :=
  ∀ (s : State) (i : Instr), ∃ t es, exec i s = .next t ∧ t.trace = es.reverse ++ s.trace ∧
    settledFrom false es = true

/-- Every sample of a command is taken on DAT while DAT is an input (R27, R30). -/
def Obligations.SamplesOnlyWhileDatIsAnInput : Prop :=
  ∀ (s : State) (i : Instr), ∃ t es, exec i s = .next t ∧ t.trace = es.reverse ++ s.trace ∧
    sampledAsInput es s.ports = true

/-- The longest command (R174): no command takes more than 393317 pulses; READN takes at most 616 and WRITEN at most
1414 + 2047. -/
def Obligations.NoCommandTakesMorePulses : Prop :=
  ∀ (s : State) (i : Instr), ∃ t es, exec i s = .next t ∧ t.trace = es.reverse ++ s.trace ∧
    pulsesOf es ≤ 393317 ∧
    (∀ a n, i = .readn a n → pulsesOf es ≤ 616) ∧ (∀ a n, i = .writen a n → pulsesOf es ≤ 3461)

/-- The delays of a command's trace (R173): two half periods a pulse, one settle delay each, and for POWERUP the
power-off time. -/
def Obligations.DelaysAddUpToTheMinimumDuration : Prop :=
  ∀ (s : State) (i : Instr), ∃ t es, exec i s = .next t ∧ t.trace = es.reverse ++ s.trace ∧
    sleepTime es =
      pulsesOf es * (2 * Config.duration .half) + settlesOf es * Config.duration .settle
        + (if i = .powerup then Config.duration .pwroff else 0)

/-- MODE at the command boundaries (R32): Unknown after reset; Read after every chip command, on success and on failure;
Unknown after POWERUP and SHUTDOWN; unchanged by UNLOCK and by an illegal word. So it is Unknown or Read at every complete
when it was at the accept. -/
def Obligations.ModeAtCommandEnd : Prop :=
  State.reset.mode = .unknown ∧
  (∀ (s : State) (i : Instr), ∃ t, exec i s = .next t ∧
    t.mode = (if isChipCommand i then .read else if i = .unlock then s.mode else .unknown)) ∧
  (∀ s : State, ∃ t, execIllegal s = .next t ∧ t.mode = s.mode) ∧
  ∀ (s : State) (i : Instr), s.mode = .unknown ∨ s.mode = .read →
    ∃ t, exec i s = .next t ∧ (t.mode = .unknown ∨ t.mode = .read)

/-! ## The machine -/

/-- PWR_N, CLK, OE and PGM stay outputs for good (R26): once driven, every step with the reset input released, but one
that serves the block reset, keeps them so, wherever a host access interrupts a command. -/
def Obligations.DrivenLinesStayDriven : Prop :=
  ∀ s t : State, LinesDriven s → s.resetAsserted = false → (resetIsNext s = true → s.busy = true ∧ nothingLands s = true) →
    step s = .next t → LinesDriven t

/-- The invariant holds after reset. -/
def Obligations.InvariantHoldsAtReset : Prop := Inv State.reset

/-- Every step keeps the invariant: also one that interrupts a command, and one that asserts, holds or releases the reset
input. -/
def Obligations.EveryStepKeepsTheInvariant : Prop := ∀ s t : State, Inv s → step s = .next t → Inv t

/-- In a state with the invariant no step faults: the engine is never stuck (93_implementation_defined.md: no behaviour of
the engine is `stuck`). -/
def Obligations.NoFaultUnderTheInvariant : Prop := ∀ (s : State) (f : Fault), Inv s → step s ≠ .fault f

/-! ## The reference target -/

/-- With the reference target on the lines and its readiness within the budget, every command succeeds and uses exactly
the target's levels; the read commands put the target's words into DBUF (95_test_vectors.md S1). -/
def Obligations.ReferenceTargetMakesEveryCommandSucceed : Prop :=
  ∀ (rt : RefTarget) (s : State) (i : Instr), (∀ b, budgetOf i = some b → rt.delay < b) →
    ∃ t, exec i (withTarget rt i s) = .next t ∧ t.ok = true ∧ t.cause = .none ∧ t.samples = s.samples ∧
      (∀ a, i = .readw a → dbufGet t 0 = targetRead rt.mem a) ∧
      (∀ a n, i = .readn a n → ∀ j, j ≤ n.toNat → dbufGet t j = targetRead rt.mem (wrapAddr a j)) ∧
      (i = .readid → dbufGet t 0 = rt.id)

/-- A word written through the reference target reads back, and no other word changes (95_test_vectors.md, Program B):
WRITEW, then READW of any address. -/
def Obligations.WrittenWordReadsBack : Prop :=
  ∀ (rt : RefTarget) (s u : State) (a b : Half), targetWf rt.mem = true → rt.delay < 0x800 →
    ∃ t r, exec (.writew a) (withTarget rt (.writew a) s) = .next t ∧ t.ok = true ∧
      exec (.readw b) (withTarget (rtAfter rt (.writew a) s) (.readw b) u) = .next r ∧ r.ok = true ∧
      dbufGet r 0 = if b = a then dbufGet s 0 else targetRead rt.mem b

/-! ## The mode invariant -/

/-- The mode invariant (R30, R165) of every command that starts at a boundary as R32 leaves it: every pulse of its line
trace finds DAT an output in Write and WriteData and an input in Read, MODE being read off the trace; that reading ends
at the register's value; and the same with MODE and DAT's direction as the registers stand, wherever the sequencer comes
to start a pulse. -/
def Obligations.EveryPulseFindsDatAsModeSays : Prop :=
  ∀ (s : State) (i : Instr), s.mode = .unknown ∨ (s.mode = .read ∧ s.ports.dat.dir = .input) →
    (∃ t es, exec i s = .next t ∧ t.trace = es.reverse ++ s.trace ∧ modeKept es s.mode s.ports = true ∧
      replayMode es s.mode s.ports = t.mode) ∧
    pulsesFollowMode (accept (encode i) s)
end

