-- ==== Sys2Proof/Laws/Encoding.lean ====
section
/-! SUPPORT. The fields of a command word: taking them apart and putting them together are inverse, and so are a word
and its bytes. -/

namespace Sys2Proof

theorem splitWord_joinWord (c : Cmdw) : splitWord (joinWord c) = c := by
  obtain ⟨addr, rsv1, n, rsv0, code⟩ := c
  simp only [splitWord, joinWord, Cmdw.mk.injEq]
  refine ⟨?_, ?_, ?_, ?_, ?_⟩ <;>
    · apply BitVec.eq_of_getLsbD_eq
      intro i hi
      simp only [BitVec.getLsbD_extractLsb', BitVec.getLsbD_append, hi, decide_true, Bool.true_and]
      repeat' split
      all_goals first | omega | (congr 1; omega)

theorem joinWord_splitWord (v : Word) : joinWord (splitWord v) = v := by
  apply BitVec.eq_of_getLsbD_eq
  intro i hi
  simp only [splitWord, joinWord, BitVec.getLsbD_extractLsb', BitVec.getLsbD_append]
  repeat' split
  all_goals
    rw [decide_eq_true (by omega), Bool.true_and]
    congr 1
    omega

theorem wordOfBytes_bytesOfWord (v : Word) :
    wordOfBytes (v.extractLsb' 0 8) (v.extractLsb' 8 8) (v.extractLsb' 16 8) (v.extractLsb' 24 8) = v := by
  apply BitVec.eq_of_getLsbD_eq
  intro i hi
  simp only [wordOfBytes, BitVec.getLsbD_extractLsb', BitVec.getLsbD_append]
  repeat' split
  all_goals
    rw [decide_eq_true (by omega), Bool.true_and]
    congr 1
    omega

/-- The fields of a command are legal (R80). -/
theorem fields_legal (i : Instr) : i.fields.legal = true := by
  cases i <;> simp [Instr.fields, Cmdw.legal, Cmdw.codeUsed, Cmdw.reservedClear, Cmdw.countOk, Cmdw.addrOk,
    Cmdw.usesCount, Cmdw.usesAddr]

theorem splitWord_encode (i : Instr) : splitWord (encode i) = i.fields := splitWord_joinWord _

end Sys2Proof
end

