-- ==== Sys2Proof/Laws/State.lean ====
section
/-! SUPPORT. The fields of the state after each named operation, one lemma per field per operation. -/

namespace Sys2Proof.Machine

open Sys2Proof


section
variable (l : Line) (d : Dir) (s : State)

@[simp] theorem setDir_ports : (setDir l d s).ports = portsSetDir s.ports l d := rfl
@[simp] theorem setDir_mode : (setDir l d s).mode = s.mode := rfl
@[simp] theorem setDir_seq : (setDir l d s).seq = s.seq := rfl
@[simp] theorem setDir_shift16 : (setDir l d s).shift16 = s.shift16 := rfl
@[simp] theorem setDir_shift8 : (setDir l d s).shift8 = s.shift8 := rfl
@[simp] theorem setDir_bitcnt : (setDir l d s).bitcnt = s.bitcnt := rfl
@[simp] theorem setDir_pollctr : (setDir l d s).pollctr = s.pollctr := rfl
@[simp] theorem setDir_widx : (setDir l d s).widx = s.widx := rfl
@[simp] theorem setDir_matched : (setDir l d s).matched = s.matched := rfl
@[simp] theorem setDir_ready : (setDir l d s).ready = s.ready := rfl
@[simp] theorem setDir_lcode : (setDir l d s).lcode = s.lcode := rfl
@[simp] theorem setDir_ln : (setDir l d s).ln = s.ln := rfl
@[simp] theorem setDir_laddr : (setDir l d s).laddr = s.laddr := rfl
@[simp] theorem setDir_busy : (setDir l d s).busy = s.busy := rfl
@[simp] theorem setDir_ok : (setDir l d s).ok = s.ok := rfl
@[simp] theorem setDir_ovr : (setDir l d s).ovr = s.ovr := rfl
@[simp] theorem setDir_cause : (setDir l d s).cause = s.cause := rfl
@[simp] theorem setDir_cmd : (setDir l d s).cmd = s.cmd := rfl
@[simp] theorem setDir_pulsecnt : (setDir l d s).pulsecnt = s.pulsecnt := rfl
@[simp] theorem setDir_settlecnt : (setDir l d s).settlecnt = s.settlecnt := rfl
@[simp] theorem setDir_laststat : (setDir l d s).laststat = s.laststat := rfl
@[simp] theorem setDir_pollcnt : (setDir l d s).pollcnt = s.pollcnt := rfl
@[simp] theorem setDir_dbuf : (setDir l d s).dbuf = s.dbuf := rfl
@[simp] theorem setDir_resetAsserted : (setDir l d s).resetAsserted = s.resetAsserted := rfl
@[simp] theorem setDir_trace : (setDir l d s).trace = .setDir l d :: s.trace := rfl
@[simp] theorem setDir_samples : (setDir l d s).samples = s.samples := rfl
@[simp] theorem setDir_sampleDraws : (setDir l d s).sampleDraws = s.sampleDraws := rfl
@[simp] theorem setDir_reads : (setDir l d s).reads = s.reads := rfl
@[simp] theorem setDir_readDraws : (setDir l d s).readDraws = s.readDraws := rfl
@[simp] theorem setDir_pending : (setDir l d s).pending = s.pending := rfl

end

section
variable (l : Line) (b : Bool) (s : State)

@[simp] theorem drive_ports : (drive l b s).ports = portsDrive s.ports l b := rfl
@[simp] theorem drive_mode : (drive l b s).mode = s.mode := rfl
@[simp] theorem drive_seq : (drive l b s).seq = s.seq := rfl
@[simp] theorem drive_shift16 : (drive l b s).shift16 = s.shift16 := rfl
@[simp] theorem drive_shift8 : (drive l b s).shift8 = s.shift8 := rfl
@[simp] theorem drive_bitcnt : (drive l b s).bitcnt = s.bitcnt := rfl
@[simp] theorem drive_pollctr : (drive l b s).pollctr = s.pollctr := rfl
@[simp] theorem drive_widx : (drive l b s).widx = s.widx := rfl
@[simp] theorem drive_matched : (drive l b s).matched = s.matched := rfl
@[simp] theorem drive_ready : (drive l b s).ready = s.ready := rfl
@[simp] theorem drive_lcode : (drive l b s).lcode = s.lcode := rfl
@[simp] theorem drive_ln : (drive l b s).ln = s.ln := rfl
@[simp] theorem drive_laddr : (drive l b s).laddr = s.laddr := rfl
@[simp] theorem drive_busy : (drive l b s).busy = s.busy := rfl
@[simp] theorem drive_ok : (drive l b s).ok = s.ok := rfl
@[simp] theorem drive_ovr : (drive l b s).ovr = s.ovr := rfl
@[simp] theorem drive_cause : (drive l b s).cause = s.cause := rfl
@[simp] theorem drive_cmd : (drive l b s).cmd = s.cmd := rfl
@[simp] theorem drive_pulsecnt : (drive l b s).pulsecnt = s.pulsecnt := rfl
@[simp] theorem drive_settlecnt : (drive l b s).settlecnt = s.settlecnt := rfl
@[simp] theorem drive_laststat : (drive l b s).laststat = s.laststat := rfl
@[simp] theorem drive_pollcnt : (drive l b s).pollcnt = s.pollcnt := rfl
@[simp] theorem drive_dbuf : (drive l b s).dbuf = s.dbuf := rfl
@[simp] theorem drive_resetAsserted : (drive l b s).resetAsserted = s.resetAsserted := rfl
@[simp] theorem drive_trace : (drive l b s).trace = .drive l b :: s.trace := rfl
@[simp] theorem drive_samples : (drive l b s).samples = s.samples := rfl
@[simp] theorem drive_sampleDraws : (drive l b s).sampleDraws = s.sampleDraws := rfl
@[simp] theorem drive_reads : (drive l b s).reads = s.reads := rfl
@[simp] theorem drive_readDraws : (drive l b s).readDraws = s.readDraws := rfl
@[simp] theorem drive_pending : (drive l b s).pending = s.pending := rfl

end

section
variable (t : Config.Delay) (s : State)

@[simp] theorem sleepFor_ports : (sleepFor t s).ports = s.ports := rfl
@[simp] theorem sleepFor_mode : (sleepFor t s).mode = s.mode := rfl
@[simp] theorem sleepFor_seq : (sleepFor t s).seq = s.seq := rfl
@[simp] theorem sleepFor_shift16 : (sleepFor t s).shift16 = s.shift16 := rfl
@[simp] theorem sleepFor_shift8 : (sleepFor t s).shift8 = s.shift8 := rfl
@[simp] theorem sleepFor_bitcnt : (sleepFor t s).bitcnt = s.bitcnt := rfl
@[simp] theorem sleepFor_pollctr : (sleepFor t s).pollctr = s.pollctr := rfl
@[simp] theorem sleepFor_widx : (sleepFor t s).widx = s.widx := rfl
@[simp] theorem sleepFor_matched : (sleepFor t s).matched = s.matched := rfl
@[simp] theorem sleepFor_ready : (sleepFor t s).ready = s.ready := rfl
@[simp] theorem sleepFor_lcode : (sleepFor t s).lcode = s.lcode := rfl
@[simp] theorem sleepFor_ln : (sleepFor t s).ln = s.ln := rfl
@[simp] theorem sleepFor_laddr : (sleepFor t s).laddr = s.laddr := rfl
@[simp] theorem sleepFor_busy : (sleepFor t s).busy = s.busy := rfl
@[simp] theorem sleepFor_ok : (sleepFor t s).ok = s.ok := rfl
@[simp] theorem sleepFor_ovr : (sleepFor t s).ovr = s.ovr := rfl
@[simp] theorem sleepFor_cause : (sleepFor t s).cause = s.cause := rfl
@[simp] theorem sleepFor_cmd : (sleepFor t s).cmd = s.cmd := rfl
@[simp] theorem sleepFor_pulsecnt : (sleepFor t s).pulsecnt = s.pulsecnt := rfl
@[simp] theorem sleepFor_settlecnt : (sleepFor t s).settlecnt = s.settlecnt := rfl
@[simp] theorem sleepFor_laststat : (sleepFor t s).laststat = s.laststat := rfl
@[simp] theorem sleepFor_pollcnt : (sleepFor t s).pollcnt = s.pollcnt := rfl
@[simp] theorem sleepFor_dbuf : (sleepFor t s).dbuf = s.dbuf := rfl
@[simp] theorem sleepFor_resetAsserted : (sleepFor t s).resetAsserted = s.resetAsserted := rfl
@[simp] theorem sleepFor_trace : (sleepFor t s).trace = .sleep t :: s.trace := rfl
@[simp] theorem sleepFor_samples : (sleepFor t s).samples = s.samples := rfl
@[simp] theorem sleepFor_sampleDraws : (sleepFor t s).sampleDraws = s.sampleDraws := rfl
@[simp] theorem sleepFor_reads : (sleepFor t s).reads = s.reads := rfl
@[simp] theorem sleepFor_readDraws : (sleepFor t s).readDraws = s.readDraws := rfl
@[simp] theorem sleepFor_pending : (sleepFor t s).pending = s.pending := rfl

end

section
variable (s : State)

@[simp] theorem countPulse_ports : (countPulse s).ports = s.ports := rfl
@[simp] theorem countPulse_mode : (countPulse s).mode = s.mode := rfl
@[simp] theorem countPulse_seq : (countPulse s).seq = s.seq := rfl
@[simp] theorem countPulse_shift16 : (countPulse s).shift16 = s.shift16 := rfl
@[simp] theorem countPulse_shift8 : (countPulse s).shift8 = s.shift8 := rfl
@[simp] theorem countPulse_bitcnt : (countPulse s).bitcnt = s.bitcnt := rfl
@[simp] theorem countPulse_pollctr : (countPulse s).pollctr = s.pollctr := rfl
@[simp] theorem countPulse_widx : (countPulse s).widx = s.widx := rfl
@[simp] theorem countPulse_matched : (countPulse s).matched = s.matched := rfl
@[simp] theorem countPulse_ready : (countPulse s).ready = s.ready := rfl
@[simp] theorem countPulse_lcode : (countPulse s).lcode = s.lcode := rfl
@[simp] theorem countPulse_ln : (countPulse s).ln = s.ln := rfl
@[simp] theorem countPulse_laddr : (countPulse s).laddr = s.laddr := rfl
@[simp] theorem countPulse_busy : (countPulse s).busy = s.busy := rfl
@[simp] theorem countPulse_ok : (countPulse s).ok = s.ok := rfl
@[simp] theorem countPulse_ovr : (countPulse s).ovr = s.ovr := rfl
@[simp] theorem countPulse_cause : (countPulse s).cause = s.cause := rfl
@[simp] theorem countPulse_cmd : (countPulse s).cmd = s.cmd := rfl
@[simp] theorem countPulse_pulsecnt : (countPulse s).pulsecnt = s.pulsecnt + 1#32 := rfl
@[simp] theorem countPulse_settlecnt : (countPulse s).settlecnt = s.settlecnt := rfl
@[simp] theorem countPulse_laststat : (countPulse s).laststat = s.laststat := rfl
@[simp] theorem countPulse_pollcnt : (countPulse s).pollcnt = s.pollcnt := rfl
@[simp] theorem countPulse_dbuf : (countPulse s).dbuf = s.dbuf := rfl
@[simp] theorem countPulse_resetAsserted : (countPulse s).resetAsserted = s.resetAsserted := rfl
@[simp] theorem countPulse_trace : (countPulse s).trace = s.trace := rfl
@[simp] theorem countPulse_samples : (countPulse s).samples = s.samples := rfl
@[simp] theorem countPulse_sampleDraws : (countPulse s).sampleDraws = s.sampleDraws := rfl
@[simp] theorem countPulse_reads : (countPulse s).reads = s.reads := rfl
@[simp] theorem countPulse_readDraws : (countPulse s).readDraws = s.readDraws := rfl
@[simp] theorem countPulse_pending : (countPulse s).pending = s.pending := rfl

end

section
variable (s : State)

@[simp] theorem countSettle_ports : (countSettle s).ports = s.ports := rfl
@[simp] theorem countSettle_mode : (countSettle s).mode = s.mode := rfl
@[simp] theorem countSettle_seq : (countSettle s).seq = s.seq := rfl
@[simp] theorem countSettle_shift16 : (countSettle s).shift16 = s.shift16 := rfl
@[simp] theorem countSettle_shift8 : (countSettle s).shift8 = s.shift8 := rfl
@[simp] theorem countSettle_bitcnt : (countSettle s).bitcnt = s.bitcnt := rfl
@[simp] theorem countSettle_pollctr : (countSettle s).pollctr = s.pollctr := rfl
@[simp] theorem countSettle_widx : (countSettle s).widx = s.widx := rfl
@[simp] theorem countSettle_matched : (countSettle s).matched = s.matched := rfl
@[simp] theorem countSettle_ready : (countSettle s).ready = s.ready := rfl
@[simp] theorem countSettle_lcode : (countSettle s).lcode = s.lcode := rfl
@[simp] theorem countSettle_ln : (countSettle s).ln = s.ln := rfl
@[simp] theorem countSettle_laddr : (countSettle s).laddr = s.laddr := rfl
@[simp] theorem countSettle_busy : (countSettle s).busy = s.busy := rfl
@[simp] theorem countSettle_ok : (countSettle s).ok = s.ok := rfl
@[simp] theorem countSettle_ovr : (countSettle s).ovr = s.ovr := rfl
@[simp] theorem countSettle_cause : (countSettle s).cause = s.cause := rfl
@[simp] theorem countSettle_cmd : (countSettle s).cmd = s.cmd := rfl
@[simp] theorem countSettle_pulsecnt : (countSettle s).pulsecnt = s.pulsecnt := rfl
@[simp] theorem countSettle_settlecnt : (countSettle s).settlecnt = s.settlecnt + 1#32 := rfl
@[simp] theorem countSettle_laststat : (countSettle s).laststat = s.laststat := rfl
@[simp] theorem countSettle_pollcnt : (countSettle s).pollcnt = s.pollcnt := rfl
@[simp] theorem countSettle_dbuf : (countSettle s).dbuf = s.dbuf := rfl
@[simp] theorem countSettle_resetAsserted : (countSettle s).resetAsserted = s.resetAsserted := rfl
@[simp] theorem countSettle_trace : (countSettle s).trace = s.trace := rfl
@[simp] theorem countSettle_samples : (countSettle s).samples = s.samples := rfl
@[simp] theorem countSettle_sampleDraws : (countSettle s).sampleDraws = s.sampleDraws := rfl
@[simp] theorem countSettle_reads : (countSettle s).reads = s.reads := rfl
@[simp] theorem countSettle_readDraws : (countSettle s).readDraws = s.readDraws := rfl
@[simp] theorem countSettle_pending : (countSettle s).pending = s.pending := rfl

end

section
variable (m : Mode) (s : State)

@[simp] theorem setMode_ports : (setMode m s).ports = s.ports := rfl
@[simp] theorem setMode_mode : (setMode m s).mode = m := rfl
@[simp] theorem setMode_seq : (setMode m s).seq = s.seq := rfl
@[simp] theorem setMode_shift16 : (setMode m s).shift16 = s.shift16 := rfl
@[simp] theorem setMode_shift8 : (setMode m s).shift8 = s.shift8 := rfl
@[simp] theorem setMode_bitcnt : (setMode m s).bitcnt = s.bitcnt := rfl
@[simp] theorem setMode_pollctr : (setMode m s).pollctr = s.pollctr := rfl
@[simp] theorem setMode_widx : (setMode m s).widx = s.widx := rfl
@[simp] theorem setMode_matched : (setMode m s).matched = s.matched := rfl
@[simp] theorem setMode_ready : (setMode m s).ready = s.ready := rfl
@[simp] theorem setMode_lcode : (setMode m s).lcode = s.lcode := rfl
@[simp] theorem setMode_ln : (setMode m s).ln = s.ln := rfl
@[simp] theorem setMode_laddr : (setMode m s).laddr = s.laddr := rfl
@[simp] theorem setMode_busy : (setMode m s).busy = s.busy := rfl
@[simp] theorem setMode_ok : (setMode m s).ok = s.ok := rfl
@[simp] theorem setMode_ovr : (setMode m s).ovr = s.ovr := rfl
@[simp] theorem setMode_cause : (setMode m s).cause = s.cause := rfl
@[simp] theorem setMode_cmd : (setMode m s).cmd = s.cmd := rfl
@[simp] theorem setMode_pulsecnt : (setMode m s).pulsecnt = s.pulsecnt := rfl
@[simp] theorem setMode_settlecnt : (setMode m s).settlecnt = s.settlecnt := rfl
@[simp] theorem setMode_laststat : (setMode m s).laststat = s.laststat := rfl
@[simp] theorem setMode_pollcnt : (setMode m s).pollcnt = s.pollcnt := rfl
@[simp] theorem setMode_dbuf : (setMode m s).dbuf = s.dbuf := rfl
@[simp] theorem setMode_resetAsserted : (setMode m s).resetAsserted = s.resetAsserted := rfl
@[simp] theorem setMode_trace : (setMode m s).trace = s.trace := rfl
@[simp] theorem setMode_samples : (setMode m s).samples = s.samples := rfl
@[simp] theorem setMode_sampleDraws : (setMode m s).sampleDraws = s.sampleDraws := rfl
@[simp] theorem setMode_reads : (setMode m s).reads = s.reads := rfl
@[simp] theorem setMode_readDraws : (setMode m s).readDraws = s.readDraws := rfl
@[simp] theorem setMode_pending : (setMode m s).pending = s.pending := rfl

end

section
variable (s : State)

@[simp] theorem startPoll_ports : (startPoll s).ports = s.ports := rfl
@[simp] theorem startPoll_mode : (startPoll s).mode = s.mode := rfl
@[simp] theorem startPoll_seq : (startPoll s).seq = s.seq := rfl
@[simp] theorem startPoll_shift16 : (startPoll s).shift16 = s.shift16 := rfl
@[simp] theorem startPoll_shift8 : (startPoll s).shift8 = s.shift8 := rfl
@[simp] theorem startPoll_bitcnt : (startPoll s).bitcnt = s.bitcnt := rfl
@[simp] theorem startPoll_pollctr : (startPoll s).pollctr = 0#19 := rfl
@[simp] theorem startPoll_widx : (startPoll s).widx = s.widx := rfl
@[simp] theorem startPoll_matched : (startPoll s).matched = s.matched := rfl
@[simp] theorem startPoll_ready : (startPoll s).ready = false := rfl
@[simp] theorem startPoll_lcode : (startPoll s).lcode = s.lcode := rfl
@[simp] theorem startPoll_ln : (startPoll s).ln = s.ln := rfl
@[simp] theorem startPoll_laddr : (startPoll s).laddr = s.laddr := rfl
@[simp] theorem startPoll_busy : (startPoll s).busy = s.busy := rfl
@[simp] theorem startPoll_ok : (startPoll s).ok = s.ok := rfl
@[simp] theorem startPoll_ovr : (startPoll s).ovr = s.ovr := rfl
@[simp] theorem startPoll_cause : (startPoll s).cause = s.cause := rfl
@[simp] theorem startPoll_cmd : (startPoll s).cmd = s.cmd := rfl
@[simp] theorem startPoll_pulsecnt : (startPoll s).pulsecnt = s.pulsecnt := rfl
@[simp] theorem startPoll_settlecnt : (startPoll s).settlecnt = s.settlecnt := rfl
@[simp] theorem startPoll_laststat : (startPoll s).laststat = s.laststat := rfl
@[simp] theorem startPoll_pollcnt : (startPoll s).pollcnt = s.pollcnt := rfl
@[simp] theorem startPoll_dbuf : (startPoll s).dbuf = s.dbuf := rfl
@[simp] theorem startPoll_resetAsserted : (startPoll s).resetAsserted = s.resetAsserted := rfl
@[simp] theorem startPoll_trace : (startPoll s).trace = s.trace := rfl
@[simp] theorem startPoll_samples : (startPoll s).samples = s.samples := rfl
@[simp] theorem startPoll_sampleDraws : (startPoll s).sampleDraws = s.sampleDraws := rfl
@[simp] theorem startPoll_reads : (startPoll s).reads = s.reads := rfl
@[simp] theorem startPoll_readDraws : (startPoll s).readDraws = s.readDraws := rfl
@[simp] theorem startPoll_pending : (startPoll s).pending = s.pending := rfl

end

section
variable (s : State)

@[simp] theorem latchPollCount_ports : (latchPollCount s).ports = s.ports := rfl
@[simp] theorem latchPollCount_mode : (latchPollCount s).mode = s.mode := rfl
@[simp] theorem latchPollCount_seq : (latchPollCount s).seq = s.seq := rfl
@[simp] theorem latchPollCount_shift16 : (latchPollCount s).shift16 = s.shift16 := rfl
@[simp] theorem latchPollCount_shift8 : (latchPollCount s).shift8 = s.shift8 := rfl
@[simp] theorem latchPollCount_bitcnt : (latchPollCount s).bitcnt = s.bitcnt := rfl
@[simp] theorem latchPollCount_pollctr : (latchPollCount s).pollctr = s.pollctr := rfl
@[simp] theorem latchPollCount_widx : (latchPollCount s).widx = s.widx := rfl
@[simp] theorem latchPollCount_matched : (latchPollCount s).matched = s.matched := rfl
@[simp] theorem latchPollCount_ready : (latchPollCount s).ready = s.ready := rfl
@[simp] theorem latchPollCount_lcode : (latchPollCount s).lcode = s.lcode := rfl
@[simp] theorem latchPollCount_ln : (latchPollCount s).ln = s.ln := rfl
@[simp] theorem latchPollCount_laddr : (latchPollCount s).laddr = s.laddr := rfl
@[simp] theorem latchPollCount_busy : (latchPollCount s).busy = s.busy := rfl
@[simp] theorem latchPollCount_ok : (latchPollCount s).ok = s.ok := rfl
@[simp] theorem latchPollCount_ovr : (latchPollCount s).ovr = s.ovr := rfl
@[simp] theorem latchPollCount_cause : (latchPollCount s).cause = s.cause := rfl
@[simp] theorem latchPollCount_cmd : (latchPollCount s).cmd = s.cmd := rfl
@[simp] theorem latchPollCount_pulsecnt : (latchPollCount s).pulsecnt = s.pulsecnt := rfl
@[simp] theorem latchPollCount_settlecnt : (latchPollCount s).settlecnt = s.settlecnt := rfl
@[simp] theorem latchPollCount_laststat : (latchPollCount s).laststat = s.laststat := rfl
@[simp] theorem latchPollCount_pollcnt : (latchPollCount s).pollcnt = s.pollctr := rfl
@[simp] theorem latchPollCount_dbuf : (latchPollCount s).dbuf = s.dbuf := rfl
@[simp] theorem latchPollCount_resetAsserted : (latchPollCount s).resetAsserted = s.resetAsserted := rfl
@[simp] theorem latchPollCount_trace : (latchPollCount s).trace = s.trace := rfl
@[simp] theorem latchPollCount_samples : (latchPollCount s).samples = s.samples := rfl
@[simp] theorem latchPollCount_sampleDraws : (latchPollCount s).sampleDraws = s.sampleDraws := rfl
@[simp] theorem latchPollCount_reads : (latchPollCount s).reads = s.reads := rfl
@[simp] theorem latchPollCount_readDraws : (latchPollCount s).readDraws = s.readDraws := rfl
@[simp] theorem latchPollCount_pending : (latchPollCount s).pending = s.pending := rfl

end

section
variable (s : State)

@[simp] theorem latchStatus_ports : (latchStatus s).ports = s.ports := rfl
@[simp] theorem latchStatus_mode : (latchStatus s).mode = s.mode := rfl
@[simp] theorem latchStatus_seq : (latchStatus s).seq = s.seq := rfl
@[simp] theorem latchStatus_shift16 : (latchStatus s).shift16 = s.shift16 := rfl
@[simp] theorem latchStatus_shift8 : (latchStatus s).shift8 = s.shift8 := rfl
@[simp] theorem latchStatus_bitcnt : (latchStatus s).bitcnt = s.bitcnt := rfl
@[simp] theorem latchStatus_pollctr : (latchStatus s).pollctr = s.pollctr := rfl
@[simp] theorem latchStatus_widx : (latchStatus s).widx = s.widx := rfl
@[simp] theorem latchStatus_matched : (latchStatus s).matched = statusMatches s.shift8 := rfl
@[simp] theorem latchStatus_ready : (latchStatus s).ready = s.ready := rfl
@[simp] theorem latchStatus_lcode : (latchStatus s).lcode = s.lcode := rfl
@[simp] theorem latchStatus_ln : (latchStatus s).ln = s.ln := rfl
@[simp] theorem latchStatus_laddr : (latchStatus s).laddr = s.laddr := rfl
@[simp] theorem latchStatus_busy : (latchStatus s).busy = s.busy := rfl
@[simp] theorem latchStatus_ok : (latchStatus s).ok = s.ok := rfl
@[simp] theorem latchStatus_ovr : (latchStatus s).ovr = s.ovr := rfl
@[simp] theorem latchStatus_cause : (latchStatus s).cause = s.cause := rfl
@[simp] theorem latchStatus_cmd : (latchStatus s).cmd = s.cmd := rfl
@[simp] theorem latchStatus_pulsecnt : (latchStatus s).pulsecnt = s.pulsecnt := rfl
@[simp] theorem latchStatus_settlecnt : (latchStatus s).settlecnt = s.settlecnt := rfl
@[simp] theorem latchStatus_laststat : (latchStatus s).laststat = s.shift8 := rfl
@[simp] theorem latchStatus_pollcnt : (latchStatus s).pollcnt = s.pollcnt := rfl
@[simp] theorem latchStatus_dbuf : (latchStatus s).dbuf = s.dbuf := rfl
@[simp] theorem latchStatus_resetAsserted : (latchStatus s).resetAsserted = s.resetAsserted := rfl
@[simp] theorem latchStatus_trace : (latchStatus s).trace = s.trace := rfl
@[simp] theorem latchStatus_samples : (latchStatus s).samples = s.samples := rfl
@[simp] theorem latchStatus_sampleDraws : (latchStatus s).sampleDraws = s.sampleDraws := rfl
@[simp] theorem latchStatus_reads : (latchStatus s).reads = s.reads := rfl
@[simp] theorem latchStatus_readDraws : (latchStatus s).readDraws = s.readDraws := rfl
@[simp] theorem latchStatus_pending : (latchStatus s).pending = s.pending := rfl

end

section
variable (j : Nat) (s : State)

@[simp] theorem setBit_ports : (setBit j s).ports = s.ports := rfl
@[simp] theorem setBit_mode : (setBit j s).mode = s.mode := rfl
@[simp] theorem setBit_seq : (setBit j s).seq = s.seq := rfl
@[simp] theorem setBit_shift16 : (setBit j s).shift16 = s.shift16 := rfl
@[simp] theorem setBit_shift8 : (setBit j s).shift8 = s.shift8 := rfl
@[simp] theorem setBit_bitcnt : (setBit j s).bitcnt = BitVec.ofNat 5 j := rfl
@[simp] theorem setBit_pollctr : (setBit j s).pollctr = s.pollctr := rfl
@[simp] theorem setBit_widx : (setBit j s).widx = s.widx := rfl
@[simp] theorem setBit_matched : (setBit j s).matched = s.matched := rfl
@[simp] theorem setBit_ready : (setBit j s).ready = s.ready := rfl
@[simp] theorem setBit_lcode : (setBit j s).lcode = s.lcode := rfl
@[simp] theorem setBit_ln : (setBit j s).ln = s.ln := rfl
@[simp] theorem setBit_laddr : (setBit j s).laddr = s.laddr := rfl
@[simp] theorem setBit_busy : (setBit j s).busy = s.busy := rfl
@[simp] theorem setBit_ok : (setBit j s).ok = s.ok := rfl
@[simp] theorem setBit_ovr : (setBit j s).ovr = s.ovr := rfl
@[simp] theorem setBit_cause : (setBit j s).cause = s.cause := rfl
@[simp] theorem setBit_cmd : (setBit j s).cmd = s.cmd := rfl
@[simp] theorem setBit_pulsecnt : (setBit j s).pulsecnt = s.pulsecnt := rfl
@[simp] theorem setBit_settlecnt : (setBit j s).settlecnt = s.settlecnt := rfl
@[simp] theorem setBit_laststat : (setBit j s).laststat = s.laststat := rfl
@[simp] theorem setBit_pollcnt : (setBit j s).pollcnt = s.pollcnt := rfl
@[simp] theorem setBit_dbuf : (setBit j s).dbuf = s.dbuf := rfl
@[simp] theorem setBit_resetAsserted : (setBit j s).resetAsserted = s.resetAsserted := rfl
@[simp] theorem setBit_trace : (setBit j s).trace = s.trace := rfl
@[simp] theorem setBit_samples : (setBit j s).samples = s.samples := rfl
@[simp] theorem setBit_sampleDraws : (setBit j s).sampleDraws = s.sampleDraws := rfl
@[simp] theorem setBit_reads : (setBit j s).reads = s.reads := rfl
@[simp] theorem setBit_readDraws : (setBit j s).readDraws = s.readDraws := rfl
@[simp] theorem setBit_pending : (setBit j s).pending = s.pending := rfl

end

section
variable (i : Nat) (s : State)

@[simp] theorem setWidx_ports : (setWidx i s).ports = s.ports := rfl
@[simp] theorem setWidx_mode : (setWidx i s).mode = s.mode := rfl
@[simp] theorem setWidx_seq : (setWidx i s).seq = s.seq := rfl
@[simp] theorem setWidx_shift16 : (setWidx i s).shift16 = s.shift16 := rfl
@[simp] theorem setWidx_shift8 : (setWidx i s).shift8 = s.shift8 := rfl
@[simp] theorem setWidx_bitcnt : (setWidx i s).bitcnt = s.bitcnt := rfl
@[simp] theorem setWidx_pollctr : (setWidx i s).pollctr = s.pollctr := rfl
@[simp] theorem setWidx_widx : (setWidx i s).widx = BitVec.ofNat 6 i := rfl
@[simp] theorem setWidx_matched : (setWidx i s).matched = s.matched := rfl
@[simp] theorem setWidx_ready : (setWidx i s).ready = s.ready := rfl
@[simp] theorem setWidx_lcode : (setWidx i s).lcode = s.lcode := rfl
@[simp] theorem setWidx_ln : (setWidx i s).ln = s.ln := rfl
@[simp] theorem setWidx_laddr : (setWidx i s).laddr = s.laddr := rfl
@[simp] theorem setWidx_busy : (setWidx i s).busy = s.busy := rfl
@[simp] theorem setWidx_ok : (setWidx i s).ok = s.ok := rfl
@[simp] theorem setWidx_ovr : (setWidx i s).ovr = s.ovr := rfl
@[simp] theorem setWidx_cause : (setWidx i s).cause = s.cause := rfl
@[simp] theorem setWidx_cmd : (setWidx i s).cmd = s.cmd := rfl
@[simp] theorem setWidx_pulsecnt : (setWidx i s).pulsecnt = s.pulsecnt := rfl
@[simp] theorem setWidx_settlecnt : (setWidx i s).settlecnt = s.settlecnt := rfl
@[simp] theorem setWidx_laststat : (setWidx i s).laststat = s.laststat := rfl
@[simp] theorem setWidx_pollcnt : (setWidx i s).pollcnt = s.pollcnt := rfl
@[simp] theorem setWidx_dbuf : (setWidx i s).dbuf = s.dbuf := rfl
@[simp] theorem setWidx_resetAsserted : (setWidx i s).resetAsserted = s.resetAsserted := rfl
@[simp] theorem setWidx_trace : (setWidx i s).trace = s.trace := rfl
@[simp] theorem setWidx_samples : (setWidx i s).samples = s.samples := rfl
@[simp] theorem setWidx_sampleDraws : (setWidx i s).sampleDraws = s.sampleDraws := rfl
@[simp] theorem setWidx_reads : (setWidx i s).reads = s.reads := rfl
@[simp] theorem setWidx_readDraws : (setWidx i s).readDraws = s.readDraws := rfl
@[simp] theorem setWidx_pending : (setWidx i s).pending = s.pending := rfl

end

section
variable (i : Nat) (s : State)

@[simp] theorem storeWord_ports : (storeWord i s).ports = s.ports := rfl
@[simp] theorem storeWord_mode : (storeWord i s).mode = s.mode := rfl
@[simp] theorem storeWord_seq : (storeWord i s).seq = s.seq := rfl
@[simp] theorem storeWord_shift16 : (storeWord i s).shift16 = s.shift16 := rfl
@[simp] theorem storeWord_shift8 : (storeWord i s).shift8 = s.shift8 := rfl
@[simp] theorem storeWord_bitcnt : (storeWord i s).bitcnt = s.bitcnt := rfl
@[simp] theorem storeWord_pollctr : (storeWord i s).pollctr = s.pollctr := rfl
@[simp] theorem storeWord_widx : (storeWord i s).widx = s.widx := rfl
@[simp] theorem storeWord_matched : (storeWord i s).matched = s.matched := rfl
@[simp] theorem storeWord_ready : (storeWord i s).ready = s.ready := rfl
@[simp] theorem storeWord_lcode : (storeWord i s).lcode = s.lcode := rfl
@[simp] theorem storeWord_ln : (storeWord i s).ln = s.ln := rfl
@[simp] theorem storeWord_laddr : (storeWord i s).laddr = s.laddr := rfl
@[simp] theorem storeWord_busy : (storeWord i s).busy = s.busy := rfl
@[simp] theorem storeWord_ok : (storeWord i s).ok = s.ok := rfl
@[simp] theorem storeWord_ovr : (storeWord i s).ovr = s.ovr := rfl
@[simp] theorem storeWord_cause : (storeWord i s).cause = s.cause := rfl
@[simp] theorem storeWord_cmd : (storeWord i s).cmd = s.cmd := rfl
@[simp] theorem storeWord_pulsecnt : (storeWord i s).pulsecnt = s.pulsecnt := rfl
@[simp] theorem storeWord_settlecnt : (storeWord i s).settlecnt = s.settlecnt := rfl
@[simp] theorem storeWord_laststat : (storeWord i s).laststat = s.laststat := rfl
@[simp] theorem storeWord_pollcnt : (storeWord i s).pollcnt = s.pollcnt := rfl
@[simp] theorem storeWord_dbuf : (storeWord i s).dbuf = dbufSet s.dbuf i s.shift16 := rfl
@[simp] theorem storeWord_resetAsserted : (storeWord i s).resetAsserted = s.resetAsserted := rfl
@[simp] theorem storeWord_trace : (storeWord i s).trace = s.trace := rfl
@[simp] theorem storeWord_samples : (storeWord i s).samples = s.samples := rfl
@[simp] theorem storeWord_sampleDraws : (storeWord i s).sampleDraws = s.sampleDraws := rfl
@[simp] theorem storeWord_reads : (storeWord i s).reads = s.reads := rfl
@[simp] theorem storeWord_readDraws : (storeWord i s).readDraws = s.readDraws := rfl
@[simp] theorem storeWord_pending : (storeWord i s).pending = s.pending := rfl

end

section
variable (c : Cause) (s : State)

@[simp] theorem failCommand_ports : (failCommand c s).ports = s.ports := rfl
@[simp] theorem failCommand_mode : (failCommand c s).mode = s.mode := rfl
@[simp] theorem failCommand_seq : (failCommand c s).seq = .idle := rfl
@[simp] theorem failCommand_shift16 : (failCommand c s).shift16 = s.shift16 := rfl
@[simp] theorem failCommand_shift8 : (failCommand c s).shift8 = s.shift8 := rfl
@[simp] theorem failCommand_bitcnt : (failCommand c s).bitcnt = s.bitcnt := rfl
@[simp] theorem failCommand_pollctr : (failCommand c s).pollctr = s.pollctr := rfl
@[simp] theorem failCommand_widx : (failCommand c s).widx = s.widx := rfl
@[simp] theorem failCommand_matched : (failCommand c s).matched = s.matched := rfl
@[simp] theorem failCommand_ready : (failCommand c s).ready = s.ready := rfl
@[simp] theorem failCommand_lcode : (failCommand c s).lcode = s.lcode := rfl
@[simp] theorem failCommand_ln : (failCommand c s).ln = s.ln := rfl
@[simp] theorem failCommand_laddr : (failCommand c s).laddr = s.laddr := rfl
@[simp] theorem failCommand_busy : (failCommand c s).busy = false := rfl
@[simp] theorem failCommand_ok : (failCommand c s).ok = false := rfl
@[simp] theorem failCommand_ovr : (failCommand c s).ovr = s.ovr := rfl
@[simp] theorem failCommand_cause : (failCommand c s).cause = c := rfl
@[simp] theorem failCommand_cmd : (failCommand c s).cmd = s.cmd := rfl
@[simp] theorem failCommand_pulsecnt : (failCommand c s).pulsecnt = s.pulsecnt := rfl
@[simp] theorem failCommand_settlecnt : (failCommand c s).settlecnt = s.settlecnt := rfl
@[simp] theorem failCommand_laststat : (failCommand c s).laststat = s.laststat := rfl
@[simp] theorem failCommand_pollcnt : (failCommand c s).pollcnt = s.pollcnt := rfl
@[simp] theorem failCommand_dbuf : (failCommand c s).dbuf = s.dbuf := rfl
@[simp] theorem failCommand_resetAsserted : (failCommand c s).resetAsserted = s.resetAsserted := rfl
@[simp] theorem failCommand_trace : (failCommand c s).trace = s.trace := rfl
@[simp] theorem failCommand_samples : (failCommand c s).samples = s.samples := rfl
@[simp] theorem failCommand_sampleDraws : (failCommand c s).sampleDraws = s.sampleDraws := rfl
@[simp] theorem failCommand_reads : (failCommand c s).reads = s.reads := rfl
@[simp] theorem failCommand_readDraws : (failCommand c s).readDraws = s.readDraws := rfl
@[simp] theorem failCommand_pending : (failCommand c s).pending = s.pending := rfl

end

section
variable (s : State)

@[simp] theorem succeedCommand_ports : (succeedCommand s).ports = s.ports := rfl
@[simp] theorem succeedCommand_mode : (succeedCommand s).mode = s.mode := rfl
@[simp] theorem succeedCommand_seq : (succeedCommand s).seq = .idle := rfl
@[simp] theorem succeedCommand_shift16 : (succeedCommand s).shift16 = s.shift16 := rfl
@[simp] theorem succeedCommand_shift8 : (succeedCommand s).shift8 = s.shift8 := rfl
@[simp] theorem succeedCommand_bitcnt : (succeedCommand s).bitcnt = s.bitcnt := rfl
@[simp] theorem succeedCommand_pollctr : (succeedCommand s).pollctr = s.pollctr := rfl
@[simp] theorem succeedCommand_widx : (succeedCommand s).widx = s.widx := rfl
@[simp] theorem succeedCommand_matched : (succeedCommand s).matched = s.matched := rfl
@[simp] theorem succeedCommand_ready : (succeedCommand s).ready = s.ready := rfl
@[simp] theorem succeedCommand_lcode : (succeedCommand s).lcode = s.lcode := rfl
@[simp] theorem succeedCommand_ln : (succeedCommand s).ln = s.ln := rfl
@[simp] theorem succeedCommand_laddr : (succeedCommand s).laddr = s.laddr := rfl
@[simp] theorem succeedCommand_busy : (succeedCommand s).busy = false := rfl
@[simp] theorem succeedCommand_ok : (succeedCommand s).ok = true := rfl
@[simp] theorem succeedCommand_ovr : (succeedCommand s).ovr = s.ovr := rfl
@[simp] theorem succeedCommand_cause : (succeedCommand s).cause = .none := rfl
@[simp] theorem succeedCommand_cmd : (succeedCommand s).cmd = s.cmd := rfl
@[simp] theorem succeedCommand_pulsecnt : (succeedCommand s).pulsecnt = s.pulsecnt := rfl
@[simp] theorem succeedCommand_settlecnt : (succeedCommand s).settlecnt = s.settlecnt := rfl
@[simp] theorem succeedCommand_laststat : (succeedCommand s).laststat = s.laststat := rfl
@[simp] theorem succeedCommand_pollcnt : (succeedCommand s).pollcnt = s.pollcnt := rfl
@[simp] theorem succeedCommand_dbuf : (succeedCommand s).dbuf = s.dbuf := rfl
@[simp] theorem succeedCommand_resetAsserted : (succeedCommand s).resetAsserted = s.resetAsserted := rfl
@[simp] theorem succeedCommand_trace : (succeedCommand s).trace = s.trace := rfl
@[simp] theorem succeedCommand_samples : (succeedCommand s).samples = s.samples := rfl
@[simp] theorem succeedCommand_sampleDraws : (succeedCommand s).sampleDraws = s.sampleDraws := rfl
@[simp] theorem succeedCommand_reads : (succeedCommand s).reads = s.reads := rfl
@[simp] theorem succeedCommand_readDraws : (succeedCommand s).readDraws = s.readDraws := rfl
@[simp] theorem succeedCommand_pending : (succeedCommand s).pending = s.pending := rfl

end

section
variable (v : Word) (s : State)

@[simp] theorem accept_ports : (accept v s).ports = s.ports := rfl
@[simp] theorem accept_mode : (accept v s).mode = s.mode := rfl
@[simp] theorem accept_seq : (accept v s).seq = .running (splitWord v).code 0 0 := rfl
@[simp] theorem accept_shift16 : (accept v s).shift16 = s.shift16 := rfl
@[simp] theorem accept_shift8 : (accept v s).shift8 = s.shift8 := rfl
@[simp] theorem accept_bitcnt : (accept v s).bitcnt = s.bitcnt := rfl
@[simp] theorem accept_pollctr : (accept v s).pollctr = s.pollctr := rfl
@[simp] theorem accept_widx : (accept v s).widx = s.widx := rfl
@[simp] theorem accept_matched : (accept v s).matched = s.matched := rfl
@[simp] theorem accept_ready : (accept v s).ready = s.ready := rfl
@[simp] theorem accept_lcode : (accept v s).lcode = (splitWord v).code := rfl
@[simp] theorem accept_ln : (accept v s).ln = (splitWord v).n := rfl
@[simp] theorem accept_laddr : (accept v s).laddr = (splitWord v).addr := rfl
@[simp] theorem accept_busy : (accept v s).busy = true := rfl
@[simp] theorem accept_ok : (accept v s).ok = false := rfl
@[simp] theorem accept_ovr : (accept v s).ovr = false := rfl
@[simp] theorem accept_cause : (accept v s).cause = .none := rfl
@[simp] theorem accept_cmd : (accept v s).cmd = v := rfl
@[simp] theorem accept_pulsecnt : (accept v s).pulsecnt = 0#32 := rfl
@[simp] theorem accept_settlecnt : (accept v s).settlecnt = 0#32 := rfl
@[simp] theorem accept_laststat : (accept v s).laststat = 0#8 := rfl
@[simp] theorem accept_pollcnt : (accept v s).pollcnt = 0#19 := rfl
@[simp] theorem accept_dbuf : (accept v s).dbuf = s.dbuf := rfl
@[simp] theorem accept_resetAsserted : (accept v s).resetAsserted = s.resetAsserted := rfl
@[simp] theorem accept_trace : (accept v s).trace = s.trace := rfl
@[simp] theorem accept_samples : (accept v s).samples = s.samples := rfl
@[simp] theorem accept_sampleDraws : (accept v s).sampleDraws = s.sampleDraws := rfl
@[simp] theorem accept_reads : (accept v s).reads = s.reads := rfl
@[simp] theorem accept_readDraws : (accept v s).readDraws = s.readDraws := rfl
@[simp] theorem accept_pending : (accept v s).pending = s.pending := rfl

end

section
variable (i : Instr) (s : State)

@[simp] theorem dispatch_ports : (dispatch i s).ports = s.ports := rfl
@[simp] theorem dispatch_mode : (dispatch i s).mode = s.mode := rfl
@[simp] theorem dispatch_seq : (dispatch i s).seq = .running i.fields.code 0 0 := rfl
@[simp] theorem dispatch_shift16 : (dispatch i s).shift16 = s.shift16 := rfl
@[simp] theorem dispatch_shift8 : (dispatch i s).shift8 = s.shift8 := rfl
@[simp] theorem dispatch_bitcnt : (dispatch i s).bitcnt = s.bitcnt := rfl
@[simp] theorem dispatch_pollctr : (dispatch i s).pollctr = s.pollctr := rfl
@[simp] theorem dispatch_widx : (dispatch i s).widx = s.widx := rfl
@[simp] theorem dispatch_matched : (dispatch i s).matched = s.matched := rfl
@[simp] theorem dispatch_ready : (dispatch i s).ready = s.ready := rfl
@[simp] theorem dispatch_lcode : (dispatch i s).lcode = i.fields.code := rfl
@[simp] theorem dispatch_ln : (dispatch i s).ln = i.fields.n := rfl
@[simp] theorem dispatch_laddr : (dispatch i s).laddr = i.fields.addr := rfl
@[simp] theorem dispatch_busy : (dispatch i s).busy = true := rfl
@[simp] theorem dispatch_ok : (dispatch i s).ok = s.ok := rfl
@[simp] theorem dispatch_ovr : (dispatch i s).ovr = s.ovr := rfl
@[simp] theorem dispatch_cause : (dispatch i s).cause = s.cause := rfl
@[simp] theorem dispatch_cmd : (dispatch i s).cmd = s.cmd := rfl
@[simp] theorem dispatch_pulsecnt : (dispatch i s).pulsecnt = s.pulsecnt := rfl
@[simp] theorem dispatch_settlecnt : (dispatch i s).settlecnt = s.settlecnt := rfl
@[simp] theorem dispatch_laststat : (dispatch i s).laststat = s.laststat := rfl
@[simp] theorem dispatch_pollcnt : (dispatch i s).pollcnt = s.pollcnt := rfl
@[simp] theorem dispatch_dbuf : (dispatch i s).dbuf = s.dbuf := rfl
@[simp] theorem dispatch_resetAsserted : (dispatch i s).resetAsserted = s.resetAsserted := rfl
@[simp] theorem dispatch_trace : (dispatch i s).trace = s.trace := rfl
@[simp] theorem dispatch_samples : (dispatch i s).samples = s.samples := rfl
@[simp] theorem dispatch_sampleDraws : (dispatch i s).sampleDraws = s.sampleDraws := rfl
@[simp] theorem dispatch_reads : (dispatch i s).reads = s.reads := rfl
@[simp] theorem dispatch_readDraws : (dispatch i s).readDraws = s.readDraws := rfl
@[simp] theorem dispatch_pending : (dispatch i s).pending = s.pending := rfl

end

section
variable (off : Nat) (s : State)

@[simp] theorem hostRead_ports : (hostRead off s).ports = s.ports := rfl
@[simp] theorem hostRead_mode : (hostRead off s).mode = s.mode := rfl
@[simp] theorem hostRead_seq : (hostRead off s).seq = s.seq := rfl
@[simp] theorem hostRead_shift16 : (hostRead off s).shift16 = s.shift16 := rfl
@[simp] theorem hostRead_shift8 : (hostRead off s).shift8 = s.shift8 := rfl
@[simp] theorem hostRead_bitcnt : (hostRead off s).bitcnt = s.bitcnt := rfl
@[simp] theorem hostRead_pollctr : (hostRead off s).pollctr = s.pollctr := rfl
@[simp] theorem hostRead_widx : (hostRead off s).widx = s.widx := rfl
@[simp] theorem hostRead_matched : (hostRead off s).matched = s.matched := rfl
@[simp] theorem hostRead_ready : (hostRead off s).ready = s.ready := rfl
@[simp] theorem hostRead_lcode : (hostRead off s).lcode = s.lcode := rfl
@[simp] theorem hostRead_ln : (hostRead off s).ln = s.ln := rfl
@[simp] theorem hostRead_laddr : (hostRead off s).laddr = s.laddr := rfl
@[simp] theorem hostRead_busy : (hostRead off s).busy = s.busy := rfl
@[simp] theorem hostRead_ok : (hostRead off s).ok = s.ok := rfl
@[simp] theorem hostRead_ovr : (hostRead off s).ovr = s.ovr := rfl
@[simp] theorem hostRead_cause : (hostRead off s).cause = s.cause := rfl
@[simp] theorem hostRead_cmd : (hostRead off s).cmd = s.cmd := rfl
@[simp] theorem hostRead_pulsecnt : (hostRead off s).pulsecnt = s.pulsecnt := rfl
@[simp] theorem hostRead_settlecnt : (hostRead off s).settlecnt = s.settlecnt := rfl
@[simp] theorem hostRead_laststat : (hostRead off s).laststat = s.laststat := rfl
@[simp] theorem hostRead_pollcnt : (hostRead off s).pollcnt = s.pollcnt := rfl
@[simp] theorem hostRead_dbuf : (hostRead off s).dbuf = s.dbuf := rfl
@[simp] theorem hostRead_resetAsserted : (hostRead off s).resetAsserted = s.resetAsserted := rfl
@[simp] theorem hostRead_trace : (hostRead off s).trace = s.trace := rfl
@[simp] theorem hostRead_samples : (hostRead off s).samples = s.samples := rfl
@[simp] theorem hostRead_sampleDraws : (hostRead off s).sampleDraws = s.sampleDraws := rfl
@[simp] theorem hostRead_reads : (hostRead off s).reads = (off, windowRead off (Config.readDraw s.readDraws) s) :: s.reads := rfl
@[simp] theorem hostRead_readDraws : (hostRead off s).readDraws = s.readDraws + 1 := rfl
@[simp] theorem hostRead_pending : (hostRead off s).pending = s.pending := rfl

end

/-! The block reset (R158): the engine's fields, then what lies outside the engine. -/

section
variable (s : State)

@[simp] theorem blockReset_ports : (blockReset s).ports = ⟨.atReset, .atReset, .atReset, .atReset, .atReset⟩ := rfl
@[simp] theorem blockReset_mode : (blockReset s).mode = .unknown := rfl
@[simp] theorem blockReset_seq : (blockReset s).seq = .idle := rfl
@[simp] theorem blockReset_shift16 : (blockReset s).shift16 = 0#16 := rfl
@[simp] theorem blockReset_shift8 : (blockReset s).shift8 = 0#8 := rfl
@[simp] theorem blockReset_bitcnt : (blockReset s).bitcnt = 0#5 := rfl
@[simp] theorem blockReset_pollctr : (blockReset s).pollctr = 0#19 := rfl
@[simp] theorem blockReset_widx : (blockReset s).widx = 0#6 := rfl
@[simp] theorem blockReset_matched : (blockReset s).matched = false := rfl
@[simp] theorem blockReset_ready : (blockReset s).ready = false := rfl
@[simp] theorem blockReset_lcode : (blockReset s).lcode = 0#4 := rfl
@[simp] theorem blockReset_ln : (blockReset s).ln = 0#5 := rfl
@[simp] theorem blockReset_laddr : (blockReset s).laddr = 0#16 := rfl
@[simp] theorem blockReset_busy : (blockReset s).busy = false := rfl
@[simp] theorem blockReset_ok : (blockReset s).ok = false := rfl
@[simp] theorem blockReset_ovr : (blockReset s).ovr = false := rfl
@[simp] theorem blockReset_cause : (blockReset s).cause = .none := rfl
@[simp] theorem blockReset_cmd : (blockReset s).cmd = 0#32 := rfl
@[simp] theorem blockReset_pulsecnt : (blockReset s).pulsecnt = 0#32 := rfl
@[simp] theorem blockReset_settlecnt : (blockReset s).settlecnt = 0#32 := rfl
@[simp] theorem blockReset_laststat : (blockReset s).laststat = 0#8 := rfl
@[simp] theorem blockReset_pollcnt : (blockReset s).pollcnt = 0#19 := rfl
@[simp] theorem blockReset_dbuf : (blockReset s).dbuf = Vector.replicate 32 0#16 := rfl
@[simp] theorem blockReset_resetAsserted : (blockReset s).resetAsserted = s.resetAsserted := rfl
@[simp] theorem blockReset_trace : (blockReset s).trace = s.trace := rfl
@[simp] theorem blockReset_samples : (blockReset s).samples = s.samples := rfl
@[simp] theorem blockReset_sampleDraws : (blockReset s).sampleDraws = s.sampleDraws := rfl
@[simp] theorem blockReset_reads : (blockReset s).reads = s.reads := rfl
@[simp] theorem blockReset_readDraws : (blockReset s).readDraws = s.readDraws := rfl
@[simp] theorem blockReset_pending : (blockReset s).pending = s.pending := rfl

@[simp] theorem assertReset_ports : (assertReset s).ports = ⟨.atReset, .atReset, .atReset, .atReset, .atReset⟩ := rfl
@[simp] theorem assertReset_mode : (assertReset s).mode = .unknown := rfl
@[simp] theorem assertReset_seq : (assertReset s).seq = .idle := rfl
@[simp] theorem assertReset_shift16 : (assertReset s).shift16 = 0#16 := rfl
@[simp] theorem assertReset_shift8 : (assertReset s).shift8 = 0#8 := rfl
@[simp] theorem assertReset_bitcnt : (assertReset s).bitcnt = 0#5 := rfl
@[simp] theorem assertReset_pollctr : (assertReset s).pollctr = 0#19 := rfl
@[simp] theorem assertReset_widx : (assertReset s).widx = 0#6 := rfl
@[simp] theorem assertReset_matched : (assertReset s).matched = false := rfl
@[simp] theorem assertReset_ready : (assertReset s).ready = false := rfl
@[simp] theorem assertReset_lcode : (assertReset s).lcode = 0#4 := rfl
@[simp] theorem assertReset_ln : (assertReset s).ln = 0#5 := rfl
@[simp] theorem assertReset_laddr : (assertReset s).laddr = 0#16 := rfl
@[simp] theorem assertReset_busy : (assertReset s).busy = false := rfl
@[simp] theorem assertReset_ok : (assertReset s).ok = false := rfl
@[simp] theorem assertReset_ovr : (assertReset s).ovr = false := rfl
@[simp] theorem assertReset_cause : (assertReset s).cause = .none := rfl
@[simp] theorem assertReset_cmd : (assertReset s).cmd = 0#32 := rfl
@[simp] theorem assertReset_pulsecnt : (assertReset s).pulsecnt = 0#32 := rfl
@[simp] theorem assertReset_settlecnt : (assertReset s).settlecnt = 0#32 := rfl
@[simp] theorem assertReset_laststat : (assertReset s).laststat = 0#8 := rfl
@[simp] theorem assertReset_pollcnt : (assertReset s).pollcnt = 0#19 := rfl
@[simp] theorem assertReset_dbuf : (assertReset s).dbuf = Vector.replicate 32 0#16 := rfl
@[simp] theorem assertReset_resetAsserted : (assertReset s).resetAsserted = true := rfl
@[simp] theorem assertReset_trace : (assertReset s).trace = s.trace := rfl
@[simp] theorem assertReset_samples : (assertReset s).samples = s.samples := rfl
@[simp] theorem assertReset_sampleDraws : (assertReset s).sampleDraws = s.sampleDraws := rfl
@[simp] theorem assertReset_reads : (assertReset s).reads = s.reads := rfl
@[simp] theorem assertReset_readDraws : (assertReset s).readDraws = s.readDraws := rfl
@[simp] theorem assertReset_pending : (assertReset s).pending = s.pending := rfl

@[simp] theorem releaseReset_resetAsserted : (releaseReset s).resetAsserted = false := rfl

/-- With the reset input released, the state is as it stands (R158). -/
@[simp] theorem underReset_released (h : s.resetAsserted = false) : underReset s = s := by simp [underReset, h]

/-- With the reset input asserted, the state is the reset state (R158). -/
@[simp] theorem underReset_asserted (h : s.resetAsserted = true) : underReset s = blockReset s := by
  simp [underReset, h]

@[simp] theorem blockReset_blockReset : blockReset (blockReset s) = blockReset s := rfl

@[simp] theorem blockReset_assertReset : blockReset (assertReset s) = assertReset s := rfl

@[simp] theorem underReset_resetAsserted : (underReset s).resetAsserted = s.resetAsserted := by
  unfold underReset; split <;> rfl

@[simp] theorem underReset_underReset : underReset (underReset s) = underReset s := by
  cases h : s.resetAsserted <;> simp [h]

@[simp] theorem underReset_pending : (underReset s).pending = s.pending := by unfold underReset; split <;> rfl

@[simp] theorem underReset_trace : (underReset s).trace = s.trace := by unfold underReset; split <;> rfl

/-- Releasing an input that is not asserted does nothing (R158). -/
theorem releaseReset_released (h : s.resetAsserted = false) : releaseReset s = s := by
  cases s
  simp_all [releaseReset]

/-- A host write with the reset input released is the write of the window; with it asserted it does nothing (R158). -/
@[simp] theorem hostWrite_released (off : Nat) (v : Word) (h : s.resetAsserted = false) :
    hostWrite off v s = windowWrite off v s := by simp [hostWrite, h]

@[simp] theorem hostWrite_asserted (off : Nat) (v : Word) (h : s.resetAsserted = true) : hostWrite off v s = s := by
  simp [hostWrite, h]

end

section
variable (s : State)

@[simp] theorem afterSample_ports : (afterSample s).ports = s.ports := by unfold afterSample; split <;> rfl
@[simp] theorem afterSample_mode : (afterSample s).mode = s.mode := by unfold afterSample; split <;> rfl
@[simp] theorem afterSample_seq : (afterSample s).seq = s.seq := by unfold afterSample; split <;> rfl
@[simp] theorem afterSample_shift16 : (afterSample s).shift16 = s.shift16 := by unfold afterSample; split <;> rfl
@[simp] theorem afterSample_shift8 : (afterSample s).shift8 = s.shift8 := by unfold afterSample; split <;> rfl
@[simp] theorem afterSample_bitcnt : (afterSample s).bitcnt = s.bitcnt := by unfold afterSample; split <;> rfl
@[simp] theorem afterSample_pollctr : (afterSample s).pollctr = s.pollctr := by unfold afterSample; split <;> rfl
@[simp] theorem afterSample_widx : (afterSample s).widx = s.widx := by unfold afterSample; split <;> rfl
@[simp] theorem afterSample_matched : (afterSample s).matched = s.matched := by unfold afterSample; split <;> rfl
@[simp] theorem afterSample_ready : (afterSample s).ready = s.ready := by unfold afterSample; split <;> rfl
@[simp] theorem afterSample_lcode : (afterSample s).lcode = s.lcode := by unfold afterSample; split <;> rfl
@[simp] theorem afterSample_ln : (afterSample s).ln = s.ln := by unfold afterSample; split <;> rfl
@[simp] theorem afterSample_laddr : (afterSample s).laddr = s.laddr := by unfold afterSample; split <;> rfl
@[simp] theorem afterSample_busy : (afterSample s).busy = s.busy := by unfold afterSample; split <;> rfl
@[simp] theorem afterSample_ok : (afterSample s).ok = s.ok := by unfold afterSample; split <;> rfl
@[simp] theorem afterSample_ovr : (afterSample s).ovr = s.ovr := by unfold afterSample; split <;> rfl
@[simp] theorem afterSample_cause : (afterSample s).cause = s.cause := by unfold afterSample; split <;> rfl
@[simp] theorem afterSample_cmd : (afterSample s).cmd = s.cmd := by unfold afterSample; split <;> rfl
@[simp] theorem afterSample_pulsecnt : (afterSample s).pulsecnt = s.pulsecnt := by unfold afterSample; split <;> rfl
@[simp] theorem afterSample_settlecnt : (afterSample s).settlecnt = s.settlecnt := by unfold afterSample; split <;> rfl
@[simp] theorem afterSample_laststat : (afterSample s).laststat = s.laststat := by unfold afterSample; split <;> rfl
@[simp] theorem afterSample_pollcnt : (afterSample s).pollcnt = s.pollcnt := by unfold afterSample; split <;> rfl
@[simp] theorem afterSample_dbuf : (afterSample s).dbuf = s.dbuf := by unfold afterSample; split <;> rfl
@[simp] theorem afterSample_resetAsserted : (afterSample s).resetAsserted = s.resetAsserted := by unfold afterSample; split <;> rfl
@[simp] theorem afterSample_reads : (afterSample s).reads = s.reads := by unfold afterSample; split <;> rfl
@[simp] theorem afterSample_readDraws : (afterSample s).readDraws = s.readDraws := by unfold afterSample; split <;> rfl
@[simp] theorem afterSample_pending : (afterSample s).pending = s.pending := by unfold afterSample; split <;> rfl

@[simp] theorem sampleWord_ports : (sampleWord s).ports = s.ports := afterSample_ports s
@[simp] theorem sampleWord_mode : (sampleWord s).mode = s.mode := afterSample_mode s
@[simp] theorem sampleWord_seq : (sampleWord s).seq = s.seq := afterSample_seq s
@[simp] theorem sampleWord_shift16 :
    (sampleWord s).shift16 = (shiftWordIn s.shift16 (datLevel s)) := rfl
@[simp] theorem sampleWord_shift8 : (sampleWord s).shift8 = s.shift8 := afterSample_shift8 s
@[simp] theorem sampleWord_bitcnt : (sampleWord s).bitcnt = s.bitcnt := afterSample_bitcnt s
@[simp] theorem sampleWord_pollctr : (sampleWord s).pollctr = s.pollctr := afterSample_pollctr s
@[simp] theorem sampleWord_widx : (sampleWord s).widx = s.widx := afterSample_widx s
@[simp] theorem sampleWord_matched : (sampleWord s).matched = s.matched := afterSample_matched s
@[simp] theorem sampleWord_ready : (sampleWord s).ready = s.ready := afterSample_ready s
@[simp] theorem sampleWord_lcode : (sampleWord s).lcode = s.lcode := afterSample_lcode s
@[simp] theorem sampleWord_ln : (sampleWord s).ln = s.ln := afterSample_ln s
@[simp] theorem sampleWord_laddr : (sampleWord s).laddr = s.laddr := afterSample_laddr s
@[simp] theorem sampleWord_busy : (sampleWord s).busy = s.busy := afterSample_busy s
@[simp] theorem sampleWord_ok : (sampleWord s).ok = s.ok := afterSample_ok s
@[simp] theorem sampleWord_ovr : (sampleWord s).ovr = s.ovr := afterSample_ovr s
@[simp] theorem sampleWord_cause : (sampleWord s).cause = s.cause := afterSample_cause s
@[simp] theorem sampleWord_cmd : (sampleWord s).cmd = s.cmd := afterSample_cmd s
@[simp] theorem sampleWord_pulsecnt : (sampleWord s).pulsecnt = s.pulsecnt := afterSample_pulsecnt s
@[simp] theorem sampleWord_settlecnt : (sampleWord s).settlecnt = s.settlecnt := afterSample_settlecnt s
@[simp] theorem sampleWord_laststat : (sampleWord s).laststat = s.laststat := afterSample_laststat s
@[simp] theorem sampleWord_pollcnt : (sampleWord s).pollcnt = s.pollcnt := afterSample_pollcnt s
@[simp] theorem sampleWord_dbuf : (sampleWord s).dbuf = s.dbuf := afterSample_dbuf s
@[simp] theorem sampleWord_resetAsserted : (sampleWord s).resetAsserted = s.resetAsserted := afterSample_resetAsserted s
@[simp] theorem sampleWord_trace : (sampleWord s).trace = (afterSample s).trace := rfl
@[simp] theorem sampleWord_samples : (sampleWord s).samples = (afterSample s).samples := rfl
@[simp] theorem sampleWord_sampleDraws : (sampleWord s).sampleDraws = (afterSample s).sampleDraws := rfl
@[simp] theorem sampleWord_reads : (sampleWord s).reads = s.reads := afterSample_reads s
@[simp] theorem sampleWord_readDraws : (sampleWord s).readDraws = s.readDraws := afterSample_readDraws s
@[simp] theorem sampleWord_pending : (sampleWord s).pending = s.pending := afterSample_pending s

@[simp] theorem sampleStatus_ports : (sampleStatus s).ports = s.ports := afterSample_ports s
@[simp] theorem sampleStatus_mode : (sampleStatus s).mode = s.mode := afterSample_mode s
@[simp] theorem sampleStatus_seq : (sampleStatus s).seq = s.seq := afterSample_seq s
@[simp] theorem sampleStatus_shift16 : (sampleStatus s).shift16 = s.shift16 := afterSample_shift16 s
@[simp] theorem sampleStatus_shift8 :
    (sampleStatus s).shift8 = (shiftStatusIn s.shift8 (datLevel s)) := rfl
@[simp] theorem sampleStatus_bitcnt : (sampleStatus s).bitcnt = s.bitcnt := afterSample_bitcnt s
@[simp] theorem sampleStatus_pollctr : (sampleStatus s).pollctr = s.pollctr := afterSample_pollctr s
@[simp] theorem sampleStatus_widx : (sampleStatus s).widx = s.widx := afterSample_widx s
@[simp] theorem sampleStatus_matched : (sampleStatus s).matched = s.matched := afterSample_matched s
@[simp] theorem sampleStatus_ready : (sampleStatus s).ready = s.ready := afterSample_ready s
@[simp] theorem sampleStatus_lcode : (sampleStatus s).lcode = s.lcode := afterSample_lcode s
@[simp] theorem sampleStatus_ln : (sampleStatus s).ln = s.ln := afterSample_ln s
@[simp] theorem sampleStatus_laddr : (sampleStatus s).laddr = s.laddr := afterSample_laddr s
@[simp] theorem sampleStatus_busy : (sampleStatus s).busy = s.busy := afterSample_busy s
@[simp] theorem sampleStatus_ok : (sampleStatus s).ok = s.ok := afterSample_ok s
@[simp] theorem sampleStatus_ovr : (sampleStatus s).ovr = s.ovr := afterSample_ovr s
@[simp] theorem sampleStatus_cause : (sampleStatus s).cause = s.cause := afterSample_cause s
@[simp] theorem sampleStatus_cmd : (sampleStatus s).cmd = s.cmd := afterSample_cmd s
@[simp] theorem sampleStatus_pulsecnt : (sampleStatus s).pulsecnt = s.pulsecnt := afterSample_pulsecnt s
@[simp] theorem sampleStatus_settlecnt : (sampleStatus s).settlecnt = s.settlecnt := afterSample_settlecnt s
@[simp] theorem sampleStatus_laststat : (sampleStatus s).laststat = s.laststat := afterSample_laststat s
@[simp] theorem sampleStatus_pollcnt : (sampleStatus s).pollcnt = s.pollcnt := afterSample_pollcnt s
@[simp] theorem sampleStatus_dbuf : (sampleStatus s).dbuf = s.dbuf := afterSample_dbuf s
@[simp] theorem sampleStatus_resetAsserted : (sampleStatus s).resetAsserted = s.resetAsserted := afterSample_resetAsserted s
@[simp] theorem sampleStatus_trace : (sampleStatus s).trace = (afterSample s).trace := rfl
@[simp] theorem sampleStatus_samples : (sampleStatus s).samples = (afterSample s).samples := rfl
@[simp] theorem sampleStatus_sampleDraws : (sampleStatus s).sampleDraws = (afterSample s).sampleDraws := rfl
@[simp] theorem sampleStatus_reads : (sampleStatus s).reads = s.reads := afterSample_reads s
@[simp] theorem sampleStatus_readDraws : (sampleStatus s).readDraws = s.readDraws := afterSample_readDraws s
@[simp] theorem sampleStatus_pending : (sampleStatus s).pending = s.pending := afterSample_pending s

@[simp] theorem samplePoll_ports : (samplePoll s).ports = s.ports := afterSample_ports s
@[simp] theorem samplePoll_mode : (samplePoll s).mode = s.mode := afterSample_mode s
@[simp] theorem samplePoll_seq : (samplePoll s).seq = s.seq := afterSample_seq s
@[simp] theorem samplePoll_shift16 : (samplePoll s).shift16 = s.shift16 := afterSample_shift16 s
@[simp] theorem samplePoll_shift8 : (samplePoll s).shift8 = s.shift8 := afterSample_shift8 s
@[simp] theorem samplePoll_bitcnt : (samplePoll s).bitcnt = s.bitcnt := afterSample_bitcnt s
@[simp] theorem samplePoll_pollctr :
    (samplePoll s).pollctr = (s.pollctr + 1#19) := rfl
@[simp] theorem samplePoll_widx : (samplePoll s).widx = s.widx := afterSample_widx s
@[simp] theorem samplePoll_matched : (samplePoll s).matched = s.matched := afterSample_matched s
@[simp] theorem samplePoll_ready :
    (samplePoll s).ready = (if datLevel s then true else s.ready) := rfl
@[simp] theorem samplePoll_lcode : (samplePoll s).lcode = s.lcode := afterSample_lcode s
@[simp] theorem samplePoll_ln : (samplePoll s).ln = s.ln := afterSample_ln s
@[simp] theorem samplePoll_laddr : (samplePoll s).laddr = s.laddr := afterSample_laddr s
@[simp] theorem samplePoll_busy : (samplePoll s).busy = s.busy := afterSample_busy s
@[simp] theorem samplePoll_ok : (samplePoll s).ok = s.ok := afterSample_ok s
@[simp] theorem samplePoll_ovr : (samplePoll s).ovr = s.ovr := afterSample_ovr s
@[simp] theorem samplePoll_cause : (samplePoll s).cause = s.cause := afterSample_cause s
@[simp] theorem samplePoll_cmd : (samplePoll s).cmd = s.cmd := afterSample_cmd s
@[simp] theorem samplePoll_pulsecnt : (samplePoll s).pulsecnt = s.pulsecnt := afterSample_pulsecnt s
@[simp] theorem samplePoll_settlecnt : (samplePoll s).settlecnt = s.settlecnt := afterSample_settlecnt s
@[simp] theorem samplePoll_laststat : (samplePoll s).laststat = s.laststat := afterSample_laststat s
@[simp] theorem samplePoll_pollcnt : (samplePoll s).pollcnt = s.pollcnt := afterSample_pollcnt s
@[simp] theorem samplePoll_dbuf : (samplePoll s).dbuf = s.dbuf := afterSample_dbuf s
@[simp] theorem samplePoll_resetAsserted : (samplePoll s).resetAsserted = s.resetAsserted := afterSample_resetAsserted s
@[simp] theorem samplePoll_trace : (samplePoll s).trace = (afterSample s).trace := rfl
@[simp] theorem samplePoll_samples : (samplePoll s).samples = (afterSample s).samples := rfl
@[simp] theorem samplePoll_sampleDraws : (samplePoll s).sampleDraws = (afterSample s).sampleDraws := rfl
@[simp] theorem samplePoll_reads : (samplePoll s).reads = s.reads := afterSample_reads s
@[simp] theorem samplePoll_readDraws : (samplePoll s).readDraws = s.readDraws := afterSample_readDraws s
@[simp] theorem samplePoll_pending : (samplePoll s).pending = s.pending := afterSample_pending s

end

/-! The consuming fields of a sample, with DAT an input and with DAT an output (R27). -/

theorem afterSample_samples (s : State) (h : s.ports.dat.dir = .input) : (afterSample s).samples = s.samples.tail := by
  simp [afterSample, h]

theorem afterSample_sampleDraws (s : State) (h : s.ports.dat.dir = .input) :
    (afterSample s).sampleDraws = s.sampleDraws + 1 := by
  simp [afterSample, h]

theorem afterSample_trace (s : State) (h : s.ports.dat.dir = .input) :
    (afterSample s).trace = .sample .dat (upcoming s 0) :: s.trace := by
  simp [afterSample, h]

theorem datLevel_input (s : State) (h : s.ports.dat.dir = .input) : datLevel s = upcoming s 0 := by
  simp [datLevel, h]

theorem datLevel_output (s : State) (h : s.ports.dat.dir = .output) : datLevel s = s.ports.dat.out := by
  simp [datLevel, h]

theorem afterSample_output (s : State) (h : s.ports.dat.dir = .output) :
    afterSample s = { s with trace := .sample .dat s.ports.dat.out :: s.trace } := by
  simp [afterSample, h]

/-! The ports after `SetDir` and `Drive` (R25). -/

@[simp] theorem portOf_withPort (p : Ports) (l : Line) (q : Port) : portOf (withPort p l q) l = q := by
  cases l <;> rfl

theorem portOf_withPort_ne (p : Ports) (l k : Line) (q : Port) (h : k ≠ l) :
    portOf (withPort p l q) k = portOf p k := by
  cases l <;> cases k <;> first | rfl | exact absurd rfl h

@[simp] theorem portsDrive_pwrN_pwrN (p : Ports) (b : Bool) :
    (portsDrive p .pwrN b).pwrN = ⟨p.pwrN.dir, b⟩ := rfl
@[simp] theorem portsDrive_pwrN_clk (p : Ports) (b : Bool) :
    (portsDrive p .pwrN b).clk = p.clk := rfl
@[simp] theorem portsDrive_pwrN_oe (p : Ports) (b : Bool) :
    (portsDrive p .pwrN b).oe = p.oe := rfl
@[simp] theorem portsDrive_pwrN_pgm (p : Ports) (b : Bool) :
    (portsDrive p .pwrN b).pgm = p.pgm := rfl
@[simp] theorem portsDrive_pwrN_dat (p : Ports) (b : Bool) :
    (portsDrive p .pwrN b).dat = p.dat := rfl
@[simp] theorem portsDrive_clk_pwrN (p : Ports) (b : Bool) :
    (portsDrive p .clk b).pwrN = p.pwrN := rfl
@[simp] theorem portsDrive_clk_clk (p : Ports) (b : Bool) :
    (portsDrive p .clk b).clk = ⟨p.clk.dir, b⟩ := rfl
@[simp] theorem portsDrive_clk_oe (p : Ports) (b : Bool) :
    (portsDrive p .clk b).oe = p.oe := rfl
@[simp] theorem portsDrive_clk_pgm (p : Ports) (b : Bool) :
    (portsDrive p .clk b).pgm = p.pgm := rfl
@[simp] theorem portsDrive_clk_dat (p : Ports) (b : Bool) :
    (portsDrive p .clk b).dat = p.dat := rfl
@[simp] theorem portsDrive_oe_pwrN (p : Ports) (b : Bool) :
    (portsDrive p .oe b).pwrN = p.pwrN := rfl
@[simp] theorem portsDrive_oe_clk (p : Ports) (b : Bool) :
    (portsDrive p .oe b).clk = p.clk := rfl
@[simp] theorem portsDrive_oe_oe (p : Ports) (b : Bool) :
    (portsDrive p .oe b).oe = ⟨p.oe.dir, b⟩ := rfl
@[simp] theorem portsDrive_oe_pgm (p : Ports) (b : Bool) :
    (portsDrive p .oe b).pgm = p.pgm := rfl
@[simp] theorem portsDrive_oe_dat (p : Ports) (b : Bool) :
    (portsDrive p .oe b).dat = p.dat := rfl
@[simp] theorem portsDrive_pgm_pwrN (p : Ports) (b : Bool) :
    (portsDrive p .pgm b).pwrN = p.pwrN := rfl
@[simp] theorem portsDrive_pgm_clk (p : Ports) (b : Bool) :
    (portsDrive p .pgm b).clk = p.clk := rfl
@[simp] theorem portsDrive_pgm_oe (p : Ports) (b : Bool) :
    (portsDrive p .pgm b).oe = p.oe := rfl
@[simp] theorem portsDrive_pgm_pgm (p : Ports) (b : Bool) :
    (portsDrive p .pgm b).pgm = ⟨p.pgm.dir, b⟩ := rfl
@[simp] theorem portsDrive_pgm_dat (p : Ports) (b : Bool) :
    (portsDrive p .pgm b).dat = p.dat := rfl
@[simp] theorem portsDrive_dat_pwrN (p : Ports) (b : Bool) :
    (portsDrive p .dat b).pwrN = p.pwrN := rfl
@[simp] theorem portsDrive_dat_clk (p : Ports) (b : Bool) :
    (portsDrive p .dat b).clk = p.clk := rfl
@[simp] theorem portsDrive_dat_oe (p : Ports) (b : Bool) :
    (portsDrive p .dat b).oe = p.oe := rfl
@[simp] theorem portsDrive_dat_pgm (p : Ports) (b : Bool) :
    (portsDrive p .dat b).pgm = p.pgm := rfl
@[simp] theorem portsDrive_dat_dat (p : Ports) (b : Bool) :
    (portsDrive p .dat b).dat = ⟨p.dat.dir, b⟩ := rfl
@[simp] theorem portsSetDir_pwrN_pwrN (p : Ports) (d : Dir) :
    (portsSetDir p .pwrN d).pwrN = ⟨d, p.pwrN.out⟩ := rfl
@[simp] theorem portsSetDir_pwrN_clk (p : Ports) (d : Dir) :
    (portsSetDir p .pwrN d).clk = p.clk := rfl
@[simp] theorem portsSetDir_pwrN_oe (p : Ports) (d : Dir) :
    (portsSetDir p .pwrN d).oe = p.oe := rfl
@[simp] theorem portsSetDir_pwrN_pgm (p : Ports) (d : Dir) :
    (portsSetDir p .pwrN d).pgm = p.pgm := rfl
@[simp] theorem portsSetDir_pwrN_dat (p : Ports) (d : Dir) :
    (portsSetDir p .pwrN d).dat = p.dat := rfl
@[simp] theorem portsSetDir_clk_pwrN (p : Ports) (d : Dir) :
    (portsSetDir p .clk d).pwrN = p.pwrN := rfl
@[simp] theorem portsSetDir_clk_clk (p : Ports) (d : Dir) :
    (portsSetDir p .clk d).clk = ⟨d, p.clk.out⟩ := rfl
@[simp] theorem portsSetDir_clk_oe (p : Ports) (d : Dir) :
    (portsSetDir p .clk d).oe = p.oe := rfl
@[simp] theorem portsSetDir_clk_pgm (p : Ports) (d : Dir) :
    (portsSetDir p .clk d).pgm = p.pgm := rfl
@[simp] theorem portsSetDir_clk_dat (p : Ports) (d : Dir) :
    (portsSetDir p .clk d).dat = p.dat := rfl
@[simp] theorem portsSetDir_oe_pwrN (p : Ports) (d : Dir) :
    (portsSetDir p .oe d).pwrN = p.pwrN := rfl
@[simp] theorem portsSetDir_oe_clk (p : Ports) (d : Dir) :
    (portsSetDir p .oe d).clk = p.clk := rfl
@[simp] theorem portsSetDir_oe_oe (p : Ports) (d : Dir) :
    (portsSetDir p .oe d).oe = ⟨d, p.oe.out⟩ := rfl
@[simp] theorem portsSetDir_oe_pgm (p : Ports) (d : Dir) :
    (portsSetDir p .oe d).pgm = p.pgm := rfl
@[simp] theorem portsSetDir_oe_dat (p : Ports) (d : Dir) :
    (portsSetDir p .oe d).dat = p.dat := rfl
@[simp] theorem portsSetDir_pgm_pwrN (p : Ports) (d : Dir) :
    (portsSetDir p .pgm d).pwrN = p.pwrN := rfl
@[simp] theorem portsSetDir_pgm_clk (p : Ports) (d : Dir) :
    (portsSetDir p .pgm d).clk = p.clk := rfl
@[simp] theorem portsSetDir_pgm_oe (p : Ports) (d : Dir) :
    (portsSetDir p .pgm d).oe = p.oe := rfl
@[simp] theorem portsSetDir_pgm_pgm (p : Ports) (d : Dir) :
    (portsSetDir p .pgm d).pgm = ⟨d, p.pgm.out⟩ := rfl
@[simp] theorem portsSetDir_pgm_dat (p : Ports) (d : Dir) :
    (portsSetDir p .pgm d).dat = p.dat := rfl
@[simp] theorem portsSetDir_dat_pwrN (p : Ports) (d : Dir) :
    (portsSetDir p .dat d).pwrN = p.pwrN := rfl
@[simp] theorem portsSetDir_dat_clk (p : Ports) (d : Dir) :
    (portsSetDir p .dat d).clk = p.clk := rfl
@[simp] theorem portsSetDir_dat_oe (p : Ports) (d : Dir) :
    (portsSetDir p .dat d).oe = p.oe := rfl
@[simp] theorem portsSetDir_dat_pgm (p : Ports) (d : Dir) :
    (portsSetDir p .dat d).pgm = p.pgm := rfl
@[simp] theorem portsSetDir_dat_dat (p : Ports) (d : Dir) :
    (portsSetDir p .dat d).dat = ⟨d, p.dat.out⟩ := rfl

/-! The status views. -/

@[simp] theorem statusMatches_iff (b : Byte) : statusMatches b = true ↔ b = Config.statusOk := by
  simp [statusMatches]

end Sys2Proof.Machine
end

