-- ==== Sys2Proof/Laws/Run.lean ====
section
/-! SUPPORT. How a list of sequencer operations runs, piece by piece: each primitive's list is a function on states,
and a list that may fail is an if. -/

namespace Sys2Proof.Machine

open Sys2Proof

/-- Once the command has ended, nothing more happens (R144). -/
theorem run_idle (p : List Micro) (s : State) (h : s.busy = false) : run p s = s := by
  cases p <;> simp [run, h]

theorem run_failCommand (p : List Micro) (c : Cause) (s : State) : run p (failCommand c s) = failCommand c s :=
  run_idle _ _ rfl

theorem run_nil (s : State) : run [] s = s := rfl

theorem run_cons (m : Micro) (p : List Micro) (s : State) (h : s.busy = true) :
    run (m :: p) s = run p (execMicro m s) := by
  simp [run, h]

theorem run_append (p q : List Micro) (s : State) : run (p ++ q) s = run q (run p s) := by
  induction p generalizing s with
  | nil => rfl
  | cons m p ih =>
    cases h : s.busy with
    | true => simp only [List.cons_append, run_cons _ _ _ h, ih]
    | false => rw [run_idle _ _ h, run_idle _ _ h, run_idle _ _ h]

/-- `g (n-1) (… (g 0 s))`: what a loop of the pseudocode does. -/
def loopState : Nat → (Nat → State → State) → State → State
  | 0, _, s => s
  | n + 1, g, s => g n (loopState n g s)

/-- What every pass of a loop keeps, the loop keeps. -/
theorem loopState_preserves {α : Type} (f : State → α) (g : Nat → State → State) (h : ∀ j s, f (g j s) = f s)
    (n : Nat) (s : State) : f (loopState n g s) = f s := by
  induction n with
  | zero => rfl
  | succ n ih => rw [loopState, h, ih]

/-- A loop whose body runs as `g` runs as the loop of `g`. -/
theorem run_repeatOps (n : Nat) (f : Nat → List Micro) (g : Nat → State → State)
    (hb : ∀ j s, s.busy = true → (g j s).busy = true)
    (hr : ∀ j s, s.busy = true → run (f j) s = g j s) (s : State) (h : s.busy = true) :
    run (repeatOps n f) s = loopState n g s := by
  have hbusy : ∀ n, (loopState n g s).busy = true := fun n => by
    induction n with
    | zero => exact h
    | succ n ih => exact hb _ _ ih
  induction n with
  | zero => rfl
  | succ n ih =>
    rw [show repeatOps (n + 1) f = repeatOps n f ++ f n by simp [repeatOps, List.range_succ], run_append, ih,
      hr _ _ (hbusy n)]
    rfl

/-! The primitives as functions on states. -/

theorem run_clkOps (s : State) (h : s.busy = true) : run clkOps s = clkPulse s := by
  simp [clkOps, run, execMicro, clkPulse, h]

/-- SetWriteMode (R98). -/
def setWriteMode (s : State) : State :=
  if s.mode = .write then s
  else
    setMode .write (countSettle (sleepFor .settle (drive .pgm true (drive .oe false (drive .clk false
      (setDir .dat .output (drive .dat false s)))))))

theorem run_setWriteModeOps (s : State) (h : s.busy = true) : run setWriteModeOps s = setWriteMode s := by
  by_cases hm : s.mode = .write <;> simp [setWriteModeOps, setWriteMode, run, execMicro, h, hm]

/-- SetReadMode (R99). -/
def setReadMode (s : State) : State :=
  if s.mode = .read then s
  else
    setMode .read (countSettle (sleepFor .settle (drive .pgm false (drive .oe false (drive .clk false
      (setDir .dat .input s))))))

theorem run_setReadModeOps (s : State) (h : s.busy = true) : run setReadModeOps s = setReadMode s := by
  by_cases hm : s.mode = .read <;> simp [setReadModeOps, setReadMode, run, execMicro, h, hm]

/-- EnterWriteData (R100). -/
def enterWriteData (s : State) : State := setMode .writeData (drive .pgm false s)

theorem run_enterWriteDataOps (s : State) (h : s.busy = true) : run enterWriteDataOps s = enterWriteData s := by
  simp [enterWriteDataOps, enterWriteData, run, execMicro, h]

/-- One status bit received (R111). -/
def statusBit (j : Nat) (s : State) : State := sampleStatus (clkPulse (setBit j s))

/-- One word bit received (R110). -/
def wordBit (j : Nat) (s : State) : State := sampleWord (clkPulse (setBit j s))

/-- One bit of an opcode frame sent (R107). -/
def opcodeBit (src : OpcodeSrc) (j : Nat) (s : State) : State :=
  clkPulse (drive .oe ((opcodeFrame (opcodeOf src s)).getLsbD (15 - j)) (setBit j s))

/-- One bit of a value frame sent (R109). -/
def valueBit (src : ValueSrc) (j : Nat) (s : State) : State :=
  clkPulse (drive .oe ((valueFrame (valueOf src s)).getLsbD (31 - j)) (setBit j s))

/-- What an operand depends on: LN, LADDR and DBUF. -/
theorem opcodeOf_congr (src : OpcodeSrc) (s t : State) (h : s.ln = t.ln) : opcodeOf src s = opcodeOf src t := by
  cases src <;> simp [opcodeOf, h]

theorem valueOf_congr (src : ValueSrc) (s t : State) (ha : s.laddr = t.laddr) (hd : s.dbuf = t.dbuf) :
    valueOf src s = valueOf src t := by
  cases src <;> simp [valueOf, dbufGet, ha, hd]

@[simp] theorem clkPulse_busy (s : State) : (clkPulse s).busy = s.busy := rfl

theorem run_statusBitOps (j : Nat) (s : State) (h : s.busy = true) : run (statusBitOps j) s = statusBit j s := by
  simp [statusBitOps, run_append, run_cons, run_nil, execMicro, h, run_clkOps, statusBit]

theorem run_wordBitOps (j : Nat) (s : State) (h : s.busy = true) : run (wordBitOps j) s = wordBit j s := by
  simp [wordBitOps, run_append, run_cons, run_nil, execMicro, h, run_clkOps, wordBit]

theorem run_opcodeBitOps (src : OpcodeSrc) (j : Nat) (s : State) (h : s.busy = true) :
    run (opcodeBitOps src j) s = opcodeBit src j s := by
  simp [opcodeBitOps, run_cons, execMicro, h, run_clkOps, opcodeBit,
    opcodeOf_congr src (setBit j s) s rfl]

theorem run_valueBitOps (src : ValueSrc) (j : Nat) (s : State) (h : s.busy = true) :
    run (valueBitOps src j) s = valueBit src j s := by
  simp [valueBitOps, run_cons, execMicro, h, run_clkOps, valueBit,
    valueOf_congr src (setBit j s) s rfl rfl]

@[simp] theorem statusBit_busy (j : Nat) (s : State) : (statusBit j s).busy = s.busy := by simp [statusBit]

@[simp] theorem wordBit_busy (j : Nat) (s : State) : (wordBit j s).busy = s.busy := by simp [wordBit]

@[simp] theorem opcodeBit_busy (src : OpcodeSrc) (j : Nat) (s : State) : (opcodeBit src j s).busy = s.busy := by
  simp [opcodeBit]

@[simp] theorem valueBit_busy (src : ValueSrc) (j : Nat) (s : State) : (valueBit src j s).busy = s.busy := by
  simp [valueBit]

@[simp] theorem setWriteMode_busy (s : State) : (setWriteMode s).busy = s.busy := by
  unfold setWriteMode; split <;> rfl

@[simp] theorem setReadMode_busy (s : State) : (setReadMode s).busy = s.busy := by
  unfold setReadMode; split <;> rfl

@[simp] theorem enterWriteData_busy (s : State) : (enterWriteData s).busy = s.busy := rfl

theorem loopState_busy (g : Nat → State → State) (h : ∀ j s, (g j s).busy = s.busy) (n : Nat) (s : State) :
    (loopState n g s).busy = s.busy :=
  loopState_preserves (·.busy) g h n s

/-- Bare pulses (R112). -/
def pulses (n : Nat) (s : State) : State := loopState n (fun _ u => clkPulse u) s

/-- RecvStatus (R111), the comparison's result in the internal status match. -/
def recvStatus (s : State) : State := latchStatus (clkPulse (loopState 8 statusBit (setReadMode s)))

/-- SendOpcode (R107). -/
def sendOpcode (src : OpcodeSrc) (s : State) : State := recvStatus (loopState 16 (opcodeBit src) (setWriteMode s))

/-- SendValue (R109). -/
def sendValue (src : ValueSrc) (s : State) : State :=
  recvStatus (loopState 32 (valueBit src) (enterWriteData (setWriteMode s)))

/-- RecvWord (R110), the word in SHIFT16. -/
def recvWord (s : State) : State := loopState 16 wordBit (setReadMode s)

/-- A poll as far as its ticks (R116). -/
def pollWait (budget : Nat) (s : State) : State :=
  latchPollCount (pollTicks budget (startPoll (setReadMode s)))

/-- A poll's status read: no trailing pulse (R116). -/
def pollStatus (s : State) : State := latchStatus (loopState 8 statusBit s)

@[simp] theorem pulses_busy (n : Nat) (s : State) : (pulses n s).busy = s.busy :=
  loopState_busy (fun _ u => clkPulse u) (fun _ _ => rfl) n s

@[simp] theorem recvStatus_busy (s : State) : (recvStatus s).busy = s.busy := by
  simp [recvStatus, loopState_busy]

@[simp] theorem sendOpcode_busy (src : OpcodeSrc) (s : State) : (sendOpcode src s).busy = s.busy := by
  simp [sendOpcode, loopState_busy]

@[simp] theorem sendValue_busy (src : ValueSrc) (s : State) : (sendValue src s).busy = s.busy := by
  simp [sendValue, loopState_busy]

@[simp] theorem recvWord_busy (s : State) : (recvWord s).busy = s.busy := by
  simp [recvWord, loopState_busy]

theorem pollTicks_preserves {α : Type} (f : State → α) (h : ∀ s, f (pollTick s) = f s) (n : Nat) (s : State) :
    f (pollTicks n s) = f s := by
  induction n generalizing s with
  | zero => rfl
  | succ n ih =>
    unfold pollTicks
    split
    · rfl
    · rw [ih, h]

@[simp] theorem pollTicks_busy (n : Nat) (s : State) : (pollTicks n s).busy = s.busy :=
  pollTicks_preserves (·.busy) (fun s => by simp [pollTick]) n s

@[simp] theorem pollWait_busy (budget : Nat) (s : State) : (pollWait budget s).busy = s.busy := by simp [pollWait]

@[simp] theorem pollStatus_busy (s : State) : (pollStatus s).busy = s.busy := by simp [pollStatus, loopState_busy]

theorem run_pulsesOps (n : Nat) (s : State) (h : s.busy = true) : run (pulsesOps n) s = pulses n s :=
  run_repeatOps n (fun _ => clkOps) (fun _ u => clkPulse u) (fun _ _ hs => hs) (fun _ s hs => run_clkOps s hs) s h

theorem run_recvStatusOps (s : State) (h : s.busy = true) : run recvStatusOps s = recvStatus s := by
  have hb : (loopState 8 statusBit (setReadMode s)).busy = true := by simp [loopState_busy, h]
  simp only [recvStatusOps, run_append, run_setReadModeOps s h,
    run_repeatOps 8 _ _ (fun j s hs => by simp [hs]) run_statusBitOps (setReadMode s) (by simp [h]), run_clkOps _ hb]
  simp [run, execMicro, hb, recvStatus]

theorem run_recvWordOps (s : State) (h : s.busy = true) : run recvWordOps s = recvWord s := by
  simp only [recvWordOps, run_append, run_setReadModeOps s h]
  exact run_repeatOps 16 _ _ (fun j s hs => by simp [hs]) run_wordBitOps (setReadMode s) (by simp [h])

/-- A status reception whose caller fails on a mismatch, and what follows it (R18, R144). -/
theorem run_checkStatusOps (c : Cause) (rest : List Micro) (s : State) (h : s.busy = true) :
    run (checkStatusOps c ++ rest) s =
      if (recvStatus s).matched then run rest (recvStatus s) else failCommand c (recvStatus s) := by
  have hb : (recvStatus s).busy = true := by simp [h]
  simp only [checkStatusOps, run_append, run_recvStatusOps s h]
  rw [run_cons _ _ _ hb, run_nil]
  cases hm : (recvStatus s).matched with
  | true => simp [execMicro, hm]
  | false => simp [execMicro, hm, run_failCommand]

/-- An opcode frame, its status, and what follows (R107). -/
theorem run_sendOpcodeOps (src : OpcodeSrc) (c : Cause) (rest : List Micro) (s : State) (h : s.busy = true) :
    run (sendOpcodeOps src c ++ rest) s =
      if (sendOpcode src s).matched then run rest (sendOpcode src s) else failCommand c (sendOpcode src s) := by
  have hb : (loopState 16 (opcodeBit src) (setWriteMode s)).busy = true := by simp [loopState_busy, h]
  rw [sendOpcodeOps, List.append_assoc, List.append_assoc, run_append, run_append, run_setWriteModeOps s h,
    run_repeatOps 16 _ _ (fun j s hs => by simp [hs]) (run_opcodeBitOps src) (setWriteMode s) (by simp [h]),
    run_checkStatusOps c rest _ hb]
  rfl

/-- A value frame, its status, and what follows (R109). -/
theorem run_sendValueOps (src : ValueSrc) (c : Cause) (rest : List Micro) (s : State) (h : s.busy = true) :
    run (sendValueOps src c ++ rest) s =
      if (sendValue src s).matched then run rest (sendValue src s) else failCommand c (sendValue src s) := by
  have hb : (loopState 32 (valueBit src) (enterWriteData (setWriteMode s))).busy = true := by
    simp [loopState_busy, h]
  rw [sendValueOps, List.append_assoc, List.append_assoc, List.append_assoc, run_append, run_append, run_append,
    run_setWriteModeOps s h, run_enterWriteDataOps _ (by simp [h]),
    run_repeatOps 32 _ _ (fun j s hs => by simp [hs]) (run_valueBitOps src) _ (by simp [h]),
    run_checkStatusOps c rest _ hb]
  rfl

/-- A poll, and what follows it (R116): a timeout reads no status. -/
theorem run_pollOps (budget : Nat) (rest : List Micro) (s : State) (h : s.busy = true) :
    run (pollOps budget ++ rest) s =
      if (pollWait budget s).ready then
        if (pollStatus (pollWait budget s)).matched then run rest (pollStatus (pollWait budget s))
        else failCommand .pollStatus (pollStatus (pollWait budget s))
      else failCommand .pollTimeout (pollWait budget s) := by
  have hw : (pollWait budget s).busy = true := by simp [h]
  have hs : (pollStatus (pollWait budget s)).busy = true := by simp [h]
  have hbits := run_repeatOps 8 _ _ (fun j s hs => by simp [hs]) run_statusBitOps (pollWait budget s) hw
  have hwait : run [.startPoll, .pollLoop budget, .latchPollCount, .failUnlessReady .pollTimeout] (setReadMode s) =
      if (pollWait budget s).ready then pollWait budget s else failCommand .pollTimeout (pollWait budget s) := by
    simp [run, execMicro, pollWait, h]
    rfl
  rw [pollOps]
  simp only [run_append, run_setReadModeOps s h, hwait]
  cases hr : (pollWait budget s).ready with
  | false => simp [run_failCommand]
  | true =>
    simp only [if_true, hbits]
    rw [run_cons _ _ _ (by simp [loopState_busy, h]), run_cons _ _ _ (by simp [execMicro, loopState_busy, h])]
    change run rest (run [] (execMicro (.failUnlessMatch .pollStatus) (pollStatus (pollWait budget s)))) = _
    cases hm : (pollStatus (pollWait budget s)).matched with
    | true => simp [execMicro, hm, run_nil]
    | false => simp [execMicro, hm, run_failCommand]

/-- The liveness check, and what follows it (R125). -/
theorem run_checkOps (rest : List Micro) (s : State) (h : s.busy = true) :
    run (checkOps ++ rest) s =
      if (sendOpcode (.const Config.opcCheck) s).matched then run rest (sendOpcode (.const Config.opcCheck) s)
      else failCommand .checkFail (sendOpcode (.const Config.opcCheck) s) :=
  run_sendOpcodeOps _ _ rest s h

theorem run_succeed (s : State) (h : s.busy = true) : run [.succeed] s = succeedCommand s := by
  simp [run, execMicro, h]

theorem run_storeWord (i : Nat) (rest : List Micro) (s : State) (h : s.busy = true) :
    run (.storeWord i :: rest) s = run rest (storeWord i s) := by
  simp [run, execMicro, h]

theorem run_setWidx (i : Nat) (rest : List Micro) (s : State) (h : s.busy = true) :
    run (.setWidx i :: rest) s = run rest (setWidx i s) := by
  simp [run, execMicro, h]

end Sys2Proof.Machine
end

