-- ==== Sys2Proof/Laws/Phases.lean ====
section
/-! SUPPORT. What each phase of a command does to each field: the loops of bits, the mode changes, the frames, the
word and status receptions, and the poll. -/

namespace Sys2Proof.Machine

open Sys2Proof

/-! The coming samples: what does not touch the target's levels keeps them; a sample shifts them by one. -/

theorem upcoming_congr (s t : State) (hs : t.samples = s.samples) (hd : t.sampleDraws = s.sampleDraws) (j : Nat) :
    upcoming t j = upcoming s j := by
  simp [upcoming, hs, hd]

theorem upcoming_drop (s t : State) (n : Nat) (hs : t.samples = s.samples.drop n)
    (hd : t.sampleDraws = s.sampleDraws + n) (j : Nat) : upcoming t j = upcoming s (j + n) := by
  simp [upcoming, hs, hd, List.getElem?_drop, Nat.add_comm, Nat.add_left_comm]

/-! The clock. -/

section

@[simp] theorem clkPulse_mode (s : State) : (clkPulse s).mode = s.mode :=
  rfl
@[simp] theorem clkPulse_seq (s : State) : (clkPulse s).seq = s.seq :=
  rfl
@[simp] theorem clkPulse_shift16 (s : State) : (clkPulse s).shift16 = s.shift16 :=
  rfl
@[simp] theorem clkPulse_shift8 (s : State) : (clkPulse s).shift8 = s.shift8 :=
  rfl
@[simp] theorem clkPulse_bitcnt (s : State) : (clkPulse s).bitcnt = s.bitcnt :=
  rfl
@[simp] theorem clkPulse_pollctr (s : State) : (clkPulse s).pollctr = s.pollctr :=
  rfl
@[simp] theorem clkPulse_widx (s : State) : (clkPulse s).widx = s.widx :=
  rfl
@[simp] theorem clkPulse_matched (s : State) : (clkPulse s).matched = s.matched :=
  rfl
@[simp] theorem clkPulse_ready (s : State) : (clkPulse s).ready = s.ready :=
  rfl
@[simp] theorem clkPulse_lcode (s : State) : (clkPulse s).lcode = s.lcode :=
  rfl
@[simp] theorem clkPulse_ln (s : State) : (clkPulse s).ln = s.ln :=
  rfl
@[simp] theorem clkPulse_laddr (s : State) : (clkPulse s).laddr = s.laddr :=
  rfl
@[simp] theorem clkPulse_ok (s : State) : (clkPulse s).ok = s.ok :=
  rfl
@[simp] theorem clkPulse_ovr (s : State) : (clkPulse s).ovr = s.ovr :=
  rfl
@[simp] theorem clkPulse_cause (s : State) : (clkPulse s).cause = s.cause :=
  rfl
@[simp] theorem clkPulse_cmd (s : State) : (clkPulse s).cmd = s.cmd :=
  rfl
@[simp] theorem clkPulse_settlecnt (s : State) : (clkPulse s).settlecnt = s.settlecnt :=
  rfl
@[simp] theorem clkPulse_laststat (s : State) : (clkPulse s).laststat = s.laststat :=
  rfl
@[simp] theorem clkPulse_pollcnt (s : State) : (clkPulse s).pollcnt = s.pollcnt :=
  rfl
@[simp] theorem clkPulse_dbuf (s : State) : (clkPulse s).dbuf = s.dbuf :=
  rfl
@[simp] theorem clkPulse_samples (s : State) : (clkPulse s).samples = s.samples :=
  rfl
@[simp] theorem clkPulse_sampleDraws (s : State) : (clkPulse s).sampleDraws = s.sampleDraws :=
  rfl
@[simp] theorem clkPulse_reads (s : State) : (clkPulse s).reads = s.reads :=
  rfl
@[simp] theorem clkPulse_readDraws (s : State) : (clkPulse s).readDraws = s.readDraws :=
  rfl
@[simp] theorem clkPulse_pending (s : State) : (clkPulse s).pending = s.pending :=
  rfl
@[simp] theorem clkPulse_resetAsserted (s : State) : (clkPulse s).resetAsserted = s.resetAsserted :=
  rfl

@[simp] theorem clkPulse_pulsecnt (s : State) : (clkPulse s).pulsecnt = s.pulsecnt + 1#32 := rfl

@[simp] theorem clkPulse_trace (s : State) : (clkPulse s).trace = clkEvents.reverse ++ s.trace := rfl

@[simp] theorem clkPulse_pwrN (s : State) : (clkPulse s).ports.pwrN = s.ports.pwrN := rfl

@[simp] theorem clkPulse_clk (s : State) : (clkPulse s).ports.clk = ⟨s.ports.clk.dir, false⟩ := rfl

@[simp] theorem clkPulse_oe (s : State) : (clkPulse s).ports.oe = s.ports.oe := rfl

@[simp] theorem clkPulse_pgm (s : State) : (clkPulse s).ports.pgm = s.ports.pgm := rfl

@[simp] theorem clkPulse_dat (s : State) : (clkPulse s).ports.dat = s.ports.dat := rfl

end

/-! The loop of `statusBit`. -/

@[simp] theorem statusBits_mode (n : Nat) (s : State) : (loopState n statusBit s).mode = s.mode :=
  loopState_preserves (·.mode) statusBit (fun _ _ => by simp [statusBit]) n s
@[simp] theorem statusBits_seq (n : Nat) (s : State) : (loopState n statusBit s).seq = s.seq :=
  loopState_preserves (·.seq) statusBit (fun _ _ => by simp [statusBit]) n s
@[simp] theorem statusBits_shift16 (n : Nat) (s : State) : (loopState n statusBit s).shift16 = s.shift16 :=
  loopState_preserves (·.shift16) statusBit (fun _ _ => by simp [statusBit]) n s
@[simp] theorem statusBits_pollctr (n : Nat) (s : State) : (loopState n statusBit s).pollctr = s.pollctr :=
  loopState_preserves (·.pollctr) statusBit (fun _ _ => by simp [statusBit]) n s
@[simp] theorem statusBits_widx (n : Nat) (s : State) : (loopState n statusBit s).widx = s.widx :=
  loopState_preserves (·.widx) statusBit (fun _ _ => by simp [statusBit]) n s
@[simp] theorem statusBits_matched (n : Nat) (s : State) : (loopState n statusBit s).matched = s.matched :=
  loopState_preserves (·.matched) statusBit (fun _ _ => by simp [statusBit]) n s
@[simp] theorem statusBits_ready (n : Nat) (s : State) : (loopState n statusBit s).ready = s.ready :=
  loopState_preserves (·.ready) statusBit (fun _ _ => by simp [statusBit]) n s
@[simp] theorem statusBits_lcode (n : Nat) (s : State) : (loopState n statusBit s).lcode = s.lcode :=
  loopState_preserves (·.lcode) statusBit (fun _ _ => by simp [statusBit]) n s
@[simp] theorem statusBits_ln (n : Nat) (s : State) : (loopState n statusBit s).ln = s.ln :=
  loopState_preserves (·.ln) statusBit (fun _ _ => by simp [statusBit]) n s
@[simp] theorem statusBits_laddr (n : Nat) (s : State) : (loopState n statusBit s).laddr = s.laddr :=
  loopState_preserves (·.laddr) statusBit (fun _ _ => by simp [statusBit]) n s
@[simp] theorem statusBits_busy (n : Nat) (s : State) : (loopState n statusBit s).busy = s.busy :=
  loopState_preserves (·.busy) statusBit (fun _ _ => by simp [statusBit]) n s
@[simp] theorem statusBits_ok (n : Nat) (s : State) : (loopState n statusBit s).ok = s.ok :=
  loopState_preserves (·.ok) statusBit (fun _ _ => by simp [statusBit]) n s
@[simp] theorem statusBits_ovr (n : Nat) (s : State) : (loopState n statusBit s).ovr = s.ovr :=
  loopState_preserves (·.ovr) statusBit (fun _ _ => by simp [statusBit]) n s
@[simp] theorem statusBits_cause (n : Nat) (s : State) : (loopState n statusBit s).cause = s.cause :=
  loopState_preserves (·.cause) statusBit (fun _ _ => by simp [statusBit]) n s
@[simp] theorem statusBits_cmd (n : Nat) (s : State) : (loopState n statusBit s).cmd = s.cmd :=
  loopState_preserves (·.cmd) statusBit (fun _ _ => by simp [statusBit]) n s
@[simp] theorem statusBits_settlecnt (n : Nat) (s : State) : (loopState n statusBit s).settlecnt = s.settlecnt :=
  loopState_preserves (·.settlecnt) statusBit (fun _ _ => by simp [statusBit]) n s
@[simp] theorem statusBits_laststat (n : Nat) (s : State) : (loopState n statusBit s).laststat = s.laststat :=
  loopState_preserves (·.laststat) statusBit (fun _ _ => by simp [statusBit]) n s
@[simp] theorem statusBits_pollcnt (n : Nat) (s : State) : (loopState n statusBit s).pollcnt = s.pollcnt :=
  loopState_preserves (·.pollcnt) statusBit (fun _ _ => by simp [statusBit]) n s
@[simp] theorem statusBits_dbuf (n : Nat) (s : State) : (loopState n statusBit s).dbuf = s.dbuf :=
  loopState_preserves (·.dbuf) statusBit (fun _ _ => by simp [statusBit]) n s
@[simp] theorem statusBits_reads (n : Nat) (s : State) : (loopState n statusBit s).reads = s.reads :=
  loopState_preserves (·.reads) statusBit (fun _ _ => by simp [statusBit]) n s
@[simp] theorem statusBits_readDraws (n : Nat) (s : State) : (loopState n statusBit s).readDraws = s.readDraws :=
  loopState_preserves (·.readDraws) statusBit (fun _ _ => by simp [statusBit]) n s
@[simp] theorem statusBits_pending (n : Nat) (s : State) : (loopState n statusBit s).pending = s.pending :=
  loopState_preserves (·.pending) statusBit (fun _ _ => by simp [statusBit]) n s
@[simp] theorem statusBits_resetAsserted (n : Nat) (s : State) : (loopState n statusBit s).resetAsserted = s.resetAsserted :=
  loopState_preserves (·.resetAsserted) statusBit (fun _ _ => by simp [statusBit]) n s
@[simp] theorem statusBits_pwrN (n : Nat) (s : State) : (loopState n statusBit s).ports.pwrN = s.ports.pwrN :=
  loopState_preserves (·.ports.pwrN) statusBit (fun _ _ => by simp [statusBit]) n s
@[simp] theorem statusBits_pgm (n : Nat) (s : State) : (loopState n statusBit s).ports.pgm = s.ports.pgm :=
  loopState_preserves (·.ports.pgm) statusBit (fun _ _ => by simp [statusBit]) n s
@[simp] theorem statusBits_dat (n : Nat) (s : State) : (loopState n statusBit s).ports.dat = s.ports.dat :=
  loopState_preserves (·.ports.dat) statusBit (fun _ _ => by simp [statusBit]) n s
@[simp] theorem statusBits_oe (n : Nat) (s : State) : (loopState n statusBit s).ports.oe = s.ports.oe :=
  loopState_preserves (·.ports.oe) statusBit (fun _ _ => by simp [statusBit]) n s
@[simp] theorem statusBits_clk_dir (n : Nat) (s : State) : (loopState n statusBit s).ports.clk.dir = s.ports.clk.dir :=
  loopState_preserves (·.ports.clk.dir) statusBit (fun _ _ => by simp [statusBit]) n s
@[simp] theorem statusBits_clk_out (n : Nat) (s : State) : (loopState (n + 1) statusBit s).ports.clk.out = false := by
  simp [loopState, statusBit]
@[simp] theorem statusBits_pulsecnt (n : Nat) (s : State) :
    (loopState n statusBit s).pulsecnt = s.pulsecnt + BitVec.ofNat 32 n := by
  induction n with
  | zero => simp [loopState]
  | succ n ih => simp [loopState, statusBit, ih, BitVec.ofNat_add, BitVec.add_assoc]

theorem statusBits_samples (n : Nat) (s : State) (h : s.ports.dat.dir = .input) :
    (loopState n statusBit s).samples = s.samples.drop n ∧ (loopState n statusBit s).sampleDraws = s.sampleDraws + n := by
  induction n with
  | zero => simp [loopState]
  | succ n ih =>
    have hd : (clkPulse (setBit n (loopState n statusBit s))).ports.dat.dir = .input := by simp [h]
    constructor
    · simp [loopState, statusBit, afterSample_samples _ hd, ih.1]
    · simp [loopState, statusBit, afterSample_sampleDraws _ hd, ih.2, Nat.add_assoc]

theorem statusBits_upcoming (n : Nat) (s : State) (h : s.ports.dat.dir = .input) (j : Nat) :
    upcoming (loopState n statusBit s) j = upcoming s (j + n) :=
  upcoming_drop s _ n (statusBits_samples n s h).1 (statusBits_samples n s h).2 j

theorem statusBits_trace (n : Nat) (s : State) (h : s.ports.dat.dir = .input) :
    (loopState n statusBit s).trace = (bitsInEvents (levels s 0 n)).reverse ++ s.trace := by
  induction n with
  | zero => simp [loopState, levels, bitsInEvents]
  | succ n ih =>
    have hd : (clkPulse (setBit n (loopState n statusBit s))).ports.dat.dir = .input := by simp [h]
    have hu : upcoming (clkPulse (setBit n (loopState n statusBit s))) 0 = upcoming s n := by
      rw [upcoming_congr (loopState n statusBit s) (clkPulse (setBit n (loopState n statusBit s))) rfl rfl,
        statusBits_upcoming n s h, Nat.zero_add]
    simp [loopState, statusBit, afterSample_trace _ hd, hu, ih, levels, List.range_succ, bitsInEvents]

/-! The loop of `wordBit`. -/

@[simp] theorem wordBits_mode (n : Nat) (s : State) : (loopState n wordBit s).mode = s.mode :=
  loopState_preserves (·.mode) wordBit (fun _ _ => by simp [wordBit]) n s
@[simp] theorem wordBits_seq (n : Nat) (s : State) : (loopState n wordBit s).seq = s.seq :=
  loopState_preserves (·.seq) wordBit (fun _ _ => by simp [wordBit]) n s
@[simp] theorem wordBits_shift8 (n : Nat) (s : State) : (loopState n wordBit s).shift8 = s.shift8 :=
  loopState_preserves (·.shift8) wordBit (fun _ _ => by simp [wordBit]) n s
@[simp] theorem wordBits_pollctr (n : Nat) (s : State) : (loopState n wordBit s).pollctr = s.pollctr :=
  loopState_preserves (·.pollctr) wordBit (fun _ _ => by simp [wordBit]) n s
@[simp] theorem wordBits_widx (n : Nat) (s : State) : (loopState n wordBit s).widx = s.widx :=
  loopState_preserves (·.widx) wordBit (fun _ _ => by simp [wordBit]) n s
@[simp] theorem wordBits_matched (n : Nat) (s : State) : (loopState n wordBit s).matched = s.matched :=
  loopState_preserves (·.matched) wordBit (fun _ _ => by simp [wordBit]) n s
@[simp] theorem wordBits_ready (n : Nat) (s : State) : (loopState n wordBit s).ready = s.ready :=
  loopState_preserves (·.ready) wordBit (fun _ _ => by simp [wordBit]) n s
@[simp] theorem wordBits_lcode (n : Nat) (s : State) : (loopState n wordBit s).lcode = s.lcode :=
  loopState_preserves (·.lcode) wordBit (fun _ _ => by simp [wordBit]) n s
@[simp] theorem wordBits_ln (n : Nat) (s : State) : (loopState n wordBit s).ln = s.ln :=
  loopState_preserves (·.ln) wordBit (fun _ _ => by simp [wordBit]) n s
@[simp] theorem wordBits_laddr (n : Nat) (s : State) : (loopState n wordBit s).laddr = s.laddr :=
  loopState_preserves (·.laddr) wordBit (fun _ _ => by simp [wordBit]) n s
@[simp] theorem wordBits_busy (n : Nat) (s : State) : (loopState n wordBit s).busy = s.busy :=
  loopState_preserves (·.busy) wordBit (fun _ _ => by simp [wordBit]) n s
@[simp] theorem wordBits_ok (n : Nat) (s : State) : (loopState n wordBit s).ok = s.ok :=
  loopState_preserves (·.ok) wordBit (fun _ _ => by simp [wordBit]) n s
@[simp] theorem wordBits_ovr (n : Nat) (s : State) : (loopState n wordBit s).ovr = s.ovr :=
  loopState_preserves (·.ovr) wordBit (fun _ _ => by simp [wordBit]) n s
@[simp] theorem wordBits_cause (n : Nat) (s : State) : (loopState n wordBit s).cause = s.cause :=
  loopState_preserves (·.cause) wordBit (fun _ _ => by simp [wordBit]) n s
@[simp] theorem wordBits_cmd (n : Nat) (s : State) : (loopState n wordBit s).cmd = s.cmd :=
  loopState_preserves (·.cmd) wordBit (fun _ _ => by simp [wordBit]) n s
@[simp] theorem wordBits_settlecnt (n : Nat) (s : State) : (loopState n wordBit s).settlecnt = s.settlecnt :=
  loopState_preserves (·.settlecnt) wordBit (fun _ _ => by simp [wordBit]) n s
@[simp] theorem wordBits_laststat (n : Nat) (s : State) : (loopState n wordBit s).laststat = s.laststat :=
  loopState_preserves (·.laststat) wordBit (fun _ _ => by simp [wordBit]) n s
@[simp] theorem wordBits_pollcnt (n : Nat) (s : State) : (loopState n wordBit s).pollcnt = s.pollcnt :=
  loopState_preserves (·.pollcnt) wordBit (fun _ _ => by simp [wordBit]) n s
@[simp] theorem wordBits_dbuf (n : Nat) (s : State) : (loopState n wordBit s).dbuf = s.dbuf :=
  loopState_preserves (·.dbuf) wordBit (fun _ _ => by simp [wordBit]) n s
@[simp] theorem wordBits_reads (n : Nat) (s : State) : (loopState n wordBit s).reads = s.reads :=
  loopState_preserves (·.reads) wordBit (fun _ _ => by simp [wordBit]) n s
@[simp] theorem wordBits_readDraws (n : Nat) (s : State) : (loopState n wordBit s).readDraws = s.readDraws :=
  loopState_preserves (·.readDraws) wordBit (fun _ _ => by simp [wordBit]) n s
@[simp] theorem wordBits_pending (n : Nat) (s : State) : (loopState n wordBit s).pending = s.pending :=
  loopState_preserves (·.pending) wordBit (fun _ _ => by simp [wordBit]) n s
@[simp] theorem wordBits_resetAsserted (n : Nat) (s : State) : (loopState n wordBit s).resetAsserted = s.resetAsserted :=
  loopState_preserves (·.resetAsserted) wordBit (fun _ _ => by simp [wordBit]) n s
@[simp] theorem wordBits_pwrN (n : Nat) (s : State) : (loopState n wordBit s).ports.pwrN = s.ports.pwrN :=
  loopState_preserves (·.ports.pwrN) wordBit (fun _ _ => by simp [wordBit]) n s
@[simp] theorem wordBits_pgm (n : Nat) (s : State) : (loopState n wordBit s).ports.pgm = s.ports.pgm :=
  loopState_preserves (·.ports.pgm) wordBit (fun _ _ => by simp [wordBit]) n s
@[simp] theorem wordBits_dat (n : Nat) (s : State) : (loopState n wordBit s).ports.dat = s.ports.dat :=
  loopState_preserves (·.ports.dat) wordBit (fun _ _ => by simp [wordBit]) n s
@[simp] theorem wordBits_oe (n : Nat) (s : State) : (loopState n wordBit s).ports.oe = s.ports.oe :=
  loopState_preserves (·.ports.oe) wordBit (fun _ _ => by simp [wordBit]) n s
@[simp] theorem wordBits_clk_dir (n : Nat) (s : State) : (loopState n wordBit s).ports.clk.dir = s.ports.clk.dir :=
  loopState_preserves (·.ports.clk.dir) wordBit (fun _ _ => by simp [wordBit]) n s
@[simp] theorem wordBits_clk_out (n : Nat) (s : State) : (loopState (n + 1) wordBit s).ports.clk.out = false := by
  simp [loopState, wordBit]
@[simp] theorem wordBits_pulsecnt (n : Nat) (s : State) :
    (loopState n wordBit s).pulsecnt = s.pulsecnt + BitVec.ofNat 32 n := by
  induction n with
  | zero => simp [loopState]
  | succ n ih => simp [loopState, wordBit, ih, BitVec.ofNat_add, BitVec.add_assoc]

theorem wordBits_samples (n : Nat) (s : State) (h : s.ports.dat.dir = .input) :
    (loopState n wordBit s).samples = s.samples.drop n ∧ (loopState n wordBit s).sampleDraws = s.sampleDraws + n := by
  induction n with
  | zero => simp [loopState]
  | succ n ih =>
    have hd : (clkPulse (setBit n (loopState n wordBit s))).ports.dat.dir = .input := by simp [h]
    constructor
    · simp [loopState, wordBit, afterSample_samples _ hd, ih.1]
    · simp [loopState, wordBit, afterSample_sampleDraws _ hd, ih.2, Nat.add_assoc]

theorem wordBits_upcoming (n : Nat) (s : State) (h : s.ports.dat.dir = .input) (j : Nat) :
    upcoming (loopState n wordBit s) j = upcoming s (j + n) :=
  upcoming_drop s _ n (wordBits_samples n s h).1 (wordBits_samples n s h).2 j

theorem wordBits_trace (n : Nat) (s : State) (h : s.ports.dat.dir = .input) :
    (loopState n wordBit s).trace = (bitsInEvents (levels s 0 n)).reverse ++ s.trace := by
  induction n with
  | zero => simp [loopState, levels, bitsInEvents]
  | succ n ih =>
    have hd : (clkPulse (setBit n (loopState n wordBit s))).ports.dat.dir = .input := by simp [h]
    have hu : upcoming (clkPulse (setBit n (loopState n wordBit s))) 0 = upcoming s n := by
      rw [upcoming_congr (loopState n wordBit s) (clkPulse (setBit n (loopState n wordBit s))) rfl rfl,
        wordBits_upcoming n s h, Nat.zero_add]
    simp [loopState, wordBit, afterSample_trace _ hd, hu, ih, levels, List.range_succ, bitsInEvents]

/-! The loop of `opcodeBit`. -/

@[simp] theorem opcodeBits_mode (src : OpcodeSrc) (n : Nat) (s : State) : (loopState n (opcodeBit src) s).mode = s.mode :=
  loopState_preserves (·.mode) (opcodeBit src) (fun _ _ => rfl) n s
@[simp] theorem opcodeBits_seq (src : OpcodeSrc) (n : Nat) (s : State) : (loopState n (opcodeBit src) s).seq = s.seq :=
  loopState_preserves (·.seq) (opcodeBit src) (fun _ _ => rfl) n s
@[simp] theorem opcodeBits_shift16 (src : OpcodeSrc) (n : Nat) (s : State) : (loopState n (opcodeBit src) s).shift16 = s.shift16 :=
  loopState_preserves (·.shift16) (opcodeBit src) (fun _ _ => rfl) n s
@[simp] theorem opcodeBits_shift8 (src : OpcodeSrc) (n : Nat) (s : State) : (loopState n (opcodeBit src) s).shift8 = s.shift8 :=
  loopState_preserves (·.shift8) (opcodeBit src) (fun _ _ => rfl) n s
@[simp] theorem opcodeBits_pollctr (src : OpcodeSrc) (n : Nat) (s : State) : (loopState n (opcodeBit src) s).pollctr = s.pollctr :=
  loopState_preserves (·.pollctr) (opcodeBit src) (fun _ _ => rfl) n s
@[simp] theorem opcodeBits_widx (src : OpcodeSrc) (n : Nat) (s : State) : (loopState n (opcodeBit src) s).widx = s.widx :=
  loopState_preserves (·.widx) (opcodeBit src) (fun _ _ => rfl) n s
@[simp] theorem opcodeBits_matched (src : OpcodeSrc) (n : Nat) (s : State) : (loopState n (opcodeBit src) s).matched = s.matched :=
  loopState_preserves (·.matched) (opcodeBit src) (fun _ _ => rfl) n s
@[simp] theorem opcodeBits_ready (src : OpcodeSrc) (n : Nat) (s : State) : (loopState n (opcodeBit src) s).ready = s.ready :=
  loopState_preserves (·.ready) (opcodeBit src) (fun _ _ => rfl) n s
@[simp] theorem opcodeBits_lcode (src : OpcodeSrc) (n : Nat) (s : State) : (loopState n (opcodeBit src) s).lcode = s.lcode :=
  loopState_preserves (·.lcode) (opcodeBit src) (fun _ _ => rfl) n s
@[simp] theorem opcodeBits_ln (src : OpcodeSrc) (n : Nat) (s : State) : (loopState n (opcodeBit src) s).ln = s.ln :=
  loopState_preserves (·.ln) (opcodeBit src) (fun _ _ => rfl) n s
@[simp] theorem opcodeBits_laddr (src : OpcodeSrc) (n : Nat) (s : State) : (loopState n (opcodeBit src) s).laddr = s.laddr :=
  loopState_preserves (·.laddr) (opcodeBit src) (fun _ _ => rfl) n s
@[simp] theorem opcodeBits_busy (src : OpcodeSrc) (n : Nat) (s : State) : (loopState n (opcodeBit src) s).busy = s.busy :=
  loopState_preserves (·.busy) (opcodeBit src) (fun _ _ => rfl) n s
@[simp] theorem opcodeBits_ok (src : OpcodeSrc) (n : Nat) (s : State) : (loopState n (opcodeBit src) s).ok = s.ok :=
  loopState_preserves (·.ok) (opcodeBit src) (fun _ _ => rfl) n s
@[simp] theorem opcodeBits_ovr (src : OpcodeSrc) (n : Nat) (s : State) : (loopState n (opcodeBit src) s).ovr = s.ovr :=
  loopState_preserves (·.ovr) (opcodeBit src) (fun _ _ => rfl) n s
@[simp] theorem opcodeBits_cause (src : OpcodeSrc) (n : Nat) (s : State) : (loopState n (opcodeBit src) s).cause = s.cause :=
  loopState_preserves (·.cause) (opcodeBit src) (fun _ _ => rfl) n s
@[simp] theorem opcodeBits_cmd (src : OpcodeSrc) (n : Nat) (s : State) : (loopState n (opcodeBit src) s).cmd = s.cmd :=
  loopState_preserves (·.cmd) (opcodeBit src) (fun _ _ => rfl) n s
@[simp] theorem opcodeBits_settlecnt (src : OpcodeSrc) (n : Nat) (s : State) : (loopState n (opcodeBit src) s).settlecnt = s.settlecnt :=
  loopState_preserves (·.settlecnt) (opcodeBit src) (fun _ _ => rfl) n s
@[simp] theorem opcodeBits_laststat (src : OpcodeSrc) (n : Nat) (s : State) : (loopState n (opcodeBit src) s).laststat = s.laststat :=
  loopState_preserves (·.laststat) (opcodeBit src) (fun _ _ => rfl) n s
@[simp] theorem opcodeBits_pollcnt (src : OpcodeSrc) (n : Nat) (s : State) : (loopState n (opcodeBit src) s).pollcnt = s.pollcnt :=
  loopState_preserves (·.pollcnt) (opcodeBit src) (fun _ _ => rfl) n s
@[simp] theorem opcodeBits_dbuf (src : OpcodeSrc) (n : Nat) (s : State) : (loopState n (opcodeBit src) s).dbuf = s.dbuf :=
  loopState_preserves (·.dbuf) (opcodeBit src) (fun _ _ => rfl) n s
@[simp] theorem opcodeBits_samples (src : OpcodeSrc) (n : Nat) (s : State) : (loopState n (opcodeBit src) s).samples = s.samples :=
  loopState_preserves (·.samples) (opcodeBit src) (fun _ _ => rfl) n s
@[simp] theorem opcodeBits_sampleDraws (src : OpcodeSrc) (n : Nat) (s : State) : (loopState n (opcodeBit src) s).sampleDraws = s.sampleDraws :=
  loopState_preserves (·.sampleDraws) (opcodeBit src) (fun _ _ => rfl) n s
@[simp] theorem opcodeBits_reads (src : OpcodeSrc) (n : Nat) (s : State) : (loopState n (opcodeBit src) s).reads = s.reads :=
  loopState_preserves (·.reads) (opcodeBit src) (fun _ _ => rfl) n s
@[simp] theorem opcodeBits_readDraws (src : OpcodeSrc) (n : Nat) (s : State) : (loopState n (opcodeBit src) s).readDraws = s.readDraws :=
  loopState_preserves (·.readDraws) (opcodeBit src) (fun _ _ => rfl) n s
@[simp] theorem opcodeBits_pending (src : OpcodeSrc) (n : Nat) (s : State) : (loopState n (opcodeBit src) s).pending = s.pending :=
  loopState_preserves (·.pending) (opcodeBit src) (fun _ _ => rfl) n s
@[simp] theorem opcodeBits_resetAsserted (src : OpcodeSrc) (n : Nat) (s : State) : (loopState n (opcodeBit src) s).resetAsserted = s.resetAsserted :=
  loopState_preserves (·.resetAsserted) (opcodeBit src) (fun _ _ => rfl) n s
@[simp] theorem opcodeBits_pwrN (src : OpcodeSrc) (n : Nat) (s : State) : (loopState n (opcodeBit src) s).ports.pwrN = s.ports.pwrN :=
  loopState_preserves (·.ports.pwrN) (opcodeBit src) (fun _ _ => rfl) n s
@[simp] theorem opcodeBits_pgm (src : OpcodeSrc) (n : Nat) (s : State) : (loopState n (opcodeBit src) s).ports.pgm = s.ports.pgm :=
  loopState_preserves (·.ports.pgm) (opcodeBit src) (fun _ _ => rfl) n s
@[simp] theorem opcodeBits_dat (src : OpcodeSrc) (n : Nat) (s : State) : (loopState n (opcodeBit src) s).ports.dat = s.ports.dat :=
  loopState_preserves (·.ports.dat) (opcodeBit src) (fun _ _ => rfl) n s
@[simp] theorem opcodeBits_oe_dir (src : OpcodeSrc) (n : Nat) (s : State) : (loopState n (opcodeBit src) s).ports.oe.dir = s.ports.oe.dir :=
  loopState_preserves (·.ports.oe.dir) (opcodeBit src) (fun _ _ => rfl) n s
@[simp] theorem opcodeBits_clk_dir (src : OpcodeSrc) (n : Nat) (s : State) : (loopState n (opcodeBit src) s).ports.clk.dir = s.ports.clk.dir :=
  loopState_preserves (·.ports.clk.dir) (opcodeBit src) (fun _ _ => rfl) n s
@[simp] theorem opcodeBits_clk_out (src : OpcodeSrc) (n : Nat) (s : State) : (loopState (n + 1) (opcodeBit src) s).ports.clk.out = false := by
  simp [loopState, opcodeBit]
@[simp] theorem opcodeBits_pulsecnt (src : OpcodeSrc) (n : Nat) (s : State) :
    (loopState n (opcodeBit src) s).pulsecnt = s.pulsecnt + BitVec.ofNat 32 n := by
  induction n with
  | zero => simp [loopState]
  | succ n ih => simp [loopState, opcodeBit, ih, BitVec.ofNat_add, BitVec.add_assoc]

theorem opcodeBits_trace (src : OpcodeSrc) (n : Nat) (s : State) :
    (loopState n (opcodeBit src) s).trace =
      (bitsOutEvents ((List.range n).map fun j => (opcodeFrame (opcodeOf src s)).getLsbD (15 - j))).reverse ++ s.trace := by
  induction n with
  | zero => simp [loopState, bitsOutEvents]
  | succ n ih =>
    have hv := opcodeOf_congr src (loopState n (opcodeBit src) s) s (by simp)
    simp [loopState, opcodeBit, ih, hv, List.range_succ, bitsOutEvents]

/-! The loop of `valueBit`. -/

@[simp] theorem valueBits_mode (src : ValueSrc) (n : Nat) (s : State) : (loopState n (valueBit src) s).mode = s.mode :=
  loopState_preserves (·.mode) (valueBit src) (fun _ _ => rfl) n s
@[simp] theorem valueBits_seq (src : ValueSrc) (n : Nat) (s : State) : (loopState n (valueBit src) s).seq = s.seq :=
  loopState_preserves (·.seq) (valueBit src) (fun _ _ => rfl) n s
@[simp] theorem valueBits_shift16 (src : ValueSrc) (n : Nat) (s : State) : (loopState n (valueBit src) s).shift16 = s.shift16 :=
  loopState_preserves (·.shift16) (valueBit src) (fun _ _ => rfl) n s
@[simp] theorem valueBits_shift8 (src : ValueSrc) (n : Nat) (s : State) : (loopState n (valueBit src) s).shift8 = s.shift8 :=
  loopState_preserves (·.shift8) (valueBit src) (fun _ _ => rfl) n s
@[simp] theorem valueBits_pollctr (src : ValueSrc) (n : Nat) (s : State) : (loopState n (valueBit src) s).pollctr = s.pollctr :=
  loopState_preserves (·.pollctr) (valueBit src) (fun _ _ => rfl) n s
@[simp] theorem valueBits_widx (src : ValueSrc) (n : Nat) (s : State) : (loopState n (valueBit src) s).widx = s.widx :=
  loopState_preserves (·.widx) (valueBit src) (fun _ _ => rfl) n s
@[simp] theorem valueBits_matched (src : ValueSrc) (n : Nat) (s : State) : (loopState n (valueBit src) s).matched = s.matched :=
  loopState_preserves (·.matched) (valueBit src) (fun _ _ => rfl) n s
@[simp] theorem valueBits_ready (src : ValueSrc) (n : Nat) (s : State) : (loopState n (valueBit src) s).ready = s.ready :=
  loopState_preserves (·.ready) (valueBit src) (fun _ _ => rfl) n s
@[simp] theorem valueBits_lcode (src : ValueSrc) (n : Nat) (s : State) : (loopState n (valueBit src) s).lcode = s.lcode :=
  loopState_preserves (·.lcode) (valueBit src) (fun _ _ => rfl) n s
@[simp] theorem valueBits_ln (src : ValueSrc) (n : Nat) (s : State) : (loopState n (valueBit src) s).ln = s.ln :=
  loopState_preserves (·.ln) (valueBit src) (fun _ _ => rfl) n s
@[simp] theorem valueBits_laddr (src : ValueSrc) (n : Nat) (s : State) : (loopState n (valueBit src) s).laddr = s.laddr :=
  loopState_preserves (·.laddr) (valueBit src) (fun _ _ => rfl) n s
@[simp] theorem valueBits_busy (src : ValueSrc) (n : Nat) (s : State) : (loopState n (valueBit src) s).busy = s.busy :=
  loopState_preserves (·.busy) (valueBit src) (fun _ _ => rfl) n s
@[simp] theorem valueBits_ok (src : ValueSrc) (n : Nat) (s : State) : (loopState n (valueBit src) s).ok = s.ok :=
  loopState_preserves (·.ok) (valueBit src) (fun _ _ => rfl) n s
@[simp] theorem valueBits_ovr (src : ValueSrc) (n : Nat) (s : State) : (loopState n (valueBit src) s).ovr = s.ovr :=
  loopState_preserves (·.ovr) (valueBit src) (fun _ _ => rfl) n s
@[simp] theorem valueBits_cause (src : ValueSrc) (n : Nat) (s : State) : (loopState n (valueBit src) s).cause = s.cause :=
  loopState_preserves (·.cause) (valueBit src) (fun _ _ => rfl) n s
@[simp] theorem valueBits_cmd (src : ValueSrc) (n : Nat) (s : State) : (loopState n (valueBit src) s).cmd = s.cmd :=
  loopState_preserves (·.cmd) (valueBit src) (fun _ _ => rfl) n s
@[simp] theorem valueBits_settlecnt (src : ValueSrc) (n : Nat) (s : State) : (loopState n (valueBit src) s).settlecnt = s.settlecnt :=
  loopState_preserves (·.settlecnt) (valueBit src) (fun _ _ => rfl) n s
@[simp] theorem valueBits_laststat (src : ValueSrc) (n : Nat) (s : State) : (loopState n (valueBit src) s).laststat = s.laststat :=
  loopState_preserves (·.laststat) (valueBit src) (fun _ _ => rfl) n s
@[simp] theorem valueBits_pollcnt (src : ValueSrc) (n : Nat) (s : State) : (loopState n (valueBit src) s).pollcnt = s.pollcnt :=
  loopState_preserves (·.pollcnt) (valueBit src) (fun _ _ => rfl) n s
@[simp] theorem valueBits_dbuf (src : ValueSrc) (n : Nat) (s : State) : (loopState n (valueBit src) s).dbuf = s.dbuf :=
  loopState_preserves (·.dbuf) (valueBit src) (fun _ _ => rfl) n s
@[simp] theorem valueBits_samples (src : ValueSrc) (n : Nat) (s : State) : (loopState n (valueBit src) s).samples = s.samples :=
  loopState_preserves (·.samples) (valueBit src) (fun _ _ => rfl) n s
@[simp] theorem valueBits_sampleDraws (src : ValueSrc) (n : Nat) (s : State) : (loopState n (valueBit src) s).sampleDraws = s.sampleDraws :=
  loopState_preserves (·.sampleDraws) (valueBit src) (fun _ _ => rfl) n s
@[simp] theorem valueBits_reads (src : ValueSrc) (n : Nat) (s : State) : (loopState n (valueBit src) s).reads = s.reads :=
  loopState_preserves (·.reads) (valueBit src) (fun _ _ => rfl) n s
@[simp] theorem valueBits_readDraws (src : ValueSrc) (n : Nat) (s : State) : (loopState n (valueBit src) s).readDraws = s.readDraws :=
  loopState_preserves (·.readDraws) (valueBit src) (fun _ _ => rfl) n s
@[simp] theorem valueBits_pending (src : ValueSrc) (n : Nat) (s : State) : (loopState n (valueBit src) s).pending = s.pending :=
  loopState_preserves (·.pending) (valueBit src) (fun _ _ => rfl) n s
@[simp] theorem valueBits_resetAsserted (src : ValueSrc) (n : Nat) (s : State) : (loopState n (valueBit src) s).resetAsserted = s.resetAsserted :=
  loopState_preserves (·.resetAsserted) (valueBit src) (fun _ _ => rfl) n s
@[simp] theorem valueBits_pwrN (src : ValueSrc) (n : Nat) (s : State) : (loopState n (valueBit src) s).ports.pwrN = s.ports.pwrN :=
  loopState_preserves (·.ports.pwrN) (valueBit src) (fun _ _ => rfl) n s
@[simp] theorem valueBits_pgm (src : ValueSrc) (n : Nat) (s : State) : (loopState n (valueBit src) s).ports.pgm = s.ports.pgm :=
  loopState_preserves (·.ports.pgm) (valueBit src) (fun _ _ => rfl) n s
@[simp] theorem valueBits_dat (src : ValueSrc) (n : Nat) (s : State) : (loopState n (valueBit src) s).ports.dat = s.ports.dat :=
  loopState_preserves (·.ports.dat) (valueBit src) (fun _ _ => rfl) n s
@[simp] theorem valueBits_oe_dir (src : ValueSrc) (n : Nat) (s : State) : (loopState n (valueBit src) s).ports.oe.dir = s.ports.oe.dir :=
  loopState_preserves (·.ports.oe.dir) (valueBit src) (fun _ _ => rfl) n s
@[simp] theorem valueBits_clk_dir (src : ValueSrc) (n : Nat) (s : State) : (loopState n (valueBit src) s).ports.clk.dir = s.ports.clk.dir :=
  loopState_preserves (·.ports.clk.dir) (valueBit src) (fun _ _ => rfl) n s
@[simp] theorem valueBits_clk_out (src : ValueSrc) (n : Nat) (s : State) : (loopState (n + 1) (valueBit src) s).ports.clk.out = false := by
  simp [loopState, valueBit]
@[simp] theorem valueBits_pulsecnt (src : ValueSrc) (n : Nat) (s : State) :
    (loopState n (valueBit src) s).pulsecnt = s.pulsecnt + BitVec.ofNat 32 n := by
  induction n with
  | zero => simp [loopState]
  | succ n ih => simp [loopState, valueBit, ih, BitVec.ofNat_add, BitVec.add_assoc]

theorem valueBits_trace (src : ValueSrc) (n : Nat) (s : State) :
    (loopState n (valueBit src) s).trace =
      (bitsOutEvents ((List.range n).map fun j => (valueFrame (valueOf src s)).getLsbD (31 - j))).reverse ++ s.trace := by
  induction n with
  | zero => simp [loopState, bitsOutEvents]
  | succ n ih =>
    have hv := valueOf_congr src (loopState n (valueBit src) s) s (by simp) (by simp)
    simp [loopState, valueBit, ih, hv, List.range_succ, bitsOutEvents]

/-! The loop of `clkPulse`. -/

@[simp] theorem pulses_mode (n : Nat) (s : State) : (pulses n s).mode = s.mode :=
  loopState_preserves (·.mode) (fun _ u => clkPulse u) (fun _ _ => rfl) n s
@[simp] theorem pulses_seq (n : Nat) (s : State) : (pulses n s).seq = s.seq :=
  loopState_preserves (·.seq) (fun _ u => clkPulse u) (fun _ _ => rfl) n s
@[simp] theorem pulses_shift16 (n : Nat) (s : State) : (pulses n s).shift16 = s.shift16 :=
  loopState_preserves (·.shift16) (fun _ u => clkPulse u) (fun _ _ => rfl) n s
@[simp] theorem pulses_shift8 (n : Nat) (s : State) : (pulses n s).shift8 = s.shift8 :=
  loopState_preserves (·.shift8) (fun _ u => clkPulse u) (fun _ _ => rfl) n s
@[simp] theorem pulses_bitcnt (n : Nat) (s : State) : (pulses n s).bitcnt = s.bitcnt :=
  loopState_preserves (·.bitcnt) (fun _ u => clkPulse u) (fun _ _ => rfl) n s
@[simp] theorem pulses_pollctr (n : Nat) (s : State) : (pulses n s).pollctr = s.pollctr :=
  loopState_preserves (·.pollctr) (fun _ u => clkPulse u) (fun _ _ => rfl) n s
@[simp] theorem pulses_widx (n : Nat) (s : State) : (pulses n s).widx = s.widx :=
  loopState_preserves (·.widx) (fun _ u => clkPulse u) (fun _ _ => rfl) n s
@[simp] theorem pulses_matched (n : Nat) (s : State) : (pulses n s).matched = s.matched :=
  loopState_preserves (·.matched) (fun _ u => clkPulse u) (fun _ _ => rfl) n s
@[simp] theorem pulses_ready (n : Nat) (s : State) : (pulses n s).ready = s.ready :=
  loopState_preserves (·.ready) (fun _ u => clkPulse u) (fun _ _ => rfl) n s
@[simp] theorem pulses_lcode (n : Nat) (s : State) : (pulses n s).lcode = s.lcode :=
  loopState_preserves (·.lcode) (fun _ u => clkPulse u) (fun _ _ => rfl) n s
@[simp] theorem pulses_ln (n : Nat) (s : State) : (pulses n s).ln = s.ln :=
  loopState_preserves (·.ln) (fun _ u => clkPulse u) (fun _ _ => rfl) n s
@[simp] theorem pulses_laddr (n : Nat) (s : State) : (pulses n s).laddr = s.laddr :=
  loopState_preserves (·.laddr) (fun _ u => clkPulse u) (fun _ _ => rfl) n s
@[simp] theorem pulses_ok (n : Nat) (s : State) : (pulses n s).ok = s.ok :=
  loopState_preserves (·.ok) (fun _ u => clkPulse u) (fun _ _ => rfl) n s
@[simp] theorem pulses_ovr (n : Nat) (s : State) : (pulses n s).ovr = s.ovr :=
  loopState_preserves (·.ovr) (fun _ u => clkPulse u) (fun _ _ => rfl) n s
@[simp] theorem pulses_cause (n : Nat) (s : State) : (pulses n s).cause = s.cause :=
  loopState_preserves (·.cause) (fun _ u => clkPulse u) (fun _ _ => rfl) n s
@[simp] theorem pulses_cmd (n : Nat) (s : State) : (pulses n s).cmd = s.cmd :=
  loopState_preserves (·.cmd) (fun _ u => clkPulse u) (fun _ _ => rfl) n s
@[simp] theorem pulses_settlecnt (n : Nat) (s : State) : (pulses n s).settlecnt = s.settlecnt :=
  loopState_preserves (·.settlecnt) (fun _ u => clkPulse u) (fun _ _ => rfl) n s
@[simp] theorem pulses_laststat (n : Nat) (s : State) : (pulses n s).laststat = s.laststat :=
  loopState_preserves (·.laststat) (fun _ u => clkPulse u) (fun _ _ => rfl) n s
@[simp] theorem pulses_pollcnt (n : Nat) (s : State) : (pulses n s).pollcnt = s.pollcnt :=
  loopState_preserves (·.pollcnt) (fun _ u => clkPulse u) (fun _ _ => rfl) n s
@[simp] theorem pulses_dbuf (n : Nat) (s : State) : (pulses n s).dbuf = s.dbuf :=
  loopState_preserves (·.dbuf) (fun _ u => clkPulse u) (fun _ _ => rfl) n s
@[simp] theorem pulses_samples (n : Nat) (s : State) : (pulses n s).samples = s.samples :=
  loopState_preserves (·.samples) (fun _ u => clkPulse u) (fun _ _ => rfl) n s
@[simp] theorem pulses_sampleDraws (n : Nat) (s : State) : (pulses n s).sampleDraws = s.sampleDraws :=
  loopState_preserves (·.sampleDraws) (fun _ u => clkPulse u) (fun _ _ => rfl) n s
@[simp] theorem pulses_reads (n : Nat) (s : State) : (pulses n s).reads = s.reads :=
  loopState_preserves (·.reads) (fun _ u => clkPulse u) (fun _ _ => rfl) n s
@[simp] theorem pulses_readDraws (n : Nat) (s : State) : (pulses n s).readDraws = s.readDraws :=
  loopState_preserves (·.readDraws) (fun _ u => clkPulse u) (fun _ _ => rfl) n s
@[simp] theorem pulses_pending (n : Nat) (s : State) : (pulses n s).pending = s.pending :=
  loopState_preserves (·.pending) (fun _ u => clkPulse u) (fun _ _ => rfl) n s
@[simp] theorem pulses_resetAsserted (n : Nat) (s : State) : (pulses n s).resetAsserted = s.resetAsserted :=
  loopState_preserves (·.resetAsserted) (fun _ u => clkPulse u) (fun _ _ => rfl) n s
@[simp] theorem pulses_pwrN (n : Nat) (s : State) : (pulses n s).ports.pwrN = s.ports.pwrN :=
  loopState_preserves (·.ports.pwrN) (fun _ u => clkPulse u) (fun _ _ => rfl) n s
@[simp] theorem pulses_pgm (n : Nat) (s : State) : (pulses n s).ports.pgm = s.ports.pgm :=
  loopState_preserves (·.ports.pgm) (fun _ u => clkPulse u) (fun _ _ => rfl) n s
@[simp] theorem pulses_dat (n : Nat) (s : State) : (pulses n s).ports.dat = s.ports.dat :=
  loopState_preserves (·.ports.dat) (fun _ u => clkPulse u) (fun _ _ => rfl) n s
@[simp] theorem pulses_oe (n : Nat) (s : State) : (pulses n s).ports.oe = s.ports.oe :=
  loopState_preserves (·.ports.oe) (fun _ u => clkPulse u) (fun _ _ => rfl) n s
@[simp] theorem pulses_clk_dir (n : Nat) (s : State) : (pulses n s).ports.clk.dir = s.ports.clk.dir :=
  loopState_preserves (·.ports.clk.dir) (fun _ u => clkPulse u) (fun _ _ => rfl) n s
@[simp] theorem pulses_clk_out (n : Nat) (s : State) : (pulses (n + 1) s).ports.clk.out = false := by
  simp [loopState, pulses]
@[simp] theorem pulses_pulsecnt (n : Nat) (s : State) :
    (pulses n s).pulsecnt = s.pulsecnt + BitVec.ofNat 32 n := by
  unfold pulses
  induction n with
  | zero => simp [loopState]
  | succ n ih => simp [loopState, ih, BitVec.ofNat_add, BitVec.add_assoc]

@[simp] theorem pulses_trace (n : Nat) (s : State) :
    (pulses n s).trace = (pulseEvents n).reverse ++ s.trace := by
  unfold pulses
  induction n with
  | zero => simp [loopState, pulseEvents]
  | succ n ih => simp [loopState, ih, pulseEvents, List.replicate_succ']


/-! The accumulators (R110, R111). -/

theorem shiftStatusIn_getLsbD (w : Byte) (b : Bool) (i : Nat) (hi : i < 8) :
    (shiftStatusIn w b).getLsbD i = if i = 0 then b else w.getLsbD (i - 1) := by
  unfold shiftStatusIn
  rcases i with _ | i
  · simp
  · have : i < 8 := by omega
    have h2 : i + 1 < 8 := hi
    cases b <;> simp only [BitVec.getLsbD_or, BitVec.getLsbD_shiftLeft, BitVec.getLsbD_setWidth, BitVec.getLsbD_ofBool] <;>
      simp [h2]

theorem shiftWordIn_getLsbD (w : Half) (b : Bool) (i : Nat) (hi : i < 16) :
    (shiftWordIn w b).getLsbD i = if i = 15 then b else w.getLsbD (i + 1) := by
  unfold shiftWordIn
  by_cases h : i = 15
  · subst h; cases b <;> simp
  · have : i < 15 := by omega
    simp [BitVec.getLsbD_ushiftRight, BitVec.getLsbD_shiftLeft, h, this, Nat.add_comm]

theorem statusBits_shift8_bit (n : Nat) (hn : n ≤ 8) (s : State) (h : s.ports.dat.dir = .input) (i : Nat) (hi : i < n) :
    (loopState n statusBit s).shift8.getLsbD i = upcoming s (n - 1 - i) := by
  induction n generalizing i with
  | zero => omega
  | succ n ih =>
    have hd : (clkPulse (setBit n (loopState n statusBit s))).ports.dat.dir = .input := by simp [h]
    have hu : upcoming (clkPulse (setBit n (loopState n statusBit s))) 0 = upcoming s n := by
      rw [upcoming_congr (loopState n statusBit s) (clkPulse (setBit n (loopState n statusBit s))) rfl rfl,
        statusBits_upcoming n s h, Nat.zero_add]
    simp only [loopState, statusBit, sampleStatus_shift8, datLevel_input _ hd, hu]
    rw [shiftStatusIn_getLsbD _ _ _ (by omega)]
    rcases i with _ | i
    · simp
    · have := ih (by omega) i (by omega)
      rw [if_neg (by omega), show n + 1 - 1 - (i + 1) = n - 1 - i by omega]
      exact this

theorem wordBits_shift16_bit (n : Nat) (hn : n ≤ 16) (s : State) (h : s.ports.dat.dir = .input) (j : Nat) (hj : j < n) :
    (loopState n wordBit s).shift16.getLsbD (16 - n + j) = upcoming s j := by
  induction n generalizing j with
  | zero => omega
  | succ n ih =>
    have hd : (clkPulse (setBit n (loopState n wordBit s))).ports.dat.dir = .input := by simp [h]
    have hu : upcoming (clkPulse (setBit n (loopState n wordBit s))) 0 = upcoming s n := by
      rw [upcoming_congr (loopState n wordBit s) (clkPulse (setBit n (loopState n wordBit s))) rfl rfl,
        wordBits_upcoming n s h, Nat.zero_add]
    simp only [loopState, wordBit, sampleWord_shift16, datLevel_input _ hd, hu]
    rw [shiftWordIn_getLsbD _ _ _ (by omega)]
    by_cases hl : j = n
    · rw [if_pos (by omega), hl]
    · have := ih (by omega) j (by omega)
      rw [if_neg (by omega), show 16 - (n + 1) + j + 1 = 16 - n + j by omega]
      exact this

theorem statusByte_getLsbD (s : State) (k i : Nat) (hi : i < 8) :
    (statusByte s k).getLsbD i = upcoming s (k + (7 - i)) := by
  have : i = 0 ∨ i = 1 ∨ i = 2 ∨ i = 3 ∨ i = 4 ∨ i = 5 ∨ i = 6 ∨ i = 7 := by omega
  rcases this with rfl | rfl | rfl | rfl | rfl | rfl | rfl | rfl <;>
    simp only [statusByte, BitVec.getLsbD_append, BitVec.getLsbD_ofBool] <;> simp

theorem statusBits_shift8 (s : State) (h : s.ports.dat.dir = .input) :
    (loopState 8 statusBit s).shift8 = statusByte s 0 := by
  apply BitVec.eq_of_getLsbD_eq
  intro i hi
  rw [statusBits_shift8_bit 8 (Nat.le_refl _) s h i hi, statusByte_getLsbD s 0 i hi]
  simp

theorem statusByte_congr (s t : State) (k m : Nat) (h : ∀ j, upcoming t (m + j) = upcoming s (k + j)) :
    statusByte t m = statusByte s k := by
  simp only [statusByte, h]
  rw [show upcoming t m = upcoming s k from h 0]

theorem statusGood_iff (s : State) (k : Nat) : statusGood s k = true ↔ statusByte s k = Config.statusOk := by
  simp [statusGood]

theorem levels_congr (s t : State) (k m n : Nat) (h : ∀ j, upcoming t (m + j) = upcoming s (k + j)) :
    levels t m n = levels s k n := by
  simp [levels, h]

/-! The mode changes (R98, R99, R100). -/

@[simp] theorem setWriteMode_seq (s : State) : (setWriteMode s).seq = s.seq := by
  unfold setWriteMode; split <;> rfl
@[simp] theorem setWriteMode_shift16 (s : State) : (setWriteMode s).shift16 = s.shift16 := by
  unfold setWriteMode; split <;> rfl
@[simp] theorem setWriteMode_shift8 (s : State) : (setWriteMode s).shift8 = s.shift8 := by
  unfold setWriteMode; split <;> rfl
@[simp] theorem setWriteMode_bitcnt (s : State) : (setWriteMode s).bitcnt = s.bitcnt := by
  unfold setWriteMode; split <;> rfl
@[simp] theorem setWriteMode_pollctr (s : State) : (setWriteMode s).pollctr = s.pollctr := by
  unfold setWriteMode; split <;> rfl
@[simp] theorem setWriteMode_widx (s : State) : (setWriteMode s).widx = s.widx := by
  unfold setWriteMode; split <;> rfl
@[simp] theorem setWriteMode_matched (s : State) : (setWriteMode s).matched = s.matched := by
  unfold setWriteMode; split <;> rfl
@[simp] theorem setWriteMode_ready (s : State) : (setWriteMode s).ready = s.ready := by
  unfold setWriteMode; split <;> rfl
@[simp] theorem setWriteMode_lcode (s : State) : (setWriteMode s).lcode = s.lcode := by
  unfold setWriteMode; split <;> rfl
@[simp] theorem setWriteMode_ln (s : State) : (setWriteMode s).ln = s.ln := by
  unfold setWriteMode; split <;> rfl
@[simp] theorem setWriteMode_laddr (s : State) : (setWriteMode s).laddr = s.laddr := by
  unfold setWriteMode; split <;> rfl
@[simp] theorem setWriteMode_ok (s : State) : (setWriteMode s).ok = s.ok := by
  unfold setWriteMode; split <;> rfl
@[simp] theorem setWriteMode_ovr (s : State) : (setWriteMode s).ovr = s.ovr := by
  unfold setWriteMode; split <;> rfl
@[simp] theorem setWriteMode_cause (s : State) : (setWriteMode s).cause = s.cause := by
  unfold setWriteMode; split <;> rfl
@[simp] theorem setWriteMode_cmd (s : State) : (setWriteMode s).cmd = s.cmd := by
  unfold setWriteMode; split <;> rfl
@[simp] theorem setWriteMode_pulsecnt (s : State) : (setWriteMode s).pulsecnt = s.pulsecnt := by
  unfold setWriteMode; split <;> rfl
@[simp] theorem setWriteMode_laststat (s : State) : (setWriteMode s).laststat = s.laststat := by
  unfold setWriteMode; split <;> rfl
@[simp] theorem setWriteMode_pollcnt (s : State) : (setWriteMode s).pollcnt = s.pollcnt := by
  unfold setWriteMode; split <;> rfl
@[simp] theorem setWriteMode_dbuf (s : State) : (setWriteMode s).dbuf = s.dbuf := by
  unfold setWriteMode; split <;> rfl
@[simp] theorem setWriteMode_samples (s : State) : (setWriteMode s).samples = s.samples := by
  unfold setWriteMode; split <;> rfl
@[simp] theorem setWriteMode_sampleDraws (s : State) : (setWriteMode s).sampleDraws = s.sampleDraws := by
  unfold setWriteMode; split <;> rfl
@[simp] theorem setWriteMode_reads (s : State) : (setWriteMode s).reads = s.reads := by
  unfold setWriteMode; split <;> rfl
@[simp] theorem setWriteMode_readDraws (s : State) : (setWriteMode s).readDraws = s.readDraws := by
  unfold setWriteMode; split <;> rfl
@[simp] theorem setWriteMode_pending (s : State) : (setWriteMode s).pending = s.pending := by
  unfold setWriteMode; split <;> rfl
@[simp] theorem setWriteMode_resetAsserted (s : State) : (setWriteMode s).resetAsserted = s.resetAsserted := by
  unfold setWriteMode; split <;> rfl
@[simp] theorem setReadMode_seq (s : State) : (setReadMode s).seq = s.seq := by
  unfold setReadMode; split <;> rfl
@[simp] theorem setReadMode_shift16 (s : State) : (setReadMode s).shift16 = s.shift16 := by
  unfold setReadMode; split <;> rfl
@[simp] theorem setReadMode_shift8 (s : State) : (setReadMode s).shift8 = s.shift8 := by
  unfold setReadMode; split <;> rfl
@[simp] theorem setReadMode_bitcnt (s : State) : (setReadMode s).bitcnt = s.bitcnt := by
  unfold setReadMode; split <;> rfl
@[simp] theorem setReadMode_pollctr (s : State) : (setReadMode s).pollctr = s.pollctr := by
  unfold setReadMode; split <;> rfl
@[simp] theorem setReadMode_widx (s : State) : (setReadMode s).widx = s.widx := by
  unfold setReadMode; split <;> rfl
@[simp] theorem setReadMode_matched (s : State) : (setReadMode s).matched = s.matched := by
  unfold setReadMode; split <;> rfl
@[simp] theorem setReadMode_ready (s : State) : (setReadMode s).ready = s.ready := by
  unfold setReadMode; split <;> rfl
@[simp] theorem setReadMode_lcode (s : State) : (setReadMode s).lcode = s.lcode := by
  unfold setReadMode; split <;> rfl
@[simp] theorem setReadMode_ln (s : State) : (setReadMode s).ln = s.ln := by
  unfold setReadMode; split <;> rfl
@[simp] theorem setReadMode_laddr (s : State) : (setReadMode s).laddr = s.laddr := by
  unfold setReadMode; split <;> rfl
@[simp] theorem setReadMode_ok (s : State) : (setReadMode s).ok = s.ok := by
  unfold setReadMode; split <;> rfl
@[simp] theorem setReadMode_ovr (s : State) : (setReadMode s).ovr = s.ovr := by
  unfold setReadMode; split <;> rfl
@[simp] theorem setReadMode_cause (s : State) : (setReadMode s).cause = s.cause := by
  unfold setReadMode; split <;> rfl
@[simp] theorem setReadMode_cmd (s : State) : (setReadMode s).cmd = s.cmd := by
  unfold setReadMode; split <;> rfl
@[simp] theorem setReadMode_pulsecnt (s : State) : (setReadMode s).pulsecnt = s.pulsecnt := by
  unfold setReadMode; split <;> rfl
@[simp] theorem setReadMode_laststat (s : State) : (setReadMode s).laststat = s.laststat := by
  unfold setReadMode; split <;> rfl
@[simp] theorem setReadMode_pollcnt (s : State) : (setReadMode s).pollcnt = s.pollcnt := by
  unfold setReadMode; split <;> rfl
@[simp] theorem setReadMode_dbuf (s : State) : (setReadMode s).dbuf = s.dbuf := by
  unfold setReadMode; split <;> rfl
@[simp] theorem setReadMode_samples (s : State) : (setReadMode s).samples = s.samples := by
  unfold setReadMode; split <;> rfl
@[simp] theorem setReadMode_sampleDraws (s : State) : (setReadMode s).sampleDraws = s.sampleDraws := by
  unfold setReadMode; split <;> rfl
@[simp] theorem setReadMode_reads (s : State) : (setReadMode s).reads = s.reads := by
  unfold setReadMode; split <;> rfl
@[simp] theorem setReadMode_readDraws (s : State) : (setReadMode s).readDraws = s.readDraws := by
  unfold setReadMode; split <;> rfl
@[simp] theorem setReadMode_pending (s : State) : (setReadMode s).pending = s.pending := by
  unfold setReadMode; split <;> rfl
@[simp] theorem setReadMode_resetAsserted (s : State) : (setReadMode s).resetAsserted = s.resetAsserted := by
  unfold setReadMode; split <;> rfl
@[simp] theorem enterWriteData_seq (s : State) : (enterWriteData s).seq = s.seq := rfl
@[simp] theorem enterWriteData_shift16 (s : State) : (enterWriteData s).shift16 = s.shift16 := rfl
@[simp] theorem enterWriteData_shift8 (s : State) : (enterWriteData s).shift8 = s.shift8 := rfl
@[simp] theorem enterWriteData_bitcnt (s : State) : (enterWriteData s).bitcnt = s.bitcnt := rfl
@[simp] theorem enterWriteData_pollctr (s : State) : (enterWriteData s).pollctr = s.pollctr := rfl
@[simp] theorem enterWriteData_widx (s : State) : (enterWriteData s).widx = s.widx := rfl
@[simp] theorem enterWriteData_matched (s : State) : (enterWriteData s).matched = s.matched := rfl
@[simp] theorem enterWriteData_ready (s : State) : (enterWriteData s).ready = s.ready := rfl
@[simp] theorem enterWriteData_lcode (s : State) : (enterWriteData s).lcode = s.lcode := rfl
@[simp] theorem enterWriteData_ln (s : State) : (enterWriteData s).ln = s.ln := rfl
@[simp] theorem enterWriteData_laddr (s : State) : (enterWriteData s).laddr = s.laddr := rfl
@[simp] theorem enterWriteData_ok (s : State) : (enterWriteData s).ok = s.ok := rfl
@[simp] theorem enterWriteData_ovr (s : State) : (enterWriteData s).ovr = s.ovr := rfl
@[simp] theorem enterWriteData_cause (s : State) : (enterWriteData s).cause = s.cause := rfl
@[simp] theorem enterWriteData_cmd (s : State) : (enterWriteData s).cmd = s.cmd := rfl
@[simp] theorem enterWriteData_pulsecnt (s : State) : (enterWriteData s).pulsecnt = s.pulsecnt := rfl
@[simp] theorem enterWriteData_settlecnt (s : State) : (enterWriteData s).settlecnt = s.settlecnt := rfl
@[simp] theorem enterWriteData_laststat (s : State) : (enterWriteData s).laststat = s.laststat := rfl
@[simp] theorem enterWriteData_pollcnt (s : State) : (enterWriteData s).pollcnt = s.pollcnt := rfl
@[simp] theorem enterWriteData_dbuf (s : State) : (enterWriteData s).dbuf = s.dbuf := rfl
@[simp] theorem enterWriteData_samples (s : State) : (enterWriteData s).samples = s.samples := rfl
@[simp] theorem enterWriteData_sampleDraws (s : State) : (enterWriteData s).sampleDraws = s.sampleDraws := rfl
@[simp] theorem enterWriteData_reads (s : State) : (enterWriteData s).reads = s.reads := rfl
@[simp] theorem enterWriteData_readDraws (s : State) : (enterWriteData s).readDraws = s.readDraws := rfl
@[simp] theorem enterWriteData_pending (s : State) : (enterWriteData s).pending = s.pending := rfl
@[simp] theorem enterWriteData_resetAsserted (s : State) : (enterWriteData s).resetAsserted = s.resetAsserted := rfl

@[simp] theorem setWriteMode_mode (s : State) : (setWriteMode s).mode = .write := by
  unfold setWriteMode; split <;> simp [*]

@[simp] theorem setReadMode_mode (s : State) : (setReadMode s).mode = .read := by
  unfold setReadMode; split <;> simp [*]

@[simp] theorem enterWriteData_mode (s : State) : (enterWriteData s).mode = .writeData := rfl

theorem setWriteMode_settlecnt (s : State) :
    (setWriteMode s).settlecnt = if s.mode = .write then s.settlecnt else s.settlecnt + 1#32 := by
  unfold setWriteMode; split <;> rfl

theorem setReadMode_settlecnt (s : State) :
    (setReadMode s).settlecnt = if s.mode = .read then s.settlecnt else s.settlecnt + 1#32 := by
  unfold setReadMode; split <;> rfl

theorem setWriteMode_trace (s : State) : (setWriteMode s).trace = (writeModeEvents s.mode).reverse ++ s.trace := by
  unfold setWriteMode writeModeEvents; split <;> rfl

theorem setReadMode_trace (s : State) : (setReadMode s).trace = (readModeEvents s.mode).reverse ++ s.trace := by
  unfold setReadMode readModeEvents; split <;> rfl

@[simp] theorem enterWriteData_trace (s : State) : (enterWriteData s).trace = .drive .pgm false :: s.trace := rfl

theorem setWriteMode_ports (s : State) :
    (setWriteMode s).ports =
      if s.mode = .write then s.ports
      else ⟨s.ports.pwrN, ⟨s.ports.clk.dir, false⟩, ⟨s.ports.oe.dir, false⟩, ⟨s.ports.pgm.dir, true⟩, ⟨.output, false⟩⟩ := by
  unfold setWriteMode; split <;> rfl

theorem setReadMode_ports (s : State) :
    (setReadMode s).ports =
      if s.mode = .read then s.ports
      else ⟨s.ports.pwrN, ⟨s.ports.clk.dir, false⟩, ⟨s.ports.oe.dir, false⟩, ⟨s.ports.pgm.dir, false⟩,
        ⟨.input, s.ports.dat.out⟩⟩ := by
  unfold setReadMode; split <;> rfl

@[simp] theorem enterWriteData_ports (s : State) :
    (enterWriteData s).ports = { s.ports with pgm := ⟨s.ports.pgm.dir, false⟩ } := rfl

@[simp] theorem setWriteMode_pwrN (s : State) : (setWriteMode s).ports.pwrN = s.ports.pwrN := by
  rw [setWriteMode_ports]; split <;> rfl

@[simp] theorem setWriteMode_clk_dir (s : State) : (setWriteMode s).ports.clk.dir = s.ports.clk.dir := by
  rw [setWriteMode_ports]; split <;> rfl

@[simp] theorem setWriteMode_oe_dir (s : State) : (setWriteMode s).ports.oe.dir = s.ports.oe.dir := by
  rw [setWriteMode_ports]; split <;> rfl

@[simp] theorem setWriteMode_pgm_dir (s : State) : (setWriteMode s).ports.pgm.dir = s.ports.pgm.dir := by
  rw [setWriteMode_ports]; split <;> rfl

@[simp] theorem setReadMode_pwrN (s : State) : (setReadMode s).ports.pwrN = s.ports.pwrN := by
  rw [setReadMode_ports]; split <;> rfl

@[simp] theorem setReadMode_clk_dir (s : State) : (setReadMode s).ports.clk.dir = s.ports.clk.dir := by
  rw [setReadMode_ports]; split <;> rfl

@[simp] theorem setReadMode_oe_dir (s : State) : (setReadMode s).ports.oe.dir = s.ports.oe.dir := by
  rw [setReadMode_ports]; split <;> rfl

@[simp] theorem setReadMode_pgm_dir (s : State) : (setReadMode s).ports.pgm.dir = s.ports.pgm.dir := by
  rw [setReadMode_ports]; split <;> rfl

@[simp] theorem setReadMode_dat_out (s : State) : (setReadMode s).ports.dat.out = s.ports.dat.out := by
  rw [setReadMode_ports]; split <;> rfl

theorem setReadMode_input (s : State) (h : s.mode = .read → s.ports.dat.dir = .input) :
    (setReadMode s).ports.dat.dir = .input := by
  rw [setReadMode_ports]; split
  · exact h ‹_›
  · rfl

/-- SetReadMode in Read mode does nothing (R99). -/
theorem setReadMode_read (s : State) (h : s.mode = .read) : setReadMode s = s := by simp [setReadMode, h]

/-! RecvStatus (R111): `h` says that DAT is an input where MODE is already Read. -/

@[simp] theorem recvStatus_seq (s : State) : (recvStatus s).seq = s.seq := by
  simp [recvStatus]
@[simp] theorem recvStatus_shift16 (s : State) : (recvStatus s).shift16 = s.shift16 := by
  simp [recvStatus]
@[simp] theorem recvStatus_pollctr (s : State) : (recvStatus s).pollctr = s.pollctr := by
  simp [recvStatus]
@[simp] theorem recvStatus_widx (s : State) : (recvStatus s).widx = s.widx := by
  simp [recvStatus]
@[simp] theorem recvStatus_ready (s : State) : (recvStatus s).ready = s.ready := by
  simp [recvStatus]
@[simp] theorem recvStatus_lcode (s : State) : (recvStatus s).lcode = s.lcode := by
  simp [recvStatus]
@[simp] theorem recvStatus_ln (s : State) : (recvStatus s).ln = s.ln := by
  simp [recvStatus]
@[simp] theorem recvStatus_laddr (s : State) : (recvStatus s).laddr = s.laddr := by
  simp [recvStatus]
@[simp] theorem recvStatus_ok (s : State) : (recvStatus s).ok = s.ok := by
  simp [recvStatus]
@[simp] theorem recvStatus_ovr (s : State) : (recvStatus s).ovr = s.ovr := by
  simp [recvStatus]
@[simp] theorem recvStatus_cause (s : State) : (recvStatus s).cause = s.cause := by
  simp [recvStatus]
@[simp] theorem recvStatus_cmd (s : State) : (recvStatus s).cmd = s.cmd := by
  simp [recvStatus]
@[simp] theorem recvStatus_pollcnt (s : State) : (recvStatus s).pollcnt = s.pollcnt := by
  simp [recvStatus]
@[simp] theorem recvStatus_dbuf (s : State) : (recvStatus s).dbuf = s.dbuf := by
  simp [recvStatus]
@[simp] theorem recvStatus_reads (s : State) : (recvStatus s).reads = s.reads := by
  simp [recvStatus]
@[simp] theorem recvStatus_readDraws (s : State) : (recvStatus s).readDraws = s.readDraws := by
  simp [recvStatus]
@[simp] theorem recvStatus_pending (s : State) : (recvStatus s).pending = s.pending := by
  simp [recvStatus]
@[simp] theorem recvStatus_resetAsserted (s : State) : (recvStatus s).resetAsserted = s.resetAsserted := by
  simp [recvStatus]

@[simp] theorem recvStatus_mode (s : State) : (recvStatus s).mode = .read := by simp [recvStatus]

@[simp] theorem recvStatus_pulsecnt (s : State) : (recvStatus s).pulsecnt = s.pulsecnt + 9#32 := by
  simp [recvStatus, BitVec.add_assoc]

theorem recvStatus_settlecnt (s : State) :
    (recvStatus s).settlecnt = if s.mode = .read then s.settlecnt else s.settlecnt + 1#32 := by
  simp [recvStatus, setReadMode_settlecnt]

theorem upcoming_setReadMode (s : State) (j : Nat) : upcoming (setReadMode s) j = upcoming s j :=
  upcoming_congr s _ (by simp) (by simp) j

theorem recvStatus_laststat (s : State) (h : s.mode = .read → s.ports.dat.dir = .input) :
    (recvStatus s).laststat = statusByte s 0 := by
  have hi := setReadMode_input s h
  simp only [recvStatus, latchStatus_laststat, clkPulse_shift8, statusBits_shift8 _ hi]
  exact statusByte_congr s _ 0 0 fun j => upcoming_setReadMode s _

theorem recvStatus_matched (s : State) (h : s.mode = .read → s.ports.dat.dir = .input) :
    (recvStatus s).matched = statusGood s 0 := by
  have hl := recvStatus_laststat s h
  simp only [recvStatus, latchStatus_laststat, latchStatus_matched] at hl ⊢
  rw [hl]
  rfl

theorem recvStatus_samples (s : State) (h : s.mode = .read → s.ports.dat.dir = .input) :
    (recvStatus s).samples = s.samples.drop 8 ∧ (recvStatus s).sampleDraws = s.sampleDraws + 8 := by
  have := statusBits_samples 8 (setReadMode s) (setReadMode_input s h)
  simpa [recvStatus] using this

theorem recvStatus_upcoming (s : State) (h : s.mode = .read → s.ports.dat.dir = .input) (j : Nat) :
    upcoming (recvStatus s) j = upcoming s (j + 8) :=
  upcoming_drop s _ 8 (recvStatus_samples s h).1 (recvStatus_samples s h).2 j

theorem recvStatus_trace (s : State) (h : s.mode = .read → s.ports.dat.dir = .input) :
    (recvStatus s).trace = (statusEvents s.mode (levels s 0 8)).reverse ++ s.trace := by
  have hl : levels (setReadMode s) 0 8 = levels s 0 8 := levels_congr s _ 0 0 8 fun j => upcoming_setReadMode s _
  simp [recvStatus, statusBits_trace 8 _ (setReadMode_input s h), hl, setReadMode_trace, statusEvents]

theorem recvStatus_ports (s : State) :
    (recvStatus s).ports = { (setReadMode s).ports with clk := ⟨s.ports.clk.dir, false⟩ } := by
  have e : ∀ p q : Ports, p.pwrN = q.pwrN → p.clk = q.clk → p.oe = q.oe → p.pgm = q.pgm → p.dat = q.dat → p = q := by
    rintro ⟨_, _, _, _, _⟩ ⟨_, _, _, _, _⟩; simp_all
  apply e <;> simp [recvStatus]

/-! SendOpcode and SendValue (R107, R109): entered in any mode. -/

@[simp] theorem sendOpcode_seq (src : OpcodeSrc) (s : State) : (sendOpcode src s).seq = s.seq := by
  simp [sendOpcode]
@[simp] theorem sendOpcode_shift16 (src : OpcodeSrc) (s : State) : (sendOpcode src s).shift16 = s.shift16 := by
  simp [sendOpcode]
@[simp] theorem sendOpcode_pollctr (src : OpcodeSrc) (s : State) : (sendOpcode src s).pollctr = s.pollctr := by
  simp [sendOpcode]
@[simp] theorem sendOpcode_widx (src : OpcodeSrc) (s : State) : (sendOpcode src s).widx = s.widx := by
  simp [sendOpcode]
@[simp] theorem sendOpcode_ready (src : OpcodeSrc) (s : State) : (sendOpcode src s).ready = s.ready := by
  simp [sendOpcode]
@[simp] theorem sendOpcode_lcode (src : OpcodeSrc) (s : State) : (sendOpcode src s).lcode = s.lcode := by
  simp [sendOpcode]
@[simp] theorem sendOpcode_ln (src : OpcodeSrc) (s : State) : (sendOpcode src s).ln = s.ln := by
  simp [sendOpcode]
@[simp] theorem sendOpcode_laddr (src : OpcodeSrc) (s : State) : (sendOpcode src s).laddr = s.laddr := by
  simp [sendOpcode]
@[simp] theorem sendOpcode_ok (src : OpcodeSrc) (s : State) : (sendOpcode src s).ok = s.ok := by
  simp [sendOpcode]
@[simp] theorem sendOpcode_ovr (src : OpcodeSrc) (s : State) : (sendOpcode src s).ovr = s.ovr := by
  simp [sendOpcode]
@[simp] theorem sendOpcode_cause (src : OpcodeSrc) (s : State) : (sendOpcode src s).cause = s.cause := by
  simp [sendOpcode]
@[simp] theorem sendOpcode_cmd (src : OpcodeSrc) (s : State) : (sendOpcode src s).cmd = s.cmd := by
  simp [sendOpcode]
@[simp] theorem sendOpcode_pollcnt (src : OpcodeSrc) (s : State) : (sendOpcode src s).pollcnt = s.pollcnt := by
  simp [sendOpcode]
@[simp] theorem sendOpcode_dbuf (src : OpcodeSrc) (s : State) : (sendOpcode src s).dbuf = s.dbuf := by
  simp [sendOpcode]
@[simp] theorem sendOpcode_reads (src : OpcodeSrc) (s : State) : (sendOpcode src s).reads = s.reads := by
  simp [sendOpcode]
@[simp] theorem sendOpcode_readDraws (src : OpcodeSrc) (s : State) : (sendOpcode src s).readDraws = s.readDraws := by
  simp [sendOpcode]
@[simp] theorem sendOpcode_pending (src : OpcodeSrc) (s : State) : (sendOpcode src s).pending = s.pending := by
  simp [sendOpcode]
@[simp] theorem sendOpcode_resetAsserted (src : OpcodeSrc) (s : State) : (sendOpcode src s).resetAsserted = s.resetAsserted := by
  simp [sendOpcode]

@[simp] theorem sendOpcode_mode (src : OpcodeSrc) (s : State) : (sendOpcode src s).mode = .read := by simp [sendOpcode]

@[simp] theorem sendOpcode_pulsecnt (src : OpcodeSrc) (s : State) : (sendOpcode src s).pulsecnt = s.pulsecnt + 25#32 := by
  simp [sendOpcode, BitVec.add_assoc]

/-- Two settle delays, one fewer when MODE was already Write (R98, R113). -/
theorem sendOpcode_settlecnt (src : OpcodeSrc) (s : State) :
    (sendOpcode src s).settlecnt = s.settlecnt + if s.mode = .write then 1#32 else 2#32 := by
  by_cases h : s.mode = .write <;> simp [sendOpcode, recvStatus_settlecnt, setWriteMode_settlecnt, h, BitVec.add_assoc]

/-- Before its status, the frame is in a write mode, so the status is read from the target. -/
theorem sendOpcode_enters (src : OpcodeSrc) (s : State) :
    (loopState 16 (opcodeBit src) (setWriteMode s)).mode = .read →
      (loopState 16 (opcodeBit src) (setWriteMode s)).ports.dat.dir = .input := by
  intro h; simp at h

theorem sendOpcode_sentUpcoming (src : OpcodeSrc) (s : State) (j : Nat) :
    upcoming (loopState 16 (opcodeBit src) (setWriteMode s)) j = upcoming s j :=
  upcoming_congr s _ (by simp) (by simp) j

@[simp] theorem sendOpcode_laststat (src : OpcodeSrc) (s : State) : (sendOpcode src s).laststat = statusByte s 0 := by
  rw [sendOpcode, recvStatus_laststat _ (sendOpcode_enters src s)]
  exact statusByte_congr s _ 0 0 fun j => sendOpcode_sentUpcoming src s _

@[simp] theorem sendOpcode_matched (src : OpcodeSrc) (s : State) : (sendOpcode src s).matched = statusGood s 0 := by
  rw [sendOpcode, recvStatus_matched _ (sendOpcode_enters src s), statusGood, statusGood,
    statusByte_congr s _ 0 0 fun j => sendOpcode_sentUpcoming src s _]

@[simp] theorem sendOpcode_samples (src : OpcodeSrc) (s : State) : (sendOpcode src s).samples = s.samples.drop 8 := by
  rw [sendOpcode, (recvStatus_samples _ (sendOpcode_enters src s)).1]
  simp

@[simp] theorem sendOpcode_sampleDraws (src : OpcodeSrc) (s : State) : (sendOpcode src s).sampleDraws = s.sampleDraws + 8 := by
  rw [sendOpcode, (recvStatus_samples _ (sendOpcode_enters src s)).2]
  simp

@[simp] theorem sendOpcode_upcoming (src : OpcodeSrc) (s : State) (j : Nat) : upcoming (sendOpcode src s) j = upcoming s (j + 8) :=
  upcoming_drop s _ 8 (by simp) (by simp) j

/-- The ports after the frame and its status: DAT an input, CLK, OE and PGM low (R99). -/
@[simp] theorem sendOpcode_ports (src : OpcodeSrc) (s : State) :
    (sendOpcode src s).ports =
      ⟨s.ports.pwrN, ⟨s.ports.clk.dir, false⟩, ⟨s.ports.oe.dir, false⟩, ⟨s.ports.pgm.dir, false⟩,
        ⟨.input, if s.mode = .write then s.ports.dat.out else false⟩⟩ := by
  by_cases h : s.mode = .write <;> simp [sendOpcode, recvStatus_ports, setReadMode_ports, setWriteMode_ports, h]

theorem sendOpcode_trace (src : OpcodeSrc) (s : State) :
    (sendOpcode src s).trace = (opcodeEvents s.mode (opcodeOf src s) (levels s 0 8)).reverse ++ s.trace := by
  have hv := opcodeOf_congr src (setWriteMode s) s (by simp)
  have hl := levels_congr s (loopState 16 (opcodeBit src) (setWriteMode s)) 0 0 8
    fun j => sendOpcode_sentUpcoming src s _
  simp [sendOpcode, recvStatus_trace _ (sendOpcode_enters src s), opcodeBits_trace, setWriteMode_trace, hv, hl, opcodeEvents, msbFirst]

@[simp] theorem sendValue_seq (src : ValueSrc) (s : State) : (sendValue src s).seq = s.seq := by
  simp [sendValue]
@[simp] theorem sendValue_shift16 (src : ValueSrc) (s : State) : (sendValue src s).shift16 = s.shift16 := by
  simp [sendValue]
@[simp] theorem sendValue_pollctr (src : ValueSrc) (s : State) : (sendValue src s).pollctr = s.pollctr := by
  simp [sendValue]
@[simp] theorem sendValue_widx (src : ValueSrc) (s : State) : (sendValue src s).widx = s.widx := by
  simp [sendValue]
@[simp] theorem sendValue_ready (src : ValueSrc) (s : State) : (sendValue src s).ready = s.ready := by
  simp [sendValue]
@[simp] theorem sendValue_lcode (src : ValueSrc) (s : State) : (sendValue src s).lcode = s.lcode := by
  simp [sendValue]
@[simp] theorem sendValue_ln (src : ValueSrc) (s : State) : (sendValue src s).ln = s.ln := by
  simp [sendValue]
@[simp] theorem sendValue_laddr (src : ValueSrc) (s : State) : (sendValue src s).laddr = s.laddr := by
  simp [sendValue]
@[simp] theorem sendValue_ok (src : ValueSrc) (s : State) : (sendValue src s).ok = s.ok := by
  simp [sendValue]
@[simp] theorem sendValue_ovr (src : ValueSrc) (s : State) : (sendValue src s).ovr = s.ovr := by
  simp [sendValue]
@[simp] theorem sendValue_cause (src : ValueSrc) (s : State) : (sendValue src s).cause = s.cause := by
  simp [sendValue]
@[simp] theorem sendValue_cmd (src : ValueSrc) (s : State) : (sendValue src s).cmd = s.cmd := by
  simp [sendValue]
@[simp] theorem sendValue_pollcnt (src : ValueSrc) (s : State) : (sendValue src s).pollcnt = s.pollcnt := by
  simp [sendValue]
@[simp] theorem sendValue_dbuf (src : ValueSrc) (s : State) : (sendValue src s).dbuf = s.dbuf := by
  simp [sendValue]
@[simp] theorem sendValue_reads (src : ValueSrc) (s : State) : (sendValue src s).reads = s.reads := by
  simp [sendValue]
@[simp] theorem sendValue_readDraws (src : ValueSrc) (s : State) : (sendValue src s).readDraws = s.readDraws := by
  simp [sendValue]
@[simp] theorem sendValue_pending (src : ValueSrc) (s : State) : (sendValue src s).pending = s.pending := by
  simp [sendValue]
@[simp] theorem sendValue_resetAsserted (src : ValueSrc) (s : State) : (sendValue src s).resetAsserted = s.resetAsserted := by
  simp [sendValue]

@[simp] theorem sendValue_mode (src : ValueSrc) (s : State) : (sendValue src s).mode = .read := by simp [sendValue]

@[simp] theorem sendValue_pulsecnt (src : ValueSrc) (s : State) : (sendValue src s).pulsecnt = s.pulsecnt + 41#32 := by
  simp [sendValue, BitVec.add_assoc]

/-- Two settle delays, one fewer when MODE was already Write (R98, R113). -/
theorem sendValue_settlecnt (src : ValueSrc) (s : State) :
    (sendValue src s).settlecnt = s.settlecnt + if s.mode = .write then 1#32 else 2#32 := by
  by_cases h : s.mode = .write <;> simp [sendValue, recvStatus_settlecnt, setWriteMode_settlecnt, h, BitVec.add_assoc]

/-- Before its status, the frame is in a write mode, so the status is read from the target. -/
theorem sendValue_enters (src : ValueSrc) (s : State) :
    (loopState 32 (valueBit src) (enterWriteData (setWriteMode s))).mode = .read →
      (loopState 32 (valueBit src) (enterWriteData (setWriteMode s))).ports.dat.dir = .input := by
  intro h; simp at h

theorem sendValue_sentUpcoming (src : ValueSrc) (s : State) (j : Nat) :
    upcoming (loopState 32 (valueBit src) (enterWriteData (setWriteMode s))) j = upcoming s j :=
  upcoming_congr s _ (by simp) (by simp) j

@[simp] theorem sendValue_laststat (src : ValueSrc) (s : State) : (sendValue src s).laststat = statusByte s 0 := by
  rw [sendValue, recvStatus_laststat _ (sendValue_enters src s)]
  exact statusByte_congr s _ 0 0 fun j => sendValue_sentUpcoming src s _

@[simp] theorem sendValue_matched (src : ValueSrc) (s : State) : (sendValue src s).matched = statusGood s 0 := by
  rw [sendValue, recvStatus_matched _ (sendValue_enters src s), statusGood, statusGood,
    statusByte_congr s _ 0 0 fun j => sendValue_sentUpcoming src s _]

@[simp] theorem sendValue_samples (src : ValueSrc) (s : State) : (sendValue src s).samples = s.samples.drop 8 := by
  rw [sendValue, (recvStatus_samples _ (sendValue_enters src s)).1]
  simp

@[simp] theorem sendValue_sampleDraws (src : ValueSrc) (s : State) : (sendValue src s).sampleDraws = s.sampleDraws + 8 := by
  rw [sendValue, (recvStatus_samples _ (sendValue_enters src s)).2]
  simp

@[simp] theorem sendValue_upcoming (src : ValueSrc) (s : State) (j : Nat) : upcoming (sendValue src s) j = upcoming s (j + 8) :=
  upcoming_drop s _ 8 (by simp) (by simp) j

/-- The ports after the frame and its status: DAT an input, CLK, OE and PGM low (R99). -/
@[simp] theorem sendValue_ports (src : ValueSrc) (s : State) :
    (sendValue src s).ports =
      ⟨s.ports.pwrN, ⟨s.ports.clk.dir, false⟩, ⟨s.ports.oe.dir, false⟩, ⟨s.ports.pgm.dir, false⟩,
        ⟨.input, if s.mode = .write then s.ports.dat.out else false⟩⟩ := by
  by_cases h : s.mode = .write <;> simp [sendValue, recvStatus_ports, setReadMode_ports, setWriteMode_ports, h]

theorem sendValue_trace (src : ValueSrc) (s : State) :
    (sendValue src s).trace = (valueEvents s.mode (valueOf src s) (levels s 0 8)).reverse ++ s.trace := by
  have hv := valueOf_congr src (enterWriteData (setWriteMode s)) s (by simp) (by simp)
  have hl := levels_congr s (loopState 32 (valueBit src) (enterWriteData (setWriteMode s))) 0 0 8
    fun j => sendValue_sentUpcoming src s _
  simp [sendValue, recvStatus_trace _ (sendValue_enters src s), valueBits_trace, setWriteMode_trace, hv, hl, valueEvents, msbFirst]

/-! RecvWord (R110): `h` says that DAT is an input where MODE is already Read. -/

@[simp] theorem recvWord_seq (s : State) : (recvWord s).seq = s.seq := by
  simp [recvWord]
@[simp] theorem recvWord_shift8 (s : State) : (recvWord s).shift8 = s.shift8 := by
  simp [recvWord]
@[simp] theorem recvWord_pollctr (s : State) : (recvWord s).pollctr = s.pollctr := by
  simp [recvWord]
@[simp] theorem recvWord_widx (s : State) : (recvWord s).widx = s.widx := by
  simp [recvWord]
@[simp] theorem recvWord_matched (s : State) : (recvWord s).matched = s.matched := by
  simp [recvWord]
@[simp] theorem recvWord_ready (s : State) : (recvWord s).ready = s.ready := by
  simp [recvWord]
@[simp] theorem recvWord_lcode (s : State) : (recvWord s).lcode = s.lcode := by
  simp [recvWord]
@[simp] theorem recvWord_ln (s : State) : (recvWord s).ln = s.ln := by
  simp [recvWord]
@[simp] theorem recvWord_laddr (s : State) : (recvWord s).laddr = s.laddr := by
  simp [recvWord]
@[simp] theorem recvWord_ok (s : State) : (recvWord s).ok = s.ok := by
  simp [recvWord]
@[simp] theorem recvWord_ovr (s : State) : (recvWord s).ovr = s.ovr := by
  simp [recvWord]
@[simp] theorem recvWord_cause (s : State) : (recvWord s).cause = s.cause := by
  simp [recvWord]
@[simp] theorem recvWord_cmd (s : State) : (recvWord s).cmd = s.cmd := by
  simp [recvWord]
@[simp] theorem recvWord_laststat (s : State) : (recvWord s).laststat = s.laststat := by
  simp [recvWord]
@[simp] theorem recvWord_pollcnt (s : State) : (recvWord s).pollcnt = s.pollcnt := by
  simp [recvWord]
@[simp] theorem recvWord_dbuf (s : State) : (recvWord s).dbuf = s.dbuf := by
  simp [recvWord]
@[simp] theorem recvWord_reads (s : State) : (recvWord s).reads = s.reads := by
  simp [recvWord]
@[simp] theorem recvWord_readDraws (s : State) : (recvWord s).readDraws = s.readDraws := by
  simp [recvWord]
@[simp] theorem recvWord_pending (s : State) : (recvWord s).pending = s.pending := by
  simp [recvWord]
@[simp] theorem recvWord_resetAsserted (s : State) : (recvWord s).resetAsserted = s.resetAsserted := by
  simp [recvWord]

@[simp] theorem recvWord_mode (s : State) : (recvWord s).mode = .read := by simp [recvWord]

@[simp] theorem recvWord_pulsecnt (s : State) : (recvWord s).pulsecnt = s.pulsecnt + 16#32 := by simp [recvWord]

theorem recvWord_settlecnt (s : State) :
    (recvWord s).settlecnt = if s.mode = .read then s.settlecnt else s.settlecnt + 1#32 := by
  simp [recvWord, setReadMode_settlecnt]

theorem recvWord_shift16 (s : State) (h : s.mode = .read → s.ports.dat.dir = .input) :
    wordBitsAre s 0 (recvWord s).shift16 := by
  intro j hj
  have := wordBits_shift16_bit 16 (Nat.le_refl _) (setReadMode s) (setReadMode_input s h) j hj
  simpa [recvWord, upcoming_setReadMode] using this

theorem recvWord_samples (s : State) (h : s.mode = .read → s.ports.dat.dir = .input) :
    (recvWord s).samples = s.samples.drop 16 ∧ (recvWord s).sampleDraws = s.sampleDraws + 16 := by
  have := wordBits_samples 16 (setReadMode s) (setReadMode_input s h)
  simpa [recvWord] using this

theorem recvWord_upcoming (s : State) (h : s.mode = .read → s.ports.dat.dir = .input) (j : Nat) :
    upcoming (recvWord s) j = upcoming s (j + 16) :=
  upcoming_drop s _ 16 (recvWord_samples s h).1 (recvWord_samples s h).2 j

theorem recvWord_trace (s : State) (h : s.mode = .read → s.ports.dat.dir = .input) :
    (recvWord s).trace = (readModeEvents s.mode ++ bitsInEvents (levels s 0 16)).reverse ++ s.trace := by
  have hl : levels (setReadMode s) 0 16 = levels s 0 16 := levels_congr s _ 0 0 16 fun j => upcoming_setReadMode s _
  simp [recvWord, wordBits_trace 16 _ (setReadMode_input s h), hl, setReadMode_trace]

theorem recvWord_ports (s : State) :
    (recvWord s).ports = { (setReadMode s).ports with clk := ⟨s.ports.clk.dir, false⟩ } := by
  have e : ∀ p q : Ports, p.pwrN = q.pwrN → p.clk = q.clk → p.oe = q.oe → p.pgm = q.pgm → p.dat = q.dat → p = q := by
    rintro ⟨_, _, _, _, _⟩ ⟨_, _, _, _, _⟩; simp_all
  apply e <;> simp [recvWord]
  exact congrArg₂ Port.mk (by simp) (wordBits_clk_out 15 (setReadMode s))

/-! The poll (R116 to R120). -/

@[simp] theorem pollTicks_mode (n : Nat) (s : State) : (pollTicks n s).mode = s.mode := 
  pollTicks_preserves (·.mode) (fun u => by simp [pollTick]) n s
@[simp] theorem pollTicks_seq (n : Nat) (s : State) : (pollTicks n s).seq = s.seq := 
  pollTicks_preserves (·.seq) (fun u => by simp [pollTick]) n s
@[simp] theorem pollTicks_shift16 (n : Nat) (s : State) : (pollTicks n s).shift16 = s.shift16 := 
  pollTicks_preserves (·.shift16) (fun u => by simp [pollTick]) n s
@[simp] theorem pollTicks_shift8 (n : Nat) (s : State) : (pollTicks n s).shift8 = s.shift8 := 
  pollTicks_preserves (·.shift8) (fun u => by simp [pollTick]) n s
@[simp] theorem pollTicks_bitcnt (n : Nat) (s : State) : (pollTicks n s).bitcnt = s.bitcnt := 
  pollTicks_preserves (·.bitcnt) (fun u => by simp [pollTick]) n s
@[simp] theorem pollTicks_widx (n : Nat) (s : State) : (pollTicks n s).widx = s.widx := 
  pollTicks_preserves (·.widx) (fun u => by simp [pollTick]) n s
@[simp] theorem pollTicks_matched (n : Nat) (s : State) : (pollTicks n s).matched = s.matched := 
  pollTicks_preserves (·.matched) (fun u => by simp [pollTick]) n s
@[simp] theorem pollTicks_lcode (n : Nat) (s : State) : (pollTicks n s).lcode = s.lcode := 
  pollTicks_preserves (·.lcode) (fun u => by simp [pollTick]) n s
@[simp] theorem pollTicks_ln (n : Nat) (s : State) : (pollTicks n s).ln = s.ln := 
  pollTicks_preserves (·.ln) (fun u => by simp [pollTick]) n s
@[simp] theorem pollTicks_laddr (n : Nat) (s : State) : (pollTicks n s).laddr = s.laddr := 
  pollTicks_preserves (·.laddr) (fun u => by simp [pollTick]) n s
@[simp] theorem pollTicks_ok (n : Nat) (s : State) : (pollTicks n s).ok = s.ok := 
  pollTicks_preserves (·.ok) (fun u => by simp [pollTick]) n s
@[simp] theorem pollTicks_ovr (n : Nat) (s : State) : (pollTicks n s).ovr = s.ovr := 
  pollTicks_preserves (·.ovr) (fun u => by simp [pollTick]) n s
@[simp] theorem pollTicks_cause (n : Nat) (s : State) : (pollTicks n s).cause = s.cause := 
  pollTicks_preserves (·.cause) (fun u => by simp [pollTick]) n s
@[simp] theorem pollTicks_cmd (n : Nat) (s : State) : (pollTicks n s).cmd = s.cmd := 
  pollTicks_preserves (·.cmd) (fun u => by simp [pollTick]) n s
@[simp] theorem pollTicks_settlecnt (n : Nat) (s : State) : (pollTicks n s).settlecnt = s.settlecnt := 
  pollTicks_preserves (·.settlecnt) (fun u => by simp [pollTick]) n s
@[simp] theorem pollTicks_laststat (n : Nat) (s : State) : (pollTicks n s).laststat = s.laststat := 
  pollTicks_preserves (·.laststat) (fun u => by simp [pollTick]) n s
@[simp] theorem pollTicks_pollcnt (n : Nat) (s : State) : (pollTicks n s).pollcnt = s.pollcnt := 
  pollTicks_preserves (·.pollcnt) (fun u => by simp [pollTick]) n s
@[simp] theorem pollTicks_dbuf (n : Nat) (s : State) : (pollTicks n s).dbuf = s.dbuf := 
  pollTicks_preserves (·.dbuf) (fun u => by simp [pollTick]) n s
@[simp] theorem pollTicks_reads (n : Nat) (s : State) : (pollTicks n s).reads = s.reads := 
  pollTicks_preserves (·.reads) (fun u => by simp [pollTick]) n s
@[simp] theorem pollTicks_readDraws (n : Nat) (s : State) : (pollTicks n s).readDraws = s.readDraws := 
  pollTicks_preserves (·.readDraws) (fun u => by simp [pollTick]) n s
@[simp] theorem pollTicks_pending (n : Nat) (s : State) : (pollTicks n s).pending = s.pending := 
  pollTicks_preserves (·.pending) (fun u => by simp [pollTick]) n s
@[simp] theorem pollTicks_resetAsserted (n : Nat) (s : State) : (pollTicks n s).resetAsserted = s.resetAsserted := 
  pollTicks_preserves (·.resetAsserted) (fun u => by simp [pollTick]) n s
@[simp] theorem pollTicks_pwrN (n : Nat) (s : State) : (pollTicks n s).ports.pwrN = s.ports.pwrN :=
  pollTicks_preserves (·.ports.pwrN) (fun u => by simp [pollTick]) n s
@[simp] theorem pollTicks_oe (n : Nat) (s : State) : (pollTicks n s).ports.oe = s.ports.oe :=
  pollTicks_preserves (·.ports.oe) (fun u => by simp [pollTick]) n s
@[simp] theorem pollTicks_pgm (n : Nat) (s : State) : (pollTicks n s).ports.pgm = s.ports.pgm :=
  pollTicks_preserves (·.ports.pgm) (fun u => by simp [pollTick]) n s
@[simp] theorem pollTicks_dat (n : Nat) (s : State) : (pollTicks n s).ports.dat = s.ports.dat :=
  pollTicks_preserves (·.ports.dat) (fun u => by simp [pollTick]) n s
@[simp] theorem pollTicks_clk_dir (n : Nat) (s : State) : (pollTicks n s).ports.clk.dir = s.ports.clk.dir :=
  pollTicks_preserves (·.ports.clk.dir) (fun u => by simp [pollTick]) n s

theorem pollTicks_clk_out (n : Nat) (s : State) (h : s.ports.clk.out = false) :
    (pollTicks n s).ports.clk.out = false := by
  induction n generalizing s with
  | zero => exact h
  | succ n ih =>
    unfold pollTicks; split
    · exact h
    · exact ih _ (by simp [pollTick])

/-- One tick from an input port: a pulse, a sample, a count (R116). -/
theorem pollTick_upcoming (s : State) (h : s.ports.dat.dir = .input) (j : Nat) :
    upcoming (pollTick s) j = upcoming s (j + 1) := by
  have hd : (clkPulse s).ports.dat.dir = .input := by simp [h]
  apply upcoming_drop s
  · simp [pollTick, afterSample_samples _ hd]
  · simp [pollTick, afterSample_sampleDraws _ hd]

theorem pollTick_ready (s : State) (h : s.ports.dat.dir = .input) :
    (pollTick s).ready = if upcoming s 0 then true else s.ready := by
  have hd : (clkPulse s).ports.dat.dir = .input := by simp [h]
  simp [pollTick, datLevel_input _ hd, upcoming_congr s (clkPulse s) rfl rfl]

theorem pollTick_trace (s : State) (h : s.ports.dat.dir = .input) :
    (pollTick s).trace = (clkEvents ++ [LineEvent.sample .dat (upcoming s 0)]).reverse ++ s.trace := by
  have hd : (clkPulse s).ports.dat.dir = .input := by simp [h]
  simp [pollTick, afterSample_trace _ hd, upcoming_congr s (clkPulse s) rfl rfl]

/-- Ticks before the first 1 (R117, R118): each takes one pulse and one sample, and the loop is not over. -/
theorem pollTicks_waiting (n m : Nat) (s : State) (h : s.ports.dat.dir = .input) (hr : s.ready = false)
    (hu : ∀ j, j < n → upcoming s j = false) :
    ∃ t, pollTicks (n + m) s = pollTicks m t ∧ t.ports.dat.dir = .input ∧ t.ready = false ∧
      t.pollctr = s.pollctr + BitVec.ofNat 19 n ∧ t.pulsecnt = s.pulsecnt + BitVec.ofNat 32 n ∧
      t.samples = s.samples.drop n ∧ t.sampleDraws = s.sampleDraws + n ∧
      t.trace = (bitsInEvents (List.replicate n false)).reverse ++ s.trace := by
  induction n generalizing s with
  | zero => exact ⟨s, by simp, h, hr, by simp, by simp, by simp, by simp, by simp [bitsInEvents]⟩
  | succ n ih =>
    have hd : (clkPulse s).ports.dat.dir = .input := by simp [h]
    have h0 := hu 0 (Nat.succ_pos _)
    have hr1 : (pollTick s).ready = false := by simp [pollTick_ready s h, h0, hr]
    obtain ⟨t, e, a, b, c, d, f, g, i⟩ := ih (pollTick s) (by simp [pollTick, h]) hr1
      (fun j hj => by rw [pollTick_upcoming s h]; exact hu (j + 1) (by omega))
    refine ⟨t, ?_, a, b, ?_, ?_, ?_, ?_, ?_⟩
    · rw [show n + 1 + m = n + m + 1 by omega, pollTicks, if_neg (by simp [hr]), e]
    · rw [c]; simp [pollTick, BitVec.ofNat_add, BitVec.add_assoc, BitVec.add_comm 1#19]
    · rw [d]; simp [pollTick, BitVec.ofNat_add, BitVec.add_assoc, BitVec.add_comm 1#32]
    · rw [f]; simp [pollTick, afterSample_samples _ hd]
    · rw [g]; simp [pollTick, afterSample_sampleDraws _ hd]; omega
    · rw [i, pollTick_trace s h, h0]
      simp [List.replicate_succ, bitsInEvents]

@[simp] theorem pollWait_seq (budget : Nat) (s : State) : (pollWait budget s).seq = s.seq := by
  simp [pollWait]
@[simp] theorem pollWait_shift16 (budget : Nat) (s : State) : (pollWait budget s).shift16 = s.shift16 := by
  simp [pollWait]
@[simp] theorem pollWait_shift8 (budget : Nat) (s : State) : (pollWait budget s).shift8 = s.shift8 := by
  simp [pollWait]
@[simp] theorem pollWait_bitcnt (budget : Nat) (s : State) : (pollWait budget s).bitcnt = s.bitcnt := by
  simp [pollWait]
@[simp] theorem pollWait_widx (budget : Nat) (s : State) : (pollWait budget s).widx = s.widx := by
  simp [pollWait]
@[simp] theorem pollWait_matched (budget : Nat) (s : State) : (pollWait budget s).matched = s.matched := by
  simp [pollWait]
@[simp] theorem pollWait_lcode (budget : Nat) (s : State) : (pollWait budget s).lcode = s.lcode := by
  simp [pollWait]
@[simp] theorem pollWait_ln (budget : Nat) (s : State) : (pollWait budget s).ln = s.ln := by
  simp [pollWait]
@[simp] theorem pollWait_laddr (budget : Nat) (s : State) : (pollWait budget s).laddr = s.laddr := by
  simp [pollWait]
@[simp] theorem pollWait_ok (budget : Nat) (s : State) : (pollWait budget s).ok = s.ok := by
  simp [pollWait]
@[simp] theorem pollWait_ovr (budget : Nat) (s : State) : (pollWait budget s).ovr = s.ovr := by
  simp [pollWait]
@[simp] theorem pollWait_cause (budget : Nat) (s : State) : (pollWait budget s).cause = s.cause := by
  simp [pollWait]
@[simp] theorem pollWait_cmd (budget : Nat) (s : State) : (pollWait budget s).cmd = s.cmd := by
  simp [pollWait]
@[simp] theorem pollWait_laststat (budget : Nat) (s : State) : (pollWait budget s).laststat = s.laststat := by
  simp [pollWait]
@[simp] theorem pollWait_dbuf (budget : Nat) (s : State) : (pollWait budget s).dbuf = s.dbuf := by
  simp [pollWait]
@[simp] theorem pollWait_reads (budget : Nat) (s : State) : (pollWait budget s).reads = s.reads := by
  simp [pollWait]
@[simp] theorem pollWait_readDraws (budget : Nat) (s : State) : (pollWait budget s).readDraws = s.readDraws := by
  simp [pollWait]
@[simp] theorem pollWait_pending (budget : Nat) (s : State) : (pollWait budget s).pending = s.pending := by
  simp [pollWait]
@[simp] theorem pollWait_resetAsserted (budget : Nat) (s : State) : (pollWait budget s).resetAsserted = s.resetAsserted := by
  simp [pollWait]

@[simp] theorem pollWait_mode (budget : Nat) (s : State) : (pollWait budget s).mode = .read := by simp [pollWait]

/-- A poll in Read mode that sees its first 1 at iteration `k` within the budget (R117, R119). -/
theorem pollWait_ready (budget k : Nat) (s : State) (hm : s.mode = .read) (hd : s.ports.dat.dir = .input)
    (hk : k < budget) (hr : readyAt s 0 k) :
    (pollWait budget s).ready = true ∧
      (pollWait budget s).pollcnt = BitVec.ofNat 19 (k + 1) ∧
      (pollWait budget s).pulsecnt = s.pulsecnt + BitVec.ofNat 32 (k + 1) ∧
      (pollWait budget s).settlecnt = s.settlecnt ∧
      (pollWait budget s).samples = s.samples.drop (k + 1) ∧
      (pollWait budget s).sampleDraws = s.sampleDraws + (k + 1) ∧
      (pollWait budget s).trace = (bitsInEvents (List.replicate k false ++ [true])).reverse ++ s.trace ∧
      (pollWait budget s).ports = { s.ports with clk := ⟨s.ports.clk.dir, false⟩ } := by
  obtain ⟨h1, h0⟩ := hr
  have hu : ∀ j, upcoming (startPoll s) j = upcoming s j := fun j => upcoming_congr s _ rfl rfl j
  obtain ⟨t, e, a, b, c, d, f, g, i⟩ := pollTicks_waiting k (budget - k) (startPoll s) hd rfl
    (fun j hj => by rw [hu]; simpa using h0 j hj)
  have hut : upcoming t 0 = true := by
    rw [upcoming_drop (startPoll s) t k f g, hu, Nat.zero_add]; simpa using h1
  have hdt : (clkPulse t).ports.dat.dir = .input := by simp [a]
  have hrt : (pollTick t).ready = true := by simp [pollTick_ready t a, hut]
  have he : pollTicks budget (startPoll s) = pollTick t := by
    rw [show budget = k + (budget - k) by omega, e, show budget - k = budget - k - 1 + 1 by omega, pollTicks,
      if_neg (by simp [b])]
    cases hn : budget - k - 1 <;> simp [pollTicks, hrt]
  have hw : pollWait budget s = latchPollCount (pollTick t) := by rw [pollWait, setReadMode_read s hm, he]
  refine ⟨by simp [hw, hrt], ?_, ?_, ?_, ?_, ?_, ?_, ?_⟩
  · rw [hw]; simp [pollTick, c, BitVec.ofNat_add]
  · rw [hw]; simp [pollTick, d, BitVec.ofNat_add, BitVec.add_assoc]
  · have := pollTicks_settlecnt budget (startPoll s)
    rw [he] at this; rw [hw]; simpa using this
  · rw [hw]; simp [pollTick, afterSample_samples _ hdt, f]
  · rw [hw]; simp [pollTick, afterSample_sampleDraws _ hdt, g]; omega
  · rw [hw]; simp [pollTick_trace t a, hut, i, bitsInEvents]
  · have hq : ∀ q : Ports → Port, q (pollTicks budget (startPoll s)).ports = q s.ports →
        q (pollTick t).ports = q s.ports := fun q hq => by rw [he] at hq; exact hq
    have e1 := hq (·.pwrN) (by simp)
    have e2 := hq (·.oe) (by simp)
    have e3 := hq (·.pgm) (by simp)
    have e4 := hq (·.dat) (by simp)
    have e5 := pollTicks_clk_dir budget (startPoll s)
    rw [he] at e5
    have e6 : (pollTick t).ports.clk.out = false := by simp [pollTick]
    have e : ∀ p q : Ports, p.pwrN = q.pwrN → p.clk = q.clk → p.oe = q.oe → p.pgm = q.pgm → p.dat = q.dat → p = q := by
      rintro ⟨_, _, _, _, _⟩ ⟨_, _, _, _, _⟩; simp_all
    rw [hw, latchPollCount_ports]
    apply e
    · exact e1
    · exact congrArg₂ Port.mk e5 e6
    · exact e2
    · exact e3
    · exact e4

/-- A poll in Read mode that sees no 1 within the budget (R118). -/
theorem pollWait_timeout (budget : Nat) (s : State) (hm : s.mode = .read) (hd : s.ports.dat.dir = .input)
    (hr : neverReady s 0 budget) :
    (pollWait budget s).ready = false ∧
      (pollWait budget s).pollcnt = BitVec.ofNat 19 budget ∧
      (pollWait budget s).pulsecnt = s.pulsecnt + BitVec.ofNat 32 budget ∧
      (pollWait budget s).settlecnt = s.settlecnt ∧
      (pollWait budget s).samples = s.samples.drop budget ∧
      (pollWait budget s).sampleDraws = s.sampleDraws + budget ∧
      (pollWait budget s).trace = (bitsInEvents (List.replicate budget false)).reverse ++ s.trace ∧
      (pollWait budget s).ports.dat = s.ports.dat := by
  have hu : ∀ j, upcoming (startPoll s) j = upcoming s j := fun j => upcoming_congr s _ rfl rfl j
  obtain ⟨t, e, a, b, c, d, f, g, i⟩ := pollTicks_waiting budget 0 (startPoll s) hd rfl
    (fun j hj => by rw [hu]; simpa using hr j hj)
  have he : pollTicks budget (startPoll s) = t := by simpa [pollTicks] using e
  have hw : pollWait budget s = latchPollCount t := by rw [pollWait, setReadMode_read s hm, he]
  have h1 := pollTicks_settlecnt budget (startPoll s)
  have h2 := pollTicks_dat budget (startPoll s)
  rw [he] at h1 h2
  refine ⟨by simp [hw, b], by simp [hw, c], by simp [hw, d], by simpa [hw] using h1, by simp [hw, f], by simp [hw, g],
    by simp [hw, i], by simpa [hw] using h2⟩

/-- A poll either sees a first 1 within the budget or none (R117). -/
theorem ready_or_never (s : State) (m budget : Nat) :
    (∃ k, k < budget ∧ readyAt s m k) ∨ neverReady s m budget := by
  induction budget with
  | zero => exact .inr fun j hj => absurd hj (Nat.not_lt_zero j)
  | succ n ih =>
    rcases ih with ⟨k, hk, h⟩ | h
    · exact .inl ⟨k, by omega, h⟩
    · cases hu : upcoming s (m + n) with
      | true => exact .inl ⟨n, by omega, hu, h⟩
      | false =>
        refine .inr fun j hj => ?_
        by_cases hjn : j = n
        · subst hjn; exact hu
        · exact h j (by omega)

/-! The poll's status read (R116): DAT an input. -/

@[simp] theorem pollStatus_mode (s : State) : (pollStatus s).mode = s.mode := by
  simp [pollStatus]
@[simp] theorem pollStatus_seq (s : State) : (pollStatus s).seq = s.seq := by
  simp [pollStatus]
@[simp] theorem pollStatus_shift16 (s : State) : (pollStatus s).shift16 = s.shift16 := by
  simp [pollStatus]
@[simp] theorem pollStatus_pollctr (s : State) : (pollStatus s).pollctr = s.pollctr := by
  simp [pollStatus]
@[simp] theorem pollStatus_widx (s : State) : (pollStatus s).widx = s.widx := by
  simp [pollStatus]
@[simp] theorem pollStatus_ready (s : State) : (pollStatus s).ready = s.ready := by
  simp [pollStatus]
@[simp] theorem pollStatus_lcode (s : State) : (pollStatus s).lcode = s.lcode := by
  simp [pollStatus]
@[simp] theorem pollStatus_ln (s : State) : (pollStatus s).ln = s.ln := by
  simp [pollStatus]
@[simp] theorem pollStatus_laddr (s : State) : (pollStatus s).laddr = s.laddr := by
  simp [pollStatus]
@[simp] theorem pollStatus_ok (s : State) : (pollStatus s).ok = s.ok := by
  simp [pollStatus]
@[simp] theorem pollStatus_ovr (s : State) : (pollStatus s).ovr = s.ovr := by
  simp [pollStatus]
@[simp] theorem pollStatus_cause (s : State) : (pollStatus s).cause = s.cause := by
  simp [pollStatus]
@[simp] theorem pollStatus_cmd (s : State) : (pollStatus s).cmd = s.cmd := by
  simp [pollStatus]
@[simp] theorem pollStatus_settlecnt (s : State) : (pollStatus s).settlecnt = s.settlecnt := by
  simp [pollStatus]
@[simp] theorem pollStatus_pollcnt (s : State) : (pollStatus s).pollcnt = s.pollcnt := by
  simp [pollStatus]
@[simp] theorem pollStatus_dbuf (s : State) : (pollStatus s).dbuf = s.dbuf := by
  simp [pollStatus]
@[simp] theorem pollStatus_reads (s : State) : (pollStatus s).reads = s.reads := by
  simp [pollStatus]
@[simp] theorem pollStatus_readDraws (s : State) : (pollStatus s).readDraws = s.readDraws := by
  simp [pollStatus]
@[simp] theorem pollStatus_pending (s : State) : (pollStatus s).pending = s.pending := by
  simp [pollStatus]
@[simp] theorem pollStatus_resetAsserted (s : State) : (pollStatus s).resetAsserted = s.resetAsserted := by
  simp [pollStatus]
@[simp] theorem pollStatus_pwrN (s : State) : (pollStatus s).ports.pwrN = s.ports.pwrN := by simp [pollStatus]
@[simp] theorem pollStatus_oe (s : State) : (pollStatus s).ports.oe = s.ports.oe := by simp [pollStatus]
@[simp] theorem pollStatus_pgm (s : State) : (pollStatus s).ports.pgm = s.ports.pgm := by simp [pollStatus]
@[simp] theorem pollStatus_dat (s : State) : (pollStatus s).ports.dat = s.ports.dat := by simp [pollStatus]
@[simp] theorem pollStatus_clk (s : State) : (pollStatus s).ports.clk = ⟨s.ports.clk.dir, false⟩ := by
  exact congrArg₂ Port.mk (statusBits_clk_dir 8 s) (statusBits_clk_out 7 s)

@[simp] theorem pollStatus_pulsecnt (s : State) : (pollStatus s).pulsecnt = s.pulsecnt + 8#32 := by simp [pollStatus]

theorem pollStatus_laststat (s : State) (h : s.ports.dat.dir = .input) : (pollStatus s).laststat = statusByte s 0 := by
  simp [pollStatus, statusBits_shift8 s h]

theorem pollStatus_matched (s : State) (h : s.ports.dat.dir = .input) : (pollStatus s).matched = statusGood s 0 := by
  simp only [pollStatus, latchStatus_matched, statusBits_shift8 s h]
  rfl

theorem pollStatus_samples (s : State) (h : s.ports.dat.dir = .input) :
    (pollStatus s).samples = s.samples.drop 8 ∧ (pollStatus s).sampleDraws = s.sampleDraws + 8 := by
  simpa [pollStatus] using statusBits_samples 8 s h

theorem pollStatus_trace (s : State) (h : s.ports.dat.dir = .input) :
    (pollStatus s).trace = (bitsInEvents (levels s 0 8)).reverse ++ s.trace := by
  simp [pollStatus, statusBits_trace 8 s h]

end Sys2Proof.Machine
end

