-- ==== Sys2Proof/Laws/Programs.lean ====
section
/-! SUPPORT. Each command's list of operations as nested phases: after every phase that may fail, either the command
ends there or the next phase follows (R144, R145). -/

namespace Sys2Proof.Machine

open Sys2Proof

/-- The next phase when the status matched, the failure otherwise. -/
def orFail (c : Cause) (s : State) (k : State → State) : State := if s.matched then k s else failCommand c s

@[simp] theorem orFail_matched (c : Cause) (s : State) (k : State → State) (h : s.matched = true) :
    orFail c s k = k s := by simp [orFail, h]

@[simp] theorem orFail_unmatched (c : Cause) (s : State) (k : State → State) (h : s.matched = false) :
    orFail c s k = failCommand c s := by simp [orFail, h]

/-- What every operation of a list keeps, its run keeps. -/
theorem run_preserves {α : Type} (f : State → α) (p : List Micro)
    (h : ∀ m, m ∈ p → ∀ s, f (execMicro m s) = f s) (s : State) : f (run p s) = f s := by
  induction p generalizing s with
  | nil => rfl
  | cons m p ih =>
    unfold run
    split
    · rw [ih fun m' hm' => h m' (List.mem_cons_of_mem _ hm'), h m List.mem_cons_self]
    · rfl

/-- What no operation writes: CMD, OVR, the latched operands, the reset input, and the host's side. -/
theorem execMicro_keeps (m : Micro) (s : State) :
    (execMicro m s).cmd = s.cmd ∧ (execMicro m s).ovr = s.ovr ∧ (execMicro m s).lcode = s.lcode ∧
      (execMicro m s).ln = s.ln ∧ (execMicro m s).laddr = s.laddr ∧ (execMicro m s).reads = s.reads ∧
      (execMicro m s).readDraws = s.readDraws ∧ (execMicro m s).pending = s.pending ∧
      (execMicro m s).resetAsserted = s.resetAsserted := by
  induction m generalizing s with
  | unlessMode m a ih =>
    unfold execMicro
    split
    · simp
    · exact ih s
  | failUnlessMatch c => unfold execMicro; split <;> simp
  | failUnlessReady c => unfold execMicro; split <;> simp
  | _ => simp [execMicro]

theorem run_keeps (p : List Micro) (s : State) :
    (run p s).cmd = s.cmd ∧ (run p s).ovr = s.ovr ∧ (run p s).lcode = s.lcode ∧ (run p s).ln = s.ln ∧
      (run p s).laddr = s.laddr ∧ (run p s).reads = s.reads ∧ (run p s).readDraws = s.readDraws ∧
      (run p s).pending = s.pending ∧ (run p s).resetAsserted = s.resetAsserted :=
  ⟨run_preserves (·.cmd) p (fun m _ s => (execMicro_keeps m s).1) s,
    run_preserves (·.ovr) p (fun m _ s => (execMicro_keeps m s).2.1) s,
    run_preserves (·.lcode) p (fun m _ s => (execMicro_keeps m s).2.2.1) s,
    run_preserves (·.ln) p (fun m _ s => (execMicro_keeps m s).2.2.2.1) s,
    run_preserves (·.laddr) p (fun m _ s => (execMicro_keeps m s).2.2.2.2.1) s,
    run_preserves (·.reads) p (fun m _ s => (execMicro_keeps m s).2.2.2.2.2.1) s,
    run_preserves (·.readDraws) p (fun m _ s => (execMicro_keeps m s).2.2.2.2.2.2.1) s,
    run_preserves (·.pending) p (fun m _ s => (execMicro_keeps m s).2.2.2.2.2.2.2.1) s,
    run_preserves (·.resetAsserted) p (fun m _ s => (execMicro_keeps m s).2.2.2.2.2.2.2.2) s⟩

/-- Shutdown (R96). -/
def shutdownState (s : State) : State :=
  setMode .unknown (setDir .dat .output (setDir .pgm .output (setDir .oe .output (setDir .clk .output
    (setDir .pwrN .output (drive .pwrN true (drive .dat false (drive .pgm false (drive .oe false
      (drive .clk false s))))))))))

/-- PowerUp (R97). -/
def powerUpState (s : State) : State := drive .pwrN false (sleepFor .pwroff (shutdownState s))

theorem run_shutdownOps (s : State) (h : s.busy = true) : run shutdownOps s = shutdownState s := by
  simp [shutdownOps, run, execMicro, shutdownState, h]

theorem run_shutdownProgram (s : State) (h : s.busy = true) :
    run shutdownProgram s = succeedCommand (shutdownState s) := by
  simp [shutdownProgram, shutdownOps, run, execMicro, shutdownState, h]

theorem run_powerupProgram (s : State) (h : s.busy = true) :
    run powerupProgram s = succeedCommand (powerUpState s) := by
  simp [powerupProgram, powerUpOps, shutdownOps, run, execMicro, shutdownState, powerUpState, h]

/-- The state a lifecycle or a mode primitive leaves, field by field, in one equation (R96). -/
theorem shutdownState_eq (s : State) :
    shutdownState s =
      { s with
        ports := ⟨⟨.output, true⟩, ⟨.output, false⟩, ⟨.output, false⟩, ⟨.output, false⟩, ⟨.output, false⟩⟩
        mode := .unknown
        trace := shutdownEvents.reverse ++ s.trace } := rfl

theorem powerUpState_eq (s : State) :
    powerUpState s =
      { s with
        ports := ⟨⟨.output, false⟩, ⟨.output, false⟩, ⟨.output, false⟩, ⟨.output, false⟩, ⟨.output, false⟩⟩
        mode := .unknown
        trace := powerUpEvents.reverse ++ s.trace } := rfl

/-- The two trailing pulses and the success (R91). -/
theorem run_trailing (s : State) (h : s.busy = true) :
    run (pulsesOps 2 ++ [.succeed]) s = succeedCommand (pulses 2 s) := by
  rw [run_append, run_pulsesOps 2 s h, run_succeed _ (by simp [h])]

theorem run_checkProgram (s : State) (h : s.busy = true) :
    run checkProgram s = orFail .checkFail (sendOpcode (.const Config.opcCheck) s) succeedCommand := by
  rw [checkProgram, run_checkOps _ s h, orFail]
  rw [run_succeed _ (by simp [h])]

/-- An opcode frame followed by more, as a phase. -/
theorem run_sendOpcode_phase (src : OpcodeSrc) (c : Cause) (rest : List Micro) (s : State) (h : s.busy = true) :
    run (sendOpcodeOps src c ++ rest) s = orFail c (sendOpcode src s) (run rest) :=
  run_sendOpcodeOps src c rest s h

theorem run_sendValue_phase (src : ValueSrc) (c : Cause) (rest : List Micro) (s : State) (h : s.busy = true) :
    run (sendValueOps src c ++ rest) s = orFail c (sendValue src s) (run rest) :=
  run_sendValueOps src c rest s h

theorem run_check_phase (rest : List Micro) (s : State) (h : s.busy = true) :
    run (checkOps ++ rest) s = orFail .checkFail (sendOpcode (.const Config.opcCheck) s) (run rest) :=
  run_checkOps rest s h

/-- Two phases whose continuations agree on the state they are given agree. -/
theorem orFail_congr (c : Cause) (s : State) (k l : State → State) (h : k s = l s) :
    orFail c s k = orFail c s l := by
  simp [orFail, h]

/-- READW as phases (R129). -/
theorem run_readwProgram (s : State) (h : s.busy = true) :
    run readwProgram s =
      orFail .checkFail (sendOpcode (.const Config.opcCheck) s) fun s1 =>
      orFail .statusMismatch (sendOpcode (.const Config.opcRead) s1) fun s2 =>
      orFail .statusMismatch (sendValue .laddr s2) fun s3 =>
      orFail .statusMismatch (recvStatus (storeWord 0 (recvWord (pulses 2 s3)))) fun s4 =>
      succeedCommand (pulses 2 s4) := by
  simp only [readwProgram, List.append_assoc]
  rw [run_check_phase _ s h]
  apply orFail_congr
  rw [run_sendOpcode_phase _ _ _ _ (by simp [h])]
  apply orFail_congr
  rw [run_sendValue_phase _ _ _ _ (by simp [h])]
  apply orFail_congr
  rw [run_append, run_pulsesOps _ _ (by simp [h]), run_append, run_recvWordOps _ (by simp [h]), List.singleton_append,
    run_storeWord _ _ _ (by simp [h]), run_checkStatusOps _ _ _ (by simp [h]), ← orFail]
  apply orFail_congr
  exact run_trailing _ (by simp [h])

/-- READID as phases (R135). -/
theorem run_readidProgram (s : State) (h : s.busy = true) :
    run readidProgram s =
      orFail .checkFail (sendOpcode (.const Config.opcCheck) s) fun s1 =>
      orFail .statusMismatch (sendOpcode (.const Config.opcChipid) s1) fun s2 =>
      orFail .statusMismatch (recvStatus (storeWord 0 (recvWord (pulses 3 s2)))) fun s3 =>
      succeedCommand (pulses 2 s3) := by
  simp only [readidProgram, List.append_assoc]
  rw [run_check_phase _ s h]
  apply orFail_congr
  rw [run_sendOpcode_phase _ _ _ _ (by simp [h])]
  apply orFail_congr
  rw [run_append, run_pulsesOps _ _ (by simp [h]), run_append, run_recvWordOps _ (by simp [h]), List.singleton_append,
    run_storeWord _ _ _ (by simp [h]), run_checkStatusOps _ _ _ (by simp [h]), ← orFail]
  apply orFail_congr
  exact run_trailing _ (by simp [h])

/-- One word of READN received and stored (R130). -/
def readWord (i : Nat) (s : State) : State := storeWord i (recvWord (setWidx i s))

@[simp] theorem readWord_busy (i : Nat) (s : State) : (readWord i s).busy = s.busy := by simp [readWord]

theorem run_readWordOps (i : Nat) (s : State) (h : s.busy = true) : run (readWordOps i) s = readWord i s := by
  simp only [readWordOps, List.cons_append, List.nil_append]
  rw [run_setWidx _ _ _ h, run_append, run_recvWordOps _ (by simp [h]), run_storeWord _ _ _ (by simp [h]), run_nil]
  rfl

/-- READN as phases (R130). -/
theorem run_readnProgram (n : Count) (s : State) (h : s.busy = true) :
    run (readnProgram n) s =
      orFail .checkFail (sendOpcode (.const Config.opcCheck) s) fun s1 =>
      orFail .statusMismatch (sendOpcode (.withCount Config.opcReadnBase) s1) fun s2 =>
      orFail .statusMismatch (sendValue .laddr s2) fun s3 =>
      orFail .statusMismatch (recvStatus (loopState (n.toNat + 1) readWord (pulses 2 s3))) fun s4 =>
      succeedCommand (pulses 2 s4) := by
  simp only [readnProgram, List.append_assoc]
  rw [run_check_phase _ s h]
  apply orFail_congr
  rw [run_sendOpcode_phase _ _ _ _ (by simp [h])]
  apply orFail_congr
  rw [run_sendValue_phase _ _ _ _ (by simp [h])]
  apply orFail_congr
  have hl : ∀ u, (loopState (n.toNat + 1) readWord u).busy = u.busy := fun u =>
    loopState_busy readWord (fun _ _ => by simp) _ u
  rw [run_append, run_pulsesOps _ _ (by simp [h]), run_append,
    run_repeatOps (n.toNat + 1) readWordOps readWord (fun j u hu => by simp [hu]) run_readWordOps _ (by simp [h]),
    run_checkStatusOps _ _ _ (by simp [h, hl]), ← orFail]
  apply orFail_congr
  exact run_trailing _ (by simp [h, hl])

/-- The end of a command that polls (R131 to R134). -/
def pollPhase (budget : Nat) (s : State) : State :=
  if (pollWait budget s).ready then
    orFail .pollStatus (pollStatus (pollWait budget s)) fun t => succeedCommand (pulses 2 t)
  else failCommand .pollTimeout (pollWait budget s)

theorem run_poll_phase (budget : Nat) (s : State) (h : s.busy = true) :
    run (pollOps budget ++ (pulsesOps 2 ++ [.succeed])) s = pollPhase budget s := by
  rw [run_pollOps _ _ _ h, pollPhase]
  rw [run_trailing _ (by simp [h])]
  rfl

/-- WRITEW as phases (R131). -/
theorem run_writewProgram (s : State) (h : s.busy = true) :
    run writewProgram s =
      orFail .checkFail (sendOpcode (.const Config.opcCheck) s) fun s1 =>
      orFail .statusMismatch (sendOpcode (.const Config.opcWrite) s1) fun s2 =>
      orFail .statusMismatch (sendValue .laddr s2) fun s3 =>
      orFail .statusMismatch (sendValue (.dbuf 0) s3) (pollPhase Config.budgetWrite) := by
  simp only [writewProgram, List.append_assoc]
  rw [run_check_phase _ s h]
  apply orFail_congr
  rw [run_sendOpcode_phase _ _ _ _ (by simp [h])]
  apply orFail_congr
  rw [run_sendValue_phase _ _ _ _ (by simp [h])]
  apply orFail_congr
  rw [run_sendValue_phase _ _ _ _ (by simp [h])]
  apply orFail_congr
  exact run_poll_phase _ _ (by simp [h])

/-- ERASEALL as phases (R133). -/
theorem run_eraseallProgram (s : State) (h : s.busy = true) :
    run eraseallProgram s =
      orFail .checkFail (sendOpcode (.const Config.opcCheck) s) fun s1 =>
      orFail .statusMismatch (sendOpcode (.const Config.opcEraseAll) s1) fun s2 =>
      orFail .statusMismatch (sendValue (.const 0#16) s2) (pollPhase Config.budgetEraseAll) := by
  simp only [eraseallProgram, List.append_assoc]
  rw [run_check_phase _ s h]
  apply orFail_congr
  rw [run_sendOpcode_phase _ _ _ _ (by simp [h])]
  apply orFail_congr
  rw [run_sendValue_phase _ _ _ _ (by simp [h])]
  apply orFail_congr
  exact run_poll_phase _ _ (by simp [h])

/-- ERASEPAGE as phases (R134). -/
theorem run_erasepageProgram (s : State) (h : s.busy = true) :
    run erasepageProgram s =
      orFail .checkFail (sendOpcode (.const Config.opcCheck) s) fun s1 =>
      orFail .statusMismatch (sendOpcode (.const Config.opcErasePage) s1) fun s2 =>
      orFail .statusMismatch (sendValue .page s2) (pollPhase Config.budgetErasePage) := by
  simp only [erasepageProgram, List.append_assoc]
  rw [run_check_phase _ s h]
  apply orFail_congr
  rw [run_sendOpcode_phase _ _ _ _ (by simp [h])]
  apply orFail_congr
  rw [run_sendValue_phase _ _ _ _ (by simp [h])]
  apply orFail_congr
  exact run_poll_phase _ _ (by simp [h])

/-- One word of WRITEN sent, its status received (R132). -/
def writeWord (i : Nat) (s : State) : State := sendValue (.dbuf i) (setWidx i s)

@[simp] theorem writeWord_busy (i : Nat) (s : State) : (writeWord i s).busy = s.busy := by simp [writeWord]

theorem run_writeWordOps (i : Nat) (s : State) (h : s.busy = true) :
    run (writeWordOps i) s = orFail .statusMismatch (writeWord i s) id := by
  have := run_sendValue_phase (.dbuf i) .statusMismatch [] (setWidx i s) (by simp [h])
  rw [List.append_nil] at this
  simp only [writeWordOps, List.singleton_append]
  rw [run_setWidx _ _ _ h, this]
  exact orFail_congr _ _ _ _ rfl

/-- The words of WRITEN while every status is good (R132). -/
theorem run_writeWords_good (n : Nat) (s : State) (h : s.busy = true)
    (hg : ∀ j, j < n → (loopState (j + 1) writeWord s).matched = true) :
    run (repeatOps n writeWordOps) s = loopState n writeWord s := by
  induction n with
  | zero => rfl
  | succ n ih =>
    rw [show repeatOps (n + 1) writeWordOps = repeatOps n writeWordOps ++ writeWordOps n by
      simp [repeatOps, List.range_succ], run_append, ih fun j hj => hg j (by omega),
      run_writeWordOps _ _ (by rw [loopState_busy writeWord (fun _ _ => by simp)]; exact h)]
    exact orFail_matched _ _ _ (hg n (by omega))

/-- The words of WRITEN up to the first bad status, at word `j`: the command fails there (R132, R144). -/
theorem run_writeWords_bad (n j : Nat) (s : State) (h : s.busy = true) (hj : j < n)
    (hg : ∀ i, i < j → (loopState (i + 1) writeWord s).matched = true)
    (hb : (loopState (j + 1) writeWord s).matched = false) :
    run (repeatOps n writeWordOps) s = failCommand .statusMismatch (loopState (j + 1) writeWord s) := by
  have hsplit : repeatOps n writeWordOps =
      repeatOps j writeWordOps ++ (writeWordOps j ++ (List.range' (j + 1) (n - (j + 1))).flatMap writeWordOps) := by
    have hr : List.range n = List.range j ++ (j :: List.range' (j + 1) (n - (j + 1))) := by
      have h1 : List.range n = List.range' 0 (j + (n - j)) := by
        rw [List.range_eq_range', show j + (n - j) = n by omega]
      rw [h1, ← List.range'_append_1, ← List.range_eq_range', Nat.zero_add, show n - j = (n - (j + 1)) + 1 by omega,
        List.range'_succ]
    simp [repeatOps, hr]
  rw [hsplit, run_append, run_writeWords_good j s h hg, run_append,
    run_writeWordOps _ _ (by rw [loopState_busy writeWord (fun _ _ => by simp)]; exact h)]
  have : (writeWord j (loopState j writeWord s)).matched = false := hb
  rw [orFail_unmatched _ _ _ this, run_failCommand]
  rfl

/-- WRITEN as phases, up to its words (R132). -/
theorem run_writenProgram (n : Count) (s : State) (h : s.busy = true) :
    run (writenProgram n) s =
      orFail .checkFail (sendOpcode (.const Config.opcCheck) s) fun s1 =>
      orFail .statusMismatch (sendOpcode (.withCount Config.opcWritenBase) s1) fun s2 =>
      orFail .statusMismatch (sendValue .laddr s2) fun s3 =>
      run (pollOps Config.budgetWrite ++ (pulsesOps 2 ++ [.succeed]))
        (run (repeatOps (n.toNat + 1) writeWordOps) s3) := by
  simp only [writenProgram, List.append_assoc]
  rw [run_check_phase _ s h]
  apply orFail_congr
  rw [run_sendOpcode_phase _ _ _ _ (by simp [h])]
  apply orFail_congr
  rw [run_sendValue_phase _ _ _ _ (by simp [h])]
  apply orFail_congr
  rw [run_append]

/-- One sub-bit of UNLOCK (R136). -/
def unlockBit (pair : Byte × Byte) (j : Nat) (s : State) : State :=
  clkPulse (drive .oe (pair.2.getLsbD (7 - j)) (drive .pgm (pair.1.getLsbD (7 - j)) (setBit j s)))

/-- One pair of UNLOCK (R136). -/
def unlockPair (n : Nat) (s : State) : State := loopState 8 (unlockBit (Config.unlockPairs (Fin.ofNat 8 n))) s

@[simp] theorem unlockBit_busy (pair : Byte × Byte) (j : Nat) (s : State) : (unlockBit pair j s).busy = s.busy := rfl

@[simp] theorem unlockPair_busy (n : Nat) (s : State) : (unlockPair n s).busy = s.busy :=
  loopState_busy (unlockBit (Config.unlockPairs (Fin.ofNat 8 n))) (fun j u => unlockBit_busy _ j u) 8 s

theorem run_unlockBitOps (pair : Byte × Byte) (j : Nat) (s : State) (h : s.busy = true) :
    run (unlockBitOps pair j) s = unlockBit pair j s := by
  simp [unlockBitOps, run_cons, execMicro, h, run_clkOps, unlockBit]

theorem run_unlockPairOps (n : Nat) (s : State) (h : s.busy = true) :
    run (unlockPairOps (Config.unlockPairs (Fin.ofNat 8 n))) s = unlockPair n s :=
  run_repeatOps 8 (unlockBitOps (Config.unlockPairs (Fin.ofNat 8 n)))
    (unlockBit (Config.unlockPairs (Fin.ofNat 8 n))) (fun j u hu => by rw [unlockBit_busy]; exact hu)
    (fun j u hu => run_unlockBitOps _ j u hu) s h

theorem run_unlockProgram (s : State) (h : s.busy = true) :
    run unlockProgram s = succeedCommand (loopState 8 unlockPair s) := by
  rw [unlockProgram, run_append,
    run_repeatOps 8 (fun n => unlockPairOps (Config.unlockPairs (Fin.ofNat 8 n))) unlockPair
      (fun n u hu => by rw [unlockPair_busy]; exact hu) (fun n u hu => run_unlockPairOps n u hu) s h,
    run_succeed _ (by rw [loopState_busy unlockPair unlockPair_busy]; exact h)]

/-- An illegal word ends at once (R137). -/
theorem run_illegalProgram (s : State) (h : s.busy = true) : run illegalProgram s = failCommand .illegal s := by
  simp [illegalProgram, run, execMicro, h]

end Sys2Proof.Machine
end

