-- ==== Sys2Proof/Laws/Engine.lean ====
section
/-! SUPPORT. The engine around its commands: every command's list ends the command, the host's side does not touch a
run, and one sequencer step and the rest of the run are the run. -/

namespace Sys2Proof.Machine

open Sys2Proof

/-! The programs: each ends with `succeed()`, or is the one `fail` of an illegal word; each poll's budget fits
POLLCTR. -/

theorem programOf_ends (i : Instr) : ∃ p, programOf i = p ++ [.succeed] := by
  cases i <;> exact ⟨_, rfl⟩

theorem programAt_ends (s : State) : ∃ p m, programAt s = p ++ [m] ∧ (m = .succeed ∨ m = .fail .illegal) := by
  unfold programAt
  split
  · rename_i i _
    obtain ⟨p, hp⟩ := programOf_ends i
    exact ⟨p, _, hp, .inl rfl⟩
  · exact ⟨[], _, rfl, .inr rfl⟩

theorem programAt_congr (s t : State) (h : t.cmd = s.cmd) : programAt t = programAt s := by
  simp [programAt, h]

/-- Run from any of its operations on, a command's list ends the command. -/
theorem run_drop_ends (s u : State) (k : Nat) (hk : k < (programAt s).length) :
    (run ((programAt s).drop k) u).busy = false := by
  obtain ⟨p, m, hp, hm⟩ := programAt_ends s
  have hd : (programAt s).drop k = p.drop k ++ [m] := by
    rw [hp, List.drop_append_of_le_length]
    rw [hp] at hk
    simpa using Nat.lt_succ_iff.mp (by simpa using hk)
  rw [hd, run_append]
  cases hb : (run (p.drop k) u).busy with
  | false => rw [run_idle _ _ hb, hb]
  | true =>
    rw [run_cons _ _ _ hb, run_nil]
    rcases hm with rfl | rfl <;> rfl

/-- The operations that stand in a command's list: a poll's budget fits POLLCTR (R33, R121), only DAT is ever made an
input (R26), and a poll's sample stands inside the poll loop only. -/
def Micro.listed : Micro → Bool
  | .setDir l d => l == .dat || d == .output
  | .unlessMode _ a => a.listed
  | .pollLoop b => decide (b < 2 ^ 19)
  | .samplePoll => false
  | _ => true

theorem programOf_listed (i : Instr) : (programOf i).all Micro.listed = true := by
  cases i <;>
    simp [programOf, powerupProgram, shutdownProgram, checkProgram, readwProgram, readnProgram, writewProgram,
      writenProgram, eraseallProgram, erasepageProgram, readidProgram, unlockProgram, powerUpOps, shutdownOps, checkOps,
      sendOpcodeOps, sendValueOps, checkStatusOps, recvStatusOps, recvWordOps, pollOps, pulsesOps, readWordOps,
      writeWordOps, unlockPairOps, unlockBitOps, opcodeBitOps, valueBitOps, statusBitOps, wordBitOps, repeatOps,
      setWriteModeOps, setReadModeOps, enterWriteDataOps, clkOps, Micro.listed, List.all_flatMap, List.all_append,
      Config.budgetWrite, Config.budgetEraseAll, Config.budgetErasePage, -List.all_eq_true] <;> simp

theorem programAt_listed (s : State) (m : Micro) (h : m ∈ programAt s) : m.listed = true := by
  unfold programAt at h
  split at h
  · exact List.all_eq_true.mp (programOf_listed _) m h
  · simp only [illegalProgram, List.mem_singleton] at h
    subst h
    rfl

/-! The host's side of the state: what a run neither reads nor writes. -/

/-- The state with OVR, the host's record of reads and the pending accesses replaced. -/
def withHost (o : Bool) (r : List (Nat × Word)) (d : Nat) (p : List HostEvent) (s : State) : State :=
  { s with ovr := o, reads := r, readDraws := d, pending := p }

/-- The state with the sequencer position replaced. -/
def withSeq (q : SeqPos) (s : State) : State := { s with seq := q }

theorem afterSample_withHost (o : Bool) (r : List (Nat × Word)) (d : Nat) (p : List HostEvent) (s : State) :
    afterSample (withHost o r d p s) = withHost o r d p (afterSample s) := by
  unfold afterSample
  rw [show (withHost o r d p s).ports = s.ports from rfl]
  cases s.ports.dat.dir <;> rfl

theorem pollTicks_withHost (o : Bool) (r : List (Nat × Word)) (d : Nat) (p : List HostEvent) (n : Nat) (s : State) :
    pollTicks n (withHost o r d p s) = withHost o r d p (pollTicks n s) := by
  have ht : ∀ s, pollTick (withHost o r d p s) = withHost o r d p (pollTick s) := by
    intro s
    have := afterSample_withHost o r d p (clkPulse s)
    simp only [pollTick, samplePoll]
    rw [show clkPulse (withHost o r d p s) = withHost o r d p (clkPulse s) from rfl, this]
    rfl
  induction n generalizing s with
  | zero => rfl
  | succ n ih =>
    unfold pollTicks
    rw [show (withHost o r d p s).ready = s.ready from rfl]
    split
    · rfl
    · rw [ht, ih]

/-- An operation does the same whatever the host's side holds, and keeps it. -/
theorem execMicro_withHost (o : Bool) (r : List (Nat × Word)) (d : Nat) (p : List HostEvent) (m : Micro) (s : State) :
    execMicro m (withHost o r d p s) = withHost o r d p (execMicro m s) := by
  induction m generalizing s with
  | unlessMode m a ih =>
    unfold execMicro
    rw [show (withHost o r d p s).mode = s.mode from rfl]
    split
    · rfl
    · exact ih s
  | pollLoop b => exact pollTicks_withHost o r d p _ s
  | driveOpcodeBit src k => cases src <;> rfl
  | driveValueBit src k => cases src <;> rfl
  | sampleWord =>
    simp only [execMicro, sampleWord]
    rw [afterSample_withHost]
    rfl
  | sampleStatus =>
    simp only [execMicro, sampleStatus]
    rw [afterSample_withHost]
    rfl
  | samplePoll =>
    simp only [execMicro, samplePoll]
    rw [afterSample_withHost]
    rfl
  | failUnlessMatch c =>
    unfold execMicro
    rw [show (withHost o r d p s).matched = s.matched from rfl]
    split <;> rfl
  | failUnlessReady c =>
    unfold execMicro
    rw [show (withHost o r d p s).ready = s.ready from rfl]
    split <;> rfl
  | _ => rfl

theorem run_withHost (o : Bool) (r : List (Nat × Word)) (d : Nat) (p : List HostEvent) (ms : List Micro) (s : State) :
    run ms (withHost o r d p s) = withHost o r d p (run ms s) := by
  induction ms generalizing s with
  | nil => rfl
  | cons m ms ih =>
    cases h : s.busy with
    | false => rw [run_idle _ s h, run_idle _ (withHost o r d p s) h]
    | true => rw [run_cons _ _ _ h, run_cons m ms (withHost o r d p s) h, execMicro_withHost, ih]

theorem finish_withHost (o : Bool) (r : List (Nat × Word)) (d : Nat) (p : List HostEvent) (s : State) :
    finish (withHost o r d p s) = withHost o r d p (finish s) := by
  have hs : (withHost o r d p s).seq = s.seq := rfl
  have hp : programAt (withHost o r d p s) = programAt s := rfl
  unfold finish
  rw [hs, hp]
  cases s.seq with
  | idle => rfl
  | running c k j => simp only [run_withHost]

/-! The sequencer position: a run does not read it, and its end writes it. -/

theorem afterSample_withSeq (q : SeqPos) (s : State) : afterSample (withSeq q s) = withSeq q (afterSample s) := by
  unfold afterSample
  rw [show (withSeq q s).ports = s.ports from rfl]
  cases s.ports.dat.dir <;> rfl

theorem pollTicks_withSeq (q : SeqPos) (n : Nat) (s : State) :
    pollTicks n (withSeq q s) = withSeq q (pollTicks n s) := by
  have ht : ∀ s, pollTick (withSeq q s) = withSeq q (pollTick s) := by
    intro s
    have := afterSample_withSeq q (clkPulse s)
    simp only [pollTick, samplePoll]
    rw [show clkPulse (withSeq q s) = withSeq q (clkPulse s) from rfl, this]
    rfl
  induction n generalizing s with
  | zero => rfl
  | succ n ih =>
    unfold pollTicks
    rw [show (withSeq q s).ready = s.ready from rfl]
    split
    · rfl
    · rw [ht, ih]

/-- While the command goes on, an operation does the same at every sequencer position and keeps it; where it ends the
command, the position is IDLE. -/
theorem execMicro_withSeq (q : SeqPos) (m : Micro) (s : State) (h : s.busy = true) :
    ((execMicro m s).busy = true ∧ execMicro m (withSeq q s) = withSeq q (execMicro m s)) ∨
      ((execMicro m s).busy = false ∧ (execMicro m s).seq = .idle ∧
        execMicro m (withSeq q s) = execMicro m s) := by
  induction m generalizing s with
  | unlessMode m a ih =>
    by_cases hm : s.mode = m
    · left; simp [execMicro, withSeq, hm, h]
    · have := ih s h
      simpa [execMicro, withSeq, hm] using this
  | pollLoop b =>
    exact .inl ⟨(pollTicks_busy _ s).trans h, pollTicks_withSeq q _ s⟩
  | driveOpcodeBit src k => left; cases src <;> exact ⟨h, rfl⟩
  | driveValueBit src k => left; cases src <;> exact ⟨h, rfl⟩
  | sampleWord =>
    left
    refine ⟨by simpa [execMicro] using h, ?_⟩
    simp only [execMicro, sampleWord]
    rw [afterSample_withSeq]
    rfl
  | sampleStatus =>
    left
    refine ⟨by simpa [execMicro] using h, ?_⟩
    simp only [execMicro, sampleStatus]
    rw [afterSample_withSeq]
    rfl
  | samplePoll =>
    left
    refine ⟨by simpa [execMicro] using h, ?_⟩
    simp only [execMicro, samplePoll]
    rw [afterSample_withSeq]
    rfl
  | failUnlessMatch c =>
    by_cases hm : s.matched
    · left; simp [execMicro, withSeq, hm, h]
    · right; simp [execMicro, withSeq, hm, failCommand]
  | failUnlessReady c =>
    by_cases hm : s.ready
    · left; simp [execMicro, withSeq, hm, h]
    · right; simp [execMicro, withSeq, hm, failCommand]
  | fail c => right; exact ⟨rfl, rfl, rfl⟩
  | succeed => right; exact ⟨rfl, rfl, rfl⟩
  | _ => left; exact ⟨h, rfl⟩

/-- A run that ends the command ends it in the same state from every sequencer position. -/
theorem run_withSeq (q : SeqPos) (ms : List Micro) (s : State) (h : s.busy = true) (he : (run ms s).busy = false) :
    run ms (withSeq q s) = run ms s := by
  induction ms generalizing s with
  | nil => rw [run_nil] at he; exact absurd (he.symm.trans h) (by decide)
  | cons m ms ih =>
    rw [run_cons _ _ _ h] at he
    rw [run_cons _ _ _ h, run_cons m ms (withSeq q s) h]
    rcases execMicro_withSeq q m s h with ⟨hb, he'⟩ | ⟨_, _, he'⟩
    · rw [he', ih _ hb he]
    · rw [he']

/-- A run of operations that ends the command leaves the engine IDLE. -/
theorem run_seq_idle (ms : List Micro) (s : State) (h : s.busy = true) (he : (run ms s).busy = false) :
    (run ms s).seq = .idle := by
  induction ms generalizing s with
  | nil => rw [run_nil] at he; exact absurd (he.symm.trans h) (by decide)
  | cons m ms ih =>
    rw [run_cons _ _ _ h] at he ⊢
    rcases execMicro_withSeq .idle m s h with ⟨hb, _⟩ | ⟨hb, hi, _⟩
    · exact ih _ hb he
    · rw [run_idle _ _ hb, hi]

/-- A step of the sequencer keeps the accepted word. -/
theorem placeAt_cmd (c : Code) (k j : Nat) (s : State) : (placeAt c k j s).cmd = s.cmd := by
  unfold placeAt; split <;> rfl

theorem sequencerStep_cmd (s : State) : (sequencerStep s).cmd = s.cmd := by
  unfold sequencerStep
  split
  · rfl
  · split
    · rfl
    · split
      · rfl
      · split
        · exact placeAt_cmd _ _ _ _
        · split
          · exact placeAt_cmd _ _ _ _
          · rw [placeAt_cmd, (execMicro_keeps _ s).1]
      · rw [placeAt_cmd, (execMicro_keeps _ s).1]

/-- Running on from a place of the list is running the rest of the tick in progress, then the rest of the list. -/
theorem finish_placeAt (c : Code) (k j : Nat) (u : State) (h : u.busy = true)
    (he : (run ((programAt u).drop k) (run (restOfTick (programAt u) k j) u)).busy = false) :
    finish (placeAt c k j u) = run ((programAt u).drop k) (run (restOfTick (programAt u) k j) u) := by
  have hp : placeAt c k j u = withSeq (.running c k j) u := by simp [placeAt, h, withSeq]
  rw [hp]
  change run ((programAt u).drop k) (run (restOfTick (programAt u) k j) (withSeq (.running c k j) u)) = _
  rw [← run_append, ← run_append]
  rw [← run_append] at he
  exact run_withSeq _ _ _ h he

/-- One step of the sequencer, in cases: none is due, an operation of the list, or a piece of the poll loop (R28). -/
theorem sequencerStep_cases (s : State) :
    sequencerStep s = s ∨
      (s.busy = true ∧ ∃ c k j m, s.seq = .running c k j ∧ (programAt s)[k]? = some m ∧
        (∀ b, m ≠ .pollLoop b) ∧ sequencerStep s = placeAt c (k + 1) 0 (execMicro m s)) ∨
      (s.busy = true ∧ ∃ c k b, s.seq = .running c k 0 ∧ (programAt s)[k]? = some (.pollLoop b) ∧
        (s.ready = true ∨ b ≤ s.pollctr.toNat) ∧ sequencerStep s = placeAt c (k + 1) 0 s) ∨
      (s.busy = true ∧ ∃ c k j b, s.seq = .running c k j ∧ (programAt s)[k]? = some (.pollLoop b) ∧
        pollBodyOps.length ≤ j ∧ sequencerStep s = placeAt c k 0 s) ∨
      (s.busy = true ∧ ∃ c k j b m, s.seq = .running c k j ∧ (programAt s)[k]? = some (.pollLoop b) ∧
        ¬(j = 0 ∧ (s.ready = true ∨ b ≤ s.pollctr.toNat)) ∧ pollBodyOps[j]? = some m ∧
        sequencerStep s = placeAt c k ((j + 1) % pollBodyOps.length) (execMicro m s)) := by
  cases hq : s.seq with
  | idle => left; simp [sequencerStep, hq]
  | running c k j =>
    cases hb : s.busy with
    | false => left; simp [sequencerStep, hq, hb]
    | true =>
      cases hm : (programAt s)[k]? with
      | none => left; simp [sequencerStep, hq, hb, hm]
      | some m =>
        by_cases hl : ∃ b, m = .pollLoop b
        · obtain ⟨b, rfl⟩ := hl
          by_cases hd : j = 0 ∧ (s.ready = true ∨ b ≤ s.pollctr.toNat)
          · right; right; left
            obtain ⟨rfl, hd⟩ := hd
            exact ⟨rfl, c, k, b, rfl, hm, hd, by simp [sequencerStep, hq, hb, hm, hd]⟩
          · cases hj : pollBodyOps[j]? with
            | none =>
              right; right; right; left
              exact ⟨rfl, c, k, j, b, rfl, hm, by simpa using hj, by simp [sequencerStep, hq, hb, hm, hd, hj]⟩
            | some a =>
              right; right; right; right
              exact ⟨rfl, c, k, j, b, a, rfl, hm, hd, hj, by simp [sequencerStep, hq, hb, hm, hd, hj]⟩
        · right; left
          refine ⟨rfl, c, k, j, m, rfl, hm, fun b h => hl ⟨b, h⟩, ?_⟩
          cases m <;> first | exact absurd ⟨_, rfl⟩ hl | simp [sequencerStep, hq, hb, hm]

/-- A tick in progress, run to its end, is what its operations do (R116). -/
theorem run_pollBody (j : Nat) (m : Micro) (s : State) (h : s.busy = true) (hj : pollBodyOps[j]? = some m) :
    (execMicro m s).busy = true ∧
      run (pollBodyOps.drop j) s = run (pollBodyOps.drop (j + 1)) (execMicro m s) := by
  have hlt : j < 6 := by
    have := (List.getElem?_eq_some_iff.mp hj).1
    simpa [pollBodyOps, clkOps] using this
  have hd : pollBodyOps.drop j = m :: pollBodyOps.drop (j + 1) := by
    obtain ⟨hl, rfl⟩ := List.getElem?_eq_some_iff.mp hj
    exact List.drop_eq_getElem_cons hl
  refine ⟨?_, by rw [hd, run_cons _ _ _ h]⟩
  have : j = 0 ∨ j = 1 ∨ j = 2 ∨ j = 3 ∨ j = 4 ∨ j = 5 := by omega
  rcases this with rfl | rfl | rfl | rfl | rfl | rfl <;> simp only [pollBodyOps, clkOps] at hj <;>
    · cases hj
      simpa [execMicro] using h

theorem run_pollBodyOps (s : State) (h : s.busy = true) : run pollBodyOps s = pollTick s := by
  rw [pollBodyOps, run_append, run_clkOps s h, run_cons _ _ _ (by simpa using h), run_nil]
  rfl

/-- A poll loop that goes on is one tick, then the poll loop (R116). -/
theorem run_pollLoop_tick (b : Nat) (ms : List Micro) (s : State) (h : s.busy = true) (hb : b < 2 ^ 19)
    (hr : s.ready = false) (hc : s.pollctr.toNat < b) :
    run (.pollLoop b :: ms) s = run (.pollLoop b :: ms) (pollTick s) := by
  have ht : (pollTick s).busy = true := by simpa [pollTick] using h
  have hp : (pollTick s).pollctr.toNat = s.pollctr.toNat + 1 := by
    have : (pollTick s).pollctr = s.pollctr + 1#19 := by
      simp [pollTick]
    rw [this, BitVec.toNat_add]
    simp
    omega
  rw [run_cons _ _ _ h, run_cons _ _ _ ht]
  simp only [execMicro, hp]
  congr 1
  rw [show b - s.pollctr.toNat = (b - (s.pollctr.toNat + 1)) + 1 by omega]
  simp [pollTicks, hr]

/-- One step of the sequencer, then the rest of the run, is the run (R21, R28). -/
theorem finish_sequencerStep (s : State) (he : (finish s).busy = false) : finish (sequencerStep s) = finish s := by
  rcases sequencerStep_cases s with h | ⟨hb, c, k, j, m, hq, hm, hl, h⟩ | ⟨hb, c, k, b, hq, hm, hd, h⟩ |
    ⟨hb, c, k, j, b, hq, hm, hj, h⟩ | ⟨hb, c, k, j, b, m, hq, hm, hd, hj, h⟩
  · rw [h]
  all_goals
    obtain ⟨hk, hmk⟩ := List.getElem?_eq_some_iff.mp hm
    have hdrop : (programAt s).drop k = (programAt s)[k] :: (programAt s).drop (k + 1) :=
      List.drop_eq_getElem_cons hk
    rw [hmk] at hdrop
    rw [h]
    simp only [finish, hq] at he ⊢
  · have hrest : restOfTick (programAt s) k j = [] := by
      unfold restOfTick
      rw [hm]
      cases m <;> first | rfl | exact absurd rfl (hl _)
    have hrest' : ∀ u, restOfTick (programAt u) (k + 1) 0 = [] := by
      intro u
      unfold restOfTick
      split <;> rfl
    rw [hrest, run_nil, hdrop, run_cons _ _ _ hb] at he ⊢
    have hp : programAt (execMicro m s) = programAt s := programAt_congr _ _ (execMicro_keeps m s).1
    cases hu : (execMicro m s).busy with
    | true =>
      have := finish_placeAt c (k + 1) 0 (execMicro m s) hu (by rw [hrest', run_nil, hp]; exact he)
      rw [hrest', run_nil, hp] at this
      exact this
    | false =>
      rw [run_idle _ _ hu]
      have hi : (execMicro m s).seq = .idle := by
        rcases execMicro_withSeq .idle m s hb with ⟨hb', _⟩ | ⟨_, hi, _⟩
        · exact absurd (hu.symm.trans hb') (by decide)
        · exact hi
      simp [placeAt, hu, hi]
  · have hrest : restOfTick (programAt s) k 0 = [] := by simp [restOfTick, hm]
    have hrest' : restOfTick (programAt s) (k + 1) 0 = [] := by
      unfold restOfTick
      split <;> rfl
    have hloop : execMicro (.pollLoop b) s = s := by
      simp only [execMicro]
      rcases hd with hr | hc
      · cases b - s.pollctr.toNat <;> simp [pollTicks, hr]
      · rw [show b - s.pollctr.toNat = 0 by omega]
        rfl
    rw [hrest, run_nil, hdrop, run_cons _ _ _ hb, hloop] at he ⊢
    have := finish_placeAt c (k + 1) 0 s hb (by rw [hrest', run_nil]; exact he)
    rw [hrest', run_nil] at this
    exact this
  · have hrest : restOfTick (programAt s) k j = [] := by
      simp only [restOfTick, hm]
      split
      · rfl
      · simpa using hj
    have hrest' : restOfTick (programAt s) k 0 = [] := by simp [restOfTick, hm]
    rw [hrest, run_nil] at he ⊢
    have := finish_placeAt c k 0 s hb (by rw [hrest', run_nil]; exact he)
    rw [hrest', run_nil] at this
    exact this
  · obtain ⟨hub, hbody⟩ := run_pollBody j m s hb hj
    have hlen : pollBodyOps.length = 6 := rfl
    have hlt : j < 6 := hlen ▸ (List.getElem?_eq_some_iff.mp hj).1
    have hp : programAt (execMicro m s) = programAt s := programAt_congr _ _ (execMicro_keeps m s).1
    have hrest' : restOfTick (programAt s) k ((j + 1) % pollBodyOps.length) = pollBodyOps.drop (j + 1) := by
      simp only [restOfTick, hm, hlen]
      by_cases h5 : j = 5
      · subst h5; rfl
      · rw [if_neg (by omega), show (j + 1) % 6 = j + 1 by omega]
    have hmain : run ((programAt s).drop k) (run (pollBodyOps.drop (j + 1)) (execMicro m s)) =
        run ((programAt s).drop k) (run (restOfTick (programAt s) k j) s) := by
      rw [← hbody]
      by_cases h0 : j = 0
      · subst h0
        have hfit : b < 2 ^ 19 := by
          have := programAt_listed s _ (List.mem_of_getElem? hm)
          simpa [Micro.listed] using this
        have hgo : s.ready = false ∧ s.pollctr.toNat < b := by
          simp only [true_and, not_or, Bool.not_eq_true, not_le] at hd
          exact hd
        rw [List.drop_zero, run_pollBodyOps s hb, hdrop, ← run_pollLoop_tick b _ s hb hfit hgo.1 hgo.2]
        simp [restOfTick, hm, run_nil]
      · simp [restOfTick, hm, h0]
    have := finish_placeAt c k ((j + 1) % pollBodyOps.length) (execMicro m s) hub
      (by rw [hp, hrest', hmain]; exact he)
    rw [hp, hrest', hmain] at this
    exact this

/-- Any number of sequencer steps, then the rest of the run, is the run. -/
theorem finish_advance (n : Nat) (s : State) (he : (finish s).busy = false) : finish (advance n s) = finish s := by
  induction n generalizing s with
  | zero => rfl
  | succ n ih =>
    have hs := finish_sequencerStep s he
    rw [advance, ih _ (by rw [hs]; exact he), hs]

/-- Where the running command ends: everywhere its position stands at an operation of its list. -/
theorem finish_ends (s : State) (h : s.busy = true → seqInProgram s = true) : (finish s).busy = false ∨ s.seq = .idle := by
  cases hq : s.seq with
  | idle => exact .inr rfl
  | running c k j =>
    left
    simp only [finish, hq]
    cases hb : s.busy with
    | false => rw [run_idle _ _ hb, run_idle _ _ hb, hb]
    | true =>
      have := h hb
      simp only [seqInProgram, hq, decide_eq_true_eq] at this
      exact run_drop_ends s _ k this

/-! The step. -/

/-- Every meaning is the run of its list from the dispatched state (R124). -/
theorem exec_eq_run (i : Instr) (s : State) : exec i s = .next (run (programOf i) (dispatch i s)) := by
  cases i <;> rfl

/-- After an accept of its word, the dispatch of a command changes nothing (R48, R124). -/
theorem dispatch_accept (i : Instr) (s : State) : dispatch i (accept (encode i) s) = accept (encode i) s := by
  unfold dispatch accept
  rw [splitWord_encode]

/-- `serve`, in cases: what an act of the outside can do (R36 to R50, R59, R155, R158). -/
theorem serve_next (a : HostAct) (s t : State) (h : serve a s = .next t) :
    (∃ off, a = .read off 4 ∧ off % 4 = 0 ∧ t = hostRead off s) ∨
      (∃ off v, a = .write off 4 v ∧ off % 4 = 0 ∧ t = hostWrite off v s) ∨
      (a = .assertReset ∧ t = assertReset s) ∨ (a = .releaseReset ∧ t = releaseReset s) := by
  have hacc : ∀ off width, accessSupported off width = true → width = 4 ∧ off % 4 = 0 := by
    intro off width h
    simpa [accessSupported] using h
  cases a with
  | read off width =>
    simp only [serve] at h
    split at h
    · rename_i hs
      obtain ⟨rfl, ho⟩ := hacc off width hs
      cases h
      exact .inl ⟨off, rfl, ho, rfl⟩
    · cases h
  | write off width v =>
    simp only [serve] at h
    split at h
    · rename_i hs
      obtain ⟨rfl, ho⟩ := hacc off width hs
      cases h
      exact .inr (.inl ⟨off, v, rfl, ho, rfl⟩)
    · cases h
  | assertReset => cases h; exact .inr (.inr (.inl ⟨rfl, rfl⟩))
  | releaseReset => cases h; exact .inr (.inr (.inr ⟨rfl, rfl⟩))
  | foreignDrive => cases h

/-- What a host write can do (R45, R48, R49, R64). -/
theorem windowWrite_cases (off : Nat) (v : Word) (s : State) :
    (off = 0 ∧ s.busy = true ∧ windowWrite off v s = { s with ovr := true }) ∨
      (off = 0 ∧ s.busy = false ∧ windowWrite off v s = accept v s) ∨
      (off ≠ 0 ∧ s.busy = false ∧ ∃ d, windowWrite off v s = { s with dbuf := d }) ∨
      (off ≠ 0 ∧ windowWrite off v s = s) := by
  unfold windowWrite
  by_cases h0 : off = 0
  · cases hb : s.busy <;> simp [h0]
  · rw [if_neg h0]
    cases hi : dbufIndex off with
    | none => exact .inr (.inr (.inr ⟨h0, rfl⟩))
    | some i =>
      cases hb : s.busy with
      | true => exact .inr (.inr (.inr ⟨h0, rfl⟩))
      | false => exact .inr (.inr (.inl ⟨h0, rfl, _, rfl⟩))

/-- The engine's turn, in cases: a command just accepted, or one that goes on (R124). -/
theorem engineTurn_next (s t : State) (h : engineTurn s = .next t) :
    (∃ c i, s.seq = .running c 0 0 ∧ decode s.cmd = .ok i ∧ exec i s = .next t) ∨
      (∃ c e, s.seq = .running c 0 0 ∧ decode s.cmd = .error e ∧ t = run illegalProgram s) ∨
      (seqInProgram s = true ∧ t = finish s) := by
  unfold engineTurn at h
  split at h
  · rename_i c hq
    simp only [fetch] at h
    cases hd : decode s.cmd with
    | ok i => rw [hd] at h; exact .inl ⟨c, i, hq, rfl, h⟩
    | error e => rw [hd] at h; cases h; exact .inr (.inl ⟨c, e, hq, rfl, rfl⟩)
  · split at h
    · rename_i hp; cases h; exact .inr (.inr ⟨hp, rfl⟩)
    · cases h

/-- A turn, in cases: the engine waits, its turn, or an act of the outside, in an idle state or after sequencer
steps (R7). -/
theorem nextTurn_cases (s t : State) (h : nextTurn s = .next t) :
    (s.busy = false ∧ s.pending = [] ∧ t = s) ∨ (s.busy = true ∧ nothingLands s = true ∧ engineTurn s = .next t) ∨
      (∃ g a rest, s.busy = false ∧ s.pending = ⟨g, a⟩ :: rest ∧ serve a { s with pending := rest } = .next t) ∨
      (∃ n a rest, s.busy = true ∧ s.pending = ⟨some n, a⟩ :: rest ∧
        serve a (advance n { s with pending := rest }) = .next t) := by
  unfold nextTurn at h
  split at h
  · rename_i hp
    split at h
    · rename_i hb; exact .inr (.inl ⟨hb, by simp [nothingLands, hp], h⟩)
    · rename_i hb; cases h; exact .inl ⟨by simpa using hb, hp, rfl⟩
  · rename_i gap act rest hp
    split at h
    · rename_i hb
      split at h
      · exact .inr (.inl ⟨hb, by simp [nothingLands, hp], h⟩)
      · exact .inr (.inr (.inr ⟨_, act, rest, hb, hp, h⟩))
    · rename_i hb
      exact .inr (.inr (.inl ⟨gap, act, rest, by simpa using hb, hp, h⟩))

/-- With the reset input released, a step is a turn (R158). -/
theorem step_released (s : State) (h : s.resetAsserted = false) : step s = nextTurn s := by
  simp [step, nextStep, h]

/-- With the reset input asserted, a step starts from the reset values: it stays there, or serves the next act (R158). -/
theorem step_asserted (s : State) (h : s.resetAsserted = true) :
    step s =
      match s.pending with
      | [] => .next (blockReset s)
      | ⟨_, a⟩ :: rest => serve a { blockReset s with pending := rest } := by
  simp only [step, nextStep, underReset_asserted s h, nextTurn, blockReset_pending, blockReset_busy]
  cases s.pending <;> rfl

/-- The step, in cases: a turn with the reset input released; with it asserted, the engine stays at the reset values, or an
act of the outside happens there (R7, R158). -/
theorem step_cases (s t : State) (h : step s = .next t) :
    (s.resetAsserted = false ∧ nextTurn s = .next t) ∨
      (s.resetAsserted = true ∧ s.pending = [] ∧ t = blockReset s) ∨
      (s.resetAsserted = true ∧ ∃ g a rest, s.pending = ⟨g, a⟩ :: rest ∧
        serve a { blockReset s with pending := rest } = .next t) := by
  cases hr : s.resetAsserted with
  | false => exact .inl ⟨rfl, step_released s hr ▸ h⟩
  | true =>
    rw [step_asserted s hr] at h
    split at h
    · rename_i hp; cases h; exact .inr (.inl ⟨rfl, hp, rfl⟩)
    · rename_i g a rest hp; exact .inr (.inr ⟨rfl, g, a, rest, hp, h⟩)

end Sys2Proof.Machine
end

