-- ==== Sys2Proof/Laws/ModeKept.lean ====
section
/-! SUPPORT. The mode invariant (R30, R165): what each operation does to MODE and to the direction of DAT, lists whose
pulses keep the invariant, and traces that show it, piece by piece. -/

namespace Sys2Proof.Machine

open Sys2Proof

/-! Sequencer steps. -/

theorem sequencerStep_idle (s : State) (h : s.busy = false) : sequencerStep s = s := by
  unfold sequencerStep
  split
  · rfl
  · rw [if_pos h]

theorem advance_idle (n : Nat) (s : State) (h : s.busy = false) : advance n s = s := by
  induction n with
  | zero => rfl
  | succ n ih => rw [advance, sequencerStep_idle s h, ih]

theorem advance_add (m n : Nat) (s : State) : advance (m + n) s = advance n (advance m s) := by
  induction m generalizing s with
  | zero => rw [Nat.zero_add]; rfl
  | succ m ih => rw [Nat.succ_add, advance, ih]; rfl

theorem placeAt_keeps (c : Code) (k j : Nat) (s : State) :
    (placeAt c k j s).pending = s.pending ∧ (placeAt c k j s).resetAsserted = s.resetAsserted := by
  unfold placeAt
  split <;> exact ⟨rfl, rfl⟩

/-- No number of sequencer steps touches the accepted word, the pending acts or the reset input. -/
theorem advance_keeps (n : Nat) (s : State) :
    (advance n s).cmd = s.cmd ∧ (advance n s).pending = s.pending ∧
      (advance n s).resetAsserted = s.resetAsserted := by
  have hs : ∀ s, (sequencerStep s).pending = s.pending ∧ (sequencerStep s).resetAsserted = s.resetAsserted := by
    intro s
    rcases sequencerStep_cases s with he | ⟨_, c, k, j, m, _, _, _, he⟩ | ⟨_, c, k, b, _, _, _, he⟩ |
      ⟨_, c, k, j, b, _, _, _, he⟩ | ⟨_, c, k, j, b, m, _, _, _, _, he⟩ <;> rw [he]
    · exact ⟨rfl, rfl⟩
    · rw [(placeAt_keeps _ _ _ _).1, (placeAt_keeps _ _ _ _).2]; exact (execMicro_keeps m s).2.2.2.2.2.2.2
    · exact placeAt_keeps _ _ _ _
    · exact placeAt_keeps _ _ _ _
    · rw [(placeAt_keeps _ _ _ _).1, (placeAt_keeps _ _ _ _).2]; exact (execMicro_keeps m s).2.2.2.2.2.2.2
  induction n generalizing s with
  | zero => exact ⟨rfl, rfl, rfl⟩
  | succ n ih =>
    have := ih (sequencerStep s)
    exact ⟨this.1.trans (sequencerStep_cmd s), this.2.1.trans (hs s).1, this.2.2.trans (hs s).2⟩

theorem placeAt_withHost (o : Bool) (r : List (Nat × Word)) (d : Nat) (p : List HostEvent) (c : Code) (k j : Nat)
    (s : State) : placeAt c k j (withHost o r d p s) = withHost o r d p (placeAt c k j s) := by
  unfold placeAt
  rw [show (withHost o r d p s).busy = s.busy from rfl]
  split <;> rfl

/-- A sequencer step does the same whatever the host's side holds, and keeps it. -/
theorem sequencerStep_withHost (o : Bool) (r : List (Nat × Word)) (d : Nat) (p : List HostEvent) (s : State) :
    sequencerStep (withHost o r d p s) = withHost o r d p (sequencerStep s) := by
  unfold sequencerStep
  simp only [show (withHost o r d p s).seq = s.seq from rfl, show (withHost o r d p s).busy = s.busy from rfl,
    show programAt (withHost o r d p s) = programAt s from rfl, show (withHost o r d p s).ready = s.ready from rfl,
    show (withHost o r d p s).pollctr = s.pollctr from rfl]
  split
  · rfl
  · split
    · rfl
    · split
      · rfl
      · split
        · exact placeAt_withHost o r d p _ _ _ s
        · split
          · exact placeAt_withHost o r d p _ _ _ s
          · rw [execMicro_withHost, placeAt_withHost]
      · rw [execMicro_withHost, placeAt_withHost]

theorem advance_withHost (o : Bool) (r : List (Nat × Word)) (d : Nat) (p : List HostEvent) (n : Nat) (s : State) :
    advance n (withHost o r d p s) = withHost o r d p (advance n s) := by
  induction n generalizing s with
  | zero => rfl
  | succ n ih => rw [advance, sequencerStep_withHost, ih]; rfl

/-! Where the invariant of R30 carries over. -/

/-- An engine that runs no command starts no pulse. -/
theorem pulsesFollowMode_idle (s : State) (h : s.busy = false) : pulsesFollowMode s := by
  intro n hp
  rw [advance_idle n s h, startsPulse, sequencerStep_idle s h] at hp
  simp at hp

/-- A host access that lands leaves the coming pulses as they are. -/
theorem pulsesFollowMode_withHost (o : Bool) (r : List (Nat × Word)) (d : Nat) (p : List HostEvent) (s : State)
    (h : pulsesFollowMode s) : pulsesFollowMode (withHost o r d p s) := by
  intro n hp
  rw [advance_withHost] at hp ⊢
  rw [startsPulse, sequencerStep_withHost] at hp
  exact h n hp

/-- Interrupted at any place, the rest of the run keeps the invariant. -/
theorem pulsesFollowMode_advance (m : Nat) (s : State) (h : pulsesFollowMode s) : pulsesFollowMode (advance m s) := by
  intro n hp
  rw [← advance_add] at hp ⊢
  exact h (m + n) hp

/-! MODE and DAT's direction through a list of operations. -/

/-- What an operation does to MODE and to the direction of DAT. -/
def Micro.modeDir : Micro → Mode × Dir → Mode × Dir
  | .setDir .dat d, x => (x.1, d)
  | .setMode m, x => (m, x.2)
  | .unlessMode m a, x => if x.1 = m then x else a.modeDir x
  | _, x => x

/-- The operation starts a pulse, or is a loop of pulses. -/
def Micro.pulses : Micro → Bool
  | .drive .clk b => b
  | .pollLoop _ => true
  | .unlessMode _ a => a.pulses
  | _ => false

/-- MODE and the direction of DAT after a list that runs to its end. -/
def modeDirAfter : List Micro → Mode × Dir → Mode × Dir
  | [], x => x
  | m :: ms, x => modeDirAfter ms (m.modeDir x)

/-- Every pulse of a list finds DAT in the direction MODE asks for (R30). -/
def pulsesSafe : List Micro → Mode × Dir → Bool
  | [], _ => true
  | m :: ms, x => (!m.pulses || datFollowsMode x.1 x.2) && pulsesSafe ms (m.modeDir x)

theorem modeDirAfter_append (p q : List Micro) (x : Mode × Dir) :
    modeDirAfter (p ++ q) x = modeDirAfter q (modeDirAfter p x) := by
  induction p generalizing x with
  | nil => rfl
  | cons m p ih => exact ih _

theorem pulsesSafe_append (p q : List Micro) (x : Mode × Dir) :
    pulsesSafe (p ++ q) x = (pulsesSafe p x && pulsesSafe q (modeDirAfter p x)) := by
  induction p generalizing x with
  | nil => rfl
  | cons m p ih => simp only [List.cons_append, pulsesSafe, modeDirAfter, ih, Bool.and_assoc]

/-- A loop whose body leaves MODE and DAT's direction as it finds them, and is safe there. -/
theorem repeatOps_safe (n : Nat) (f : Nat → List Micro) (x : Mode × Dir) (ha : ∀ j, modeDirAfter (f j) x = x)
    (hs : ∀ j, pulsesSafe (f j) x = true) :
    modeDirAfter (repeatOps n f) x = x ∧ pulsesSafe (repeatOps n f) x = true := by
  induction n with
  | zero => exact ⟨rfl, rfl⟩
  | succ n ih =>
    rw [show repeatOps (n + 1) f = repeatOps n f ++ f n by simp [repeatOps, List.range_succ], modeDirAfter_append,
      pulsesSafe_append, ih.1, ih.2]
    exact ⟨ha n, hs n⟩

theorem afterSample_modeDir (s : State) :
    ((afterSample s).mode, (afterSample s).ports.dat.dir) = (s.mode, s.ports.dat.dir) := by simp

/-- An operation changes MODE and DAT's direction as `Micro.modeDir` says (R29, R26). -/
theorem execMicro_modeDir (m : Micro) (s : State) :
    ((execMicro m s).mode, (execMicro m s).ports.dat.dir) = m.modeDir (s.mode, s.ports.dat.dir) := by
  induction m generalizing s with
  | setDir l d => cases l <;> rfl
  | drive l b => cases l <;> rfl
  | unlessMode m a ih =>
    simp only [execMicro, Micro.modeDir]
    split
    · rfl
    · exact ih s
  | pollLoop b =>
    have hm := pollTicks_preserves (·.mode) (fun u => by simp [pollTick]) (b - s.pollctr.toNat) s
    have hd := pollTicks_preserves (·.ports.dat) (fun u => by simp [pollTick]) (b - s.pollctr.toNat) s
    simp only [execMicro, Micro.modeDir]
    rw [hm, hd]
  | failUnlessMatch c => simp only [execMicro, Micro.modeDir]; split <;> rfl
  | failUnlessReady c => simp only [execMicro, Micro.modeDir]; split <;> rfl
  | sampleWord => exact afterSample_modeDir s
  | sampleStatus => exact afterSample_modeDir s
  | samplePoll => exact afterSample_modeDir s
  | _ => rfl

/-- An operation whose first act raises CLK starts a pulse (R102). -/
theorem pulses_of_trace (m : Micro) (s : State) (h : (execMicro m s).trace = .drive .clk true :: s.trace) :
    m.pulses = true := by
  have hn : ∀ e : LineEvent, ¬ s.trace = e :: s.trace := fun e he => by
    have := congrArg List.length he; simp at this
  have hs : ∀ u : State, u.trace = (afterSample s).trace → u.trace ≠ .drive .clk true :: s.trace := by
    intro u hu he
    rw [hu] at he
    unfold afterSample at he
    split at he <;> simp at he
  induction m generalizing s with
  | drive l b =>
    simp only [execMicro, drive_trace, List.cons.injEq, and_true, LineEvent.drive.injEq] at h
    obtain ⟨rfl, rfl⟩ := h
    rfl
  | unlessMode m a ih =>
    simp only [execMicro] at h
    split at h
    · exact absurd h (hn _)
    · exact ih s h hn hs
  | pollLoop b => rfl
  | setDir l d => simp [execMicro] at h
  | sleep t => simp [execMicro] at h
  | driveOpcodeBit src k => simp [execMicro] at h
  | driveValueBit src k => simp [execMicro] at h
  | sampleWord => exact absurd h (hs _ rfl)
  | sampleStatus => exact absurd h (hs _ rfl)
  | samplePoll => exact absurd h (hs _ rfl)
  | failUnlessMatch c => simp only [execMicro] at h; split at h <;> exact absurd h (hn _)
  | failUnlessReady c => simp only [execMicro] at h; split at h <;> exact absurd h (hn _)
  | _ => exact absurd h (hn _)

/-! The rest of a running command. -/

/-- What is left of the running command's list keeps the invariant of R30. -/
def restSafe (s : State) : Prop :=
  ∀ c k j, s.seq = .running c k j → pulsesSafe ((programAt s).drop k) (s.mode, s.ports.dat.dir) = true

theorem restSafe_placeAt (c : Code) (k j : Nat) (s : State) (hi : s.busy = false → s.seq = .idle)
    (h : pulsesSafe ((programAt s).drop k) (s.mode, s.ports.dat.dir) = true) : restSafe (placeAt c k j s) := by
  unfold placeAt
  split
  · intro c' k' j' hq
    cases hq
    exact h
  · rename_i hb
    intro c' k' j' hq
    rw [hi (by simpa using hb)] at hq
    cases hq

theorem execMicro_ended (m : Micro) (s : State) (h : s.busy = true) :
    (execMicro m s).busy = false → (execMicro m s).seq = .idle := by
  intro hb
  rcases execMicro_withSeq .idle m s h with ⟨hb', _⟩ | ⟨_, hi, _⟩
  · exact absurd (hb.symm.trans hb') (by decide)
  · exact hi

/-- An operation of the poll loop's body leaves MODE and DAT's direction (R116). -/
theorem pollBody_modeDir (j : Nat) (m : Micro) (x : Mode × Dir) (h : pollBodyOps[j]? = some m) : m.modeDir x = x := by
  have : m ∈ pollBodyOps := List.mem_of_getElem? h
  simp only [pollBodyOps, clkOps, List.cons_append, List.nil_append, List.mem_cons, List.not_mem_nil, or_false] at this
  rcases this with rfl | rfl | rfl | rfl | rfl | rfl <;> rfl

/-- A sequencer step keeps the rest of the command safe. -/
theorem restSafe_sequencerStep (s : State) (h : restSafe s) : restSafe (sequencerStep s) := by
  have hcons : ∀ c k j m, s.seq = .running c k j → (programAt s)[k]? = some m →
      pulsesSafe ((programAt s).drop (k + 1)) (m.modeDir (s.mode, s.ports.dat.dir)) = true := by
    intro c k j m hq hm
    have hr := h c k j hq
    obtain ⟨hk, rfl⟩ := List.getElem?_eq_some_iff.mp hm
    rw [List.drop_eq_getElem_cons hk, pulsesSafe, Bool.and_eq_true] at hr
    exact hr.2
  have hcmd : ∀ m, programAt (execMicro m s) = programAt s := fun m => programAt_congr _ _ (execMicro_keeps m s).1
  rcases sequencerStep_cases s with he | ⟨hb, c, k, j, m, hq, hm, _, he⟩ | ⟨hb, c, k, b, hq, hm, _, he⟩ |
    ⟨hb, c, k, j, b, hq, hm, _, he⟩ | ⟨hb, c, k, j, b, m, hq, hm, _, hj, he⟩ <;> rw [he]
  · exact h
  · refine restSafe_placeAt _ _ _ _ (execMicro_ended m s hb) ?_
    rw [hcmd, execMicro_modeDir]
    exact hcons c k j m hq hm
  · exact restSafe_placeAt _ _ _ _ (fun hb' => absurd (hb'.symm.trans hb) (by decide)) (hcons c k 0 _ hq hm)
  · exact restSafe_placeAt _ _ _ _ (fun hb' => absurd (hb'.symm.trans hb) (by decide)) (h c k j hq)
  · refine restSafe_placeAt _ _ _ _ (execMicro_ended m s hb) ?_
    rw [hcmd, execMicro_modeDir, pollBody_modeDir j m _ hj]
    exact h c k j hq

/-- Where the rest is safe, a pulse that starts finds DAT as MODE says. -/
theorem restSafe_pulse (s : State) (h : restSafe s) (hp : startsPulse s = true) :
    datFollowsMode s.mode s.ports.dat.dir = true := by
  have hn : ∀ e : LineEvent, ¬ s.trace = e :: s.trace := fun e he => by
    have := congrArg List.length he; simp at this
  have hplace : ∀ c k j u, (placeAt c k j u).trace = u.trace := by intros; unfold placeAt; split <;> rfl
  have hhead : ∀ c k j m, s.seq = .running c k j → (programAt s)[k]? = some m → m.pulses = true →
      datFollowsMode s.mode s.ports.dat.dir = true := by
    intro c k j m hq hm hpm
    have hr := h c k j hq
    obtain ⟨hk, rfl⟩ := List.getElem?_eq_some_iff.mp hm
    rw [List.drop_eq_getElem_cons hk, pulsesSafe, Bool.and_eq_true, hpm] at hr
    simpa using hr.1
  rw [startsPulse, beq_iff_eq] at hp
  rcases sequencerStep_cases s with he | ⟨_, c, k, j, m, hq, hm, _, he⟩ | ⟨_, c, k, b, hq, hm, _, he⟩ |
    ⟨_, c, k, j, b, hq, hm, _, he⟩ | ⟨_, c, k, j, b, m, hq, hm, _, hj, he⟩ <;> rw [he] at hp
  · exact absurd hp (hn _)
  · rw [hplace] at hp
    exact hhead c k j m hq hm (pulses_of_trace m s hp)
  · exact hhead c k 0 _ hq hm rfl
  · exact hhead c k j _ hq hm rfl
  · exact hhead c k j _ hq hm rfl

/-- A running command whose rest is safe keeps the mode invariant to its end (R30, R165). -/
theorem pulsesFollowMode_of_restSafe (s : State) (h : restSafe s) : pulsesFollowMode s := by
  intro n
  induction n generalizing s with
  | zero => exact restSafe_pulse s h
  | succ n ih => exact ih _ (restSafe_sequencerStep s h)

/-! The lists: a phase from any MODE, with DAT an input where MODE is Read, is safe and ends in Read with DAT an input. -/

theorem opcodeBits_safe (src : OpcodeSrc) (n : Nat) :
    modeDirAfter (repeatOps n (opcodeBitOps src)) (.write, .output) = (.write, .output) ∧
      pulsesSafe (repeatOps n (opcodeBitOps src)) (.write, .output) = true :=
  repeatOps_safe n _ _ (fun _ => rfl) (fun _ => rfl)

theorem valueBits_safe (src : ValueSrc) (n : Nat) :
    modeDirAfter (repeatOps n (valueBitOps src)) (.writeData, .output) = (.writeData, .output) ∧
      pulsesSafe (repeatOps n (valueBitOps src)) (.writeData, .output) = true :=
  repeatOps_safe n _ _ (fun _ => rfl) (fun _ => rfl)

theorem statusBits_safe (n : Nat) :
    modeDirAfter (repeatOps n statusBitOps) (.read, .input) = (.read, .input) ∧
      pulsesSafe (repeatOps n statusBitOps) (.read, .input) = true :=
  repeatOps_safe n _ _ (fun _ => rfl) (fun _ => rfl)

theorem wordBits_safe (n : Nat) :
    modeDirAfter (repeatOps n wordBitOps) (.read, .input) = (.read, .input) ∧
      pulsesSafe (repeatOps n wordBitOps) (.read, .input) = true :=
  repeatOps_safe n _ _ (fun _ => rfl) (fun _ => rfl)

theorem pulsesOps_safe (n : Nat) :
    modeDirAfter (pulsesOps n) (.read, .input) = (.read, .input) ∧ pulsesSafe (pulsesOps n) (.read, .input) = true :=
  repeatOps_safe n _ _ (fun _ => rfl) (fun _ => rfl)

theorem setReadModeOps_safe (x : Mode × Dir) (h : x.1 = .read → x.2 = .input) :
    modeDirAfter setReadModeOps x = (.read, .input) ∧ pulsesSafe setReadModeOps x = true := by
  obtain ⟨m, d⟩ := x
  cases m <;> cases d <;> first | exact ⟨rfl, rfl⟩ | exact absurd (h rfl) (by decide)

theorem setWriteModeOps_safe (x : Mode × Dir) (h : x.1 = .write → x.2 = .output) :
    modeDirAfter setWriteModeOps x = (.write, .output) ∧ pulsesSafe setWriteModeOps x = true := by
  obtain ⟨m, d⟩ := x
  cases m <;> cases d <;> first | exact ⟨rfl, rfl⟩ | exact absurd (h rfl) (by decide)

theorem checkStatusOps_safe (c : Cause) (x : Mode × Dir) (h : x.1 = .read → x.2 = .input) :
    modeDirAfter (checkStatusOps c) x = (.read, .input) ∧ pulsesSafe (checkStatusOps c) x = true := by
  simp only [checkStatusOps, recvStatusOps, modeDirAfter_append, pulsesSafe_append, (setReadModeOps_safe x h).1,
    (setReadModeOps_safe x h).2, (statusBits_safe 8).1, (statusBits_safe 8).2]
  exact ⟨rfl, rfl⟩

theorem sendOpcodeOps_safe (src : OpcodeSrc) (c : Cause) (x : Mode × Dir) (h : x.1 = .write → x.2 = .output) :
    modeDirAfter (sendOpcodeOps src c) x = (.read, .input) ∧ pulsesSafe (sendOpcodeOps src c) x = true := by
  have hc := checkStatusOps_safe c (.write, .output) (by decide)
  simp only [sendOpcodeOps, modeDirAfter_append, pulsesSafe_append, (setWriteModeOps_safe x h).1,
    (setWriteModeOps_safe x h).2, (opcodeBits_safe src 16).1, (opcodeBits_safe src 16).2, hc.1, hc.2]
  exact ⟨trivial, rfl⟩

theorem sendValueOps_safe (src : ValueSrc) (c : Cause) (x : Mode × Dir) (h : x.1 = .write → x.2 = .output) :
    modeDirAfter (sendValueOps src c) x = (.read, .input) ∧ pulsesSafe (sendValueOps src c) x = true := by
  have hc := checkStatusOps_safe c (.writeData, .output) (by decide)
  have he : modeDirAfter enterWriteDataOps (.write, .output) = (.writeData, .output) := rfl
  simp only [sendValueOps, modeDirAfter_append, pulsesSafe_append, (setWriteModeOps_safe x h).1,
    (setWriteModeOps_safe x h).2, he, (valueBits_safe src 32).1, (valueBits_safe src 32).2, hc.1, hc.2]
  exact ⟨trivial, rfl⟩

theorem recvWordOps_safe (x : Mode × Dir) (h : x.1 = .read → x.2 = .input) :
    modeDirAfter recvWordOps x = (.read, .input) ∧ pulsesSafe recvWordOps x = true := by
  simp only [recvWordOps, modeDirAfter_append, pulsesSafe_append, (setReadModeOps_safe x h).1,
    (setReadModeOps_safe x h).2, (wordBits_safe 16).1, (wordBits_safe 16).2]
  exact ⟨trivial, rfl⟩

theorem pollOps_safe (b : Nat) (x : Mode × Dir) (h : x.1 = .read → x.2 = .input) :
    modeDirAfter (pollOps b) x = (.read, .input) ∧ pulsesSafe (pollOps b) x = true := by
  have hw : modeDirAfter [.startPoll, .pollLoop b, .latchPollCount, .failUnlessReady .pollTimeout] (.read, .input) =
      (.read, .input) := rfl
  simp only [pollOps, modeDirAfter_append, pulsesSafe_append, (setReadModeOps_safe x h).1, (setReadModeOps_safe x h).2,
    hw, (statusBits_safe 8).1, (statusBits_safe 8).2]
  exact ⟨rfl, rfl⟩

theorem readWords_safe (n : Nat) :
    modeDirAfter (repeatOps n readWordOps) (.read, .input) = (.read, .input) ∧
      pulsesSafe (repeatOps n readWordOps) (.read, .input) = true := by
  have hw := recvWordOps_safe (.read, .input) (fun _ => rfl)
  refine repeatOps_safe n _ _ (fun j => ?_) (fun j => ?_)
  · simp only [readWordOps, modeDirAfter_append, modeDirAfter, Micro.modeDir, hw.1]
  · simp only [readWordOps, pulsesSafe_append, modeDirAfter_append, modeDirAfter, Micro.modeDir, hw.1, hw.2]
    rfl

theorem writeWords_safe (n : Nat) :
    modeDirAfter (repeatOps n writeWordOps) (.read, .input) = (.read, .input) ∧
      pulsesSafe (repeatOps n writeWordOps) (.read, .input) = true := by
  have hv := fun j => sendValueOps_safe (.dbuf j) .statusMismatch (.read, .input) (by decide)
  refine repeatOps_safe n _ _ (fun j => ?_) (fun j => ?_)
  · simp only [writeWordOps, modeDirAfter_append, modeDirAfter, Micro.modeDir, (hv j).1]
  · simp only [writeWordOps, pulsesSafe_append, modeDirAfter, Micro.modeDir, (hv j).2]
    rfl

theorem unlock_safe (x : Mode × Dir) (h : datFollowsMode x.1 x.2 = true) : pulsesSafe unlockProgram x = true := by
  have hb : ∀ pair j, modeDirAfter (unlockBitOps pair j) x = x ∧ pulsesSafe (unlockBitOps pair j) x = true := by
    intro pair j
    refine ⟨rfl, ?_⟩
    simp [unlockBitOps, clkOps, pulsesSafe, Micro.pulses, Micro.modeDir, h]
  have hp : ∀ n, modeDirAfter (unlockPairOps (Config.unlockPairs (Fin.ofNat 8 n))) x = x ∧
      pulsesSafe (unlockPairOps (Config.unlockPairs (Fin.ofNat 8 n))) x = true := fun n =>
    repeatOps_safe 8 _ x (fun j => (hb _ j).1) (fun j => (hb _ j).2)
  have hr := repeatOps_safe 8 (fun n => unlockPairOps (Config.unlockPairs (Fin.ofNat 8 n))) x (fun n => (hp n).1)
    (fun n => (hp n).2)
  rw [unlockProgram, pulsesSafe_append, hr.1, hr.2]
  rfl

/-- From a command boundary (R32), every command's list keeps the mode invariant (R30). -/
theorem programOf_safe (i : Instr) (x : Mode × Dir) (hw : x.1 ≠ .write) (h : datFollowsMode x.1 x.2 = true) :
    pulsesSafe (programOf i) x = true := by
  have hk := sendOpcodeOps_safe (.const Config.opcCheck) .checkFail x (fun e => absurd e hw)
  have ho := fun src c => sendOpcodeOps_safe src c (.read, .input) (by decide)
  have hv := fun src c => sendValueOps_safe src c (.read, .input) (by decide)
  have hs := fun c => checkStatusOps_safe c (.read, .input) (fun _ => rfl)
  have hp := fun b => pollOps_safe b (.read, .input) (fun _ => rfl)
  have hr := recvWordOps_safe (.read, .input) (fun _ => rfl)
  have hst : ∀ i, modeDirAfter [.storeWord i] (.read, .input) = (.read, .input) := fun _ => rfl
  cases i with
  | powerup => rfl
  | shutdown => rfl
  | unlock => exact unlock_safe x h
  | _ =>
    simp only [programOf, checkProgram, readwProgram, readnProgram, writewProgram, writenProgram, eraseallProgram,
      erasepageProgram, readidProgram, checkOps, modeDirAfter_append, pulsesSafe_append, hk.1, hk.2, (ho _ _).1,
      (ho _ _).2, (hv _ _).1, (hv _ _).2, (hs _).1, (hs _).2, (hp _).1, (hp _).2, hr.1, hr.2, hst,
      (pulsesOps_safe _).1, (pulsesOps_safe _).2, (readWords_safe _).1, (readWords_safe _).2, (writeWords_safe _).1,
      (writeWords_safe _).2]
    rfl

/-! Traces, piece by piece. -/

theorem replayPorts_append (es fs : List LineEvent) (p : Ports) :
    replayPorts (es ++ fs) p = replayPorts fs (replayPorts es p) := by
  induction es generalizing p with
  | nil => rfl
  | cons e es ih => cases e <;> exact ih _

theorem replayMode_append (es fs : List LineEvent) (m : Mode) (p : Ports) :
    replayMode (es ++ fs) m p = replayMode fs (replayMode es m p) (replayPorts es p) := by
  induction es generalizing m p with
  | nil => rfl
  | cons e es ih =>
    rw [List.cons_append, replayMode, ih, ← List.singleton_append, replayPorts_append]
    rfl

theorem modeKept_append (es fs : List LineEvent) (m : Mode) (p : Ports) :
    modeKept (es ++ fs) m p = (modeKept es m p && modeKept fs (replayMode es m p) (replayPorts es p)) := by
  induction es generalizing m p with
  | nil => rfl
  | cons e es ih =>
    have hp : replayPorts (e :: es) p = replayPorts es (portsAfter e p) := by
      rw [← List.singleton_append, replayPorts_append]
      rfl
    simp only [List.cons_append, modeKept, ih, replayMode, hp, Bool.and_assoc]

end Sys2Proof.Machine
end

