-- ==== Sys2Proof/Laws/PerInstr.lean ====
section
/-! SUPPORT. One family of statements made per instruction, with one lemma per constructor. -/

namespace Sys2Proof.Laws.FieldsNameTheCommand

/-- The fields of the instruction's word are legal (R80), both reserved fields are 0, and its CODE names the instruction
with its operands (R79, R81); it is well-formed. -/
def Statement (i : Sys2Proof.Instr) : Prop :=
  i.fields.legal = true ∧ i.fields.rsv0 = 0#4 ∧ i.fields.rsv1 = 0#3 ∧ Sys2Proof.commandOf i.fields = some i ∧
    i.wellFormed = true

theorem powerup : Statement .powerup :=
  ⟨Sys2Proof.fields_legal _, rfl, rfl, rfl, Sys2Proof.fields_legal _⟩

theorem shutdown : Statement .shutdown :=
  ⟨Sys2Proof.fields_legal _, rfl, rfl, rfl, Sys2Proof.fields_legal _⟩

theorem check : Statement .check :=
  ⟨Sys2Proof.fields_legal _, rfl, rfl, rfl, Sys2Proof.fields_legal _⟩

theorem readw (a : Sys2Proof.Half) : Statement (.readw a) :=
  ⟨Sys2Proof.fields_legal _, rfl, rfl, rfl, Sys2Proof.fields_legal _⟩

theorem readn (a : Sys2Proof.Half) (n : Sys2Proof.Count) : Statement (.readn a n) :=
  ⟨Sys2Proof.fields_legal _, rfl, rfl, rfl, Sys2Proof.fields_legal _⟩

theorem writew (a : Sys2Proof.Half) : Statement (.writew a) :=
  ⟨Sys2Proof.fields_legal _, rfl, rfl, rfl, Sys2Proof.fields_legal _⟩

theorem writen (a : Sys2Proof.Half) (n : Sys2Proof.Count) : Statement (.writen a n) :=
  ⟨Sys2Proof.fields_legal _, rfl, rfl, rfl, Sys2Proof.fields_legal _⟩

theorem eraseall : Statement .eraseall :=
  ⟨Sys2Proof.fields_legal _, rfl, rfl, rfl, Sys2Proof.fields_legal _⟩

theorem erasepage (a : Sys2Proof.Half) : Statement (.erasepage a) :=
  ⟨Sys2Proof.fields_legal _, rfl, rfl, rfl, Sys2Proof.fields_legal _⟩

theorem readid : Statement .readid :=
  ⟨Sys2Proof.fields_legal _, rfl, rfl, rfl, Sys2Proof.fields_legal _⟩

theorem unlock : Statement .unlock :=
  ⟨Sys2Proof.fields_legal _, rfl, rfl, rfl, Sys2Proof.fields_legal _⟩

end Sys2Proof.Laws.FieldsNameTheCommand
end

