-- ==== Sys2Proof/Laws/Samples.lean ====
section
/-! SUPPORT. The coming samples after a phase: every phase shifts them by the samples it takes, and with them the status
bytes, the levels and the words they make. -/

namespace Sys2Proof.Machine

open Sys2Proof

theorem statusByte_shift (s t : State) (n k : Nat) (h : ∀ j, upcoming t j = upcoming s (j + n)) :
    statusByte t k = statusByte s (k + n) :=
  statusByte_congr s t (k + n) k fun j => by rw [h, Nat.add_right_comm]

theorem statusGood_shift (s t : State) (n k : Nat) (h : ∀ j, upcoming t j = upcoming s (j + n)) :
    statusGood t k = statusGood s (k + n) := by
  rw [statusGood, statusGood, statusByte_shift s t n k h]

theorem levels_shift (s t : State) (n k m : Nat) (h : ∀ j, upcoming t j = upcoming s (j + n)) :
    levels t k m = levels s (k + n) m :=
  levels_congr s t (k + n) k m fun j => by rw [h, Nat.add_right_comm]

theorem wordBitsAre_shift (s t : State) (n k : Nat) (w : Half) (h : ∀ j, upcoming t j = upcoming s (j + n)) :
    wordBitsAre t k w ↔ wordBitsAre s (k + n) w := by
  simp only [wordBitsAre, h]
  constructor <;> intro hw j hj <;> rw [hw j hj] <;> congr 1 <;> omega

theorem readyAt_shift (s t : State) (n m k : Nat) (h : ∀ j, upcoming t j = upcoming s (j + n)) :
    readyAt t m k ↔ readyAt s (m + n) k := by
  simp only [readyAt, h]
  simp only [Nat.add_right_comm m _ n]

theorem neverReady_shift (s t : State) (n m b : Nat) (h : ∀ j, upcoming t j = upcoming s (j + n)) :
    neverReady t m b ↔ neverReady s (m + n) b := by
  simp only [neverReady, h]
  simp only [Nat.add_right_comm m _ n]

/-! Phases that take no sample. -/

@[simp] theorem dispatch_upcoming (i : Instr) (s : State) (j : Nat) : upcoming (dispatch i s) j = upcoming s j := rfl
@[simp] theorem dispatch_statusByte (i : Instr) (s : State) (k : Nat) :
    statusByte (dispatch i s) k = statusByte s k := rfl
@[simp] theorem dispatch_statusGood (i : Instr) (s : State) (k : Nat) :
    statusGood (dispatch i s) k = statusGood s k := rfl
@[simp] theorem dispatch_levels (i : Instr) (s : State) (k n : Nat) : levels (dispatch i s) k n = levels s k n := rfl
@[simp] theorem pulses_upcoming (n : Nat) (s : State) (j : Nat) : upcoming (pulses n s) j = upcoming s j :=
  upcoming_congr _ _ (by simp) (by simp) j
@[simp] theorem storeWord_upcoming (i : Nat) (s : State) (j : Nat) : upcoming (storeWord i s) j = upcoming s j := rfl
@[simp] theorem setWidx_upcoming (i : Nat) (s : State) (j : Nat) : upcoming (setWidx i s) j = upcoming s j := rfl
@[simp] theorem succeedCommand_upcoming (s : State) (j : Nat) : upcoming (succeedCommand s) j = upcoming s j := rfl
@[simp] theorem failCommand_upcoming (c : Cause) (s : State) (j : Nat) : upcoming (failCommand c s) j = upcoming s j :=
  rfl

/-! The frames: eight samples each. -/

@[simp] theorem sendOpcode_statusByte (src : OpcodeSrc) (s : State) (k : Nat) :
    statusByte (sendOpcode src s) k = statusByte s (k + 8) :=
  statusByte_shift s _ 8 k (sendOpcode_upcoming src s)
@[simp] theorem sendOpcode_statusGood (src : OpcodeSrc) (s : State) (k : Nat) :
    statusGood (sendOpcode src s) k = statusGood s (k + 8) :=
  statusGood_shift s _ 8 k (sendOpcode_upcoming src s)
@[simp] theorem sendOpcode_levels (src : OpcodeSrc) (s : State) (k n : Nat) :
    levels (sendOpcode src s) k n = levels s (k + 8) n :=
  levels_shift s _ 8 k n (sendOpcode_upcoming src s)
@[simp] theorem sendValue_statusByte (src : ValueSrc) (s : State) (k : Nat) :
    statusByte (sendValue src s) k = statusByte s (k + 8) :=
  statusByte_shift s _ 8 k (sendValue_upcoming src s)
@[simp] theorem sendValue_statusGood (src : ValueSrc) (s : State) (k : Nat) :
    statusGood (sendValue src s) k = statusGood s (k + 8) :=
  statusGood_shift s _ 8 k (sendValue_upcoming src s)
@[simp] theorem sendValue_levels (src : ValueSrc) (s : State) (k n : Nat) :
    levels (sendValue src s) k n = levels s (k + 8) n :=
  levels_shift s _ 8 k n (sendValue_upcoming src s)

/-- The settle delays of a first and a second mode change, counted at once. -/
theorem settlesFrom_two (s : State) :
    settlesFrom s 2 = (if s.mode = .write then 0 else 1) + 1 := by
  unfold settlesFrom; split <;> rfl

end Sys2Proof.Machine
end

