-- ==== Sys2Proof/Laws/Target.lean ====
section
/-! SUPPORT. The reference target's word memory: every operation keeps its canonical form, and reads see what was
written. -/

namespace Sys2Proof.Machine

open Sys2Proof

/-! Reading a list of cells. -/

theorem cellsRead_low (erased : Half) (lo a : Nat) (cs : List (Nat × Half)) (hw : cellsWf erased lo cs = true)
    (h : a < lo) : cellsRead cs a = none := by
  induction cs generalizing lo with
  | nil => rfl
  | cons c cs ih =>
    obtain ⟨b, w⟩ := c
    simp only [cellsWf, Bool.and_eq_true, decide_eq_true_eq] at hw
    rw [cellsRead, if_neg (by omega)]
    exact ih (b + 1) hw.2 (by omega)

theorem cellsRead_insert (cs : List (Nat × Half)) (a c : Nat) (v : Half) :
    cellsRead (cellsInsert cs a v) c = if c = a then some v else cellsRead cs c := by
  induction cs with
  | nil => simp [cellsInsert, cellsRead]
  | cons x cs ih =>
    obtain ⟨b, w⟩ := x
    unfold cellsInsert
    split
    · simp [cellsRead]
    · split
      · rename_i h; subst h; simp only [cellsRead]; split <;> rfl
      · rename_i h
        simp only [cellsRead, ih]
        by_cases hb : c = b <;> by_cases ha : c = a <;> simp_all

theorem cellsRead_erase (erased : Half) (lo : Nat) (cs : List (Nat × Half)) (hw : cellsWf erased lo cs = true)
    (a c : Nat) : cellsRead (cellsErase cs a) c = if c = a then none else cellsRead cs c := by
  induction cs generalizing lo with
  | nil => simp [cellsErase, cellsRead]
  | cons x cs ih =>
    obtain ⟨b, w⟩ := x
    simp only [cellsWf, Bool.and_eq_true, decide_eq_true_eq] at hw
    unfold cellsErase
    split
    · rename_i h
      subst h
      simp only [cellsRead]
      split
      · rename_i h; subst h; exact cellsRead_low erased _ _ cs hw.2 (by omega)
      · rfl
    · simp only [cellsRead, ih _ hw.2]
      by_cases hb : c = b <;> by_cases ha : c = a <;> simp_all

/-! The canonical form. -/

theorem cellsWf_weaken (erased : Half) (lo lo' : Nat) (cs : List (Nat × Half)) (h : lo' ≤ lo)
    (hw : cellsWf erased lo cs = true) : cellsWf erased lo' cs = true := by
  cases cs with
  | nil => rfl
  | cons x cs =>
    simp only [cellsWf, Bool.and_eq_true, decide_eq_true_eq] at hw ⊢
    exact ⟨⟨⟨by omega, hw.1.1.2⟩, hw.1.2⟩, hw.2⟩

theorem cellsWf_insert (erased : Half) (lo a : Nat) (v : Half) (cs : List (Nat × Half)) (hw : cellsWf erased lo cs = true)
    (hl : lo ≤ a) (ha : a < 0x10000) (hv : v ≠ erased) : cellsWf erased lo (cellsInsert cs a v) = true := by
  induction cs generalizing lo with
  | nil => simp [cellsInsert, cellsWf, hl, ha, hv]
  | cons x cs ih =>
    obtain ⟨b, w⟩ := x
    simp only [cellsWf, Bool.and_eq_true, decide_eq_true_eq] at hw
    unfold cellsInsert
    split
    · rename_i h
      simp only [cellsWf, Bool.and_eq_true, decide_eq_true_eq]
      exact ⟨⟨⟨hl, ha⟩, by simpa using hv⟩, ⟨⟨by omega, hw.1.1.2⟩, hw.1.2⟩, hw.2⟩
    · split
      · rename_i h
        subst h
        simp only [cellsWf, Bool.and_eq_true, decide_eq_true_eq]
        exact ⟨⟨⟨hl, ha⟩, by simpa using hv⟩, hw.2⟩
      · simp only [cellsWf, Bool.and_eq_true, decide_eq_true_eq]
        exact ⟨hw.1, ih _ hw.2 (by omega)⟩

theorem cellsWf_erase (erased : Half) (lo a : Nat) (cs : List (Nat × Half)) (hw : cellsWf erased lo cs = true) :
    cellsWf erased lo (cellsErase cs a) = true := by
  induction cs generalizing lo with
  | nil => rfl
  | cons x cs ih =>
    obtain ⟨b, w⟩ := x
    simp only [cellsWf, Bool.and_eq_true, decide_eq_true_eq] at hw
    unfold cellsErase
    split
    · exact cellsWf_weaken erased _ _ cs (by omega) hw.2
    · simp only [cellsWf, Bool.and_eq_true, decide_eq_true_eq]
      exact ⟨hw.1, ih _ hw.2⟩

theorem cellsWf_filter (erased : Half) (lo : Nat) (p : Nat × Half → Bool) (cs : List (Nat × Half))
    (hw : cellsWf erased lo cs = true) : cellsWf erased lo (cs.filter p) = true := by
  induction cs generalizing lo with
  | nil => rfl
  | cons x cs ih =>
    obtain ⟨b, w⟩ := x
    simp only [cellsWf, Bool.and_eq_true, decide_eq_true_eq] at hw
    rw [List.filter_cons]
    split
    · simp only [cellsWf, Bool.and_eq_true, decide_eq_true_eq]
      exact ⟨hw.1, ih _ hw.2⟩
    · exact cellsWf_weaken erased _ _ _ (by omega) (ih _ hw.2)

theorem cellsRead_filter (p : Nat → Bool) (cs : List (Nat × Half)) (a : Nat) :
    cellsRead (cs.filter fun c => p c.1) a = if p a then cellsRead cs a else none := by
  induction cs with
  | nil => simp [cellsRead]
  | cons x cs ih =>
    obtain ⟨b, w⟩ := x
    rw [List.filter_cons]
    by_cases hb : a = b
    · subst hb
      by_cases hp : p a <;> simp [cellsRead, hp, ih]
    · by_cases hp : p b <;> simp [cellsRead, hp, hb, ih]

/-- A memory with nothing listed is in canonical form. -/
theorem targetWf_empty (erased : Half) : targetWf ⟨erased, []⟩ = true := rfl

theorem targetWf_write (m : TargetMem) (a v : Half) (h : targetWf m = true) : targetWf (targetWrite m a v) = true := by
  unfold targetWrite
  split
  · exact cellsWf_erase _ _ _ _ h
  · rename_i hv
    exact cellsWf_insert _ _ _ _ _ h (Nat.zero_le _) a.isLt hv

theorem targetWf_eraseAll (m : TargetMem) : targetWf (targetEraseAll m) = true := rfl

theorem targetWf_erasePage (m : TargetMem) (a : Half) (h : targetWf m = true) :
    targetWf (targetErasePage m a) = true :=
  cellsWf_filter _ _ _ _ h

/-! Reads after an operation. -/

/-- The word written reads back. -/
theorem targetRead_write_same (m : TargetMem) (a v : Half) (h : targetWf m = true) :
    targetRead (targetWrite m a v) a = v := by
  unfold targetWrite
  split
  · rename_i hv
    simp [targetRead, cellsRead_erase _ _ _ h, hv]
  · simp [targetRead, cellsRead_insert]

/-- Every other word reads as before. -/
theorem targetRead_write_other (m : TargetMem) (a b v : Half) (h : targetWf m = true) (hab : b ≠ a) :
    targetRead (targetWrite m a v) b = targetRead m b := by
  have hn : b.toNat ≠ a.toNat := fun he => hab (BitVec.eq_of_toNat_eq he)
  unfold targetWrite
  split
  · simp [targetRead, cellsRead_erase _ _ _ h, hn]
  · simp [targetRead, cellsRead_insert, hn]

theorem targetRead_eraseAll (m : TargetMem) (a : Half) : targetRead (targetEraseAll m) a = m.erased := rfl

/-- Erasing a page: the words of the page read as erased, every other word as before. -/
theorem targetRead_erasePage (m : TargetMem) (a b : Half) :
    targetRead (targetErasePage m a) b =
      if (pageBase a).toNat ≤ b.toNat ∧ b.toNat < (pageBase a).toNat + 128 then m.erased else targetRead m b := by
  have := cellsRead_filter
    (fun c => !(decide ((pageBase a).toNat ≤ c) && decide (c < (pageBase a).toNat + 128))) m.cells b.toNat
  simp only [targetRead, targetErasePage]
  rw [this]
  by_cases h : (pageBase a).toNat ≤ b.toNat ∧ b.toNat < (pageBase a).toNat + 128
  · simp [h]
  · rw [if_neg h, if_pos]
    simp only [Bool.not_eq_true', Bool.and_eq_false_iff, decide_eq_false_iff_not]
    omega

/-- A write keeps the value of the unlisted words. -/
theorem targetWrite_erased (m : TargetMem) (a v : Half) : (targetWrite m a v).erased = m.erased := by
  unfold targetWrite; split <;> rfl

/-! The reference target after a command (R77). -/

theorem targetWf_rtWriteWords (m : TargetMem) (a : Half) (s : State) (n : Nat) (h : targetWf m = true) :
    targetWf (rtWriteWords m a s n) = true := by
  induction n with
  | zero => exact h
  | succ n ih => exact targetWf_write _ _ _ ih

/-- Every command keeps the canonical form of the target's memory. -/
theorem targetWf_rtAfter (rt : RefTarget) (i : Instr) (s : State) (h : targetWf rt.mem = true) :
    targetWf (rtAfter rt i s).mem = true := by
  cases i <;> simp only [rtAfter]
  case writew => split; exacts [targetWf_write _ _ _ h, h]
  case writen => split; exacts [targetWf_rtWriteWords _ _ _ _ h, h]
  case eraseall => split; exacts [targetWf_eraseAll _, h]
  case erasepage => split; exacts [targetWf_erasePage _ _ h, h]
  all_goals exact h

end Sys2Proof.Machine
end

