-- ==== Sys2Proof/Laws/RefTarget.lean ====
section
/-! SUPPORT. What the coming samples are when a list of levels stands before them: status bytes, words, readiness. -/

namespace Sys2Proof.Machine

open Sys2Proof

/-- The coming samples are driven levels as far as a list of them reaches. -/
theorem upcoming_levels (s : State) (ls : List Bool) (rest : List TargetLevel)
    (h : s.samples = ls.map TargetLevel.drives ++ rest) (j : Nat) (b : Bool) (hj : ls[j]? = some b) :
    upcoming s j = b := by
  have hlt := (List.getElem?_eq_some_iff.mp hj).1
  have : s.samples[j]? = some (.drives b) := by
    rw [h, List.getElem?_append_left (by simpa using hlt), List.getElem?_map, hj]
    rfl
  simp [upcoming, this, levelOf]

/-- As `upcoming_levels`, for a part of the list. -/
theorem upcoming_part (s : State) (a p c : List Bool) (rest : List TargetLevel)
    (h : s.samples = (a ++ (p ++ c)).map TargetLevel.drives ++ rest) (j : Nat) (b : Bool) (hj : p[j]? = some b) :
    upcoming s (a.length + j) = b := by
  refine upcoming_levels s _ rest h _ b ?_
  have hlt := (List.getElem?_eq_some_iff.mp hj).1
  rw [List.getElem?_append_right (by omega), Nat.add_sub_cancel_left, List.getElem?_append_left hlt, hj]

/-- RT's status answer is the good status (R74). -/
theorem statusGood_of_levels (s : State) (a c : List Bool) (rest : List TargetLevel)
    (h : s.samples = (a ++ (statusLevels ++ c)).map TargetLevel.drives ++ rest) :
    statusGood s a.length = true := by
  have hj : ∀ j, j < 8 → upcoming s (a.length + j) = Config.statusOk.getLsbD (7 - j) := fun j hj =>
    upcoming_part s a statusLevels c rest h j _ (by simp [statusLevels, hj])
  rw [statusGood_iff]
  apply BitVec.eq_of_getLsbD_eq
  intro i hi
  rw [statusByte_getLsbD s _ i hi, hj _ (by omega)]
  congr 1
  omega

/-- RT's word, bit 0 first (R75). -/
theorem wordBitsAre_of_levels (s : State) (a c : List Bool) (w : Half) (rest : List TargetLevel)
    (h : s.samples = (a ++ (wordLevels w ++ c)).map TargetLevel.drives ++ rest) : wordBitsAre s a.length w :=
  fun j hj => (upcoming_part s a (wordLevels w) c rest h j _ (by simp [wordLevels, hj])).symm

/-- RT's readiness (R76): ready is first seen after the zeros. -/
theorem readyAt_of_levels (s : State) (a c : List Bool) (k : Nat) (rest : List TargetLevel)
    (h : s.samples = (a ++ ((List.replicate k false ++ [true]) ++ c)).map TargetLevel.drives ++ rest) :
    readyAt s a.length k := by
  refine ⟨upcoming_part s a _ c rest h k true (by simp), fun j hj => ?_⟩
  refine upcoming_part s a _ c rest h j false ?_
  rw [List.getElem?_append_left (by simpa using hj)]
  simp [hj]

/-- No ready within as many samples as there are zeros (R76). -/
theorem neverReady_of_levels (s : State) (a c : List Bool) (n : Nat) (rest : List TargetLevel)
    (h : s.samples = (a ++ (List.replicate n false ++ c)).map TargetLevel.drives ++ rest) : neverReady s a.length n :=
  fun j hj => upcoming_part s a _ c rest h j false (by simp [hj])

/-- Several good statuses in a row (R74). -/
theorem statusesGood_of_levels (s : State) (n : Nat) (c : List Bool) (rest : List TargetLevel)
    (h : s.samples = ((List.replicate n statusLevels).flatten ++ c).map TargetLevel.drives ++ rest) :
    statusesGood s n := by
  intro j hj
  have hs : (List.replicate n statusLevels).flatten ++ c =
      (List.replicate j statusLevels).flatten ++
        (statusLevels ++ ((List.replicate (n - j - 1) statusLevels).flatten ++ c)) := by
    conv_lhs => rw [show n = j + (1 + (n - j - 1)) by omega, List.replicate_add, List.replicate_add]
    simp
  have hl : ((List.replicate j statusLevels).flatten).length = 8 * j := by
    simp [statusLevels, Nat.mul_comm]
  rw [hs] at h
  rw [← hl]
  exact statusGood_of_levels s _ _ rest h

/-- A status of eight zeros is not the good one. -/
theorem statusBad_of_levels (s : State) (a c : List Bool) (rest : List TargetLevel)
    (h : s.samples = (a ++ (List.replicate 8 false ++ c)).map TargetLevel.drives ++ rest) :
    statusGood s a.length = false := by
  have h6 : upcoming s (a.length + 6) = false := upcoming_part s a _ c rest h 6 false rfl
  rw [← Bool.not_eq_true, statusGood_iff]
  intro he
  have := congrArg (fun b : Byte => b.getLsbD 1) he
  rw [statusByte_getLsbD s _ 1 (by omega), h6] at this
  exact absurd this (by decide)

end Sys2Proof.Machine
end

