-- ==== Sys2Proof/Tests/Slice0.lean ====
section
/-! SUPPORT. Tests: the well-formedness smoke test, words written out from the encoding, one or two small runs of each
command from 95_test_vectors.md, and for each statement with hypotheses a state that meets them. -/

namespace Sys2Proof.Tests

open Sys2Proof Sys2Proof.Machine

/-! Well-formedness: for each check, a term it refuses (R80, R83, R59). -/

theorem test_code_0_is_unused : (Cmdw.mk 0#16 0#3 0#5 0#4 0x0#4).codeUsed = false := by decide
theorem test_code_C_is_unused : (Cmdw.mk 0#16 0#3 0#5 0#4 0xC#4).codeUsed = false := by decide
theorem test_rsv0_must_be_clear : (Cmdw.mk 0#16 0#3 0#5 1#4 0x4#4).reservedClear = false := by decide
theorem test_rsv1_must_be_clear : (Cmdw.mk 0#16 1#3 0#5 0#4 0x4#4).reservedClear = false := by decide
theorem test_unused_count_must_be_0 : (Cmdw.mk 0#16 0#3 1#5 0#4 0x3#4).countOk = false := by decide
theorem test_unused_addr_must_be_0 : (Cmdw.mk 1#16 0#3 0#5 0#4 0x8#4).addrOk = false := by decide
theorem test_legal_needs_all_four :
    (Cmdw.mk 0#16 0#3 0#5 0#4 0xC#4).legal = false ∧ (Cmdw.mk 0#16 0#3 0#5 1#4 0x4#4).legal = false ∧
      (Cmdw.mk 0#16 0#3 1#5 0#4 0x6#4).legal = false ∧ (Cmdw.mk 1#16 0#3 0#5 0#4 0xB#4).legal = false ∧
      (Cmdw.mk 0xFFFF#16 0#3 31#5 0#4 0x5#4).legal = true := by decide
theorem test_assembler_address_range :
    (AsmLine.readw 0x10000).wellFormed = false ∧ (AsmLine.erase 0x10000).wellFormed = false ∧
      (AsmLine.readw 0xFFFF).wellFormed = true := by decide
theorem test_assembler_count_range :
    (AsmLine.readn 0 32).wellFormed = false ∧ (AsmLine.readk 0 0).wellFormed = false ∧
      (AsmLine.writek 0 33).wellFormed = false ∧ (AsmLine.writek 0 32).wellFormed = true := by decide
theorem test_assembler_dbuf_range :
    (AsmLine.dbuf 32 0).wellFormed = false ∧ (AsmLine.dbuf 0 0x100000000).wellFormed = false ∧
      (AsmLine.dbuf 31 0xFFFF).wellFormed = true := by decide
theorem test_access_shape :
    accessSupported 0x02 4 = false ∧ accessSupported 0x00 1 = false ∧ accessSupported 0xBC 4 = true := by decide

/-! Decoding of words written out from R78 and R79 (95_test_vectors.md, E1 to E21). -/

theorem test_decode_powerup : decode 0x00000001#32 = .ok .powerup := by decide
theorem test_decode_shutdown : decode 0x00000002#32 = .ok .shutdown := by decide
theorem test_decode_check : decode 0x00000003#32 = .ok .check := by decide
theorem test_decode_readw : decode 0x12000004#32 = .ok (.readw 0x1200#16) := by decide
theorem test_decode_readn : decode 0x003E0305#32 = .ok (.readn 0x003E#16 3#5) := by decide
theorem test_decode_readn_largest : decode 0xFFFF1F05#32 = .ok (.readn 0xFFFF#16 31#5) := by decide
theorem test_decode_writew : decode 0x12000006#32 = .ok (.writew 0x1200#16) := by decide
theorem test_decode_writen : decode 0x001F0107#32 = .ok (.writen 0x001F#16 1#5) := by decide
theorem test_decode_eraseall : decode 0x00000008#32 = .ok .eraseall := by decide
theorem test_decode_erasepage : decode 0x12340009#32 = .ok (.erasepage 0x1234#16) := by decide
theorem test_decode_readid : decode 0x0000000A#32 = .ok .readid := by decide
theorem test_decode_unlock : decode 0x0000000B#32 = .ok .unlock := by decide
/-- READN bit by bit: ADDR 1010_0101_1100_0011, RSV1 000, N 10110, RSV0 0000, CODE 0101. -/
theorem test_decode_readn_bitwise :
    decode 0b10100101110000110001011000000101#32 = .ok (.readn 0b1010010111000011#16 0b10110#5) := by decide
theorem test_decode_unused_codes :
    decode 0x00000000#32 = .error .unusedCode ∧ decode 0x0000000C#32 = .error .unusedCode ∧
      decode 0x0000000F#32 = .error .unusedCode := by decide
theorem test_decode_reserved_bits :
    decode 0x00000014#32 = .error .reservedBits ∧ decode 0x00002004#32 = .error .reservedBits := by decide
theorem test_decode_unused_count :
    decode 0x00000103#32 = .error .unusedCountSet ∧ decode 0x00000106#32 = .error .unusedCountSet := by decide
theorem test_decode_unused_addr :
    decode 0x00010008#32 = .error .unusedAddrSet ∧ decode 0x00010001#32 = .error .unusedAddrSet ∧
      decode 0x0001000A#32 = .error .unusedAddrSet ∧ decode 0x0001000B#32 = .error .unusedAddrSet := by decide
theorem test_decode_short : decodeBytes [4#8, 0#8, 0#8] = .error .tooShort := by decide
/-- The bytes of READW 0x1200 in address order (R57). -/
theorem test_decode_bytes : decodeBytes [0x04#8, 0x00#8, 0x00#8, 0x12#8, 0x99#8] = .ok (.readw 0x1200#16, [0x99#8]) := by
  decide
theorem test_table_word : decodeTableWord 32 0x003E0305 = some (.readn 0x003E#16 3#5) := by decide
/-- READK a, k is READN a, k - 1; WRITEK and ERASE likewise (R83). -/
theorem test_expand :
    expandLine (.readk 0x003E 4) = some (.readn 0x003E#16 3#5) ∧
      expandLine (.writek 0 1) = some (.writen 0#16 0#5) ∧ expandLine (.erase 0x1234) = some (.erasepage 0x1234#16) ∧
      expandLine (.readk 0 0) = none := by decide
theorem test_assemble :
    assemble [.dbuf 1 0x2222, .writek 0x1F 2, .wait] =
      some [⟨some 0, .write 0x44 4 0x2222#32⟩, ⟨some 0, .write 0x00 4 0x001F0107#32⟩, ⟨none, .read 0x04 4⟩] := by
  decide

/-! Addresses and frames (95_test_vectors.md, W1 to W9, F1 to F10). -/

theorem test_page_mask :
    pageBase 0x1234#16 = 0x1200#16 ∧ pageBase 0x007F#16 = 0#16 ∧ pageBase 0x0080#16 = 0x0080#16 ∧
      pageBase 0xFFFF#16 = 0xFF80#16 := by decide
theorem test_wrap :
    wrapAddr 0x003E#16 1 = 0x003F#16 ∧ wrapAddr 0x003E#16 2 = 0x0020#16 ∧ wrapAddr 0xFFFF#16 1 = 0xFFE0#16 ∧
      wrapAddr 0x1234#16 12 = 0x1220#16 := by decide
theorem test_opcode_frame :
    opcodeFrame 0x00#8 = 0x00FF#16 ∧ opcodeFrame 0xFF#8 = 0xFF00#16 ∧ opcodeFrame 0xA5#8 = 0xA55A#16 := by decide
theorem test_value_frame : valueFrame 0x1234#16 = 0x1234EDCB#32 ∧ valueFrame 0xBEEF#16 = 0xBEEF4110#32 := by decide
theorem test_msb_first : msbFirst (opcodeFrame 0x01#8) =
    [false, false, false, false, false, false, false, true, true, true, true, true, true, true, true, false] := by
  decide

/-! Small runs. `fed` is the reset state with levels to come; `answered` has the reference target's. -/

/-- The reset state with the target's coming levels. -/
def fed (ls : List Bool) : State := { State.reset with samples := ls.map TargetLevel.drives }

/-- A reference target whose memory holds 0xBEEF at 0x1200, with ID 0x2711 and readiness delay `k`. -/
def rtOf (k : Nat) : RefTarget := ⟨targetWrite ⟨0xFFFF#16, []⟩ 0x1200#16 0xBEEF#16, 0x2711#16, k⟩

/-- The reset state with the reference target's levels for a command. -/
def answered (k : Nat) (i : Instr) : State := withTarget (rtOf k) i State.reset

/-- What a test reads of a run: STATUS, PULSECNT, SETTLECNT, LASTSTAT, POLLCNT, DBUF[0] and the samples left. -/
structure Seen where
  status : Word
  pulses : Word
  settles : Word
  laststat : Byte
  pollcnt : BitVec 19
  dbuf0 : Half
  left : Nat
  deriving DecidableEq, Repr

/-- What a test reads of an outcome. -/
def seen (o : Host.Outcome State Fault Refusal) : Option Seen :=
  match o with
  | .next t => some ⟨statusReg t, t.pulsecnt, t.settlecnt, t.laststat, t.pollcnt, dbufGet t 0, t.samples.length⟩
  | _ => none

/-- C1: POWERUP. -/
theorem test_powerup : seen (exec .powerup State.reset) = some ⟨0x002#32, 0#32, 0#32, 0#8, 0#19, 0#16, 0⟩ := by
  decide +kernel
/-- L2: SHUTDOWN's LINES. -/
theorem test_shutdown_lines : (match exec .shutdown State.reset with
    | .next t => linesReg t 0#32
    | _ => 0#32) = 0x0001011F#32 := by decide +kernel
/-- L3: POWERUP's LINES. -/
theorem test_powerup_lines : (match exec .powerup State.reset with
    | .next t => linesReg t 0#32
    | _ => 0#32) = 0x0000001F#32 := by decide +kernel
/-- C2: SHUTDOWN. -/
theorem test_shutdown : seen (exec .shutdown State.reset) = some ⟨0x002#32, 0#32, 0#32, 0#8, 0#19, 0#16, 0⟩ := by
  decide +kernel
/-- C3: CHECK. -/
theorem test_check :
    seen (exec .check (answered 0 .check)) = some ⟨0x202#32, 25#32, 2#32, 0xEA#8, 0#19, 0#16, 0⟩ := by
  decide +kernel
/-- X1: CHECK of a target that answers 0xFF. -/
theorem test_check_fails :
    seen (exec .check (fed (List.replicate 8 true))) = some ⟨0x220#32, 25#32, 2#32, 0xFF#8, 0#19, 0#16, 0⟩ := by
  decide +kernel
/-- C4: READW of 0x1200, which holds 0xBEEF. -/
theorem test_readw :
    seen (exec (.readw 0x1200#16) (answered 0 (.readw 0x1200#16))) =
      some ⟨0x202#32, 120#32, 6#32, 0xEA#8, 0#19, 0xBEEF#16, 0⟩ := by decide +kernel
/-- X3: READW whose address status is 0xEB: no word is read. -/
theorem test_readw_bad_address :
    seen (exec (.readw 0x1200#16) (fed (statusLevels ++ statusLevels ++
      [true, true, true, false, true, false, true, true]))) =
      some ⟨0x230#32, 91#32, 6#32, 0xEB#8, 0#19, 0#16, 0⟩ := by decide +kernel
/-- Program C's count: READN of 4 words takes 168 pulses. -/
theorem test_readn :
    seen (exec (.readn 0x11FF#16 3#5) (answered 0 (.readn 0x11FF#16 3#5))) =
      some ⟨0x202#32, 168#32, 6#32, 0xEA#8, 0#19, 0xFFFF#16, 0⟩ := by decide +kernel
/-- X12: WRITEW, ready at k = 3, then a status of 0. -/
theorem test_writew_bad_poll :
    seen (exec (.writew 0x1200#16) (fed ((List.replicate 4 statusLevels).flatten ++ [false, false, false, true] ++
      List.replicate 8 false))) = some ⟨0x250#32, 144#32, 8#32, 0x00#8, 4#19, 0#16, 0⟩ := by decide +kernel
/-- C8: WRITEW with k = 5. -/
theorem test_writew :
    seen (exec (.writew 0x1200#16) (answered 5 (.writew 0x1200#16))) =
      some ⟨0x202#32, 148#32, 8#32, 0xEA#8, 6#19, 0#16, 0⟩ := by decide +kernel
/-- Program C: WRITEN of 2 words with k = 0. -/
theorem test_writen :
    seen (exec (.writen 0x001F#16 1#5) (answered 0 (.writen 0x001F#16 1#5))) =
      some ⟨0x202#32, 184#32, 10#32, 0xEA#8, 1#19, 0#16, 0⟩ := by decide +kernel
/-- X7: WRITEN with N = 2 whose word 1 is answered badly. -/
theorem test_writen_bad_word :
    seen (exec (.writen 0#16 2#5) (fed ((List.replicate 4 statusLevels).flatten ++ List.replicate 8 false))) =
      some ⟨0x230#32, 173#32, 10#32, 0x00#8, 0#19, 0#16, 0⟩ := by decide +kernel
/-- R133 with k = 0: 102 pulses. -/
theorem test_eraseall :
    seen (exec .eraseall (answered 0 .eraseall)) = some ⟨0x202#32, 102#32, 6#32, 0xEA#8, 1#19, 0#16, 0⟩ := by
  decide +kernel
/-- Program B: ERASEPAGE with k = 5. -/
theorem test_erasepage :
    seen (exec (.erasepage 0x1234#16) (answered 5 (.erasepage 0x1234#16))) =
      some ⟨0x202#32, 107#32, 6#32, 0xEA#8, 6#19, 0#16, 0⟩ := by decide +kernel
/-- X13: ERASEPAGE, ready at k = 0, then 0xEB. -/
theorem test_erasepage_bad_poll :
    seen (exec (.erasepage 0#16) (fed ((List.replicate 3 statusLevels).flatten ++
      [true, true, true, true, false, true, false, true, true]))) =
      some ⟨0x250#32, 100#32, 6#32, 0xEB#8, 1#19, 0#16, 0⟩ := by decide +kernel
/-- C14: READID. -/
theorem test_readid :
    seen (exec .readid (answered 0 .readid)) = some ⟨0x202#32, 80#32, 4#32, 0xEA#8, 0#19, 0x2711#16, 0⟩ := by
  decide +kernel
/-- C16: UNLOCK from Unknown. -/
theorem test_unlock :
    seen (exec .unlock State.reset) = some ⟨0x002#32, 64#32, 0#32, 0#8, 0#19, 0#16, 0⟩ := by decide +kernel
/-- X14: an illegal word. -/
theorem test_illegal :
    seen (step (State.withFetchWord State.reset 32 0x0000000C)) =
      some ⟨0x010#32, 0#32, 0#32, 0#8, 0#19, 0#16, 0⟩ := by decide +kernel
/-- The step runs the word placed for it. -/
theorem test_step_runs_word :
    seen (step ((answered 0 .check).withFetchWord 32 0x00000003)) =
      some ⟨0x202#32, 25#32, 2#32, 0xEA#8, 0#19, 0#16, 0⟩ := by decide +kernel
/-- R3 and R12: a received word and status, bit order. -/
theorem test_recv_word :
    (run recvWordOps (accept 0x4#32 (fed [true, true, false, false, false, false, true, true, true, false, true, false,
      false, true, false, true]))).shift16 = 0xA5C3#16 := by decide +kernel
theorem test_recv_status :
    (run recvStatusOps (accept 0x4#32 (fed [false, true, false, true, false, true, true, true]))).laststat = 0x57#8 := by
  decide +kernel

/-! The window (95_test_vectors.md, H1 to H9). -/

/-- H3: a DBUF write stores the low half. -/
theorem test_dbuf_write :
    windowRead 0x40 0#32 (windowWrite 0x40 0x1234ABCD#32 State.reset) = 0x0000ABCD#32 := by decide +kernel
/-- H5 and H6: writes while busy. -/
theorem test_busy_writes :
    (windowWrite 0x00 0x3#32 (accept 0x8#32 State.reset)).ovr = true ∧
      (windowWrite 0x00 0x3#32 (accept 0x8#32 State.reset)).cmd = 0x8#32 ∧
      dbufGet (windowWrite 0x40 0x5555#32 (accept 0x8#32 State.reset)) 0 = 0#16 := by decide +kernel
/-- H7: an accept clears OVR, OK and CAUSE. -/
theorem test_accept_clears :
    statusReg (windowWrite 0x00 0x3#32 { State.reset with ovr := true, ok := true }) = 0x001#32 := by decide +kernel

/-! The reset input (R158, R159) and the mode invariant of a trace (R30). -/

/-- A CMD write while reset is asserted is no accept; the same write after its release is one. -/
theorem test_held_reset_drops_cmd :
    (match step { assertReset State.reset with pending := [⟨some 0, .write 0x00 4 0x3#32⟩] } with
      | .next t => t.cmd == 0#32 && !t.busy && t.resetAsserted
      | _ => false) = true ∧
      (match step { releaseReset (assertReset State.reset) with pending := [⟨some 0, .write 0x00 4 0x3#32⟩] } with
      | .next t => t.cmd == 0x3#32 && t.busy
      | _ => false) = true := by decide +kernel
/-- An assert in the middle of a Clk of ERASEALL: LINES reads no direction and no latch. -/
theorem test_reset_mid_pulse :
    (match step { accept 0x8#32 State.reset with pending := [⟨some 11, .assertReset⟩] } with
      | .next t => linesReg t 0#32 == 0#32 && t.trace.head? == some (.drive .clk true)
      | _ => false) = true := by decide +kernel
/-- A bit sent in Write with DAT an input breaks R30; after SetWriteMode it does not, nor one received after SetReadMode. -/
theorem test_mode_kept :
    modeKept (bitsOutEvents [true]) .write State.reset.ports = false ∧
      modeKept (writeModeEvents .read ++ bitsOutEvents [true]) .read State.reset.ports = true ∧
      modeKept (writeModeEvents .read ++ [.drive .pgm false] ++ bitsOutEvents [true]) .read State.reset.ports = true ∧
      modeKept (writeModeEvents .read ++ bitsOutEvents [true] ++ readModeEvents .write ++ bitsInEvents [true]) .read
        State.reset.ports = true ∧
      modeKept (writeModeEvents .read ++ [.setDir .dat .input] ++ clkEvents) .read State.reset.ports = false := by
  decide

/-! Witnesses: for each statement with hypotheses, states and operands that meet them. -/

/-- Good statuses, a poll ready at iteration `k`, and the poll's good status. -/
def polled (n k : Nat) : State :=
  fed ((List.replicate n statusLevels).flatten ++ ((List.replicate k false ++ [true]) ++ statusLevels))

/-- Good statuses, a poll ready at iteration `k`, and a bad status. -/
def polledBad (n k : Nat) : State :=
  fed ((List.replicate n statusLevels).flatten ++ ((List.replicate k false ++ [true]) ++ List.replicate 8 false))

/-- Good statuses, and no ready for `b` samples. -/
def starved (n b : Nat) : State := fed ((List.replicate n statusLevels).flatten ++ List.replicate b false)

/-- Good statuses, then a bad one. -/
def spoiled (n : Nat) : State := fed ((List.replicate n statusLevels).flatten ++ List.replicate 8 false)

theorem length_goods (n : Nat) : ((List.replicate n statusLevels).flatten).length = 8 * n := by
  simp [statusLevels, Nat.mul_comm]

theorem polled_meets (n k : Nat) :
    statusesGood (polled n k) n ∧ readyAt (polled n k) (8 * n) k ∧ statusGood (polled n k) (8 * n + k + 1) = true := by
  have h : (polled n k).samples =
      ((List.replicate n statusLevels).flatten ++ ((List.replicate k false ++ [true]) ++ statusLevels)).map
        TargetLevel.drives ++ [] := by simp [polled, fed]
  refine ⟨statusesGood_of_levels _ n _ [] h, ?_, ?_⟩
  · have := readyAt_of_levels _ _ _ k [] h
    rwa [length_goods] at this
  · have := statusGood_of_levels (polled n k) ((List.replicate n statusLevels).flatten ++ (List.replicate k false ++ [true]))
      [] [] (by rw [h]; simp)
    rwa [List.length_append, length_goods, List.length_append, List.length_replicate, List.length_singleton,
      ← Nat.add_assoc] at this

theorem polledBad_meets (n k : Nat) :
    statusesGood (polledBad n k) n ∧ readyAt (polledBad n k) (8 * n) k ∧
      statusGood (polledBad n k) (8 * n + k + 1) = false := by
  have h : (polledBad n k).samples =
      ((List.replicate n statusLevels).flatten ++ ((List.replicate k false ++ [true]) ++ List.replicate 8 false)).map
        TargetLevel.drives ++ [] := by simp [polledBad, fed]
  refine ⟨statusesGood_of_levels _ n _ [] h, ?_, ?_⟩
  · have := readyAt_of_levels _ _ _ k [] h
    rwa [length_goods] at this
  · have := statusBad_of_levels (polledBad n k)
      ((List.replicate n statusLevels).flatten ++ (List.replicate k false ++ [true])) [] []
      (by rw [h]; simp only [List.append_nil, List.append_assoc])
    rwa [List.length_append, length_goods, List.length_append, List.length_replicate, List.length_singleton,
      ← Nat.add_assoc] at this

theorem starved_meets (n b : Nat) : statusesGood (starved n b) n ∧ neverReady (starved n b) (8 * n) b := by
  refine ⟨statusesGood_of_levels _ n (List.replicate b false) [] (by simp [starved, fed]), ?_⟩
  have := neverReady_of_levels (starved n b) (List.replicate n statusLevels).flatten [] b [] (by simp only [starved, fed, List.append_nil])
  rwa [length_goods] at this

theorem spoiled_meets (n : Nat) : statusesGood (spoiled n) n ∧ statusGood (spoiled n) (8 * n) = false := by
  refine ⟨statusesGood_of_levels _ n (List.replicate 8 false) [] (by simp [spoiled, fed]), ?_⟩
  have := statusBad_of_levels (spoiled n) (List.replicate n statusLevels).flatten [] [] (by simp only [spoiled, fed, List.append_nil])
  rwa [length_goods] at this

/-- A busy state in each MODE, from reset. -/
def busyIn (m : Mode) : State := { accept 0x3#32 State.reset with mode := m }

theorem test_witness_EncodedCommandDecodesBack : (Instr.readn 0xFFFF#16 31#5).wellFormed = true := by decide
theorem test_witness_IllegalWordsRunNothing :
    ¬legalWord 0x0000000C#32 ∧ ¬legalWord 0x00010008#32 ∧ legalWord 0xFFFF1F05#32 ∧
      decode 0x3#32 = .ok .check ∧ State.reset.resetAsserted = false ∧ nothingLands State.reset = true := by
  unfold legalWord; decide
theorem test_witness_StepRunsTheAcceptedCommand :
    (accept 0x3#32 State.reset).resetAsserted = false ∧ (accept 0x3#32 State.reset).busy = true ∧
      (accept 0x3#32 State.reset).seq = .running 3#4 0 0 ∧
      nothingLands (accept 0x3#32 State.reset) = true ∧ Instr.check.wellFormed = true ∧
      decode (accept 0x3#32 State.reset).cmd = .ok .check := by decide +kernel
theorem test_witness_AcceptLatchesAndClears :
    ({ State.reset with pending := [⟨some 0, .write 0x00 4 0x3#32⟩] } : State).busy = false ∧
      State.reset.resetAsserted = false ∧ nothingLands (accept 0x3#32 State.reset) = true ∧ decode 0x3#32 = .ok .check ∧ ¬legalWord 0x0#32 := by
  unfold legalWord; decide +kernel
/-- For BusyWritesAreDropped, BusyAccessesDoNotChangeTheRun and ClkIsOnePulse. -/
theorem test_witness_busy : (accept 0x8#32 State.reset).busy = true := rfl
/-- A running command, an idle state and a held reset that keep the invariant, and step on. -/
theorem test_witness_Inv_busy : Inv (accept 0x3#32 (fed statusLevels)) := by
  constructor <;> first
    | decide +kernel
    | (constructor <;> decide +kernel)
    | exact pulsesFollowMode_of_restSafe _ (fun c k j h => by cases h; exact programOf_safe .check _ (by decide) rfl)
theorem test_witness_Inv_idle : Inv { State.reset with ok := true } := by
  constructor <;> first
    | decide +kernel
    | (constructor <;> decide +kernel)
    | exact pulsesFollowMode_idle _ rfl
theorem test_witness_Inv_held : Inv (assertReset State.reset) := by
  constructor <;> first
    | decide +kernel
    | (constructor <;> decide +kernel)
    | exact pulsesFollowMode_idle _ rfl
theorem test_witness_Inv_steps :
    step (accept 0x3#32 (fed statusLevels)) = exec .check (accept 0x3#32 (fed statusLevels)) ∧
      step { State.reset with ok := true } = .next { State.reset with ok := true } ∧
      step (assertReset State.reset) = .next (assertReset State.reset) := ⟨rfl, rfl, rfl⟩
theorem test_witness_EveryListedCauseOccurs : Cause.pollStatus ∈ causesOf .eraseall := by decide
theorem test_witness_ResetAbortsARunningCommand :
    ({ accept 0x8#32 State.reset with pending := [⟨some 7, .assertReset⟩] } : State).busy = true ∧
      ({ accept 0x8#32 State.reset with pending := [⟨some 7, .assertReset⟩] } : State).resetAsserted = false ∧
      ({ State.reset with pending := [⟨none, .assertReset⟩] } : State).busy = false ∧
      ({ assertReset State.reset with pending := [⟨some 0, .write 0x00 4 0x3#32⟩] } : State).resetAsserted = true ∧
      step { assertReset State.reset with pending := [⟨some 0, .releaseReset⟩] } = .next State.reset :=
  ⟨rfl, rfl, rfl, rfl, rfl⟩
theorem test_witness_EveryPulseFindsDatAsModeSays :
    State.reset.mode = .unknown ∧
      (({ State.reset with mode := .read } : State).mode = .read ∧
        ({ State.reset with mode := .read } : State).ports.dat.dir = .input) ∧
      startsPulse (advance 10 (accept 0x3#32 State.reset)) = true := by decide +kernel
theorem test_witness_LinesFieldsAtTheirBits :
    (portOf State.reset.ports .dat).dir = .input ∧ (portOf (shutdownState State.reset).ports .dat).dir = .output ∧
      (portOf (shutdownState State.reset).ports .pwrN).dir = .output ∧
      ((Line.dat, 4) : Line × Nat) ∈ [(Line.pwrN, 0), (Line.clk, 1), (Line.oe, 2), (Line.pgm, 3), (Line.dat, 4)] := by
  decide
theorem test_witness_WindowReadsFollowTheMap :
    windowRead 0x20 0#32 State.reset = 0#32 ∧ windowRead 0x3C 0#32 State.reset = 0#32 ∧
      windowRead 0xC0 0#32 State.reset = 0#32 ∧ windowRead 0xBC 5#32 (accept 0x8#32 State.reset) = 5#32 ∧
      windowRead 0xBC 5#32 State.reset = 0#32 := by decide +kernel
theorem test_witness_DbufWriteReadsBack :
    State.reset.busy = false ∧ dbufGet (windowWrite 0xBC 0xFFFF7777#32 State.reset) 31 = 0x7777#16 ∧
      dbufGet (windowWrite 0xBC 0xFFFF7777#32 State.reset) 30 = 0#16 := by decide +kernel
/-- For ReadsHaveNoSideEffect and UnsupportedAccessesAreRefused. -/
theorem test_witness_accesses : (0xBC % 4 = 0) ∧ (1 ≠ 4 ∨ 0x00 % 4 ≠ 0) ∧ (4 ≠ 4 ∨ 0x02 % 4 ≠ 0) := by decide
/-- For ModeChangesReconfigureTheLines and ModePrimitivesFollowTheTable: busy in each MODE. -/
theorem test_witness_modes :
    ∀ m, (busyIn m).busy = true ∧ (busyIn m).mode = m := fun _ => ⟨rfl, rfl⟩
theorem test_witness_FramesGoOutMsbFirstWithComplement :
    statusByte (fed statusLevels) 0 = 0xEA#8 ∧ statusByte (spoiled 0) 0 ≠ 0xEA#8 := by decide +kernel
/-- For ReceivedWordIsLsbFirst and StatusByteIsMsbFirst. -/
theorem test_witness_receptions :
    (busyIn .unknown).busy = true ∧ ((busyIn .unknown).mode = .read → (busyIn .unknown).ports.dat.dir = .input) ∧
      (busyIn .read).busy = true ∧ ((busyIn .read).mode = .read → (busyIn .read).ports.dat.dir = .input) := by decide
/-- A poll of budget 0x800 ready at its first and at its last iteration, one of budget 0, and one of no ready. -/
theorem test_witness_PollEndsAtTheFirstReadyOrTheBudget :
    (∀ n k, ({ polled n k with busy := true, mode := .read } : State).ports.dat.dir = .input) ∧
      readyAt { polled 0 0 with busy := true, mode := .read } 0 0 ∧
      readyAt { polled 0 0x7FF with busy := true, mode := .read } 0 0x7FF ∧
      neverReady { starved 0 0x800 with busy := true, mode := .read } 0 0x800 ∧
      neverReady { starved 0 0 with busy := true, mode := .read } 0 0 :=
  ⟨fun _ _ => rfl, (polled_meets 0 0).2.1, (polled_meets 0 0x7FF).2.1, (starved_meets 0 0x800).2, (starved_meets 0 0).2⟩
theorem test_witness_CheckCompletes :
    statusByte (fed statusLevels) 0 = 0xEA#8 ∧ statusByte (fed (List.replicate 8 true)) 0 ≠ 0xEA#8 := by
  decide +kernel
theorem test_witness_ReadWordSucceeds :
    statusesGood (answered 0 (.readw 0x1200#16)) 3 ∧ statusGood (answered 0 (.readw 0x1200#16)) 40 = true := by
  unfold statusesGood; decide +kernel
theorem test_witness_ReadWordsSucceeds :
    statusesGood (answered 0 (.readn 0x1200#16 0#5)) 3 ∧
      statusGood (answered 0 (.readn 0x1200#16 0#5)) (24 + 16 * 1) = true ∧
      statusesGood (answered 0 (.readn 0x1200#16 31#5)) 3 ∧
      statusGood (answered 0 (.readn 0x1200#16 31#5)) (24 + 16 * 32) = true := by
  unfold statusesGood; decide +kernel
theorem test_witness_ReadChipIdSucceeds :
    statusesGood (answered 0 .readid) 2 ∧ statusGood (answered 0 .readid) 32 = true := by
  unfold statusesGood; decide +kernel
theorem test_witness_WriteWordSucceeds (k : Nat) (_ : k < 0x800) :
    statusesGood (polled 4 k) 4 ∧ readyAt (polled 4 k) 32 k ∧ statusGood (polled 4 k) (33 + k) = true := by
  have := polled_meets 4 k
  rwa [show 8 * 4 + k + 1 = 33 + k by omega] at this
theorem test_witness_WriteWordsSucceeds (n : Count) (k : Nat) (_ : k < 0x800) :
    statusesGood (polled (n.toNat + 4) k) (n.toNat + 4) ∧
      readyAt (polled (n.toNat + 4) k) (24 + 8 * (n.toNat + 1)) k ∧
      statusGood (polled (n.toNat + 4) k) (25 + 8 * (n.toNat + 1) + k) = true := by
  have := polled_meets (n.toNat + 4) k
  rwa [show 8 * (n.toNat + 4) + k + 1 = 25 + 8 * (n.toNat + 1) + k by omega,
    show 8 * (n.toNat + 4) = 24 + 8 * (n.toNat + 1) by omega] at this
/-- For EraseAllSucceeds and ErasePageSucceeds, at every iteration, the first and the last of the budget among them. -/
theorem test_witness_Erases (k : Nat) :
    statusesGood (polled 3 k) 3 ∧ readyAt (polled 3 k) 24 k ∧ statusGood (polled 3 k) (25 + k) = true := by
  have := polled_meets 3 k
  rwa [show 8 * 3 + k + 1 = 25 + k by omega] at this
theorem test_witness_FailedCheckEndsEveryChipCommand :
    isChipCommand .eraseall = true ∧ statusByte (spoiled 0) 0 ≠ 0xEA#8 ∧ isChipCommand .unlock = false := by
  decide +kernel
theorem test_witness_BadOpcodeStatusEndsTheCommand :
    isChipCommand .readid = true ∧ statusGood (spoiled 1) 0 = true ∧ statusGood (spoiled 1) 8 = false :=
  ⟨rfl, (spoiled_meets 1).1 0 (by decide), (spoiled_meets 1).2⟩
theorem test_witness_BadAddressStatusEndsTheCommand :
    isChipCommand .eraseall = true ∧ statusesGood (spoiled 2) 2 ∧ statusGood (spoiled 2) 16 = false :=
  ⟨rfl, spoiled_meets 2⟩
/-- A bad final status after one word, after 32 words, and after the ID word (the words are zeros). -/
theorem test_witness_BadFinalStatusOfReadsKeepsTheWords :
    (statusesGood (starved 3 24) 3 ∧ statusGood (starved 3 24) 40 = false) ∧
      (statusesGood (starved 3 520) 3 ∧ statusGood (starved 3 520) (24 + 16 * 32) = false) ∧
      (statusesGood (starved 2 24) 2 ∧ statusGood (starved 2 24) 32 = false) := by
  refine ⟨⟨(starved_meets 3 24).1, ?_⟩, ⟨(starved_meets 3 520).1, ?_⟩, ⟨(starved_meets 2 24).1, ?_⟩⟩ <;> decide +kernel
theorem test_witness_BadWordStatusEndsTheWrite (j : Nat) :
    statusesGood (spoiled (j + 3)) (j + 3) ∧ statusGood (spoiled (j + 3)) (8 * (j + 3)) = false :=
  spoiled_meets (j + 3)
theorem test_witness_PollTimeoutEndsTheCommand :
    (statusesGood (starved 4 0x800) (pollStart (.writew 0#16) / 8) ∧
      neverReady (starved 4 0x800) (pollStart (.writew 0#16)) 0x800) ∧
      (statusesGood (starved 35 0x800) (pollStart (.writen 0#16 31#5) / 8) ∧
        neverReady (starved 35 0x800) (pollStart (.writen 0#16 31#5)) 0x800) ∧
      (statusesGood (starved 3 0x60000) (pollStart .eraseall / 8) ∧
        neverReady (starved 3 0x60000) (pollStart .eraseall) 0x60000) ∧
      budgetOf .eraseall = some 0x60000 ∧ budgetOf (.erasepage 0#16) = some 0x9600 ∧
      budgetOf (.writew 0#16) = some 0x800 ∧ budgetOf (.writen 0#16 31#5) = some 0x800 :=
  ⟨starved_meets 4 0x800, starved_meets 35 0x800, starved_meets 3 0x60000, rfl, rfl, rfl, rfl⟩
theorem test_witness_BadPollStatusEndsTheCommand (k : Nat) (_ : k < 0x9600) :
    statusesGood (polledBad 3 k) (pollStart (.erasepage 0#16) / 8) ∧
      readyAt (polledBad 3 k) (pollStart (.erasepage 0#16)) k ∧
      statusGood (polledBad 3 k) (pollStart (.erasepage 0#16) + k + 1) = false :=
  polledBad_meets 3 k
theorem test_witness_InternalRegistersDoNotMatter :
    State.reset ≠ { State.reset with shift16 := 1#16, ready := true } ∧
      forgetInternals State.reset = forgetInternals { State.reset with shift16 := 1#16, ready := true } := by
  decide +kernel
/-- After POWERUP the four lines are driven; the next step serves a read, and one that runs a command interrupted by a
host write is meant too. -/
theorem test_witness_DrivenLinesStayDriven :
    LinesDriven (powerUpState State.reset) ∧ (powerUpState State.reset).resetAsserted = false ∧
      resetIsNext (powerUpState State.reset) = false ∧
      resetIsNext { accept 0x3#32 (powerUpState State.reset) with pending := [⟨none, .assertReset⟩] } = true ∧
      nothingLands { accept 0x3#32 (powerUpState State.reset) with pending := [⟨none, .assertReset⟩] } = true :=
  ⟨⟨rfl, rfl, rfl, rfl⟩, rfl, rfl, rfl, rfl⟩
/-- For ReferenceTargetMakesEveryCommandSucceed and WrittenWordReadsBack. -/
theorem test_witness_ReferenceTarget :
    (rtOf 0x7FF).delay < 0x800 ∧ (rtOf 0x5FFFF).delay < 0x60000 ∧ targetWf (rtOf 0x7FF).mem = true := by
  decide +kernel

end Sys2Proof.Tests
end

section
/-! PROOFS. A command and its run: the engine at an accepted word (O4), the sequencer stopped and let run on (O7), and the
counters, the samples and the ports of a command beside its line trace (O48). -/

namespace Sys2Proof.Machine

open Sys2Proof

/-! ## The accepted word -/

/-- CODE and the operands of a command's word name the command (R79, R81). -/
theorem commandOf_fields (i : Instr) : commandOf i.fields = some i := by
  cases i <;> rfl

/-- The word of a command decodes to the command (R78 to R80). -/
theorem decode_encode (i : Instr) : decode (encode i) = .ok i := by
  have hlegal := fields_legal i
  simp only [Cmdw.legal, Bool.and_eq_true] at hlegal
  obtain ⟨⟨⟨_, hrsv⟩, hcount⟩, haddr⟩ := hlegal
  simp [decode, splitWord_encode, decodeFields, commandOf_fields, hrsv, hcount, haddr]

theorem programAt_of_decode (s : State) (i : Instr) (h : decode s.cmd = .ok i) : programAt s = programOf i := by
  simp [programAt, h]

theorem programAt_ne_nil (s : State) : programAt s ≠ [] := by
  obtain ⟨p, m, hp, _⟩ := programAt_ends s
  simp [hp]

/-! ## One step at an accepted word -/

/-- While BUSY = 1 and nothing lands, the turn is the engine's (R7, R21). -/
theorem nextTurn_of_nothingLands (s : State) (hb : s.busy = true) (hn : nothingLands s = true) :
    nextTurn s = engineTurn s := by
  unfold nothingLands at hn
  unfold nextTurn
  split at hn
  · rename_i hp; simp [hp, hb]
  · rename_i hp; simp [hp, hb]
  · cases hn

/-- At the start of a command's list, the engine's turn is the meaning of the accepted word (R124). -/
theorem engineTurn_of_decode (s : State) (c : Code) (i : Instr) (hq : s.seq = .running c 0 0)
    (hd : decode s.cmd = .ok i) : engineTurn s = exec i s := by
  simp [engineTurn, fetch, hq, hd]

/-- Settles O4: with the reset input released the step is a turn, with nothing landing the turn is the engine's, and that
is the meaning of the accepted word. -/
theorem stepRunsTheAcceptedCommand : Obligations.StepRunsTheAcceptedCommand := by
  intro s c i hr hb hq hn _ hd
  calc step s = nextTurn s := step_released s hr
    _ = engineTurn s := nextTurn_of_nothingLands s hb hn
    _ = exec i s := engineTurn_of_decode s c i hq hd

/-! ## A run that is stopped and goes on -/

/-- At the start of a tick nothing is left of it. -/
@[simp] theorem restOfTick_zero (prog : List Micro) (k : Nat) : restOfTick prog k 0 = [] := by
  unfold restOfTick
  split <;> rfl

/-- From the start of its list, running on is running the list. -/
theorem finish_of_start (s : State) (c : Code) (hq : s.seq = .running c 0 0) : finish s = run (programAt s) s := by
  simp [finish, hq, run_nil]

/-- From the start of its list, the accepted command comes to its end (R17). -/
theorem finish_of_start_ends (s : State) (c : Code) (hq : s.seq = .running c 0 0) : (finish s).busy = false := by
  have hlen : 0 < (programAt s).length := List.length_pos_iff.mpr (programAt_ne_nil s)
  rw [finish_of_start s c hq]
  exact run_drop_ends s s 0 hlen

/-- The meaning of a command, in the state the accept of its word leaves, is running on from there (R21, R124). -/
theorem exec_accept_encode (i : Instr) (s : State) :
    exec i (accept (encode i) s) = .next (finish (accept (encode i) s)) := by
  have hprog : programAt (accept (encode i) s) = programOf i := programAt_of_decode _ i (decode_encode i)
  rw [exec_eq_run, dispatch_accept, finish_of_start _ _ rfl, hprog]

/-- Settles O7: running on from the accept is the command's meaning, and `finish_advance` says, by induction on the number
of sequencer steps taken first, that they change nothing of where the run ends. -/
theorem interruptedRunEndsAsTheWholeRun : Obligations.InterruptedRunEndsAsTheWholeRun := by
  intro s i n
  rw [exec_accept_encode, finish_advance n _ (finish_of_start_ends _ _ rfl)]

/-! ## What a trace counts -/

theorem pulsesOf_append (es fs : List LineEvent) : pulsesOf (es ++ fs) = pulsesOf es + pulsesOf fs := by
  induction es using pulsesOf.induct with
  | case1 => simp [pulsesOf]
  | case2 es ih => simp only [List.cons_append, pulsesOf, ih]; omega
  | case3 e es he ih => simp [pulsesOf, ih]

theorem settlesOf_append (es fs : List LineEvent) : settlesOf (es ++ fs) = settlesOf es + settlesOf fs := by
  induction es using settlesOf.induct with
  | case1 => simp [settlesOf]
  | case2 es ih => simp only [List.cons_append, settlesOf, ih]; omega
  | case3 e es he ih => simp [settlesOf, ih]

theorem samplesOf_append (es fs : List LineEvent) : samplesOf (es ++ fs) = samplesOf es + samplesOf fs := by
  induction es using samplesOf.induct with
  | case1 => simp [samplesOf]
  | case2 l b es ih => simp only [List.cons_append, samplesOf, ih]; omega
  | case3 e es he ih => simp [samplesOf, ih]

/-- From `s` to `t` the primitives `es` were performed, and the counters, the samples used up and the ports are theirs
(R16, R25, R41, R42). -/
structure Performed (es : List LineEvent) (s t : State) : Prop where
  trace : t.trace = es.reverse ++ s.trace
  pulsecnt : t.pulsecnt = s.pulsecnt + BitVec.ofNat 32 (pulsesOf es)
  settlecnt : t.settlecnt = s.settlecnt + BitVec.ofNat 32 (settlesOf es)
  samples : t.samples = s.samples.drop (samplesOf es)
  sampleDraws : t.sampleDraws = s.sampleDraws + samplesOf es
  ports : t.ports = replayPorts es s.ports

/-- Some list of primitives leads from `s` to `t` and accounts for its counters, samples and ports. -/
def Accounted (s t : State) : Prop := ∃ es, Performed es s t

theorem Performed.append {es fs : List LineEvent} {s t u : State} (h : Performed es s t) (k : Performed fs t u) :
    Performed (es ++ fs) s u where
  trace := by simp [k.trace, h.trace]
  pulsecnt := by simp [k.pulsecnt, h.pulsecnt, pulsesOf_append, BitVec.ofNat_add, BitVec.add_assoc]
  settlecnt := by simp [k.settlecnt, h.settlecnt, settlesOf_append, BitVec.ofNat_add, BitVec.add_assoc]
  samples := by simp [k.samples, h.samples, samplesOf_append]
  sampleDraws := by simp [k.sampleDraws, h.sampleDraws, samplesOf_append, Nat.add_assoc]
  ports := by simp [k.ports, h.ports, replayPorts_append]

theorem Accounted.trans {s t u : State} (h : Accounted s t) (k : Accounted t u) : Accounted s u := by
  obtain ⟨es, h⟩ := h
  obtain ⟨fs, k⟩ := k
  exact ⟨es ++ fs, h.append k⟩

/-- The state with everything cleared that neither stands on the lines, nor is counted, nor is MODE. -/
def lineSide (s : State) : State :=
  { State.reset with
    ports := s.ports
    mode := s.mode
    pulsecnt := s.pulsecnt
    settlecnt := s.settlecnt
    trace := s.trace
    samples := s.samples
    sampleDraws := s.sampleDraws }

@[simp] theorem lineSide_failCommand (c : Cause) (s : State) : lineSide (failCommand c s) = lineSide s := rfl

@[simp] theorem lineSide_succeedCommand (s : State) : lineSide (succeedCommand s) = lineSide s := rfl

/-- What leaves the line side as it is performs no primitive. -/
theorem Accounted.of_lineSide {s t : State} (h : lineSide t = lineSide s) : Accounted s t :=
  ⟨[], {
    trace := (congrArg State.trace h :)
    pulsecnt := by simpa [pulsesOf, lineSide] using congrArg State.pulsecnt h
    settlecnt := by simpa [settlesOf, lineSide] using congrArg State.settlecnt h
    samples := (congrArg State.samples h :)
    sampleDraws := (congrArg State.sampleDraws h :)
    ports := (congrArg State.ports h :) }⟩

/-! ## The primitives -/

theorem clkPulse_accounted (s : State) : Accounted s (clkPulse s) :=
  ⟨clkEvents, rfl, rfl, by simp [settlesOf, clkEvents], rfl, rfl, rfl⟩

/-- A line other than CLK driven: no pulse (R102). -/
theorem drive_accounted (l : Line) (b : Bool) (s : State) (hl : l ≠ .clk) : Accounted s (drive l b s) := by
  have hp : pulsesOf [.drive l b] = 0 := by
    cases l with
    | clk => exact absurd rfl hl
    | _ => rfl
  exact ⟨[.drive l b], rfl, by simp [hp], by simp [settlesOf], rfl, rfl, rfl⟩

/-- A sample of DAT as an input, whatever register its bit goes to, uses up one level (R27). -/
theorem sample_accounted {s t : State} (hi : s.ports.dat.dir = .input) (ht : lineSide t = lineSide (afterSample s)) :
    Accounted s t := by
  have hs : Accounted s (afterSample s) :=
    ⟨[.sample .dat (upcoming s 0)], afterSample_trace s hi, by simp [pulsesOf], by simp [settlesOf],
      by simp [afterSample_samples s hi, samplesOf], afterSample_sampleDraws s hi, by simp [replayPorts]⟩
  exact hs.trans (.of_lineSide ht)

theorem setWriteMode_accounted (s : State) : Accounted s (setWriteMode s) := by
  unfold setWriteMode
  split
  · exact .of_lineSide rfl
  · exact ⟨[.drive .dat false, .setDir .dat .output, .drive .clk false, .drive .oe false, .drive .pgm true,
      .sleep .settle], rfl, by simp [pulsesOf], rfl, rfl, rfl, rfl⟩

theorem setReadMode_accounted (s : State) : Accounted s (setReadMode s) := by
  unfold setReadMode
  split
  · exact .of_lineSide rfl
  · exact ⟨[.setDir .dat .input, .drive .clk false, .drive .oe false, .drive .pgm false, .sleep .settle], rfl,
      by simp [pulsesOf], rfl, rfl, rfl, rfl⟩

theorem enterWriteData_accounted (s : State) : Accounted s (enterWriteData s) :=
  ⟨[.drive .pgm false], rfl, by simp [pulsesOf], by simp [settlesOf], rfl, rfl, rfl⟩

theorem powerUpState_accounted (s : State) : Accounted s (powerUpState s) :=
  ⟨powerUpEvents, rfl, by simp [powerUpState_eq, pulsesOf, powerUpEvents, shutdownEvents],
    by simp [powerUpState_eq, settlesOf, powerUpEvents, shutdownEvents], rfl, rfl, rfl⟩

theorem shutdownState_accounted (s : State) : Accounted s (shutdownState s) :=
  ⟨shutdownEvents, rfl, by simp [shutdownState_eq, pulsesOf, shutdownEvents],
    by simp [shutdownState_eq, settlesOf, shutdownEvents], rfl, rfl, rfl⟩

/-! ## The loops of bits and pulses -/

/-- A loop is accounted for when each pass is, from the states `P` that the passes keep. -/
theorem loopState_accounted_of (P : State → Prop) {g : Nat → State → State} (hP : ∀ j u, P u → P (g j u))
    (hg : ∀ j u, P u → Accounted u (g j u)) (n : Nat) {s : State} (hs : P s) : Accounted s (loopState n g s) := by
  have hall : ∀ n, P (loopState n g s) := fun n => by
    induction n with
    | zero => exact hs
    | succ n ih => exact hP n _ ih
  induction n with
  | zero => exact .of_lineSide rfl
  | succ n ih => exact ih.trans (hg n _ (hall n))

theorem loopState_accounted {g : Nat → State → State} (hg : ∀ j u, Accounted u (g j u)) (n : Nat) (s : State) :
    Accounted s (loopState n g s) :=
  loopState_accounted_of (fun _ => True) (fun _ _ _ => trivial) (fun j u _ => hg j u) n trivial

/-- The number of a bit noted, OE driven, a pulse: one bit sent (R84). -/
theorem bitOut_accounted (j : Nat) (b : Bool) (s : State) : Accounted s (clkPulse (drive .oe b (setBit j s))) :=
  have hbit : Accounted s (setBit j s) := .of_lineSide rfl
  (hbit.trans (drive_accounted .oe b _ (by decide))).trans (clkPulse_accounted _)

/-- The number of a bit noted, a pulse, a sample: one bit received (R84). -/
theorem bitIn_accounted {j : Nat} {s t : State} (hi : s.ports.dat.dir = .input)
    (ht : lineSide t = lineSide (afterSample (clkPulse (setBit j s)))) : Accounted s t :=
  have hbit : Accounted s (setBit j s) := .of_lineSide rfl
  (hbit.trans (clkPulse_accounted _)).trans (sample_accounted (by simpa using hi) ht)

theorem statusBits_accounted (n : Nat) {s : State} (hi : s.ports.dat.dir = .input) :
    Accounted s (loopState n statusBit s) :=
  loopState_accounted_of (·.ports.dat.dir = .input) (fun _ _ hu => by simpa [statusBit] using hu)
    (fun _ _ hu => (bitIn_accounted hu rfl : Accounted _ (statusBit _ _))) n hi

theorem wordBits_accounted (n : Nat) {s : State} (hi : s.ports.dat.dir = .input) :
    Accounted s (loopState n wordBit s) :=
  loopState_accounted_of (·.ports.dat.dir = .input) (fun _ _ hu => by simpa [wordBit] using hu)
    (fun _ _ hu => (bitIn_accounted hu rfl : Accounted _ (wordBit _ _))) n hi

theorem pulses_accounted (n : Nat) (s : State) : Accounted s (pulses n s) :=
  loopState_accounted (fun _ => clkPulse_accounted) n s

theorem pollTicks_accounted (n : Nat) (s : State) (hi : s.ports.dat.dir = .input) : Accounted s (pollTicks n s) := by
  induction n generalizing s with
  | zero => exact .of_lineSide rfl
  | succ n ih =>
    unfold pollTicks
    split
    · exact .of_lineSide rfl
    · have htick : Accounted s (pollTick s) :=
        (clkPulse_accounted s).trans (sample_accounted (by simpa using hi) rfl)
      exact htick.trans (ih _ (by simpa [pollTick] using hi))

theorem unlockBit_accounted (pair : Byte × Byte) (j : Nat) (s : State) : Accounted s (unlockBit pair j s) :=
  have hbit : Accounted s (setBit j s) := .of_lineSide rfl
  ((hbit.trans (drive_accounted .pgm _ _ (by decide))).trans (drive_accounted .oe _ _ (by decide))).trans
    (clkPulse_accounted _)

theorem unlockPairs_accounted (n : Nat) (s : State) : Accounted s (loopState n unlockPair s) :=
  loopState_accounted (fun _ => loopState_accounted (unlockBit_accounted _) 8) n s

/-! ## The phases -/

/-- DAT is an input where MODE is Read (R30): from there on every sample uses up a level. -/
def ReadsAsInput (s : State) : Prop := s.mode = .read → s.ports.dat.dir = .input

theorem recvStatus_accounted {s : State} (h : ReadsAsInput s) : Accounted s (recvStatus s) := by
  have hbits := (setReadMode_accounted s).trans (statusBits_accounted 8 (setReadMode_input s h))
  exact (hbits.trans (clkPulse_accounted _)).trans (.of_lineSide rfl)

theorem sendOpcode_accounted (src : OpcodeSrc) (s : State) : Accounted s (sendOpcode src s) :=
  have hbits := (setWriteMode_accounted s).trans (loopState_accounted (fun j u => bitOut_accounted j _ u) 16 _)
  hbits.trans (recvStatus_accounted (sendOpcode_enters src s))

theorem sendValue_accounted (src : ValueSrc) (s : State) : Accounted s (sendValue src s) :=
  have hmode := (setWriteMode_accounted s).trans (enterWriteData_accounted _)
  have hbits := hmode.trans (loopState_accounted (fun j u => bitOut_accounted j _ u) 32 _)
  hbits.trans (recvStatus_accounted (sendValue_enters src s))

theorem recvWord_accounted {s : State} (h : ReadsAsInput s) : Accounted s (recvWord s) :=
  (setReadMode_accounted s).trans (wordBits_accounted 16 (setReadMode_input s h))

theorem pollWait_accounted (budget : Nat) {s : State} (h : ReadsAsInput s) : Accounted s (pollWait budget s) := by
  have hstart : Accounted s (startPoll (setReadMode s)) := (setReadMode_accounted s).trans (.of_lineSide rfl)
  exact (hstart.trans (pollTicks_accounted budget _ (setReadMode_input s h))).trans (.of_lineSide rfl)

theorem pollStatus_accounted {s : State} (hi : s.ports.dat.dir = .input) : Accounted s (pollStatus s) :=
  (statusBits_accounted 8 hi).trans (.of_lineSide rfl)

/-! ## Lists of operations -/

/-- The run of a list is accounted for from the states `P`, and leaves DAT an input where MODE is Read. -/
def Accounts (P : State → Prop) (p : List Micro) : Prop := ∀ s, P s → Accounted s (run p s) ∧ ReadsAsInput (run p s)

theorem Accounts.append {P : State → Prop} {p q : List Micro} (hp : Accounts P p) (hq : Accounts ReadsAsInput q) :
    Accounts P (p ++ q) := by
  intro s hs
  obtain ⟨hrun, hread⟩ := hp s hs
  obtain ⟨hrun', hread'⟩ := hq _ hread
  rw [run_append]
  exact ⟨hrun.trans hrun', hread'⟩

theorem repeatOps_succ (n : Nat) (f : Nat → List Micro) : repeatOps (n + 1) f = repeatOps n f ++ f n := by
  simp [repeatOps, List.range_succ]

theorem Accounts.repeatOps {f : Nat → List Micro} (hf : ∀ j, Accounts ReadsAsInput (f j)) (n : Nat) :
    Accounts ReadsAsInput (repeatOps n f) := by
  induction n with
  | zero => exact fun s hs => ⟨.of_lineSide rfl, hs⟩
  | succ n ih =>
    rw [repeatOps_succ]
    exact ih.append (hf n)

/-- An idle engine runs nothing, so a list has to be accounted for from a busy one only (R144). -/
theorem accounts_of_busy {p : List Micro} (h : Accounts (fun s => s.busy = true ∧ ReadsAsInput s) p) :
    Accounts ReadsAsInput p := by
  intro s hs
  cases hb : s.busy with
  | true => exact h s ⟨hb, hs⟩
  | false => rw [run_idle p s hb]; exact ⟨.of_lineSide rfl, hs⟩

/-- A state with the line side of an accounted one is accounted for as well. -/
theorem accounted_of_phase {s t u : State} (ht : lineSide t = lineSide u) (hu : Accounted s u) (hr : ReadsAsInput u) :
    Accounted s t ∧ ReadsAsInput t := by
  have hmode : t.mode = u.mode := (congrArg State.mode ht :)
  have hports : t.ports = u.ports := (congrArg State.ports ht :)
  refine ⟨hu.trans (.of_lineSide ht), ?_⟩
  unfold ReadsAsInput at hr ⊢
  rwa [hmode, hports]

/-- An operation that leaves the line side as it is. -/
theorem accounts_of_lineSide {m : Micro} (hm : ∀ s, lineSide (execMicro m s) = lineSide s) :
    Accounts ReadsAsInput [m] := by
  refine accounts_of_busy fun s ⟨hb, hs⟩ => ?_
  rw [run_cons m [] s hb]
  exact accounted_of_phase (hm s) (.of_lineSide rfl) hs

/-- A phase whose caller fails on a bad status, with nothing after it: either way the line side is the phase's. -/
theorem accounted_of_orFail {p : List Micro} {s u : State} {b : Bool} {c : Cause}
    (hrun : run (p ++ []) s = if b then run [] u else failCommand c u) (hu : Accounted s u) (hr : ReadsAsInput u) :
    Accounted s (run p s) ∧ ReadsAsInput (run p s) := by
  have hside : lineSide (run p s) = lineSide u := by
    rw [← List.append_nil p, hrun]
    cases b
    · exact lineSide_failCommand c u
    · rfl
  exact accounted_of_phase hside hu hr

theorem checkStatusOps_accounts (c : Cause) : Accounts ReadsAsInput (checkStatusOps c) := by
  refine accounts_of_busy fun s ⟨hb, hs⟩ => ?_
  have hread : ReadsAsInput (recvStatus s) := fun _ => by simpa [recvStatus_ports] using setReadMode_input s hs
  exact accounted_of_orFail (run_checkStatusOps c [] s hb) (recvStatus_accounted hs) hread

/-- SendOpcode sets DAT's direction itself, so it may be entered from any state (R98, R107). -/
theorem sendOpcodeOps_accounts_of_busy (src : OpcodeSrc) (c : Cause) :
    Accounts (·.busy = true) (sendOpcodeOps src c) := fun s hb =>
  accounted_of_orFail (run_sendOpcodeOps src c [] s hb) (sendOpcode_accounted src s) fun _ => by simp

theorem sendOpcodeOps_accounts (src : OpcodeSrc) (c : Cause) : Accounts ReadsAsInput (sendOpcodeOps src c) :=
  accounts_of_busy fun s ⟨hb, _⟩ => sendOpcodeOps_accounts_of_busy src c s hb

theorem sendValueOps_accounts (src : ValueSrc) (c : Cause) : Accounts ReadsAsInput (sendValueOps src c) :=
  accounts_of_busy fun s ⟨hb, _⟩ =>
    accounted_of_orFail (run_sendValueOps src c [] s hb) (sendValue_accounted src s) fun _ => by simp

theorem recvWordOps_accounts : Accounts ReadsAsInput recvWordOps := by
  refine accounts_of_busy fun s ⟨hb, hs⟩ => ?_
  rw [run_recvWordOps s hb]
  exact ⟨recvWord_accounted hs, fun _ => by simpa [recvWord_ports] using setReadMode_input s hs⟩

theorem pulsesOps_accounts (n : Nat) : Accounts ReadsAsInput (pulsesOps n) := by
  refine accounts_of_busy fun s ⟨hb, hs⟩ => ?_
  rw [run_pulsesOps n s hb]
  exact ⟨pulses_accounted n s, fun hm => by simpa using hs (by simpa using hm)⟩

/-- A poll ends after its ticks, or after the status read behind them (R116). -/
theorem pollOps_accounts (budget : Nat) : Accounts ReadsAsInput (pollOps budget) := by
  refine accounts_of_busy fun s ⟨hb, hs⟩ => ?_
  have hrun := run_pollOps budget [] s hb
  have hwait := pollWait_accounted budget hs
  have hinput : (pollWait budget s).ports.dat.dir = .input := by simpa [pollWait] using setReadMode_input s hs
  have hstatus := hwait.trans (pollStatus_accounted hinput)
  cases hr : (pollWait budget s).ready with
  | false => exact accounted_of_phase (by rw [List.append_nil] at hrun; simp [hrun, hr]) hwait (fun _ => hinput)
  | true =>
    rw [hr, if_pos rfl] at hrun
    exact accounted_of_orFail hrun hstatus (fun _ => by simpa using hinput)

theorem readWordOps_accounts (i : Nat) : Accounts ReadsAsInput (readWordOps i) :=
  ((accounts_of_lineSide fun _ => rfl).append recvWordOps_accounts).append (accounts_of_lineSide fun _ => rfl)

theorem writeWordOps_accounts (i : Nat) : Accounts ReadsAsInput (writeWordOps i) :=
  (accounts_of_lineSide fun _ => rfl).append (sendValueOps_accounts (.dbuf i) .statusMismatch)

/-- The two trailing pulses and the success (R91). -/
theorem trailing_accounts {p : List Micro} (hp : Accounts (·.busy = true) p) :
    Accounts (·.busy = true) (p ++ pulsesOps 2 ++ [.succeed]) :=
  (hp.append (pulsesOps_accounts 2)).append (accounts_of_lineSide lineSide_succeedCommand)

/-! ## The commands -/

/-- The liveness check and the opcode of a command (R125). -/
theorem opcode_accounts (src : OpcodeSrc) :
    Accounts (·.busy = true) (checkOps ++ sendOpcodeOps src .statusMismatch) :=
  (sendOpcodeOps_accounts_of_busy _ _).append (sendOpcodeOps_accounts src _)

/-- The liveness check, the opcode and the address of a command (R125). -/
theorem address_accounts (src : OpcodeSrc) (v : ValueSrc) :
    Accounts (·.busy = true)
      (checkOps ++ sendOpcodeOps src .statusMismatch ++ sendValueOps v .statusMismatch) :=
  (opcode_accounts src).append (sendValueOps_accounts v _)

/-- Every command's run from a busy state is accounted for: the chip commands phase by phase, the three others as a
whole. -/
theorem run_programOf_accounted (i : Instr) (s : State) (hb : s.busy = true) : Accounted s (run (programOf i) s) := by
  have hstore : Accounts ReadsAsInput [.storeWord 0] := accounts_of_lineSide fun _ => rfl
  have hstatus := checkStatusOps_accounts .statusMismatch
  cases i with
  | powerup =>
    rw [programOf, run_powerupProgram s hb]
    exact (powerUpState_accounted s).trans (.of_lineSide (lineSide_succeedCommand _))
  | shutdown =>
    rw [programOf, run_shutdownProgram s hb]
    exact (shutdownState_accounted s).trans (.of_lineSide (lineSide_succeedCommand _))
  | unlock =>
    rw [programOf, run_unlockProgram s hb]
    exact (unlockPairs_accounted 8 s).trans (.of_lineSide (lineSide_succeedCommand _))
  | check =>
    have hcheck : Accounts (·.busy = true) checkProgram :=
      (sendOpcodeOps_accounts_of_busy _ _).append (accounts_of_lineSide lineSide_succeedCommand)
    exact (hcheck s hb).1
  | readw _ =>
    have haddr := address_accounts (.const Config.opcRead) .laddr
    have hword := ((haddr.append (pulsesOps_accounts 2)).append recvWordOps_accounts).append hstore
    exact (trailing_accounts (hword.append hstatus) s hb).1
  | readn _ n =>
    have haddr := address_accounts (.withCount Config.opcReadnBase) .laddr
    have hwords := (haddr.append (pulsesOps_accounts 2)).append (.repeatOps readWordOps_accounts (n.toNat + 1))
    exact (trailing_accounts (hwords.append hstatus) s hb).1
  | readid =>
    have hop := opcode_accounts (.const Config.opcChipid)
    have hword := ((hop.append (pulsesOps_accounts 3)).append recvWordOps_accounts).append hstore
    exact (trailing_accounts (hword.append hstatus) s hb).1
  | writew _ =>
    have haddr := address_accounts (.const Config.opcWrite) .laddr
    have hword := haddr.append (sendValueOps_accounts (.dbuf 0) .statusMismatch)
    exact (trailing_accounts (hword.append (pollOps_accounts Config.budgetWrite)) s hb).1
  | writen _ n =>
    have haddr := address_accounts (.withCount Config.opcWritenBase) .laddr
    have hwords := haddr.append (.repeatOps writeWordOps_accounts (n.toNat + 1))
    exact (trailing_accounts (hwords.append (pollOps_accounts Config.budgetWrite)) s hb).1
  | eraseall =>
    have haddr := address_accounts (.const Config.opcEraseAll) (.const 0#16)
    exact (trailing_accounts (haddr.append (pollOps_accounts Config.budgetEraseAll)) s hb).1
  | erasepage _ =>
    have haddr := address_accounts (.const Config.opcErasePage) .page
    exact (trailing_accounts (haddr.append (pollOps_accounts Config.budgetErasePage)) s hb).1

/-- Settles O48: a command's meaning is the run of its list from the dispatched state, and that run is accounted for. -/
theorem countersAndPortsFollowTheTrace : Obligations.CountersAndPortsFollowTheTrace := by
  intro s i
  obtain ⟨es, hes⟩ := run_programOf_accounted i (dispatch i s) rfl
  exact ⟨_, es, exec_eq_run i s, hes.trace, hes.pulsecnt, hes.settlecnt, hes.samples, hes.sampleDraws, hes.ports⟩

end Sys2Proof.Machine
end

section
/-! PROOFS. The phases of a chip command: a relation between two states that every phase keeps is kept by every chip
command; with it, MODE at the end of a command (O53). -/

namespace Sys2Proof.Machine

open Sys2Proof

/-! ## Predicates and relations along a run -/

/-- What every operation of a list keeps, its run keeps. -/
theorem run_induct (P : State → Prop) (p : List Micro) (h : ∀ m ∈ p, ∀ u, P u → P (execMicro m u)) (s : State)
    (hs : P s) : P (run p s) := by
  induction p generalizing s with
  | nil => exact hs
  | cons m p ih =>
    unfold run
    split
    · exact ih (fun m' hm' => h m' (List.mem_cons_of_mem _ hm')) _ (h m List.mem_cons_self _ hs)
    · exact hs

/-- What every pass of a loop keeps, the loop keeps. -/
theorem loopState_induct (P : State → Prop) {g : Nat → State → State} (h : ∀ j u, P u → P (g j u)) (n : Nat) {s : State}
    (hs : P s) : P (loopState n g s) := by
  induction n with
  | zero => exact hs
  | succ n ih => exact h n _ ih

/-- Two states related by `P` run a list to two states related by `R`. -/
def RunLeads (P R : State → State → Prop) (p : List Micro) : Prop := ∀ s u, P s u → R (run p s) (run p u)

theorem RunLeads.append {P Q R : State → State → Prop} {p q : List Micro} (hp : RunLeads P Q p) (hq : RunLeads Q R q) :
    RunLeads P R (p ++ q) := by
  intro s u h
  rw [run_append, run_append]
  exact hq _ _ (hp _ _ h)

theorem RunLeads.repeatOps {R : State → State → Prop} {f : Nat → List Micro} (hf : ∀ j, RunLeads R R (f j)) (n : Nat) :
    RunLeads R R (repeatOps n f) := by
  induction n with
  | zero => exact fun _ _ h => h
  | succ n ih =>
    rw [repeatOps_succ]
    exact ih.append (hf n)

/-! ## The phases -/

/-- Every phase behind the liveness check keeps `R`; a word reception leads from `R` to `W`, where the word is stored
(R129 to R135). -/
structure PhasesKeep (R W : State → State → Prop) : Prop where
  opcode : ∀ src, RunLeads R R (sendOpcodeOps src .statusMismatch)
  value : ∀ src, RunLeads R R (sendValueOps src .statusMismatch)
  status : RunLeads R R (checkStatusOps .statusMismatch)
  word : RunLeads R W recvWordOps
  store : ∀ i, RunLeads W R [.storeWord i]
  widx : ∀ i, RunLeads R R [.setWidx i]
  bare : ∀ n, RunLeads R R (pulsesOps n)
  poll : ∀ b, RunLeads R R (pollOps b)
  success : RunLeads R R [.succeed]

namespace PhasesKeep

variable {P R W : State → State → Prop} (h : PhasesKeep R W)
include h

/-- The two trailing pulses and the success (R91). -/
theorem trailing {p : List Micro} (hp : RunLeads P R p) : RunLeads P R (p ++ pulsesOps 2 ++ [.succeed]) :=
  (hp.append (h.bare 2)).append h.success

/-- The liveness check, then the opcode of the command (R125). -/
theorem opcodeSent (hc : RunLeads P R checkOps) (src : OpcodeSrc) :
    RunLeads P R (checkOps ++ sendOpcodeOps src .statusMismatch) :=
  hc.append (h.opcode src)

/-- The liveness check, then the opcode and the address of the command (R125). -/
theorem addressSent (hc : RunLeads P R checkOps) (src : OpcodeSrc) (v : ValueSrc) :
    RunLeads P R (checkOps ++ sendOpcodeOps src .statusMismatch ++ sendValueOps v .statusMismatch) :=
  (h.opcodeSent hc src).append (h.value v)

/-- A relation that the phases keep and the liveness check establishes holds after every chip command. -/
theorem chip (hc : RunLeads P R checkOps) (i : Instr) (hi : isChipCommand i = true) : RunLeads P R (programOf i) := by
  have hread : ∀ j, RunLeads R R (readWordOps j) := fun j => ((h.widx j).append h.word).append (h.store j)
  have hwrite : ∀ j, RunLeads R R (writeWordOps j) := fun j => (h.widx j).append (h.value (.dbuf j))
  cases i with
  | powerup => cases hi
  | shutdown => cases hi
  | unlock => cases hi
  | check => exact hc.append h.success
  | readw _ =>
    have haddr := h.addressSent hc (.const Config.opcRead) .laddr
    have hword := ((haddr.append (h.bare 2)).append h.word).append (h.store 0)
    exact h.trailing (hword.append h.status)
  | readn _ n =>
    have haddr := h.addressSent hc (.withCount Config.opcReadnBase) .laddr
    have hwords := (haddr.append (h.bare 2)).append (.repeatOps hread (n.toNat + 1))
    exact h.trailing (hwords.append h.status)
  | readid =>
    have hop := h.opcodeSent hc (.const Config.opcChipid)
    have hword := ((hop.append (h.bare 3)).append h.word).append (h.store 0)
    exact h.trailing (hword.append h.status)
  | writew _ =>
    have haddr := h.addressSent hc (.const Config.opcWrite) .laddr
    have hword := haddr.append (h.value (.dbuf 0))
    exact h.trailing (hword.append (h.poll _))
  | writen _ n =>
    have haddr := h.addressSent hc (.withCount Config.opcWritenBase) .laddr
    have hwords := haddr.append (.repeatOps hwrite (n.toNat + 1))
    exact h.trailing (hwords.append (h.poll _))
  | eraseall => exact h.trailing ((h.addressSent hc _ _).append (h.poll _))
  | erasepage _ => exact h.trailing ((h.addressSent hc _ _).append (h.poll _))

end PhasesKeep

/-! ## What depends on the line side only -/

/-- A phase whose caller fails on a bad status leaves the phase's line side, whether it fails or not (R144). -/
theorem lineSide_of_orFail {p : List Micro} {s u : State} {b : Bool} {c : Cause}
    (hrun : run (p ++ []) s = if b then run [] u else failCommand c u) : lineSide (run p s) = lineSide u := by
  rw [← List.append_nil p, hrun]
  cases b
  · exact lineSide_failCommand c u
  · rfl

/-- A poll leaves the line side of its ticks after a timeout, and of the status read otherwise (R116). -/
theorem lineSide_pollOps (b : Nat) (s : State) (hb : s.busy = true) :
    lineSide (run (pollOps b) s) = lineSide (pollWait b s) ∨
      lineSide (run (pollOps b) s) = lineSide (pollStatus (pollWait b s)) := by
  have hrun := run_pollOps b [] s hb
  cases hr : (pollWait b s).ready with
  | false =>
    left
    rw [List.append_nil] at hrun
    simp [hrun, hr]
  | true =>
    right
    rw [hr, if_pos rfl] at hrun
    exact lineSide_of_orFail hrun

/-- A predicate that depends on the line side only, kept by what each phase does to the state. -/
structure PrimitivesKeep (Q : State → Prop) : Prop where
  lineSide : ∀ {s t : State}, lineSide t = lineSide s → Q s → Q t
  sendOpcode : ∀ src s, Q s → Q (sendOpcode src s)
  sendValue : ∀ src s, Q s → Q (sendValue src s)
  recvStatus : ∀ s, Q s → Q (recvStatus s)
  recvWord : ∀ s, Q s → Q (recvWord s)
  pulses : ∀ n s, Q s → Q (pulses n s)
  pollWait : ∀ b s, Q s → Q (pollWait b s)
  pollStatus : ∀ s, Q s → Q (pollStatus s)

/-- An idle engine runs nothing, so a list has to keep a predicate from a busy one only (R144). -/
theorem runLeads_of_busy {Q : State → Prop} {p : List Micro} (h : ∀ s, s.busy = true → Q s → Q (run p s)) :
    RunLeads (fun s _ => Q s) (fun s _ => Q s) p := by
  intro s _ hs
  cases hb : s.busy with
  | true => exact h s hb hs
  | false => rwa [run_idle p s hb]

/-- An operation that leaves the line side keeps what depends on it only. -/
theorem PrimitivesKeep.quiet {Q : State → Prop} (h : PrimitivesKeep Q) {m : Micro}
    (hm : ∀ s, Machine.lineSide (execMicro m s) = Machine.lineSide s) :
    RunLeads (fun s _ => Q s) (fun s _ => Q s) [m] :=
  runLeads_of_busy fun s hb hs => by
    rw [run_cons m [] s hb]
    exact h.lineSide (hm s) hs

/-- A predicate on the line side that the primitives keep is kept by the phases. -/
theorem PrimitivesKeep.phases {Q : State → Prop} (h : PrimitivesKeep Q) :
    PhasesKeep (fun s _ => Q s) (fun s _ => Q s) where
  opcode src := runLeads_of_busy fun s hb hs =>
    h.lineSide (lineSide_of_orFail (run_sendOpcodeOps src _ [] s hb)) (h.sendOpcode src s hs)
  value src := runLeads_of_busy fun s hb hs =>
    h.lineSide (lineSide_of_orFail (run_sendValueOps src _ [] s hb)) (h.sendValue src s hs)
  status := runLeads_of_busy fun s hb hs =>
    h.lineSide (lineSide_of_orFail (run_checkStatusOps _ [] s hb)) (h.recvStatus s hs)
  word := runLeads_of_busy fun s hb hs => by
    rw [run_recvWordOps s hb]
    exact h.recvWord s hs
  store _ := h.quiet fun _ => rfl
  widx _ := h.quiet fun _ => rfl
  bare n := runLeads_of_busy fun s hb hs => by
    rw [run_pulsesOps n s hb]
    exact h.pulses n s hs
  poll b := runLeads_of_busy fun s hb hs => by
    have hwait := h.pollWait b s hs
    rcases lineSide_pollOps b s hb with hl | hl
    · exact h.lineSide hl hwait
    · exact h.lineSide hl (h.pollStatus _ hwait)
  success := h.quiet lineSide_succeedCommand

/-- The liveness check leaves the line side of its opcode frame, whether it fails or not (R125). -/
theorem lineSide_checkOps (s : State) (hb : s.busy = true) :
    lineSide (run checkOps s) = lineSide (sendOpcode (.const Config.opcCheck) s) :=
  lineSide_of_orFail (run_sendOpcodeOps _ _ [] s hb)

/-- A chip command from a busy state: what its liveness check establishes on the line side and the primitives keep. -/
theorem PrimitivesKeep.chip {Q : State → Prop} (h : PrimitivesKeep Q) (i : Instr) (hi : isChipCommand i = true)
    (s : State) (hb : s.busy = true) (hs : Q (Machine.sendOpcode (.const Config.opcCheck) s)) :
    Q (run (programOf i) s) := by
  have hcheck : RunLeads (fun u _ => u = s) (fun u _ => Q u) checkOps := by
    rintro u _ rfl
    exact h.lineSide (lineSide_checkOps u hb) hs
  exact h.phases.chip hcheck i hi s s rfl

/-! ## How a chip command leaves the lines -/

/-- Where a chip command that starts in `s` may end: MODE is Read, DAT an input, CLK low, and the latch of DAT low
unless the command started in Write (R32, R98, R99, R145). -/
structure LeftReading (s t : State) : Prop where
  mode : t.mode = .read
  input : t.ports.dat.dir = .input
  clkLow : t.ports.clk.out = false
  latchLow : s.mode ≠ .write → t.ports.dat.out = false

theorem LeftReading.of_ports {s t u : State} (h : LeftReading s t) (hm : u.mode = t.mode)
    (hd : u.ports.dat = t.ports.dat) (hc : u.ports.clk.out = false) : LeftReading s u :=
  ⟨hm.trans h.mode, by rw [hd]; exact h.input, hc, fun hs => by rw [hd]; exact h.latchLow hs⟩

theorem leftReading_primitives (s : State) : PrimitivesKeep (LeftReading s) where
  lineSide {t u} hl ht := by
    have hm : u.mode = t.mode := (congrArg State.mode hl :)
    have hp : u.ports = t.ports := (congrArg State.ports hl :)
    exact ht.of_ports hm (by rw [hp]) (by rw [hp]; exact ht.clkLow)
  sendOpcode src t ht := ⟨by simp, by simp, by simp, fun _ => by simp [ht.mode]⟩
  sendValue src t ht := ⟨by simp, by simp, by simp, fun _ => by simp [ht.mode]⟩
  recvStatus t ht := by
    have hread := setReadMode_read t ht.mode
    exact ht.of_ports (by simp [ht.mode]) (by simp [recvStatus_ports, hread]) (by simp [recvStatus_ports])
  recvWord t ht := by
    have hread := setReadMode_read t ht.mode
    exact ht.of_ports (by simp [ht.mode]) (by simp [recvWord_ports, hread]) (by simp [recvWord_ports])
  pulses n t ht := by
    refine ht.of_ports (by simp) (by simp) ?_
    cases n with
    | zero => exact ht.clkLow
    | succ n => simp
  pollWait b t ht := by
    have hread := setReadMode_read t ht.mode
    refine ht.of_ports (by simp [ht.mode]) (by simp [pollWait, hread]) ?_
    exact pollTicks_clk_out b _ (by simp [hread, ht.clkLow])
  pollStatus t ht := ht.of_ports (by simp) (by simp) (by simp)

/-- The liveness check leaves the lines so from every state (R107). -/
theorem sendOpcode_leftReading (src : OpcodeSrc) (s : State) : LeftReading s (sendOpcode src s) :=
  ⟨by simp, by simp, by simp, fun hs => by simp [hs]⟩

/-- Every chip command, wherever it ends, leaves MODE Read and DAT an input (R32). -/
theorem run_chip_leftReading (i : Instr) (hi : isChipCommand i = true) (s : State) (hb : s.busy = true) :
    LeftReading s (run (programOf i) s) :=
  (leftReading_primitives s).chip i hi s hb (sendOpcode_leftReading _ s)

/-! ## MODE at the end of a command -/

/-- The three commands that are no chip commands leave MODE Unknown, or as it was (R32, R126, R127, R136). -/
theorem run_mode (i : Instr) (s : State) (hb : s.busy = true) :
    (run (programOf i) s).mode = if isChipCommand i then .read else if i = .unlock then s.mode else .unknown := by
  cases hi : isChipCommand i with
  | true => exact (run_chip_leftReading i hi s hb).mode
  | false =>
    cases i with
    | powerup => rw [programOf, run_powerupProgram s hb]; rfl
    | shutdown => rw [programOf, run_shutdownProgram s hb]; rfl
    | unlock =>
      rw [programOf, run_unlockProgram s hb]
      have hpair : ∀ n u, (unlockPair n u).mode = u.mode := fun n =>
        loopState_preserves (·.mode) (unlockBit (Config.unlockPairs (Fin.ofNat 8 n))) (fun _ _ => rfl) 8
      simpa using loopState_preserves (·.mode) unlockPair hpair 8 s
    | _ => cases hi

/-- Settles O53: MODE after the run of each command's list, from the dispatched state; the last part reads it off. -/
theorem modeAtCommandEnd : Obligations.ModeAtCommandEnd := by
  have hend : ∀ (s : State) (i : Instr), ∃ t, exec i s = .next t ∧
      t.mode = (if isChipCommand i then .read else if i = .unlock then s.mode else .unknown) :=
    fun s i => ⟨_, exec_eq_run i s, run_mode i (dispatch i s) rfl⟩
  refine ⟨rfl, hend, fun s => ⟨_, rfl, ?_⟩, fun s i hs => ?_⟩
  · exact run_preserves (·.mode) illegalProgram (by simp [illegalProgram, execMicro]) s
  · obtain ⟨t, ht, hm⟩ := hend s i
    refine ⟨t, ht, ?_⟩
    rw [hm]
    split
    · exact .inr rfl
    · split
      · exact hs
      · exact .inl rfl

end Sys2Proof.Machine
end

section
/-! PROOFS. The invariant of the machine: it holds after reset (O55), every step keeps it (O56), and under it no step
faults (O57). An idle state has it where its flags agree and the boundary rules hold; an accept, a sequencer step, the
end of a command and an act of the outside keep it. -/

namespace Sys2Proof.Machine

open Sys2Proof

/-! ## The command of a word -/

/-- The command a CODE names has the operands it uses from the fields, and 0 for the others (R79, R81). -/
theorem fields_of_commandOf {c : Cmdw} {i : Instr} (h : commandOf c = some i) :
    i.fields = ⟨if c.usesAddr then c.addr else 0#16, 0#3, if c.usesCount then c.n else 0#5, 0#4, c.code⟩ := by
  obtain ⟨addr, rsv1, n, rsv0, code⟩ := c
  have hcode : code = BitVec.ofNat 4 code.toNat := by simp
  unfold commandOf at h
  split at h
  case h_12 => cases h
  all_goals
    rename_i hk
    cases h
    rw [hk] at hcode
    subst hcode
    simp [Instr.fields, Cmdw.usesAddr, Cmdw.usesCount]

/-- A word decodes to a command only if its fields are the command's (R78 to R80). -/
theorem splitWord_of_decode {v : Word} {i : Instr} (h : decode v = .ok i) : splitWord v = i.fields := by
  unfold decode decodeFields at h
  generalize splitWord v = c at h ⊢
  split at h
  · cases h
  rename_i hcmd
  split_ifs at h with hrsv hcount haddr
  cases h
  simp only [Cmdw.reservedClear, Cmdw.countOk, Cmdw.addrOk, Bool.not_eq_false, Bool.and_eq_true, Bool.or_eq_true,
    beq_iff_eq] at hrsv hcount haddr
  rw [fields_of_commandOf hcmd]
  obtain ⟨addr, rsv1, n, rsv0, code⟩ := c
  simp only [Cmdw.mk.injEq]
  refine ⟨?_, hrsv.2, ?_, hrsv.1, trivial⟩
  · split
    · rfl
    · exact haddr.resolve_left ‹_›
  · split
    · rfl
    · exact hcount.resolve_left ‹_›

/-! ## Command boundaries -/

theorem Boundary.congr {s t : State} (h : Boundary s) (hm : t.mode = s.mode) (hp : t.ports = s.ports) : Boundary t where
  mode_unknown_or_read := hm ▸ h.mode_unknown_or_read
  read_means_input := by rw [hm, hp]; exact h.read_means_input
  clk_idles_low := by rw [hp]; exact h.clk_idles_low
  dat_latch_low := by rw [hp]; exact h.dat_latch_low

theorem Boundary.not_write {s : State} (h : Boundary s) : s.mode ≠ .write := by
  rcases h.mode_unknown_or_read with hm | hm <;> simp [hm]

theorem Boundary.datFollowsMode {s : State} (h : Boundary s) : datFollowsMode s.mode s.ports.dat.dir = true := by
  rcases h.mode_unknown_or_read with hm | hm
  · rw [hm]; rfl
  · rw [h.read_means_input hm, hm]; rfl

theorem LeftReading.boundary {s t : State} (h : LeftReading s t) (hs : s.mode ≠ .write) : Boundary t :=
  ⟨.inr h.mode, fun _ => h.input, h.clkLow, h.latchLow hs⟩

/-- A sub-bit of UNLOCK leaves MODE and DAT, and ends with CLK low (R90, R102). -/
theorem unlockBit_boundary (pair : Byte × Byte) (j : Nat) {s : State} (h : Boundary s) :
    Boundary (unlockBit pair j s) :=
  ⟨h.mode_unknown_or_read, h.read_means_input, rfl, h.dat_latch_low⟩

/-- From a command boundary every command runs to a command boundary (R32). -/
theorem run_boundary (i : Instr) (s : State) (hb : s.busy = true) (h : Boundary s) :
    Boundary (run (programOf i) s) := by
  cases hi : isChipCommand i with
  | true => exact (run_chip_leftReading i hi s hb).boundary h.not_write
  | false =>
    cases i with
    | powerup =>
      rw [programOf, run_powerupProgram s hb]
      exact ⟨.inl rfl, nofun, rfl, rfl⟩
    | shutdown =>
      rw [programOf, run_shutdownProgram s hb]
      exact ⟨.inl rfl, nofun, rfl, rfl⟩
    | unlock =>
      rw [programOf, run_unlockProgram s hb]
      have hpair : ∀ n u, Boundary u → Boundary (unlockPair n u) := fun n u =>
        loopState_induct Boundary (unlockBit_boundary _) 8
      have hpairs : Boundary (loopState 8 unlockPair s) := loopState_induct Boundary hpair 8 h
      exact hpairs.congr (succeedCommand_mode _) (succeedCommand_ports _)
    | _ => cases hi

/-- What the engine runs for an accepted word, legal or not, ends at a command boundary (R32, R137). -/
theorem run_programAt_boundary (s : State) (hb : s.busy = true) (h : Boundary s) : Boundary (run (programAt s) s) := by
  unfold programAt
  split
  · exact run_boundary _ s hb h
  · rw [run_illegalProgram s hb]
    exact h.congr rfl rfl

/-- Accepted at a boundary as R32 leaves it, a word's pulses keep the mode invariant to the end (R30, R165). -/
theorem pulsesFollowMode_accept (v : Word) (s : State) (hw : s.mode ≠ .write)
    (hd : datFollowsMode s.mode s.ports.dat.dir = true) : pulsesFollowMode (accept v s) := by
  refine pulsesFollowMode_of_restSafe _ fun c k j hq => ?_
  cases hq
  rw [List.drop_zero, programAt]
  split
  · exact programOf_safe _ _ hw hd
  · rfl

/-! ## The flags along a run -/

/-- An operation of a running command goes on and leaves OK and CAUSE, or ends the command with flags that agree
(R38, R144). -/
theorem execMicro_flags (m : Micro) (s : State) (h : s.busy = true) :
    ((execMicro m s).busy = true ∧ (execMicro m s).ok = s.ok ∧ (execMicro m s).cause = s.cause) ∨
      ((execMicro m s).busy = false ∧ ((execMicro m s).ok = true → (execMicro m s).cause = .none)) := by
  induction m generalizing s with
  | unlessMode m a ih =>
    unfold execMicro
    split
    · exact .inl ⟨h, rfl, rfl⟩
    · exact ih s h
  | failUnlessMatch c =>
    unfold execMicro
    split
    · exact .inl ⟨h, rfl, rfl⟩
    · exact .inr ⟨rfl, nofun⟩
  | failUnlessReady c =>
    unfold execMicro
    split
    · exact .inl ⟨h, rfl, rfl⟩
    · exact .inr ⟨rfl, nofun⟩
  | fail c => exact .inr ⟨rfl, nofun⟩
  | succeed => exact .inr ⟨rfl, fun _ => rfl⟩
  | _ => left; simp [execMicro, h]

/-- OK = 1 goes with CAUSE = NONE, and while BUSY = 1 both are cleared (R38, R48). -/
structure FlagsAgree (s : State) : Prop where
  busy_ok : s.busy = true → s.ok = false
  busy_cause : s.busy = true → s.cause = .none
  ok_cause : s.ok = true → s.cause = .none

theorem execMicro_flagsAgree (m : Micro) (s : State) (hb : s.busy = true) (h : FlagsAgree s) :
    FlagsAgree (execMicro m s) := by
  rcases execMicro_flags m s hb with ⟨_, hok, hcause⟩ | ⟨hend, hagree⟩
  · exact ⟨fun _ => hok.trans (h.busy_ok hb), fun _ => hcause.trans (h.busy_cause hb),
      fun _ => hcause.trans (h.busy_cause hb)⟩
  · exact ⟨by simp [hend], by simp [hend], hagree⟩

theorem run_flagsAgree (p : List Micro) (s : State) (h : FlagsAgree s) : FlagsAgree (run p s) := by
  induction p generalizing s with
  | nil => exact h
  | cons m p ih =>
    unfold run
    split
    · rename_i hb
      exact ih _ (execMicro_flagsAgree m s hb h)
    · exact h

/-! ## One sequencer step -/

/-- A place of the list whose operation goes on is not the last place (R17). -/
theorem next_in_program (s : State) (k : Nat) (m : Micro) (hm : (programAt s)[k]? = some m)
    (hb : (execMicro m s).busy = true) : k + 1 < (programAt s).length := by
  obtain ⟨hk, hget⟩ := List.getElem?_eq_some_iff.mp hm
  by_contra hlast
  obtain ⟨p, e, hp, he⟩ := programAt_ends s
  have hkp : k = p.length := by
    rw [hp, List.length_append, List.length_singleton] at hk hlast
    omega
  have hme : m = e := by
    subst hkp
    simpa [hp] using hget.symm
  subst hme
  rcases he with rfl | rfl <;> cases hb

/-- A step of the sequencer does nothing, or writes a place of the running command after at most one operation, and the
place stands in the list unless that operation ended the command (R28). -/
theorem sequencerStep_place (s : State) :
    sequencerStep s = s ∨ ∃ c k j k' j' u, s.busy = true ∧ s.seq = .running c k j ∧
      sequencerStep s = placeAt c k' j' u ∧ (u.busy = true → k' < (programAt s).length) ∧
      (u = s ∨ ∃ m, (m ∈ programAt s ∨ m ∈ pollBodyOps) ∧ u = execMicro m s) := by
  rcases sequencerStep_cases s with h | ⟨hb, c, k, j, m, hq, hm, _, h⟩ | ⟨hb, c, k, b, hq, hm, _, h⟩ |
    ⟨hb, c, k, j, b, hq, hm, _, h⟩ | ⟨hb, c, k, j, b, m, hq, hm, _, hj, h⟩
  · exact .inl h
  · exact .inr ⟨c, k, j, _, _, _, hb, hq, h, next_in_program s k m hm,
      .inr ⟨m, .inl (List.mem_of_getElem? hm), rfl⟩⟩
  · have hnext := next_in_program s k _ hm ((pollTicks_busy _ s).trans hb)
    exact .inr ⟨c, k, 0, _, _, _, hb, hq, h, fun _ => hnext, .inl rfl⟩
  · exact .inr ⟨c, k, j, _, _, _, hb, hq, h, fun _ => (List.getElem?_eq_some_iff.mp hm).1, .inl rfl⟩
  · exact .inr ⟨c, k, j, _, _, _, hb, hq, h, fun _ => (List.getElem?_eq_some_iff.mp hm).1,
      .inr ⟨m, .inr (List.mem_of_getElem? hj), rfl⟩⟩

theorem placeAt_busy (c : Code) (k j : Nat) (s : State) (h : s.busy = true) :
    placeAt c k j s = withSeq (.running c k j) s := by
  simp [placeAt, h, withSeq]

theorem placeAt_ended (c : Code) (k j : Nat) (s : State) (h : s.busy = false) : placeAt c k j s = s := by
  simp [placeAt, h]

/-! ## The invariant -/

theorem Inv.flags {s : State} (h : Inv s) : FlagsAgree s :=
  ⟨h.busy_clears_ok, h.busy_clears_cause, h.ok_means_no_cause⟩

/-- An idle engine's position is IDLE (R28). -/
theorem Inv.idle {s : State} (h : Inv s) (hb : s.busy = false) : s.seq = .idle := by
  have hrun := h.busy_is_running
  cases hq : s.seq with
  | idle => rfl
  | running c k j => rw [hb, hq] at hrun; cases hrun

/-- While BUSY = 1 the sequencer runs the latched code (R28, R34). -/
theorem Inv.running {s : State} (h : Inv s) (hb : s.busy = true) : ∃ k j, s.seq = .running s.lcode k j := by
  have hrun := h.busy_is_running
  have hcode := h.runs_latched
  cases hq : s.seq with
  | idle => rw [hb, hq] at hrun; cases hrun
  | running c k j =>
    simp only [runsLatched, hq, beq_iff_eq] at hcode
    exact ⟨k, j, by rw [hcode]⟩

/-- LCODE, LN and LADDR are the fields of CMD (R34, R48). -/
structure Latched (s : State) : Prop where
  code : s.lcode = (splitWord s.cmd).code
  count : s.ln = (splitWord s.cmd).n
  addr : s.laddr = (splitWord s.cmd).addr

theorem Inv.latched {s : State} (h : Inv s) : Latched s := ⟨h.latched_code, h.latched_count, h.latched_addr⟩

/-- In an idle engine nothing is left to run. -/
theorem finish_idle (s : State) (hq : s.seq = .idle) : finish s = s := by simp [finish, hq]

/-- An idle state has the invariant where its flags agree, its operands are CMD's and the boundary rules hold. -/
theorem inv_of_idle {s : State} (hb : s.busy = false) (hq : s.seq = .idle) (hf : FlagsAgree s) (hl : Latched s)
    (hB : Boundary s) (hr : s.resetAsserted = true → blockReset s = s) : Inv s where
  busy_is_running := by rw [hb, hq]; rfl
  busy_clears_ok := hf.busy_ok
  busy_clears_cause := hf.busy_cause
  ok_means_no_cause := hf.ok_cause
  latched_code := hl.code
  latched_count := hl.count
  latched_addr := hl.addr
  runs_latched := by simp [runsLatched, hq]
  in_program hb' := by rw [hb] at hb'; cases hb'
  ends := by rw [finish_idle s hq]; exact hb
  boundary := by rw [finish_idle s hq]; exact hB
  pulses_follow_mode := pulsesFollowMode_idle s hb
  reset_holds := hr

/-- The reset values, with whatever stands outside the engine, have the invariant (R47, R158). -/
theorem inv_blockReset (s : State) : Inv (blockReset s) :=
  inv_of_idle rfl rfl ⟨nofun, nofun, nofun⟩ ⟨by simp [splitWord], by simp [splitWord], by simp [splitWord]⟩
    ⟨.inl rfl, nofun, rfl, rfl⟩ fun _ => rfl

/-- Settles O55. -/
theorem invariantHoldsAtReset : Obligations.InvariantHoldsAtReset := inv_blockReset State.reset

/-- The host's side is no part of the invariant, but for OVR while the reset input is asserted (R158). -/
theorem Inv.withHost {s : State} (h : Inv s) (o : Bool) (r : List (Nat × Word)) (d : Nat) (p : List HostEvent)
    (ho : s.resetAsserted = true → o = s.ovr) : Inv (withHost o r d p s) where
  busy_is_running := h.busy_is_running
  busy_clears_ok := h.busy_clears_ok
  busy_clears_cause := h.busy_clears_cause
  ok_means_no_cause := h.ok_means_no_cause
  latched_code := h.latched_code
  latched_count := h.latched_count
  latched_addr := h.latched_addr
  runs_latched := h.runs_latched
  in_program := h.in_program
  ends := by rw [finish_withHost]; exact h.ends
  boundary := by rw [finish_withHost]; exact h.boundary.congr rfl rfl
  pulses_follow_mode := pulsesFollowMode_withHost o r d p s h.pulses_follow_mode
  reset_holds hr := by
    have hreset := h.reset_holds hr
    have hovr : s.ovr = false := by rw [← hreset]; rfl
    rw [ho hr, hovr]
    exact congrArg (Machine.withHost false r d p) hreset

/-! ## What keeps the invariant -/

/-- An accept keeps the invariant: it latches the word's fields, clears the flags and starts at the first operation of a
list that ends at a boundary (R32, R48). -/
theorem inv_accept {s : State} (h : Inv s) (hb : s.busy = false) (hr : s.resetAsserted = false) (v : Word) :
    Inv (accept v s) := by
  have hB : Boundary s := finish_idle s (h.idle hb) ▸ h.boundary
  have hlen : 0 < (programAt (accept v s)).length := List.length_pos_iff.mpr (programAt_ne_nil _)
  exact {
    busy_is_running := rfl
    busy_clears_ok := fun _ => rfl
    busy_clears_cause := fun _ => rfl
    ok_means_no_cause := fun _ => rfl
    latched_code := rfl
    latched_count := rfl
    latched_addr := rfl
    runs_latched := by simp [runsLatched]
    in_program := fun _ => by simpa [seqInProgram] using hlen
    ends := finish_of_start_ends _ _ rfl
    boundary := by
      rw [finish_of_start _ _ rfl]
      exact run_programAt_boundary _ rfl (hB.congr rfl rfl)
    pulses_follow_mode := pulsesFollowMode_accept v s hB.not_write hB.datFollowsMode
    reset_holds := fun hr' => by rw [accept_resetAsserted, hr] at hr'; cases hr' }

/-- A write of the window keeps the invariant while the reset input is released. -/
theorem inv_windowWrite {s : State} (h : Inv s) (hr : s.resetAsserted = false) (off : Nat) (v : Word) :
    Inv (windowWrite off v s) := by
  rcases windowWrite_cases off v s with ⟨_, _, hw⟩ | ⟨_, hb, hw⟩ | ⟨_, hb, d, hw⟩ | ⟨_, hw⟩ <;> rw [hw]
  · exact h.withHost true s.reads s.readDraws s.pending fun hr' => by rw [hr] at hr'; cases hr'
  · exact inv_accept h hb hr v
  · have hq := h.idle hb
    have hB : Boundary s := finish_idle s hq ▸ h.boundary
    exact inv_of_idle hb hq ⟨h.busy_clears_ok, h.busy_clears_cause, h.ok_means_no_cause⟩
      ⟨h.latched_code, h.latched_count, h.latched_addr⟩ (hB.congr rfl rfl) fun hr' => by rw [hr] at hr'; cases hr'
  · exact h

/-- An act of the outside keeps the invariant (R48, R49, R64, R158). -/
theorem inv_serve {s t : State} (h : Inv s) (a : HostAct) (ht : serve a s = .next t) : Inv t := by
  rcases serve_next a s t ht with ⟨off, _, _, rfl⟩ | ⟨off, v, _, _, rfl⟩ | ⟨_, rfl⟩ | ⟨_, rfl⟩
  · exact h.withHost s.ovr _ _ s.pending fun _ => rfl
  · cases hr : s.resetAsserted with
    | false => rw [hostWrite_released s off v hr]; exact inv_windowWrite h hr off v
    | true => rw [hostWrite_asserted s off v hr]; exact h
  · exact inv_blockReset (assertReset s)
  · cases hr : s.resetAsserted with
    | false => rw [releaseReset_released s hr]; exact h
    | true =>
      have hrel : releaseReset s = blockReset { s with resetAsserted := false } := by
        rw [releaseReset, underReset_asserted s hr]
        rfl
      rw [hrel]
      exact inv_blockReset _

theorem Latched.congr {s t : State} (h : Latched s) (hcmd : t.cmd = s.cmd) (hcode : t.lcode = s.lcode)
    (hcount : t.ln = s.ln) (haddr : t.laddr = s.laddr) : Latched t :=
  ⟨by rw [hcode, hcmd]; exact h.code, by rw [hcount, hcmd]; exact h.count, by rw [haddr, hcmd]; exact h.addr⟩

theorem execMicro_latched (m : Micro) {s : State} (h : Latched s) : Latched (execMicro m s) := by
  obtain ⟨hcmd, _, hcode, hcount, haddr, _⟩ := execMicro_keeps m s
  exact h.congr hcmd hcode hcount haddr

/-- A step of the sequencer keeps the invariant: the run from the next place is the rest of the run (R21, R28). -/
theorem inv_sequencerStep {s : State} (h : Inv s) (hr : s.resetAsserted = false) : Inv (sequencerStep s) := by
  rcases sequencerStep_place s with he | ⟨c, k, j, k', j', u, hb, hq, he, hk, hu⟩
  · rwa [he]
  have hfin := finish_sequencerStep s h.ends
  have hpulses := pulsesFollowMode_advance 1 s h.pulses_follow_mode
  have hreset := (advance_keeps 1 s).2.2.trans hr
  have hcode : c = s.lcode := by simpa [runsLatched, hq] using h.runs_latched
  obtain ⟨hf, hl, hcmd, hlcode⟩ : FlagsAgree u ∧ Latched u ∧ u.cmd = s.cmd ∧ u.lcode = s.lcode := by
    rcases hu with rfl | ⟨m, _, rfl⟩
    · exact ⟨h.flags, h.latched, rfl, rfl⟩
    · obtain ⟨hcmd, _, hlcode, _⟩ := execMicro_keeps m s
      exact ⟨execMicro_flagsAgree m s hb h.flags, execMicro_latched m h.latched, hcmd, hlcode⟩
  simp only [advance] at hpulses hreset
  rw [he] at hfin hpulses hreset ⊢
  cases hub : u.busy with
  | true =>
    rw [placeAt_busy c k' j' u hub] at hfin hpulses hreset ⊢
    exact {
      busy_is_running := hub
      busy_clears_ok := hf.busy_ok
      busy_clears_cause := hf.busy_cause
      ok_means_no_cause := hf.ok_cause
      latched_code := hl.code
      latched_count := hl.count
      latched_addr := hl.addr
      runs_latched := by simp [runsLatched, withSeq, hcode, hlcode]
      in_program := fun _ => by
        have hprog := programAt_congr s (withSeq (.running c k' j') u) hcmd
        change decide (k' < (programAt (withSeq (.running c k' j') u)).length) = true
        rw [hprog]
        exact decide_eq_true (hk hub)
      ends := by rw [hfin]; exact h.ends
      boundary := by rw [hfin]; exact h.boundary
      pulses_follow_mode := hpulses
      reset_holds := fun hr' => by rw [hreset] at hr'; cases hr' }
  | false =>
    rw [placeAt_ended c k' j' u hub] at hfin hpulses hreset ⊢
    have hidle : u.seq = .idle := by
      rcases hu with rfl | ⟨m, _, rfl⟩
      · rw [hb] at hub; cases hub
      · exact execMicro_ended m s hb hub
    rw [finish_idle u hidle] at hfin
    exact inv_of_idle hub hidle hf hl (hfin ▸ h.boundary) fun hr' => by rw [hreset] at hr'; cases hr'

/-- Any number of sequencer steps keeps the invariant. -/
theorem inv_advance (n : Nat) {s : State} (h : Inv s) (hr : s.resetAsserted = false) : Inv (advance n s) := by
  induction n generalizing s with
  | zero => exact h
  | succ n ih => exact ih (inv_sequencerStep h hr) ((advance_keeps 1 s).2.2.trans hr)

/-- The rest of a run leaves what no operation writes. -/
theorem finish_keeps (s : State) :
    (finish s).cmd = s.cmd ∧ (finish s).ovr = s.ovr ∧ (finish s).lcode = s.lcode ∧ (finish s).ln = s.ln ∧
      (finish s).laddr = s.laddr ∧ (finish s).reads = s.reads ∧ (finish s).readDraws = s.readDraws ∧
      (finish s).pending = s.pending ∧ (finish s).resetAsserted = s.resetAsserted := by
  unfold finish
  split
  · simp
  · rw [← run_append]
    exact run_keeps _ s

/-- The end of a running command has the invariant (R32, R144). -/
theorem inv_finish {s : State} (h : Inv s) (hb : s.busy = true) (hr : s.resetAsserted = false) : Inv (finish s) := by
  obtain ⟨k, j, hq⟩ := h.running hb
  have hrun : finish s = run (restOfTick (programAt s) k j ++ (programAt s).drop k) s := by
    simp [finish, hq, run_append]
  have hends := h.ends
  have hB := h.boundary
  obtain ⟨hcmd, _, hcode, hcount, haddr, _, _, _, hreset⟩ := finish_keeps s
  have hf : FlagsAgree (finish s) := hrun ▸ run_flagsAgree _ s h.flags
  have hidle : (finish s).seq = .idle := by
    rw [hrun] at hends ⊢
    exact run_seq_idle _ s hb hends
  refine inv_of_idle hends hidle hf (h.latched.congr hcmd hcode hcount haddr) hB fun hr' => ?_
  rw [hreset, hr] at hr'
  cases hr'

/-! ## The step -/

/-- At the start of its list, a command whose operands are latched is dispatched as it stands (R48, R124). -/
theorem dispatch_of_latched {s : State} {i : Instr} (hd : decode s.cmd = .ok i) (hl : Latched s) (hb : s.busy = true)
    (hq : s.seq = .running s.lcode 0 0) : dispatch i s = s := by
  have hfields := splitWord_of_decode hd
  unfold dispatch
  rw [← hfields, ← hl.code, ← hl.count, ← hl.addr, ← hb, ← hq]

/-- Under the invariant the engine's turn is the rest of the run, whether it starts a command or goes on (R21, R124). -/
theorem engineTurn_eq_finish {s : State} (h : Inv s) (hb : s.busy = true) : engineTurn s = .next (finish s) := by
  obtain ⟨k, j, hq⟩ := h.running hb
  by_cases hstart : k = 0 ∧ j = 0
  · obtain ⟨rfl, rfl⟩ := hstart
    rw [finish_of_start s _ hq]
    cases hd : decode s.cmd with
    | ok i =>
      rw [engineTurn_of_decode s _ i hq hd, exec_eq_run, dispatch_of_latched hd h.latched hb hq,
        programAt_of_decode s i hd]
    | error e => simp [engineTurn, fetch, hq, hd, execIllegal, programAt]
  · have hin := h.in_program hb
    unfold engineTurn
    split
    · rename_i hq'
      rw [hq] at hq'
      cases hq'
      exact absurd ⟨rfl, rfl⟩ hstart
    · rw [if_pos hin]

/-- Under the invariant a reset input that is asserted finds the reset values already there (R158). -/
theorem Inv.step_eq_nextTurn {s : State} (h : Inv s) : step s = nextTurn s := by
  cases hr : s.resetAsserted with
  | false => exact step_released s hr
  | true => rw [step, nextStep, underReset_asserted s hr, h.reset_holds hr]

/-- While the reset input is asserted no command runs (R158). -/
theorem Inv.released {s : State} (h : Inv s) (hb : s.busy = true) : s.resetAsserted = false := by
  by_contra hr
  rw [← h.reset_holds (by simpa using hr)] at hb
  cases hb

/-- Settles O56: a step is a turn; the engine waits, runs its command to the end, or serves an act of the outside, in an
idle state or after sequencer steps, and each of these keeps the invariant. -/
theorem everyStepKeepsTheInvariant : Obligations.EveryStepKeepsTheInvariant := by
  intro s t h ht
  rw [h.step_eq_nextTurn] at ht
  have hrest : ∀ rest, Inv { s with pending := rest } := fun rest =>
    h.withHost s.ovr s.reads s.readDraws rest fun _ => rfl
  rcases nextTurn_cases s t ht with ⟨_, _, rfl⟩ | ⟨hb, _, hturn⟩ | ⟨_, a, rest, _, _, hserve⟩ |
    ⟨n, a, rest, hb, _, hserve⟩
  · exact h
  · rw [engineTurn_eq_finish h hb] at hturn
    cases hturn
    exact inv_finish h hb (h.released hb)
  · exact inv_serve (hrest rest) a hserve
  · exact inv_serve (inv_advance n (hrest rest) (h.released hb)) a hserve

/-- No act of the outside faults: it answers, or is refused (R59, R155). -/
theorem serve_ne_fault (a : HostAct) (s : State) (f : Fault) : serve a s ≠ .fault f := by
  cases a with
  | read off width => simp only [serve]; split <;> simp
  | write off width v => simp only [serve]; split <;> simp
  | _ => simp [serve]

/-- Settles O57: a turn is the engine's, which under the invariant is the rest of the run, or an act of the outside. -/
theorem noFaultUnderTheInvariant : Obligations.NoFaultUnderTheInvariant := by
  intro s f h
  rw [h.step_eq_nextTurn]
  unfold nextTurn
  split
  · split
    · rename_i hb
      simp [engineTurn_eq_finish h hb]
    · nofun
  · split
    · rename_i hb
      split
      · simp [engineTurn_eq_finish h hb]
      · exact serve_ne_fault _ _ f
    · exact serve_ne_fault _ _ f

end Sys2Proof.Machine
end

section
/-! PROOFS. The register window: the reset values (O16), the accept (O5), accesses while a command runs (O6, O8), the
fields of STATUS and LINES (O10, O11), the map of the window (O12), and DBUF (O13). -/

namespace Sys2Proof.Machine

open Sys2Proof

/-- Settles O16. -/
theorem resetLeavesTheStatedValues : Obligations.ResetLeavesTheStatedValues := by
  refine ⟨rfl, rfl, fun l => ?_, rfl, rfl, rfl, rfl, rfl, rfl, rfl, rfl, rfl, rfl, rfl, rfl, fun _ => rfl⟩
  cases l <;> rfl

/-! ## The offsets of the window -/

theorem dbufIndex_entry (i : Nat) (h : i < 32) : dbufIndex (0x40 + 4 * i) = some i := by
  unfold dbufIndex
  rw [if_pos (by omega)]
  congr 1
  omega

theorem dbufIndex_outside (off : Nat) (h : off < 0x40 ∨ 0xC0 ≤ off) : dbufIndex off = none :=
  if_neg (by omega)

/-- A read at an offset of DBUF gets the entry, or a free value while BUSY = 1 (R45, R50). -/
theorem windowRead_of_entry (off i : Nat) (d : Word) (s : State) (h : 0x20 ≤ off) (hi : dbufIndex off = some i) :
    windowRead off d s = if s.busy then d else (dbufGet s i).setWidth 32 := by
  unfold windowRead
  split
  case h_9 => rw [hi]
  all_goals omega

/-- A read at a reserved offset gets 0 (R46). -/
theorem windowRead_of_reserved (off : Nat) (d : Word) (s : State) (h : 0x20 ≤ off) (hi : dbufIndex off = none) :
    windowRead off d s = 0#32 := by
  unfold windowRead
  split
  case h_9 => rw [hi]
  all_goals omega

theorem windowRead_entry (i : Nat) (hi : i < 32) (d : Word) (s : State) :
    windowRead (0x40 + 4 * i) d s = if s.busy then d else (dbufGet s i).setWidth 32 :=
  windowRead_of_entry _ i d s (by omega) (dbufIndex_entry i hi)

/-- Settles O12: the named registers by the map itself, the rest by the index of the DBUF entry at the offset. -/
theorem windowReadsFollowTheMap : Obligations.WindowReadsFollowTheMap := by
  intro s d
  exact ⟨rfl, rfl, rfl, rfl, rfl, rfl, rfl, rfl,
    fun off hlo hoff => windowRead_of_reserved off d s hlo (dbufIndex_outside off hoff),
    fun i hi => windowRead_entry i hi d s⟩

/-! ## Writes -/

/-- While idle, a write to a DBUF entry stores the low half there (R45). -/
theorem windowWrite_entry (i : Nat) (hi : i < 32) (v : Word) (s : State) (hb : s.busy = false) :
    windowWrite (0x40 + 4 * i) v s = { s with dbuf := dbufSet s.dbuf i (v.setWidth 16) } := by
  rw [windowWrite, if_neg (by omega), dbufIndex_entry i hi]
  simp [hb]

/-- A write outside CMD and DBUF has no effect (R46, R64). -/
theorem windowWrite_outside (off : Nat) (v : Word) (s : State) (h0 : off ≠ 0) (h : off < 0x40 ∨ 0xC0 ≤ off) :
    windowWrite off v s = s := by
  rw [windowWrite, if_neg h0, dbufIndex_outside off h]

theorem dbufGet_dbufSet_same (s : State) (i : Nat) (hi : i < 32) (w : Half) :
    dbufGet { s with dbuf := dbufSet s.dbuf i w } i = w := by
  simp [dbufGet, dbufSet, Vector.getD, hi]

theorem dbufGet_dbufSet_ne (s : State) (i j : Nat) (hj : j < 32) (hne : j ≠ i) (w : Half) :
    dbufGet { s with dbuf := dbufSet s.dbuf i w } j = dbufGet s j := by
  simp [dbufGet, dbufSet, Vector.getD, hj, hne.symm]

/-- Settles O13: what a write to an entry stores, and what a read gets of it. -/
theorem dbufWriteReadsBack : Obligations.DbufWriteReadsBack := by
  intro s d v i hb hi
  have hwrite := windowWrite_entry i hi v s hb
  refine ⟨?_, fun j hj hne => ?_, ⟨_, hwrite⟩, fun off h0 hoff => windowWrite_outside off v s h0 hoff⟩
  · rw [hwrite, windowRead_entry i hi, dbufGet_dbufSet_same s i hi, if_neg (by simp [hb])]
  · rw [hwrite, dbufGet_dbufSet_ne s i j hj hne]

/-! ## The fields of STATUS and LINES -/

/-- A field of a register is the one whose bits stand at the field's place. -/
theorem extractLsb'_eq_of_bits {v : Word} {k n : Nat} {f : BitVec n}
    (h : ∀ j, j < n → v.getLsbD (k + j) = f.getLsbD j) : v.extractLsb' k n = f := by
  apply BitVec.eq_of_getLsbD_eq
  intro j hj
  rw [BitVec.getLsbD_extractLsb', decide_eq_true hj, Bool.true_and, h j hj]

/-- CAUSE stands at bits 6 to 4 of STATUS (R38). -/
theorem statusReg_cause (s : State) : (statusReg s).extractLsb' 4 3 = causeCode s.cause :=
  extractLsb'_eq_of_bits fun j hj => by
    simp (disch := omega) only [statusReg, BitVec.getLsbD_append, if_pos, if_neg]
    congr 1
    omega

/-- MODE stands at bits 9 and 8 of STATUS (R38). -/
theorem statusReg_mode (s : State) : (statusReg s).extractLsb' 8 2 = modeCode s.mode :=
  extractLsb'_eq_of_bits fun j hj => by
    simp (disch := omega) only [statusReg, BitVec.getLsbD_append, if_pos, if_neg]
    congr 1
    omega

/-- Bits 31 to 10 of STATUS are reserved (R38). -/
theorem statusReg_reserved (s : State) : (statusReg s).extractLsb' 10 22 = 0#22 :=
  extractLsb'_eq_of_bits fun j hj => by
    simp (disch := omega) only [statusReg, BitVec.getLsbD_append, if_neg, BitVec.getLsbD_zero]

/-- Settles O10: the flags bit by bit, the two codes by the values of CAUSE and MODE. -/
theorem statusFieldsAtTheirBits : Obligations.StatusFieldsAtTheirBits := by
  refine ⟨fun s => ⟨?_, ?_, ?_, ?_, ?_, statusReg_reserved s, ?_, ?_⟩, rfl,
    fun s v => windowWrite_outside 0x04 v s (by decide) (.inl (by decide))⟩
  · simp only [statusReg, BitVec.getLsbD_append]; simp
  · simp only [statusReg, BitVec.getLsbD_append]; simp
  · simp only [statusReg, BitVec.getLsbD_append]; simp
  · simp only [statusReg, BitVec.getLsbD_append]; simp
  · simp only [statusReg, BitVec.getLsbD_append]; simp
  · rw [statusReg_cause]; cases s.cause <;> simp [causeCode]
  · rw [statusReg_mode]; cases s.mode <;> simp [modeCode]

/-- The three groups of LINES: DIR from bit 0, OUT from bit 8, IN from bit 16 (R40). -/
theorem linesReg_groups (s : State) (d : Word) (j : Nat) (hj : j < 5) :
    (linesReg s d).getLsbD j = (linesDir s.ports).getLsbD j ∧
      (linesReg s d).getLsbD (8 + j) = (linesOut s.ports).getLsbD j ∧
      (linesReg s d).getLsbD (16 + j) = (linesIn s.ports d).getLsbD j := by
  refine ⟨?_, ?_, ?_⟩ <;> simp (disch := omega) only [linesReg, BitVec.getLsbD_append, if_pos, if_neg] <;>
    · congr 1
      omega

/-- Between and above its groups LINES is 0 (R40). -/
theorem linesReg_reserved (s : State) (d : Word) :
    (linesReg s d).extractLsb' 5 3 = 0#3 ∧ (linesReg s d).extractLsb' 13 3 = 0#3 ∧
      (linesReg s d).extractLsb' 21 11 = 0#11 := by
  refine ⟨?_, ?_, ?_⟩ <;>
    · refine extractLsb'_eq_of_bits fun j hj => ?_
      simp (disch := omega) only [linesReg, BitVec.getLsbD_append, if_pos, if_neg, BitVec.getLsbD_zero]

theorem inBit_output (p : Port) (b : Bool) (h : p.dir = .output) : inBit p b = BitVec.ofBool p.out := by
  simp [inBit, h]

theorem inBit_input (p : Port) (b : Bool) (h : p.dir = .input) : inBit p b = BitVec.ofBool b := by
  simp [inBit, h]

/-- The bit of each port in the three groups, in the order PWR_N, CLK, OE, PGM, DAT (R40). -/
theorem lines_bits (p : Ports) (d : Word) (l : Line) (i : Nat)
    (h : (l, i) ∈ [(Line.pwrN, 0), (Line.clk, 1), (Line.oe, 2), (Line.pgm, 3), (Line.dat, 4)]) :
    i < 5 ∧ (linesDir p).getLsbD i = ((portOf p l).dir == .output) ∧ (linesOut p).getLsbD i = (portOf p l).out ∧
      (linesIn p d).getLsbD i = (inBit (portOf p l) (d.getLsbD i)).getLsbD 0 := by
  simp only [List.mem_cons, Prod.mk.injEq, List.not_mem_nil, or_false] at h
  rcases h with ⟨rfl, rfl⟩ | ⟨rfl, rfl⟩ | ⟨rfl, rfl⟩ | ⟨rfl, rfl⟩ | ⟨rfl, rfl⟩ <;>
    · simp only [linesDir, linesOut, linesIn, dirBit, portOf, BitVec.getLsbD_append, BitVec.getLsbD_ofBool]
      simp

/-- Settles O11: the bit of a port in each group of LINES; a read of LINES is only recorded. -/
theorem linesFieldsAtTheirBits : Obligations.LinesFieldsAtTheirBits := by
  refine ⟨fun s d l i hli => ?_, fun d => ?_, fun s => ⟨rfl, rfl, rfl, rfl⟩⟩
  · obtain ⟨hi, hdir, hout, hin⟩ := lines_bits s.ports d l i hli
    obtain ⟨gdir, gout, gin⟩ := linesReg_groups s d i hi
    refine ⟨gdir.trans hdir, gout.trans hout, fun ho => ?_, fun hn => ?_, linesReg_reserved s d⟩
    · rw [gin, hin, inBit_output _ _ ho, BitVec.getLsbD_ofBool]; simp
    · rw [gin, hin, inBit_input _ _ hn, BitVec.getLsbD_ofBool]; simp
  · refine extractLsb'_eq_of_bits fun j hj => ?_
    have hdir : linesDir State.reset.ports = 0#5 := rfl
    have hout : linesOut State.reset.ports = 0#5 := rfl
    simp only [linesReg, BitVec.getLsbD_append, hdir, hout, BitVec.getLsbD_zero]
    split_ifs <;> first | rfl | omega

/-! ## Accesses while a command runs -/

/-- Settles O6. -/
theorem busyWritesAreDropped : Obligations.BusyWritesAreDropped := by
  intro s off v hb
  rcases windowWrite_cases off v s with ⟨h0, _, hw⟩ | ⟨_, hb', _⟩ | ⟨_, hb', _⟩ | ⟨h0, hw⟩
  · rw [hw, if_pos h0]
  · rw [hb] at hb'; cases hb'
  · rw [hb] at hb'; cases hb'
  · rw [hw, if_neg h0]

/-- Settles O8: an access while busy replaces OVR or the host's record, which the rest of the run neither reads nor
writes. -/
theorem busyAccessesDoNotChangeTheRun : Obligations.BusyAccessesDoNotChangeTheRun := by
  intro s off v hb
  obtain ⟨_, hovr, _, _, _, hreads, hdraws, hpending, _⟩ := finish_keeps s
  have hwrite := finish_withHost (if off = 0x00 then true else s.ovr) s.reads s.readDraws s.pending s
  have hread := finish_withHost s.ovr ((off, windowRead off (Config.readDraw s.readDraws) s) :: s.reads)
    (s.readDraws + 1) s.pending s
  constructor
  · rw [busyWritesAreDropped s off v hb]
    calc _ = withHost _ s.reads s.readDraws s.pending (finish s) := hwrite
      _ = _ := by rw [← hreads, ← hdraws, ← hpending]; rfl
  · calc _ = withHost s.ovr _ _ s.pending (finish s) := hread
      _ = _ := by rw [← hovr, ← hpending]; rfl

/-! ## The accept -/

/-- A word that decodes is legal: its fields are a command's (R80). -/
theorem legalWord_of_decode {v : Word} {i : Instr} (h : decode v = .ok i) : legalWord v := by
  have hsplit := splitWord_of_decode h
  have hfields : v.extractLsb' 0 4 = i.fields.code ∧ v.extractLsb' 4 4 = i.fields.rsv0 ∧
      v.extractLsb' 8 5 = i.fields.n ∧ v.extractLsb' 13 3 = i.fields.rsv1 ∧ v.extractLsb' 16 16 = i.fields.addr := by
    rw [← hsplit]
    exact ⟨rfl, rfl, rfl, rfl, rfl⟩
  obtain ⟨hcode, hrsv0, hn, hrsv1, haddr⟩ := hfields
  rw [legalWord, hcode, hrsv0, hn, hrsv1, haddr]
  cases i <;> simp [Instr.fields]

/-- An accepted word that decodes to nothing fails in the step that runs it (R137). -/
theorem step_of_illegal (t : State) (c : Code) (hr : t.resetAsserted = false) (hb : t.busy = true)
    (hq : t.seq = .running c 0 0) (hn : nothingLands t = true) (hd : ∀ i, decode t.cmd ≠ .ok i) :
    step t = .next (failCommand .illegal t) := by
  rw [step_released t hr, nextTurn_of_nothingLands t hb hn]
  cases he : decode t.cmd with
  | ok i => exact absurd he (hd i)
  | error e => simp [engineTurn, fetch, hq, he, execIllegal, run_illegalProgram t hb]

/-- Settles O5: idle, the write is served at once and is the accept; the step after it is the engine's turn, which is
the word's meaning, or the failure of an illegal word. -/
theorem acceptLatchesAndClears : Obligations.AcceptLatchesAndClears := by
  intro s g v rest hr hb hp
  have haccept : step s = .next (accept v { s with pending := rest }) := by
    rw [step_released s hr, nextTurn]
    simp [hp, hb, serve, accessSupported, hostWrite, hr, windowWrite]
  refine ⟨_, haccept, rfl, fun hn => ⟨fun i hd => ?_, fun hill => ?_⟩⟩
  · exact stepRunsTheAcceptedCommand _ _ i hr rfl rfl hn (fields_legal i) hd
  · exact step_of_illegal _ _ hr rfl rfl hn fun i hd => hill (legalWord_of_decode hd)

end Sys2Proof.Machine
end

section
/-! PROOFS. The four one-way lines stay outputs (O54), and the internal registers a command does not use it leaves alone
(O46): both are kept operation by operation. -/

namespace Sys2Proof.Machine

open Sys2Proof

/-! ## The one-way lines -/

theorem LinesDriven.of_ports {s t : State} (h : LinesDriven s) (hp : t.ports = s.ports) : LinesDriven t :=
  ⟨hp ▸ h.pwrN, hp ▸ h.clk, hp ▸ h.oe, hp ▸ h.pgm⟩

theorem setDir_linesDriven (l : Line) (d : Dir) (hl : l = .dat ∨ d = .output) (s : State) (h : LinesDriven s) :
    LinesDriven (setDir l d s) := by
  obtain ⟨hpwrN, hclk, hoe, hpgm⟩ := h
  rcases hl with rfl | rfl
  · exact ⟨hpwrN, hclk, hoe, hpgm⟩
  · cases l <;> constructor <;> first | rfl | assumption

theorem drive_linesDriven (l : Line) (b : Bool) (s : State) (h : LinesDriven s) : LinesDriven (drive l b s) := by
  obtain ⟨hpwrN, hclk, hoe, hpgm⟩ := h
  cases l <;> exact ⟨hpwrN, hclk, hoe, hpgm⟩

/-- No operation of a command's list, nor of the poll loop's body, makes one of the four lines an input (R26). -/
theorem execMicro_linesDriven (m : Micro) (hm : m.listed = true ∨ m ∈ pollBodyOps) (s : State) (h : LinesDriven s) :
    LinesDriven (execMicro m s) := by
  induction m generalizing s with
  | setDir l d =>
    refine setDir_linesDriven l d ?_ s h
    rcases hm with hm | hm
    · simpa [Micro.listed] using hm
    · simp [pollBodyOps, clkOps] at hm
  | drive l b => exact drive_linesDriven l b s h
  | driveOpcodeBit src k => exact drive_linesDriven .oe _ s h
  | driveValueBit src k => exact drive_linesDriven .oe _ s h
  | unlessMode m a ih =>
    have ha : a.listed = true := by
      rcases hm with hm | hm
      · exact hm
      · simp [pollBodyOps, clkOps] at hm
    unfold execMicro
    split
    · exact h
    · exact ih (.inl ha) s h
  | pollLoop b =>
    exact ⟨(congrArg Port.dir (pollTicks_pwrN _ s)).trans h.pwrN, (pollTicks_clk_dir _ s).trans h.clk,
      (congrArg Port.dir (pollTicks_oe _ s)).trans h.oe, (congrArg Port.dir (pollTicks_pgm _ s)).trans h.pgm⟩
  | sampleWord => exact h.of_ports (sampleWord_ports s)
  | sampleStatus => exact h.of_ports (sampleStatus_ports s)
  | samplePoll => exact h.of_ports (samplePoll_ports s)
  | failUnlessMatch c => unfold execMicro; split <;> exact h.of_ports rfl
  | failUnlessReady c => unfold execMicro; split <;> exact h.of_ports rfl
  | _ => exact h.of_ports rfl

theorem run_linesDriven (p : List Micro) (hp : ∀ m ∈ p, m.listed = true ∨ m ∈ pollBodyOps) (s : State)
    (h : LinesDriven s) : LinesDriven (run p s) :=
  run_induct LinesDriven p (fun m hm u hu => execMicro_linesDriven m (hp m hm) u hu) s h

theorem sequencerStep_linesDriven (s : State) (h : LinesDriven s) : LinesDriven (sequencerStep s) := by
  rcases sequencerStep_place s with he | ⟨c, k, j, k', j', u, _, _, he, _, hu⟩ <;> rw [he]
  · exact h
  · have hdriven : LinesDriven u := by
      rcases hu with rfl | ⟨m, hm, rfl⟩
      · exact h
      · exact execMicro_linesDriven m (hm.imp_left (programAt_listed s m)) s h
    refine hdriven.of_ports ?_
    unfold placeAt
    split <;> rfl

theorem advance_linesDriven (n : Nat) (s : State) (h : LinesDriven s) : LinesDriven (advance n s) := by
  induction n generalizing s with
  | zero => exact h
  | succ n ih => exact ih _ (sequencerStep_linesDriven s h)

/-- What is left of a tick is part of the poll loop's body (R116). -/
theorem mem_restOfTick {p : List Micro} {k j : Nat} {m : Micro} (h : m ∈ restOfTick p k j) : m ∈ pollBodyOps := by
  unfold restOfTick at h
  split at h
  · split at h
    · cases h
    · exact List.mem_of_mem_drop h
  · cases h

theorem finish_linesDriven (s : State) (h : LinesDriven s) : LinesDriven (finish s) := by
  unfold finish
  split
  · exact h
  · refine run_linesDriven _ (fun m hm => .inl ?_) _ (run_linesDriven _ (fun m hm => .inr (mem_restOfTick hm)) s h)
    exact programAt_listed s m (List.mem_of_mem_drop hm)

theorem engineTurn_linesDriven {s t : State} (h : LinesDriven s) (ht : engineTurn s = .next t) : LinesDriven t := by
  rcases engineTurn_next s t ht with ⟨_, i, _, _, hexec⟩ | ⟨_, _, _, _, rfl⟩ | ⟨_, rfl⟩
  · rw [exec_eq_run] at hexec
    cases hexec
    have hlisted := List.all_eq_true.mp (programOf_listed i)
    exact run_linesDriven _ (fun m hm => .inl (hlisted m hm)) _ (h.of_ports rfl)
  · refine run_linesDriven illegalProgram (fun m hm => .inl ?_) s h
    simp only [illegalProgram, List.mem_singleton] at hm
    rw [hm]
    rfl
  · exact finish_linesDriven s h

/-- An act of the outside other than the block reset leaves the ports, while the reset input is released (R158). -/
theorem serve_linesDriven {s t : State} {a : HostAct} (h : LinesDriven s) (hr : s.resetAsserted = false)
    (ha : a ≠ .assertReset) (ht : serve a s = .next t) : LinesDriven t := by
  rcases serve_next a s t ht with ⟨off, _, _, rfl⟩ | ⟨off, v, _, _, rfl⟩ | ⟨rfl, _⟩ | ⟨_, rfl⟩
  · exact h.of_ports rfl
  · rw [hostWrite_released s off v hr]
    rcases windowWrite_cases off v s with ⟨_, _, hw⟩ | ⟨_, _, hw⟩ | ⟨_, _, d, hw⟩ | ⟨_, hw⟩ <;> rw [hw] <;>
      exact h.of_ports rfl
  · exact absurd rfl ha
  · rwa [releaseReset_released s hr]

/-- Settles O54: a turn is the engine's, or an act of the outside that is not the block reset, in an idle state or after
sequencer steps. -/
theorem drivenLinesStayDriven : Obligations.DrivenLinesStayDriven := by
  intro s t h hr hreset ht
  rw [step_released s hr] at ht
  rcases nextTurn_cases s t ht with ⟨_, _, rfl⟩ | ⟨_, _, hturn⟩ | ⟨g, a, rest, hb, hp, hserve⟩ |
    ⟨n, a, rest, _, hp, hserve⟩
  · exact h
  · exact engineTurn_linesDriven h hturn
  · refine serve_linesDriven (s := { s with pending := rest }) (h.of_ports rfl) hr ?_ hserve
    rintro rfl
    obtain ⟨hb', _⟩ := hreset (by simp [resetIsNext, hp])
    rw [hb] at hb'
    cases hb'
  · have hdriven : LinesDriven { s with pending := rest } := h.of_ports rfl
    refine serve_linesDriven (advance_linesDriven n _ hdriven) ((advance_keeps n _).2.2.trans hr) ?_ hserve
    rintro rfl
    obtain ⟨_, hn⟩ := hreset (by simp [resetIsNext, hp])
    simp [nothingLands, hp] at hn

/-! ## The internal registers -/

/-- The registers no host register shows, the poll's two together (R33, R35). -/
inductive Internal where
  | shift16
  | shift8
  | bitcnt
  | poll
  | widx
  deriving DecidableEq

/-- An internal register, or the pair it stands for, is the same in two states. -/
def Internal.same (r : Internal) (s t : State) : Prop :=
  match r with
  | .shift16 => t.shift16 = s.shift16
  | .shift8 => t.shift8 = s.shift8 ∧ t.matched = s.matched
  | .bitcnt => t.bitcnt = s.bitcnt
  | .poll => t.pollctr = s.pollctr ∧ t.ready = s.ready
  | .widx => t.widx = s.widx

/-- The operations that write an internal register (R33, R35). -/
def Micro.writes (r : Internal) : Micro → Bool
  | .unlessMode _ a => a.writes r
  | .setBit _ => r = .bitcnt
  | .setWidx _ => r = .widx
  | .sampleWord => r = .shift16
  | .sampleStatus => r = .shift8
  | .latchStatus => r = .shift8
  | .samplePoll => r = .poll
  | .startPoll => r = .poll
  | .pollLoop _ => r = .poll
  | _ => false

theorem Internal.same_refl (r : Internal) (s : State) : r.same s s := by
  cases r <;> simp [Internal.same]

theorem Internal.same_trans {r : Internal} {s t u : State} (h : r.same s t) (k : r.same t u) : r.same s u := by
  cases r <;> simp_all [Internal.same]

/-- An operation that does not write an internal register leaves it. -/
theorem execMicro_same (r : Internal) (m : Micro) (hm : m.writes r = false) (s : State) : r.same s (execMicro m s) := by
  induction m generalizing s with
  | unlessMode m a ih =>
    unfold execMicro
    split
    · exact r.same_refl s
    · exact ih hm s
  | failUnlessMatch c => unfold execMicro; split <;> cases r <;> simp [Internal.same]
  | failUnlessReady c => unfold execMicro; split <;> cases r <;> simp [Internal.same]
  | _ => cases r <;> simp_all [Internal.same, Micro.writes, execMicro]

/-- A list without an operation that writes an internal register leaves it. -/
theorem run_same (r : Internal) (p : List Micro) (hp : p.any (Micro.writes r) = false) (s : State) :
    r.same s (run p s) := by
  refine run_induct (r.same s) p (fun m hm u hu => Internal.same_trans hu ?_) s (r.same_refl s)
  exact execMicro_same r m (by simpa using List.any_eq_false.mp hp m hm) u

/-! ### What each phase writes -/

section
variable (r : Internal)

/-- A loop writes what its passes write. -/
theorem any_repeatOps (f : Nat → List Micro) (c : Bool) (h : ∀ j, (f j).any (Micro.writes r) = c) (n : Nat) :
    (repeatOps (n + 1) f).any (Micro.writes r) = c := by
  induction n with
  | zero => simpa [repeatOps] using h 0
  | succ n ih => rw [repeatOps_succ, List.any_append, ih, h, Bool.or_self]

@[simp] theorem clkOps_writes : clkOps.any (Micro.writes r) = false := rfl

@[simp] theorem setWriteModeOps_writes : setWriteModeOps.any (Micro.writes r) = false := rfl

@[simp] theorem setReadModeOps_writes : setReadModeOps.any (Micro.writes r) = false := rfl

@[simp] theorem enterWriteDataOps_writes : enterWriteDataOps.any (Micro.writes r) = false := rfl

@[simp] theorem pulsesOps_writes (n : Nat) : (pulsesOps (n + 1)).any (Micro.writes r) = false :=
  any_repeatOps r _ false (fun _ => rfl) n

theorem statusBitsOps_writes :
    (repeatOps 8 statusBitOps).any (Micro.writes r) = (r = .bitcnt ∨ r = .shift8 : Bool) :=
  any_repeatOps r _ _ (fun j => by simp [statusBitOps, Micro.writes]) 7

@[simp] theorem checkStatusOps_writes (c : Cause) :
    (checkStatusOps c).any (Micro.writes r) = (r = .bitcnt ∨ r = .shift8 : Bool) := by
  simp only [checkStatusOps, recvStatusOps, List.any_append, statusBitsOps_writes]
  cases r <;> rfl

@[simp] theorem sendOpcodeOps_writes (src : OpcodeSrc) (c : Cause) :
    (sendOpcodeOps src c).any (Micro.writes r) = (r = .bitcnt ∨ r = .shift8 : Bool) := by
  have hbits : (repeatOps 16 (opcodeBitOps src)).any (Micro.writes r) = (r = .bitcnt : Bool) :=
    any_repeatOps r _ _ (fun j => by simp [opcodeBitOps, Micro.writes]) 15
  simp only [sendOpcodeOps, List.any_append, hbits, checkStatusOps_writes]
  cases r <;> rfl

@[simp] theorem sendValueOps_writes (src : ValueSrc) (c : Cause) :
    (sendValueOps src c).any (Micro.writes r) = (r = .bitcnt ∨ r = .shift8 : Bool) := by
  have hbits : (repeatOps 32 (valueBitOps src)).any (Micro.writes r) = (r = .bitcnt : Bool) :=
    any_repeatOps r _ _ (fun j => by simp [valueBitOps, Micro.writes]) 31
  simp only [sendValueOps, List.any_append, hbits, checkStatusOps_writes]
  cases r <;> rfl

@[simp] theorem recvWordOps_writes :
    recvWordOps.any (Micro.writes r) = (r = .bitcnt ∨ r = .shift16 : Bool) := by
  have hbits : (repeatOps 16 wordBitOps).any (Micro.writes r) = (r = .bitcnt ∨ r = .shift16 : Bool) :=
    any_repeatOps r _ _ (fun j => by simp [wordBitOps, Micro.writes]) 15
  simp [recvWordOps, hbits]

@[simp] theorem pollOps_writes (b : Nat) :
    (pollOps b).any (Micro.writes r) = (r = .bitcnt ∨ r = .shift8 ∨ r = .poll : Bool) := by
  simp only [pollOps, List.any_append, statusBitsOps_writes]
  cases r <;> rfl

@[simp] theorem checkOps_writes : checkOps.any (Micro.writes r) = (r = .bitcnt ∨ r = .shift8 : Bool) :=
  sendOpcodeOps_writes r _ _

@[simp] theorem readWords_writes (n : Nat) :
    (repeatOps (n + 1) readWordOps).any (Micro.writes r) = (r = .bitcnt ∨ r = .shift16 ∨ r = .widx : Bool) :=
  any_repeatOps r _ _ (fun j => by
    simp only [readWordOps, List.any_append, recvWordOps_writes]
    cases r <;> rfl) n

@[simp] theorem writeWords_writes (n : Nat) :
    (repeatOps (n + 1) writeWordOps).any (Micro.writes r) = (r = .bitcnt ∨ r = .shift8 ∨ r = .widx : Bool) :=
  any_repeatOps r _ _ (fun j => by
    simp only [writeWordOps, List.any_append, sendValueOps_writes]
    cases r <;> rfl) n

@[simp] theorem unlockProgram_writes : unlockProgram.any (Micro.writes r) = (r = .bitcnt : Bool) := by
  have hbits : ∀ pair, (unlockPairOps pair).any (Micro.writes r) = (r = .bitcnt : Bool) := fun pair =>
    any_repeatOps r _ _ (fun j => by simp [unlockBitOps, Micro.writes]) 7
  have hpairs := any_repeatOps r (fun n => unlockPairOps (Config.unlockPairs (Fin.ofNat 8 n))) _ (fun _ => hbits _) 7
  rw [unlockProgram, List.any_append, hpairs]
  cases r <;> rfl

end

/-- The internal registers a command uses: BITCNT in every frame, SHIFT8 in every status, SHIFT16 to receive words, the
poll's registers in a poll, and WIDX in a multi-word command (R33, R35). -/
def usedInternals : Instr → List Internal
  | .powerup | .shutdown => []
  | .unlock => [.bitcnt]
  | .check => [.bitcnt, .shift8]
  | .readw _ | .readid => [.bitcnt, .shift8, .shift16]
  | .readn _ _ => [.bitcnt, .shift8, .shift16, .widx]
  | .writew _ | .eraseall | .erasepage _ => [.bitcnt, .shift8, .poll]
  | .writen _ _ => [.bitcnt, .shift8, .poll, .widx]

/-- A command's list writes the internal registers the command uses, and no other. -/
theorem programOf_writes (r : Internal) (i : Instr) :
    (programOf i).any (Micro.writes r) = (r ∈ usedInternals i : Bool) := by
  cases i with
  | powerup => rfl
  | shutdown => rfl
  | unlock => simp [programOf, usedInternals]
  | _ =>
    simp only [programOf, checkProgram, readwProgram, readnProgram, writewProgram, writenProgram, eraseallProgram,
      erasepageProgram, readidProgram, List.any_append, checkOps_writes, sendOpcodeOps_writes, sendValueOps_writes,
      checkStatusOps_writes, recvWordOps_writes, pollOps_writes, readWords_writes, writeWords_writes, pulsesOps_writes]
    cases r <;> rfl

/-- A command leaves the internal registers it does not use (R33). -/
theorem run_programOf_same (r : Internal) (i : Instr) (s : State) (h : r ∉ usedInternals i) :
    r.same s (run (programOf i) (dispatch i s)) := by
  have hsame : r.same s (dispatch i s) := by cases r <;> simp [Internal.same]
  exact Internal.same_trans hsame (run_same r _ (by simpa [programOf_writes] using h) _)

/-- Settles O46: each register named is one the command's list does not write. -/
theorem unusedInternalRegistersStay : Obligations.UnusedInternalRegistersStay := by
  intro s i
  have hsame := fun r => run_programOf_same r i s
  refine ⟨_, exec_eq_run i s, fun hw hn hid => ?_, fun hb => ?_, fun hr hw => ?_, fun hc => ?_, fun hl => ?_⟩
  · refine hsame .shift16 ?_
    cases i <;> simp_all [usedInternals]
  · refine hsame .poll ?_
    cases i <;> simp_all [usedInternals, budgetOf]
  · refine hsame .widx ?_
    cases i <;> simp_all [usedInternals]
  · refine hsame .shift8 ?_
    cases i <;> simp_all [usedInternals, isChipCommand]
  · refine hsame .bitcnt ?_
    rcases hl with rfl | rfl <;> simp [usedInternals]

end Sys2Proof.Machine
end

section
/-! PROOFS. The internal registers are written before they are read (O47): two states that agree on everything else go
through every phase alike, since each phase fills SHIFT8, SHIFT16 or the poll's registers itself before it uses them. -/

namespace Sys2Proof.Machine

open Sys2Proof

/-- Two states differ at most in the registers no host register shows (R33, R35). -/
def SameOutside (s u : State) : Prop := forgetInternals s = forgetInternals u

/-- A step that does the same to states that differ in the internal registers only. -/
def Blind (g : State → State) : Prop := ∀ s u, SameOutside s u → SameOutside (g s) (g u)

/-- It is enough that forgetting the internal registers first makes no difference. -/
theorem blind_of_forget {g : State → State} (h : ∀ s, forgetInternals (g s) = forgetInternals (g (forgetInternals s))) :
    Blind g := by
  intro s u hs
  unfold SameOutside at hs ⊢
  rw [h s, h u, hs]

theorem Blind.comp {g k : State → State} (hg : Blind g) (hk : Blind k) : Blind (fun s => k (g s)) :=
  fun s u h => hk _ _ (hg s u h)

theorem Blind.loop {g : Nat → State → State} (hg : ∀ j, Blind (g j)) (n : Nat) : Blind (loopState n g) := by
  induction n with
  | zero => exact fun _ _ h => h
  | succ n ih => exact fun s u h => hg n _ _ (ih s u h)

namespace SameOutside

variable {s u : State} (h : SameOutside s u)
include h

theorem busy : s.busy = u.busy := (congrArg State.busy h :)

theorem dat : s.ports.dat = u.ports.dat := (congrArg (fun t : State => t.ports.dat) h :)

theorem mode : s.mode = u.mode := (congrArg State.mode h :)

theorem upcoming (j : Nat) : upcoming s j = Machine.upcoming u j := (congrArg (Machine.upcoming · j) h :)

theorem statusByte (k : Nat) : statusByte s k = Machine.statusByte u k := (congrArg (Machine.statusByte · k) h :)

theorem datLevel : datLevel s = Machine.datLevel u := (congrArg Machine.datLevel h :)

theorem fail (c : Cause) : SameOutside (failCommand c s) (failCommand c u) := (congrArg (failCommand c) h :)

theorem succeed : SameOutside (succeedCommand s) (succeedCommand u) := (congrArg succeedCommand h :)

end SameOutside

/-! ## The primitives -/

/-- A sample uses up the target's level whatever the internal registers hold. -/
theorem forget_afterSample (s : State) : forgetInternals (afterSample s) = afterSample (forgetInternals s) := by
  unfold afterSample
  rw [show (forgetInternals s).ports = s.ports from rfl]
  cases s.ports.dat.dir <;> rfl

theorem blind_clkPulse : Blind clkPulse := blind_of_forget fun _ => rfl

theorem blind_setWriteMode : Blind setWriteMode := blind_of_forget fun s => by
  unfold setWriteMode
  rw [show (forgetInternals s).mode = s.mode from rfl]
  split <;> rfl

theorem blind_setReadMode : Blind setReadMode := blind_of_forget fun s => by
  unfold setReadMode
  rw [show (forgetInternals s).mode = s.mode from rfl]
  split <;> rfl

theorem blind_enterWriteData : Blind enterWriteData := blind_of_forget fun _ => rfl

theorem blind_opcodeBit (src : OpcodeSrc) (j : Nat) : Blind (opcodeBit src j) :=
  blind_of_forget fun _ => by cases src <;> rfl

theorem blind_valueBit (src : ValueSrc) (j : Nat) : Blind (valueBit src j) :=
  blind_of_forget fun _ => by cases src <;> rfl

theorem blind_afterSample : Blind afterSample := fun s u h => by
  unfold SameOutside at h ⊢
  rw [forget_afterSample, forget_afterSample, h]

theorem blind_statusBit (j : Nat) : Blind (statusBit j) :=
  ((blind_of_forget (g := setBit j) fun _ => rfl).comp blind_clkPulse).comp blind_afterSample

theorem blind_wordBit (j : Nat) : Blind (wordBit j) :=
  ((blind_of_forget (g := setBit j) fun _ => rfl).comp blind_clkPulse).comp blind_afterSample

theorem blind_pulses (n : Nat) : Blind (pulses n) := Blind.loop (fun _ => blind_clkPulse) n

theorem blind_unlockPair (n : Nat) : Blind (unlockPair n) :=
  Blind.loop (fun _ => blind_of_forget fun _ => rfl) 8

/-! ## The phases -/

/-- Two status bytes assembled alike are latched alike (R111). -/
theorem latchStatus_same {s u : State} (h : SameOutside s u) (hs : s.shift8 = u.shift8) :
    SameOutside (latchStatus s) (latchStatus u) ∧ (latchStatus s).matched = (latchStatus u).matched :=
  ⟨(congrArg₂ (fun (t : State) b => { t with laststat := b }) h hs :), by simp [hs]⟩

/-- Eight samples fill SHIFT8 (R111). -/
theorem statusBits_same {s u : State} (h : SameOutside s u) (hi : s.ports.dat.dir = .input) :
    SameOutside (loopState 8 statusBit s) (loopState 8 statusBit u) ∧
      (loopState 8 statusBit s).shift8 = (loopState 8 statusBit u).shift8 := by
  refine ⟨Blind.loop blind_statusBit 8 s u h, ?_⟩
  rw [statusBits_shift8 s hi, statusBits_shift8 u (h.dat ▸ hi), h.statusByte]

theorem recvStatus_same {s u : State} (h : SameOutside s u) (hi : ReadsAsInput s) :
    SameOutside (recvStatus s) (recvStatus u) ∧ (recvStatus s).matched = (recvStatus u).matched := by
  obtain ⟨hbits, hshift⟩ := statusBits_same (blind_setReadMode s u h) (setReadMode_input s hi)
  exact latchStatus_same (blind_clkPulse _ _ hbits) hshift

theorem pollStatus_same {s u : State} (h : SameOutside s u) (hi : s.ports.dat.dir = .input) :
    SameOutside (pollStatus s) (pollStatus u) ∧ (pollStatus s).matched = (pollStatus u).matched := by
  obtain ⟨hbits, hshift⟩ := statusBits_same h hi
  exact latchStatus_same hbits hshift

theorem sendOpcode_same (src : OpcodeSrc) {s u : State} (h : SameOutside s u) :
    SameOutside (sendOpcode src s) (sendOpcode src u) ∧ (sendOpcode src s).matched = (sendOpcode src u).matched :=
  recvStatus_same (Blind.loop (blind_opcodeBit src) 16 _ _ (blind_setWriteMode s u h)) (sendOpcode_enters src s)

theorem sendValue_same (src : ValueSrc) {s u : State} (h : SameOutside s u) :
    SameOutside (sendValue src s) (sendValue src u) ∧ (sendValue src s).matched = (sendValue src u).matched :=
  recvStatus_same
    (Blind.loop (blind_valueBit src) 32 _ _ (blind_enterWriteData _ _ (blind_setWriteMode s u h)))
    (sendValue_enters src s)

/-- Sixteen samples fill SHIFT16 (R110). -/
theorem recvWord_same {s u : State} (h : SameOutside s u) (hi : ReadsAsInput s) :
    SameOutside (recvWord s) (recvWord u) ∧ (recvWord s).shift16 = (recvWord u).shift16 := by
  refine ⟨Blind.loop blind_wordBit 16 _ _ (blind_setReadMode s u h), ?_⟩
  have hiu : ReadsAsInput u := by
    unfold ReadsAsInput at hi ⊢
    rwa [← h.mode, ← h.dat]
  apply BitVec.eq_of_getLsbD_eq
  intro j hj
  rw [recvWord_shift16 s hi j hj, recvWord_shift16 u hiu j hj, h.upcoming]

/-- A received word is stored alike (R110). -/
theorem storeWord_same (i : Nat) {s u : State} (h : SameOutside s u) (hs : s.shift16 = u.shift16) :
    SameOutside (storeWord i s) (storeWord i u) :=
  (congrArg₂ (fun (t : State) w => { t with dbuf := dbufSet t.dbuf i w }) h hs :)

/-- In a poll the two states agree on POLLCTR and ready as well. -/
structure SamePoll (s u : State) : Prop where
  outside : SameOutside s u
  pollctr : s.pollctr = u.pollctr
  ready : s.ready = u.ready

theorem pollTick_same {s u : State} (h : SamePoll s u) : SamePoll (pollTick s) (pollTick u) := by
  have hclk := blind_clkPulse s u h.outside
  exact ⟨blind_afterSample _ _ hclk, by simp [pollTick, h.pollctr], by simp [pollTick, hclk.datLevel, h.ready]⟩

theorem pollTicks_same (n : Nat) {s u : State} (h : SamePoll s u) : SamePoll (pollTicks n s) (pollTicks n u) := by
  induction n generalizing s u with
  | zero => exact h
  | succ n ih =>
    unfold pollTicks
    rw [← h.ready]
    split
    · exact h
    · exact ih (pollTick_same h)

/-- A poll starts with POLLCTR and ready cleared (R116). -/
theorem pollWait_same (b : Nat) {s u : State} (h : SameOutside s u) :
    SameOutside (pollWait b s) (pollWait b u) ∧ (pollWait b s).ready = (pollWait b u).ready := by
  have hstart : SamePoll (startPoll (setReadMode s)) (startPoll (setReadMode u)) :=
    ⟨(blind_of_forget fun _ => rfl : Blind startPoll) _ _ (blind_setReadMode s u h), rfl, rfl⟩
  obtain ⟨houtside, hctr, hready⟩ := pollTicks_same b hstart
  exact ⟨(congrArg₂ (fun (t : State) c => { t with pollcnt := c }) houtside hctr :), hready⟩

/-! ## The commands -/

/-- A phase whose caller fails on a bad status, in both states (R144). -/
theorem orFail_same {p : List Micro} {s u s' u' : State} {c : Cause}
    (hs : run (p ++ []) s = if s'.matched then run [] s' else failCommand c s')
    (hu : run (p ++ []) u = if u'.matched then run [] u' else failCommand c u')
    (h : SameOutside s' u' ∧ s'.matched = u'.matched) : SameOutside (run p s) (run p u) := by
  obtain ⟨hsame, hmatched⟩ := h
  rw [← List.append_nil p, hs, hu, ← hmatched]
  split
  · exact hsame
  · exact hsame.fail c

/-- Two states in the middle of a chip command that started in `o`: alike outside, and ready to receive. -/
structure ChipSame (o s u : State) : Prop where
  outside : SameOutside s u
  reading : LeftReading o s

/-- After a word reception SHIFT16 agrees as well, if the command goes on. -/
structure WordSame (o s u : State) : Prop extends ChipSame o s u where
  shift16 : s.busy = true → s.shift16 = u.shift16

theorem ChipSame.readsAsInput {o s u : State} (h : ChipSame o s u) : ReadsAsInput s := fun _ => h.reading.input

/-- An idle engine runs nothing, so the lists have to be compared from busy states only. -/
theorem chipSame_of_busy {o : State} {p : List Micro}
    (hread : RunLeads (fun s _ => LeftReading o s) (fun s _ => LeftReading o s) p)
    (h : ∀ s u, s.busy = true → u.busy = true → ChipSame o s u → SameOutside (run p s) (run p u)) :
    RunLeads (ChipSame o) (ChipSame o) p := by
  intro s u hs
  refine ⟨?_, hread s u hs.reading⟩
  cases hb : s.busy with
  | true => exact h s u hb (hs.outside.busy ▸ hb) hs
  | false =>
    rw [run_idle p s hb, run_idle p u (hs.outside.busy ▸ hb)]
    exact hs.outside

theorem pollOps_same (b : Nat) {o s u : State} (hb : s.busy = true) (hub : u.busy = true) (h : ChipSame o s u) :
    SameOutside (run (pollOps b) s) (run (pollOps b) u) := by
  obtain ⟨hwait, hready⟩ := pollWait_same b h.outside
  have hinput := ((leftReading_primitives o).pollWait b s h.reading).input
  have hs := run_pollOps b [] s hb
  have hu := run_pollOps b [] u hub
  rw [← hready] at hu
  cases hr : (pollWait b s).ready with
  | true =>
    rw [hr, if_pos rfl] at hs hu
    exact orFail_same hs hu (pollStatus_same hwait hinput)
  | false =>
    rw [hr, if_neg (by simp), List.append_nil] at hs hu
    rw [hs, hu]
    exact hwait.fail _

/-- A word reception leaves SHIFT16 alike, unless the command has ended before (R110). -/
theorem chipSame_word (o : State) : RunLeads (ChipSame o) (WordSame o) recvWordOps := by
  intro s u h
  have hread := (leftReading_primitives o).phases.word s u h.reading
  cases hb : s.busy with
  | true =>
    obtain ⟨hsame, hshift⟩ := recvWord_same h.outside h.readsAsInput
    rw [run_recvWordOps s hb] at hread ⊢
    rw [run_recvWordOps u (h.outside.busy ▸ hb)]
    exact ⟨⟨hsame, hread⟩, fun _ => hshift⟩
  | false =>
    rw [run_idle _ s hb, run_idle _ u (h.outside.busy ▸ hb)]
    exact ⟨h, fun hend => by rw [hb] at hend; cases hend⟩

/-- The received word is stored alike (R129, R130, R135). -/
theorem chipSame_store (o : State) (i : Nat) : RunLeads (WordSame o) (ChipSame o) [.storeWord i] := by
  intro s u h
  refine ⟨?_, (leftReading_primitives o).phases.store i s u h.reading⟩
  cases hb : s.busy with
  | true =>
    rw [run_storeWord i [] s hb, run_storeWord i [] u (h.outside.busy ▸ hb)]
    exact storeWord_same i h.outside (h.shift16 hb)
  | false =>
    rw [run_idle _ s hb, run_idle _ u (h.outside.busy ▸ hb)]
    exact h.outside

/-- Every phase of a chip command goes alike in two states that are alike outside the internal registers. -/
theorem chipSame_phases (o : State) : PhasesKeep (ChipSame o) (WordSame o) := by
  have hphases := (leftReading_primitives o).phases
  exact {
    opcode := fun src => chipSame_of_busy (hphases.opcode src) fun s u hb hub h =>
      orFail_same (run_sendOpcodeOps src _ [] s hb) (run_sendOpcodeOps src _ [] u hub) (sendOpcode_same src h.outside)
    value := fun src => chipSame_of_busy (hphases.value src) fun s u hb hub h =>
      orFail_same (run_sendValueOps src _ [] s hb) (run_sendValueOps src _ [] u hub) (sendValue_same src h.outside)
    status := chipSame_of_busy hphases.status fun s u hb hub h =>
      orFail_same (run_checkStatusOps _ [] s hb) (run_checkStatusOps _ [] u hub)
        (recvStatus_same h.outside h.readsAsInput)
    word := chipSame_word o
    store := chipSame_store o
    widx := fun i => chipSame_of_busy (hphases.widx i) fun s u hb hub h => by
      rw [run_setWidx i [] s hb, run_setWidx i [] u hub]
      exact (blind_of_forget fun _ => rfl : Blind (setWidx i)) s u h.outside
    bare := fun n => chipSame_of_busy (hphases.bare n) fun s u hb hub h => by
      rw [run_pulsesOps n s hb, run_pulsesOps n u hub]
      exact blind_pulses n s u h.outside
    poll := fun b => chipSame_of_busy (hphases.poll b) fun s u hb hub h => pollOps_same b hb hub h
    success := chipSame_of_busy hphases.success fun s u hb hub h => by
      rw [run_succeed s hb, run_succeed u hub]
      exact h.outside.succeed }

/-- The liveness check makes the two states ready to receive alike (R125). -/
theorem chipSame_checkOps (o : State) (hb : o.busy = true) :
    RunLeads (fun s u => s = o ∧ SameOutside s u) (ChipSame o) checkOps := by
  rintro s u ⟨rfl, h⟩
  exact ⟨orFail_same (run_sendOpcodeOps _ _ [] s hb) (run_sendOpcodeOps _ _ [] u (h.busy ▸ hb)) (sendOpcode_same _ h),
    (leftReading_primitives s).lineSide (lineSide_checkOps s hb) (sendOpcode_leftReading _ s)⟩

/-- Every command's list runs alike from busy states that are alike outside the internal registers (R33). -/
theorem run_programOf_same_outside (i : Instr) {s u : State} (hb : s.busy = true) (h : SameOutside s u) :
    SameOutside (run (programOf i) s) (run (programOf i) u) := by
  have hub : u.busy = true := h.busy ▸ hb
  cases hi : isChipCommand i with
  | true => exact ((chipSame_phases s).chip (chipSame_checkOps s hb) i hi s u ⟨rfl, h⟩).outside
  | false =>
    cases i with
    | powerup =>
      rw [programOf, run_powerupProgram s hb, run_powerupProgram u hub]
      exact ((blind_of_forget fun _ => rfl : Blind powerUpState) s u h).succeed
    | shutdown =>
      rw [programOf, run_shutdownProgram s hb, run_shutdownProgram u hub]
      exact ((blind_of_forget fun _ => rfl : Blind shutdownState) s u h).succeed
    | unlock =>
      rw [programOf, run_unlockProgram s hb, run_unlockProgram u hub]
      exact (Blind.loop blind_unlockPair 8 s u h).succeed
    | _ => cases hi

/-- Settles O47: the dispatch and every command's list do the same to states that differ in the internal registers. -/
theorem internalRegistersDoNotMatter : Obligations.InternalRegistersDoNotMatter := by
  intro s u i h
  have hdispatch : Blind (dispatch i) := blind_of_forget fun _ => rfl
  exact ⟨_, _, exec_eq_run i s, exec_eq_run i u, run_programOf_same_outside i rfl (hdispatch s u h)⟩

end Sys2Proof.Machine
end

section
/-! PROOFS. Samples are taken on DAT as an input (O50): each sample as an input draws one level of the target, each
sample of the trace was counted as one drawn (O48), so none was taken as an output. -/

namespace Sys2Proof.Machine

open Sys2Proof

/-- The samples of a trace taken on DAT while DAT is an input, from ports `p` (R27). -/
def inputSamples : List LineEvent → Ports → Nat
  | [], _ => 0
  | .setDir l d :: es, p => inputSamples es (portsSetDir p l d)
  | .drive l b :: es, p => inputSamples es (portsDrive p l b)
  | .sample .dat _ :: es, p => (if p.dat.dir = .input then 1 else 0) + inputSamples es p
  | .sample _ _ :: es, p => inputSamples es p
  | .sleep _ :: es, p => inputSamples es p

theorem inputSamples_append (es fs : List LineEvent) (p : Ports) :
    inputSamples (es ++ fs) p = inputSamples es p + inputSamples fs (replayPorts es p) := by
  induction es, p using inputSamples.induct with
  | case1 p => simp [inputSamples, replayPorts]
  | case4 b es p ih => simp only [List.cons_append, inputSamples, replayPorts, ih, Nat.add_assoc]
  | _ => simp_all [inputSamples, replayPorts]

theorem inputSamples_le (es : List LineEvent) (p : Ports) : inputSamples es p ≤ samplesOf es := by
  induction es, p using inputSamples.induct with
  | case1 p => simp [inputSamples, samplesOf]
  | case4 b es p ih => simp only [inputSamples, samplesOf]; split <;> omega
  | case5 l b es p hl ih => simp only [inputSamples, samplesOf]; omega
  | _ => simpa [inputSamples, samplesOf]

/-- A trace whose samples are all samples of DAT as an input keeps R27. -/
theorem sampledAsInput_of_inputSamples (es : List LineEvent) (p : Ports) (h : inputSamples es p = samplesOf es) :
    sampledAsInput es p = true := by
  induction es, p using inputSamples.induct with
  | case1 p => rfl
  | case4 b es p ih =>
    have hle := inputSamples_le es p
    simp only [inputSamples, samplesOf] at h
    split at h
    · rename_i hd
      simp only [sampledAsInput, hd, ih (by omega)]
      rfl
    · omega
  | case5 l b es p hl ih =>
    have hle := inputSamples_le es p
    simp only [inputSamples, samplesOf] at h
    omega
  | _ => simp_all [inputSamples, samplesOf, sampledAsInput]

/-- From `s` to `t` some primitives were performed: the trace and the ports are theirs, and one level of the target was
drawn for each sample as an input (R16, R25, R27). -/
def Drawn (s t : State) : Prop :=
  ∃ es, t.trace = es.reverse ++ s.trace ∧ t.ports = replayPorts es s.ports ∧
    t.sampleDraws = s.sampleDraws + inputSamples es s.ports

theorem Drawn.trans {s t u : State} (h : Drawn s t) (k : Drawn t u) : Drawn s u := by
  obtain ⟨es, htrace, hports, hdraws⟩ := h
  obtain ⟨fs, ktrace, kports, kdraws⟩ := k
  refine ⟨es ++ fs, by simp [ktrace, htrace], by rw [kports, hports, replayPorts_append], ?_⟩
  rw [kdraws, hdraws, hports, inputSamples_append, Nat.add_assoc]

theorem Drawn.of_lineSide {s t : State} (h : lineSide t = lineSide s) : Drawn s t :=
  ⟨[], (congrArg State.trace h :), (congrArg State.ports h :), (congrArg State.sampleDraws h :)⟩

theorem drive_drawn (l : Line) (b : Bool) (s : State) : Drawn s (drive l b s) := ⟨[.drive l b], rfl, rfl, rfl⟩

theorem sleepFor_drawn (d : Config.Delay) (s : State) : Drawn s (sleepFor d s) := ⟨[.sleep d], rfl, rfl, rfl⟩

/-- A sample draws a level exactly when DAT is an input (R27). -/
theorem sample_drawn {s t : State} (ht : lineSide t = lineSide (afterSample s)) : Drawn s t := by
  have hs : Drawn s (afterSample s) := by
    cases hd : s.ports.dat.dir with
    | input =>
      refine ⟨[.sample .dat (upcoming s 0)], afterSample_trace s hd, by simp [replayPorts], ?_⟩
      simp [afterSample_sampleDraws s hd, inputSamples, hd]
    | output =>
      rw [afterSample_output s hd]
      exact ⟨[.sample .dat s.ports.dat.out], rfl, rfl, by simp [inputSamples, hd]⟩
  exact hs.trans (.of_lineSide ht)

theorem clkPulse_drawn (s : State) : Drawn s (clkPulse s) := ⟨clkEvents, rfl, rfl, rfl⟩

theorem pollTicks_drawn (n : Nat) (s : State) : Drawn s (pollTicks n s) := by
  induction n generalizing s with
  | zero => exact .of_lineSide rfl
  | succ n ih =>
    unfold pollTicks
    split
    · exact .of_lineSide rfl
    · exact ((clkPulse_drawn s).trans (sample_drawn rfl)).trans (ih (pollTick s))

/-- Every operation draws a level for each of its samples as an input. -/
theorem execMicro_drawn (m : Micro) (s : State) : Drawn s (execMicro m s) := by
  induction m generalizing s with
  | setDir l d => exact ⟨[.setDir l d], rfl, rfl, rfl⟩
  | drive l b => exact drive_drawn l b s
  | driveOpcodeBit src k => exact drive_drawn .oe _ s
  | driveValueBit src k => exact drive_drawn .oe _ s
  | sleep d => exact sleepFor_drawn d s
  | setMode m => exact ⟨[], rfl, rfl, rfl⟩
  | countPulse => exact ⟨[], rfl, rfl, rfl⟩
  | countSettle => exact ⟨[], rfl, rfl, rfl⟩
  | unlessMode m a ih =>
    unfold execMicro
    split
    · exact .of_lineSide rfl
    · exact ih s
  | pollLoop b => exact pollTicks_drawn _ s
  | sampleWord => exact sample_drawn rfl
  | sampleStatus => exact sample_drawn rfl
  | samplePoll => exact sample_drawn rfl
  | failUnlessMatch c => unfold execMicro; split <;> exact .of_lineSide rfl
  | failUnlessReady c => unfold execMicro; split <;> exact .of_lineSide rfl
  | _ => exact .of_lineSide rfl

theorem run_drawn (p : List Micro) (s : State) : Drawn s (run p s) :=
  run_induct (Drawn s) p (fun m _ u hu => hu.trans (execMicro_drawn m u)) s (.of_lineSide rfl)

/-- Settles O50: as many levels are drawn as the trace has samples, and as many as it has samples of DAT as an input. -/
theorem samplesOnlyWhileDatIsAnInput : Obligations.SamplesOnlyWhileDatIsAnInput := by
  intro s i
  obtain ⟨es, hes⟩ := run_programOf_accounted i (dispatch i s) rfl
  obtain ⟨fs, htrace, _, hdraws⟩ := run_drawn (programOf i) (dispatch i s)
  have hfs : fs = es := by
    rw [hes.trace] at htrace
    exact List.reverse_injective (List.append_cancel_right htrace.symm)
  subst hfs
  refine ⟨_, fs, exec_eq_run i s, hes.trace, sampledAsInput_of_inputSamples fs _ ?_⟩
  exact Nat.add_left_cancel (hdraws.symm.trans hes.sampleDraws)

end Sys2Proof.Machine
end

section
/-! PROOFS. The mode invariant of a command's line trace (O60): MODE as the trace shows it moves with MODE's register
from phase to phase, and no pulse of a phase finds DAT in the other direction. -/

namespace Sys2Proof.Machine

open Sys2Proof

/-- The trace `es`, started in MODE `m` with DAT in direction `d`, keeps the mode invariant and shows MODE `m'` and DAT
in direction `d'` at its end (R30). -/
def Moves (es : List LineEvent) (m : Mode) (d : Dir) (m' : Mode) (d' : Dir) : Prop :=
  ∀ p : Ports, p.dat.dir = d →
    modeKept es m p = true ∧ replayMode es m p = m' ∧ (replayPorts es p).dat.dir = d'

theorem Moves.append {es fs : List LineEvent} {m m' m'' : Mode} {d d' d'' : Dir} (h : Moves es m d m' d')
    (k : Moves fs m' d' m'' d'') : Moves (es ++ fs) m d m'' d'' := by
  intro p hp
  obtain ⟨hkept, hmode, hdir⟩ := h p hp
  obtain ⟨kkept, kmode, kdir⟩ := k _ hdir
  rw [modeKept_append, replayMode_append, replayPorts_append, hkept, hmode, kkept]
  exact ⟨rfl, kmode, kdir⟩

/-- A primitive by which a trace in MODE `m` shows no change of MODE or of DAT's direction (R96, R98 to R100). -/
def steadyIn (m : Mode) : LineEvent → Bool
  | .setDir _ _ => false
  | .sleep .settle => false
  | .drive .pgm false => m != .write
  | _ => true

theorem modeAfter_steady {m : Mode} {e : LineEvent} (h : steadyIn m e = true) (p : Ports) : modeAfter e m p = m := by
  unfold steadyIn at h
  split at h
  · cases h
  · cases h
  · simp only [bne_iff_ne] at h
    simp [modeAfter, h]
  · unfold modeAfter
    split <;> simp_all

theorem portsAfter_steady {m : Mode} {e : LineEvent} (h : steadyIn m e = true) (p : Ports) :
    (portsAfter e p).dat.dir = p.dat.dir := by
  cases e with
  | setDir l d => cases h
  | drive l b => cases l <;> rfl
  | sleep t => rfl
  | sample l b => rfl

/-- Where MODE and DAT agree, a trace of such primitives keeps the invariant and moves nothing. -/
theorem moves_steady {es : List LineEvent} {m : Mode} {d : Dir} (h : es.all (steadyIn m) = true)
    (hd : datFollowsMode m d = true) : Moves es m d m d := by
  induction es with
  | nil => exact fun p hp => ⟨rfl, rfl, hp⟩
  | cons e es ih =>
    rw [List.all_cons, Bool.and_eq_true] at h
    obtain ⟨he, hes⟩ := h
    intro p hp
    obtain ⟨hkept, hmode, hdir⟩ := ih hes (portsAfter e p) ((portsAfter_steady he p).trans hp)
    refine ⟨?_, ?_, ?_⟩
    · rw [modeKept, modeAfter_steady he, hkept, hp, hd, Bool.or_true, Bool.and_true]
    · rw [replayMode, modeAfter_steady he, hmode]
    · rw [← List.singleton_append, replayPorts_append]
      exact hdir

/-! ## The frames -/

theorem clkEvents_steady (m : Mode) : clkEvents.all (steadyIn m) = true := rfl

theorem bitsOutEvents_steady (m : Mode) (bits : List Bool) : (bitsOutEvents bits).all (steadyIn m) = true := by
  simp [bitsOutEvents, clkEvents, steadyIn]

theorem bitsInEvents_steady (m : Mode) (bits : List Bool) : (bitsInEvents bits).all (steadyIn m) = true := by
  simp [bitsInEvents, clkEvents, steadyIn]

theorem pulseEvents_steady (m : Mode) (n : Nat) : (pulseEvents n).all (steadyIn m) = true := by
  simp [pulseEvents, clkEvents, steadyIn]

/-- SetWriteMode shows Write by its settle delay with PGM at 1 (R98). -/
theorem writeModeEvents_moves {m : Mode} (d : Dir) (hm : m ≠ .write) :
    Moves (writeModeEvents m) m d .write .output := by
  intro p _
  rw [writeModeEvents, if_neg hm]
  cases m <;> exact ⟨rfl, rfl, rfl⟩

/-- SetReadMode shows Read by its settle delay with PGM at 0 (R99). -/
theorem readModeEvents_moves {m : Mode} (d : Dir) (hm : m ≠ .read) : Moves (readModeEvents m) m d .read .input := by
  intro p _
  rw [readModeEvents, if_neg hm]
  cases m <;> exact ⟨rfl, rfl, rfl⟩

/-- A status frame behind a write-direction frame (R88, R111). -/
theorem statusEvents_moves {m : Mode} (d : Dir) (hm : m ≠ .read) (bits : List Bool) :
    Moves (statusEvents m bits) m d .read .input :=
  ((readModeEvents_moves d hm).append (moves_steady (bitsInEvents_steady _ bits) rfl)).append
    (moves_steady (clkEvents_steady _) rfl)

theorem opcodeEvents_moves {m : Mode} (d : Dir) (hm : m ≠ .write) (op : Byte) (bits : List Bool) :
    Moves (opcodeEvents m op bits) m d .read .input :=
  ((writeModeEvents_moves d hm).append (moves_steady (bitsOutEvents_steady _ _) rfl)).append
    (statusEvents_moves .output (by decide) bits)

theorem valueEvents_moves {m : Mode} (d : Dir) (hm : m ≠ .write) (v : Half) (bits : List Bool) :
    Moves (valueEvents m v bits) m d .read .input := by
  have henter : Moves [.drive .pgm false] .write .output .writeData .output := fun p hp => ⟨rfl, rfl, hp⟩
  exact (((writeModeEvents_moves d hm).append henter).append (moves_steady (bitsOutEvents_steady _ _) rfl)).append
    (statusEvents_moves .output (by decide) bits)

/-! ## The commands -/

/-- The trace from `s` to `t` keeps the mode invariant, and shows MODE and DAT's direction as they stand in `t`. -/
def ShownFrom (s t : State) : Prop :=
  ∃ es, t.trace = es.reverse ++ s.trace ∧ Moves es s.mode s.ports.dat.dir t.mode t.ports.dat.dir

theorem ShownFrom.trans {s t u : State} (h : ShownFrom s t) {fs : List LineEvent}
    (htrace : u.trace = fs.reverse ++ t.trace) (hfs : Moves fs t.mode t.ports.dat.dir u.mode u.ports.dat.dir) :
    ShownFrom s u := by
  obtain ⟨es, hes, hmoves⟩ := h
  exact ⟨es ++ fs, by simp [htrace, hes], hmoves.append hfs⟩

/-- In the middle of a chip command that started in `s`. -/
structure ShownReading (s t : State) : Prop where
  reading : LeftReading s t
  shown : ShownFrom s t

/-- From Read mode back to Read mode: what the trace between shows. -/
theorem ShownReading.next {s t u : State} (h : ShownReading s t) (hu : LeftReading s u) {fs : List LineEvent}
    (htrace : u.trace = fs.reverse ++ t.trace) (hfs : Moves fs .read .input .read .input) : ShownReading s u := by
  refine ⟨hu, h.shown.trans htrace ?_⟩
  rw [h.reading.mode, h.reading.input, hu.mode, hu.input]
  exact hfs

/-- The ticks of a poll, to the first 1 or to the budget, are samples after pulses (R116 to R118). -/
theorem pollWait_trace_steady (b : Nat) (t : State) (hm : t.mode = .read) (hd : t.ports.dat.dir = .input) :
    ∃ bits, (pollWait b t).trace = (bitsInEvents bits).reverse ++ t.trace := by
  rcases ready_or_never t 0 b with ⟨k, hk, hready⟩ | hnever
  · obtain ⟨_, _, _, _, _, _, htrace, _⟩ := pollWait_ready b k t hm hd hk hready
    exact ⟨_, htrace⟩
  · obtain ⟨_, _, _, _, _, _, htrace, _⟩ := pollWait_timeout b t hm hd hnever
    exact ⟨_, htrace⟩

/-- Every phase of a chip command keeps the mode invariant on the trace. -/
theorem shownReading_primitives (s : State) : PrimitivesKeep (ShownReading s) := by
  have hreading := leftReading_primitives s
  have hbits : ∀ bits, Moves (bitsInEvents bits) .read .input .read .input := fun bits =>
    moves_steady (bitsInEvents_steady _ bits) rfl
  exact {
    lineSide := fun {t u} hl ht => by
      have htrace : u.trace = [].reverse ++ t.trace := (congrArg State.trace hl :)
      exact ht.next (hreading.lineSide hl ht.reading) htrace (moves_steady rfl rfl)
    sendOpcode := fun src t ht => by
      have htrace := sendOpcode_trace src t
      rw [ht.reading.mode] at htrace
      exact ht.next (hreading.sendOpcode src t ht.reading) htrace (opcodeEvents_moves .input (by decide) _ _)
    sendValue := fun src t ht => by
      have htrace := sendValue_trace src t
      rw [ht.reading.mode] at htrace
      exact ht.next (hreading.sendValue src t ht.reading) htrace (valueEvents_moves .input (by decide) _ _)
    recvStatus := fun t ht => by
      have htrace := recvStatus_trace t fun _ => ht.reading.input
      rw [ht.reading.mode] at htrace
      exact ht.next (hreading.recvStatus t ht.reading) htrace
        ((hbits _).append (moves_steady (clkEvents_steady _) rfl))
    recvWord := fun t ht => by
      have htrace := recvWord_trace t fun _ => ht.reading.input
      rw [ht.reading.mode] at htrace
      exact ht.next (hreading.recvWord t ht.reading) htrace (hbits _)
    pulses := fun n t ht =>
      ht.next (hreading.pulses n t ht.reading) (pulses_trace n t) (moves_steady (pulseEvents_steady _ n) rfl)
    pollWait := fun b t ht => by
      obtain ⟨bits, htrace⟩ := pollWait_trace_steady b t ht.reading.mode ht.reading.input
      exact ht.next (hreading.pollWait b t ht.reading) htrace (hbits bits)
    pollStatus := fun t ht =>
      ht.next (hreading.pollStatus t ht.reading) (pollStatus_trace t ht.reading.input) (hbits _) }

/-- From `s` to `t` only primitives were performed that show no change in the MODE of `s`. -/
def SteadyFrom (s t : State) : Prop :=
  ∃ es : List LineEvent, t.trace = es.reverse ++ s.trace ∧ es.all (steadyIn s.mode) = true

/-- A sub-bit of UNLOCK drives PGM, which shows a change in Write only (R90, R100). -/
theorem unlockBit_steady {s : State} (hm : s.mode ≠ .write) (pair : Byte × Byte) (j : Nat) {u : State}
    (h : SteadyFrom s u) : SteadyFrom s (unlockBit pair j u) := by
  obtain ⟨es, htrace, hes⟩ := h
  have hpgm : steadyIn s.mode (.drive .pgm (pair.1.getLsbD (7 - j))) = true := by
    cases pair.1.getLsbD (7 - j) with
    | false => simpa [steadyIn] using hm
    | true => rfl
  refine ⟨es ++ [.drive .pgm (pair.1.getLsbD (7 - j)), .drive .oe (pair.2.getLsbD (7 - j))] ++ clkEvents, ?_, ?_⟩
  · simp [unlockBit, htrace, clkEvents]
  · simp only [List.all_append, hes, clkEvents_steady, List.all_cons, hpgm]
    rfl

theorem unlockPairs_steady (s : State) (hm : s.mode ≠ .write) : SteadyFrom s (loopState 8 unlockPair s) := by
  have hpair : ∀ n u, SteadyFrom s u → SteadyFrom s (unlockPair n u) := fun n u hu =>
    loopState_induct (SteadyFrom s) (fun j _ h => unlockBit_steady hm _ j h) 8 hu
  exact loopState_induct (SteadyFrom s) hpair 8 ⟨[], rfl, rfl⟩

/-- From a boundary as R32 leaves it, every command's trace keeps the mode invariant and ends at MODE's register. -/
theorem run_programOf_shown (i : Instr) (s : State) (hb : s.busy = true) (hw : s.mode ≠ .write)
    (hd : datFollowsMode s.mode s.ports.dat.dir = true) : ShownFrom s (run (programOf i) s) := by
  cases hi : isChipCommand i with
  | true =>
    have hcheck : ShownReading s (sendOpcode (.const Config.opcCheck) s) := by
      refine ⟨sendOpcode_leftReading _ s, _, sendOpcode_trace _ s, ?_⟩
      rw [(sendOpcode_leftReading _ s).mode, (sendOpcode_leftReading _ s).input]
      exact opcodeEvents_moves _ hw _ _
    exact ((shownReading_primitives s).chip i hi s hb hcheck).shown
  | false =>
    cases i with
    | powerup =>
      rw [programOf, run_powerupProgram s hb]
      exact ⟨powerUpEvents, rfl, fun p _ => by cases s.mode <;> exact ⟨rfl, rfl, rfl⟩⟩
    | shutdown =>
      rw [programOf, run_shutdownProgram s hb]
      exact ⟨shutdownEvents, rfl, fun p _ => by cases s.mode <;> exact ⟨rfl, rfl, rfl⟩⟩
    | unlock =>
      obtain ⟨es, htrace, hes⟩ := unlockPairs_steady s hw
      have hmode := run_mode .unlock s hb
      have hpair : ∀ n u, (unlockPair n u).ports.dat = u.ports.dat := fun n =>
        loopState_preserves (·.ports.dat) (unlockBit (Config.unlockPairs (Fin.ofNat 8 n))) (fun _ _ => rfl) 8
      have hdat := loopState_preserves (·.ports.dat) unlockPair hpair 8 s
      rw [programOf, run_unlockProgram s hb] at hmode ⊢
      refine ⟨es, htrace, ?_⟩
      rw [show (succeedCommand (loopState 8 unlockPair s)).mode = s.mode from hmode,
        show (succeedCommand (loopState 8 unlockPair s)).ports.dat = s.ports.dat from hdat]
      exact moves_steady hes hd
    | _ => cases hi

/-- Settles O60: the trace phase by phase, and the registers by the list that starts at the accept. -/
theorem everyPulseFindsDatAsModeSays : Obligations.EveryPulseFindsDatAsModeSays := by
  intro s i hs
  obtain ⟨hw, hd⟩ : s.mode ≠ .write ∧ datFollowsMode s.mode s.ports.dat.dir = true := by
    rcases hs with hm | ⟨hm, hdir⟩
    · rw [hm]; exact ⟨by decide, rfl⟩
    · rw [hm, hdir]; exact ⟨by decide, rfl⟩
  obtain ⟨es, htrace, hmoves⟩ := run_programOf_shown i (dispatch i s) rfl hw hd
  obtain ⟨hkept, hmode, _⟩ := hmoves s.ports rfl
  exact ⟨⟨_, es, exec_eq_run i s, htrace, hkept, hmode⟩, pulsesFollowMode_accept (encode i) s hw hd⟩

end Sys2Proof.Machine
end

section
/-! PROOFS. The accesses of the host (O14, O15) and the addresses of the target (O24, O25). -/

namespace Sys2Proof.Machine

open Sys2Proof

/-! ## Host accesses -/

/-- The shape of access the window supports, as arithmetic (R59). -/
theorem accessSupported_iff (off width : Nat) : accessSupported off width = true ↔ width = 4 ∧ off % 4 = 0 := by
  simp [accessSupported]

/-- An access of the shape the window supports happens (R59). -/
theorem serve_supported (off width : Nat) (v : Word) (s : State) (h : width = 4 ∧ off % 4 = 0) :
    serve (.read off width) s = .next (hostRead off s) ∧ serve (.write off width v) s = .next (hostWrite off v s) := by
  have hshape := (accessSupported_iff off width).mpr h
  exact ⟨if_pos hshape, if_pos hshape⟩

/-- An access of any other shape is refused (R59). -/
theorem serve_unsupported (off width : Nat) (v : Word) (s : State) (h : ¬(width = 4 ∧ off % 4 = 0)) :
    serve (.read off width) s = .refused (.unsupportedAccess off width) ∧
      serve (.write off width v) s = .refused (.unsupportedAccess off width) := by
  have hshape := mt (accessSupported_iff off width).mp h
  exact ⟨if_neg hshape, if_neg hshape⟩

/-- Settles O14: a supported read is served, and serving it writes the host's record only. -/
theorem readsHaveNoSideEffect : Obligations.ReadsHaveNoSideEffect := by
  intro s off hoff
  obtain ⟨hread, _⟩ := serve_supported off 4 0#32 s ⟨rfl, hoff⟩
  exact ⟨_, hread, rfl⟩

/-- Settles O15: the shape of the access decides, and a write is the window's unless reset is asserted (R158). -/
theorem unsupportedAccessesAreRefused : Obligations.UnsupportedAccessesAreRefused := by
  intro s off width v
  exact ⟨fun h => serve_unsupported off width v s (by omega), fun h => serve_supported off width v s h, rfl⟩

/-! ## Addresses -/

/-- A mask that keeps the bits from `k` up rounds an address down to a multiple of `2 ^ k`. -/
theorem toNat_and_highMask (a m : Half) (k : Nat) (hm : ∀ i, i < 16 → m.getLsbD i = decide (k ≤ i)) :
    (a &&& m).toNat = a.toNat / 2 ^ k * 2 ^ k := by
  have hshift : a &&& m = a >>> k <<< k := by
    apply BitVec.eq_of_getLsbD_eq
    intro i hi
    rw [BitVec.getLsbD_and, hm i hi, BitVec.getLsbD_shiftLeft, BitVec.getLsbD_ushiftRight]
    by_cases hk : k ≤ i
    · simp [hk, hi, Nat.not_lt.mpr hk]
    · simp [hk, Nat.lt_of_not_le hk]
  have hle : a.toNat / 2 ^ k * 2 ^ k < 2 ^ 16 := (Nat.div_mul_le_self _ _).trans_lt a.isLt
  rw [hshift, BitVec.toNat_shiftLeft, BitVec.toNat_ushiftRight, Nat.shiftLeft_eq, Nat.shiftRight_eq_div_pow,
    Nat.mod_eq_of_lt hle]

/-- Settles O25: PAGE_MASK keeps the bits from 7 up (R61). -/
theorem pageBaseIsTheStartOfThePage : Obligations.PageBaseIsTheStartOfThePage := fun a =>
  toNat_and_highMask a Config.pageMask 7 (by decide)

/-- The multi-word address as a number: the start of the block, and the wrapped count above it (R66). -/
theorem toNat_wrapAddr (a : Half) (i : Nat) :
    (wrapAddr a i).toNat = a.toNat / 32 * 32 + (a.toNat + i) % 32 := by
  have hblock : (a &&& 0xFFE0#16).toNat = (a.toNat / 32) <<< 5 := by
    rw [toNat_and_highMask a 0xFFE0#16 5 (by decide), Nat.shiftLeft_eq]
    rfl
  have hcount : ((a + BitVec.ofNat 16 i) &&& 0x001F#16).toNat = (a.toNat + i) % 32 := by
    rw [BitVec.toNat_and, show (0x001F#16).toNat = 2 ^ 5 - 1 from rfl, Nat.and_two_pow_sub_one_eq_mod,
      BitVec.toNat_add, BitVec.toNat_ofNat]
    omega
  rw [wrapAddr, BitVec.toNat_or, hblock, hcount, ← Nat.shiftLeft_add_eq_or_of_lt (Nat.mod_lt _ (by decide)),
    Nat.shiftLeft_eq]

/-- Settles O24: the formula is the definition, and the number it makes splits at 32. -/
theorem multiWordAddressWrapsInItsBlock : Obligations.MultiWordAddressWrapsInItsBlock := by
  intro a i
  refine ⟨rfl, ?_, ?_⟩ <;> rw [toNat_wrapAddr] <;> omega

end Sys2Proof.Machine
end

section
/-! PROOFS. The commands with the reference target on the lines (O58, O59): each phase, given the levels RT presents at its
samples, uses exactly these and goes on; so does the command, up to its `succeed()`. -/

namespace Sys2Proof.Machine

open Sys2Proof

/-! ## Phases and the levels they are given -/

/-- A chip command that goes on, in Read mode with DAT an input (R30). -/
structure Receiving (s : State) : Prop where
  busy : s.busy = true
  mode : s.mode = .read
  input : s.ports.dat.dir = .input

/-- From the states `P`, the list `p`, given the levels `ls`, uses exactly these and goes on, and does `f` to DBUF. -/
def AnsweredBy (P : State → Prop) (ls : List Bool) (f : Vector Half 32 → Vector Half 32) (p : List Micro) : Prop :=
  ∀ s rest, P s → s.samples = ls.map TargetLevel.drives ++ rest →
    Receiving (run p s) ∧ (run p s).samples = rest ∧ (run p s).dbuf = f s.dbuf

theorem AnsweredBy.append {P : State → Prop} {ls ms : List Bool} {f g : Vector Half 32 → Vector Half 32}
    {p q : List Micro} (hp : AnsweredBy P ls f p) (hq : AnsweredBy Receiving ms g q) :
    AnsweredBy P (ls ++ ms) (fun d => g (f d)) (p ++ q) := by
  intro s rest hs hls
  rw [List.map_append, List.append_assoc] at hls
  obtain ⟨hgoes, hrest, hdbuf⟩ := hp s _ hs hls
  obtain ⟨hgoes', hrest', hdbuf'⟩ := hq _ rest hgoes hrest
  rw [run_append]
  exact ⟨hgoes', hrest', by rw [hdbuf', hdbuf]⟩

/-- A loop is given the levels of its passes one after the other. -/
theorem AnsweredBy.repeatOps {ls : Nat → List Bool} {f : Nat → Vector Half 32 → Vector Half 32} {p : Nat → List Micro}
    (hp : ∀ j, AnsweredBy Receiving (ls j) (f j) (p j)) (n : Nat) :
    AnsweredBy Receiving ((List.range n).flatMap ls) (fun d => (List.range n).foldl (fun d j => f j d) d)
      (repeatOps n p) := by
  induction n with
  | zero => exact fun s rest hs hls => ⟨hs, hls, rfl⟩
  | succ n ih =>
    have hpass := ih.append (hp n)
    rw [repeatOps_succ]
    simpa [List.range_succ] using hpass

/-- Bare pulses use no level (R91, R112). -/
theorem AnsweredBy.pulses {P : State → Prop} {ls : List Bool} {f : Vector Half 32 → Vector Half 32} {p : List Micro}
    (hp : AnsweredBy P ls f p) (n : Nat) : AnsweredBy P ls f (p ++ pulsesOps n) := by
  intro s rest hs hls
  obtain ⟨hgoes, hrest, hdbuf⟩ := hp s rest hs hls
  rw [run_append, run_pulsesOps n _ hgoes.busy]
  exact ⟨⟨by simp [hgoes.busy], by simp [hgoes.mode], by simp [hgoes.input]⟩, by simp [hrest], by simp [hdbuf]⟩

/-- Writing WIDX uses no level (R33). -/
theorem AnsweredBy.widx {ls : List Bool} {f : Vector Half 32 → Vector Half 32} {p : List Micro}
    (hp : AnsweredBy Receiving ls f p) (i : Nat) : AnsweredBy Receiving ls f ([.setWidx i] ++ p) := by
  intro s rest hs hls
  rw [List.singleton_append, run_setWidx i p s hs.busy]
  exact hp (setWidx i s) rest ⟨hs.busy, hs.mode, hs.input⟩ hls

/-! ## A status answered with 0xEA (R74) -/

theorem statusGood_of_answer {s : State} {rest : List TargetLevel}
    (h : s.samples = statusLevels.map TargetLevel.drives ++ rest) : statusGood s 0 = true :=
  statusGood_of_levels s [] [] rest (by simpa using h)

theorem samples_drop_answer {s : State} {ls : List Bool} {rest : List TargetLevel} (n : Nat)
    (h : s.samples = ls.map TargetLevel.drives ++ rest) (hn : ls.length = n) : s.samples.drop n = rest := by
  rw [h, List.drop_left' (by simpa using hn)]

/-- A phase whose caller fails on a bad status goes on after a good one (R18). -/
theorem run_of_matched {p : List Micro} {s u : State} {c : Cause}
    (hrun : run (p ++ []) s = if u.matched then run [] u else failCommand c u) (hm : u.matched = true) :
    run p s = u := by
  rw [List.append_nil] at hrun
  rw [hrun, if_pos hm, run_nil]

/-- SendOpcode sets DAT's direction itself, so it may be entered from any busy state (R107). -/
theorem sendOpcodeOps_answeredBy {P : State → Prop} (hP : ∀ s, P s → s.busy = true) (src : OpcodeSrc) (c : Cause) :
    AnsweredBy P statusLevels id (sendOpcodeOps src c) := by
  intro s rest hs hls
  have hb := hP s hs
  have hrun : run (sendOpcodeOps src c) s = sendOpcode src s :=
    run_of_matched (run_sendOpcodeOps src c [] s hb) (by simp [statusGood_of_answer hls])
  rw [hrun]
  exact ⟨⟨by simp [hb], by simp, by simp⟩, by simp [samples_drop_answer 8 hls rfl], by simp⟩

theorem sendValueOps_answeredBy (src : ValueSrc) (c : Cause) :
    AnsweredBy Receiving statusLevels id (sendValueOps src c) := by
  intro s rest hs hls
  have hrun : run (sendValueOps src c) s = sendValue src s :=
    run_of_matched (run_sendValueOps src c [] s hs.busy) (by simp [statusGood_of_answer hls])
  rw [hrun]
  exact ⟨⟨by simp [hs.busy], by simp, by simp⟩, by simp [samples_drop_answer 8 hls rfl], by simp⟩

theorem checkStatusOps_answeredBy (c : Cause) : AnsweredBy Receiving statusLevels id (checkStatusOps c) := by
  intro s rest hs hls
  have hinput : s.mode = .read → s.ports.dat.dir = .input := fun _ => hs.input
  have hrun : run (checkStatusOps c) s = recvStatus s :=
    run_of_matched (run_checkStatusOps c [] s hs.busy)
      (by rw [recvStatus_matched s hinput, statusGood_of_answer hls])
  rw [hrun]
  refine ⟨⟨by simp [hs.busy], by simp, ?_⟩, ?_, by simp⟩
  · simpa [recvStatus_ports] using setReadMode_input s hinput
  · rw [(recvStatus_samples s hinput).1, samples_drop_answer 8 hls rfl]

/-! ## A word received and stored (R75) -/

theorem eq_of_wordBitsAre {s : State} {k : Nat} {v w : Half} (hv : wordBitsAre s k v) (hw : wordBitsAre s k w) :
    v = w := by
  apply BitVec.eq_of_getLsbD_eq
  intro j hj
  rw [hv j hj, hw j hj]

theorem storedWord_answeredBy (i : Nat) (w : Half) :
    AnsweredBy Receiving (wordLevels w) (fun d => dbufSet d i w) (recvWordOps ++ [.storeWord i]) := by
  intro s rest hs hls
  have hinput : s.mode = .read → s.ports.dat.dir = .input := fun _ => hs.input
  have hlevels : wordBitsAre s 0 w := wordBitsAre_of_levels s [] [] w rest (by simpa using hls)
  have hword : (recvWord s).shift16 = w := eq_of_wordBitsAre (recvWord_shift16 s hinput) hlevels
  have hrun : run (recvWordOps ++ [.storeWord i]) s = storeWord i (recvWord s) := by
    rw [run_append, run_recvWordOps s hs.busy, run_storeWord i [] _ (by simp [hs.busy]), run_nil]
  rw [hrun]
  refine ⟨⟨by simp [hs.busy], by simp, ?_⟩, ?_, by simp [storeWord, hword]⟩
  · simpa [recvWord_ports] using setReadMode_input s hinput
  · rw [storeWord_samples, (recvWord_samples s hinput).1, samples_drop_answer 16 hls rfl]

/-- Words `0` to `n - 1` in the first entries of DBUF, in the order they are stored (R130). -/
def storeWords (w : Nat → Half) (n : Nat) (d : Vector Half 32) : Vector Half 32 :=
  (List.range n).foldl (fun d j => dbufSet d j (w j)) d

theorem storeWords_succ (w : Nat → Half) (n : Nat) (d : Vector Half 32) :
    storeWords w (n + 1) d = dbufSet (storeWords w n d) n (w n) := by
  simp [storeWords, List.range_succ]

/-- Each word stands in the entry of its index. -/
theorem storeWords_getD (w : Nat → Half) (n : Nat) (hn : n ≤ 32) (d : Vector Half 32) (j : Nat) (hj : j < n) :
    (storeWords w n d).getD j 0#16 = w j := by
  induction n with
  | zero => omega
  | succ n ih =>
    rw [storeWords_succ]
    by_cases hjn : j = n
    · subst hjn
      exact dbufGet_dbufSet_same { State.reset with dbuf := storeWords w j d } j (by omega) (w j)
    · have hkept := dbufGet_dbufSet_ne { State.reset with dbuf := storeWords w n d } n j (by omega) hjn (w n)
      exact hkept.trans (ih (by omega) (by omega))

/-! ## A poll within its budget (R76) -/

theorem pollOps_answeredBy (k budget : Nat) (hk : k < budget) :
    AnsweredBy Receiving (pollLevels k budget) id (pollOps budget) := by
  intro s rest hs hls
  rw [pollLevels, if_pos hk, List.append_cons, List.map_append, List.append_assoc] at hls
  have hready : readyAt s 0 k := readyAt_of_levels s [] statusLevels k rest (by simpa using hls)
  obtain ⟨hr, _, _, _, hsamples, _, _, hports⟩ := pollWait_ready budget k s hs.mode hs.input hk hready
  have hinput : (pollWait budget s).ports.dat.dir = .input := by rw [hports]; exact hs.input
  have hstatus : (pollWait budget s).samples = statusLevels.map TargetLevel.drives ++ rest := by
    rw [hsamples, samples_drop_answer (k + 1) hls (by simp)]
  have hpoll := run_pollOps budget [] s hs.busy
  rw [hr, if_pos rfl] at hpoll
  have hrun : run (pollOps budget) s = pollStatus (pollWait budget s) :=
    run_of_matched hpoll (by rw [pollStatus_matched _ hinput, statusGood_of_answer hstatus])
  rw [hrun]
  refine ⟨⟨by simp [hs.busy], by simp, by simp [hinput]⟩, ?_, by simp⟩
  rw [(pollStatus_samples _ hinput).1, samples_drop_answer 8 hstatus rfl]

/-! ## The commands with the reference target -/

/-- What a command does to DBUF with RT on the lines: the reads store RT's words (R129, R130, R135). -/
def rtStored (rt : RefTarget) (i : Instr) (d : Vector Half 32) : Vector Half 32 :=
  match i with
  | .readw a => dbufSet d 0 (targetRead rt.mem a)
  | .readn a n => storeWords (fun j => targetRead rt.mem (wrapAddr a j)) (n.toNat + 1) d
  | .readid => dbufSet d 0 rt.id
  | .powerup | .shutdown | .check | .writew _ | .writen _ _ | .eraseall | .erasepage _ | .unlock => d

theorem readWordOps_answeredBy (i : Nat) (w : Half) :
    AnsweredBy Receiving (wordLevels w) (fun d => dbufSet d i w) (readWordOps i) := by
  rw [readWordOps, List.append_assoc]
  exact (storedWord_answeredBy i w).widx i

/-- Up to its `succeed()`, a chip command is answered by RT's levels when RT is ready within the poll's budget. -/
theorem programOf_answeredBy (rt : RefTarget) (i : Instr) (hi : isChipCommand i = true)
    (hk : ∀ b, budgetOf i = some b → rt.delay < b) :
    ∃ p, programOf i = p ++ [.succeed] ∧ AnsweredBy (·.busy = true) (rtLevels rt i) (rtStored rt i) p := by
  have hcheck : AnsweredBy (·.busy = true) statusLevels id checkOps := sendOpcodeOps_answeredBy (fun _ h => h) _ _
  have hopcode : ∀ src, AnsweredBy (·.busy = true) (statusLevels ++ statusLevels) id
      (checkOps ++ sendOpcodeOps src .statusMismatch) := fun src =>
    hcheck.append (sendOpcodeOps_answeredBy (fun _ h => h.busy) src _)
  have haddress : ∀ src v, AnsweredBy (·.busy = true) (statusLevels ++ statusLevels ++ statusLevels) id
      (checkOps ++ sendOpcodeOps src .statusMismatch ++ sendValueOps v .statusMismatch) := fun src v =>
    (hopcode src).append (sendValueOps_answeredBy v _)
  have hstatus := checkStatusOps_answeredBy .statusMismatch
  cases i with
  | powerup => cases hi
  | shutdown => cases hi
  | unlock => cases hi
  | check => exact ⟨_, rfl, hcheck⟩
  | readw a =>
    have hword := ((haddress (.const Config.opcRead) .laddr).pulses 2).append
      (storedWord_answeredBy 0 (targetRead rt.mem a))
    exact ⟨_, by simp only [programOf, readwProgram, List.append_assoc], (hword.append hstatus).pulses 2⟩
  | readn a n =>
    have hwords := ((haddress (.withCount Config.opcReadnBase) .laddr).pulses 2).append
      (.repeatOps (fun j => readWordOps_answeredBy j (targetRead rt.mem (wrapAddr a j))) (n.toNat + 1))
    exact ⟨_, rfl, (hwords.append hstatus).pulses 2⟩
  | readid =>
    have hword := ((hopcode (.const Config.opcChipid)).pulses 3).append (storedWord_answeredBy 0 rt.id)
    exact ⟨_, by simp only [programOf, readidProgram, List.append_assoc], (hword.append hstatus).pulses 2⟩
  | writew _ =>
    have hword := (haddress (.const Config.opcWrite) .laddr).append (sendValueOps_answeredBy (.dbuf 0) .statusMismatch)
    exact ⟨_, rfl, (hword.append (pollOps_answeredBy _ _ (hk _ rfl))).pulses 2⟩
  | writen _ n =>
    have hframe : ∀ j, AnsweredBy Receiving statusLevels id (writeWordOps j) := fun j =>
      (sendValueOps_answeredBy (.dbuf j) .statusMismatch).widx j
    have hframes : AnsweredBy Receiving ((List.range (n.toNat + 1)).flatMap fun _ => statusLevels) id
        (repeatOps (n.toNat + 1) writeWordOps) := by
      simpa [Function.id_def] using AnsweredBy.repeatOps hframe (n.toNat + 1)
    have hwords := (haddress (.withCount Config.opcWritenBase) .laddr).append hframes
    exact ⟨_, rfl, (hwords.append (pollOps_answeredBy _ _ (hk _ rfl))).pulses 2⟩
  | eraseall =>
    exact ⟨_, rfl, ((haddress _ _).append (pollOps_answeredBy _ _ (hk _ rfl))).pulses 2⟩
  | erasepage _ =>
    exact ⟨_, rfl, ((haddress _ _).append (pollOps_answeredBy _ _ (hk _ rfl))).pulses 2⟩

/-- RT presents nothing to the three commands that are no chip commands, and they store nothing (R74 to R76). -/
theorem rt_nonchip (rt : RefTarget) (i : Instr) (hi : isChipCommand i = false) :
    rtLevels rt i = [] ∧ ∀ d, rtStored rt i d = d := by
  cases i with
  | powerup | shutdown | unlock => exact ⟨rfl, fun _ => rfl⟩
  | _ => cases hi

/-- The three commands that are no chip commands succeed without a sample and leave DBUF (R126, R127, R136). -/
theorem run_nonchip_succeeds (i : Instr) (hi : isChipCommand i = false) (s : State) (hb : s.busy = true) :
    (run (programOf i) s).ok = true ∧ (run (programOf i) s).cause = .none ∧
      (run (programOf i) s).samples = s.samples ∧ (run (programOf i) s).dbuf = s.dbuf := by
  cases i with
  | powerup =>
    rw [programOf, run_powerupProgram s hb, powerUpState_eq]
    exact ⟨rfl, rfl, rfl, rfl⟩
  | shutdown =>
    rw [programOf, run_shutdownProgram s hb, shutdownState_eq]
    exact ⟨rfl, rfl, rfl, rfl⟩
  | unlock =>
    have hpair : ∀ n u, ((unlockPair n u).samples, (unlockPair n u).dbuf) = (u.samples, u.dbuf) := fun n =>
      loopState_preserves (fun u => (u.samples, u.dbuf)) (unlockBit (Config.unlockPairs (Fin.ofNat 8 n)))
        (fun _ _ => rfl) 8
    have hpairs := loopState_preserves (fun u => (u.samples, u.dbuf)) unlockPair hpair 8 s
    obtain ⟨hsamples, hdbuf⟩ := Prod.mk.inj hpairs
    rw [programOf, run_unlockProgram s hb]
    exact ⟨rfl, rfl, by simpa using hsamples, by simpa using hdbuf⟩
  | _ => cases hi

/-- With RT on the lines and ready within the budget, a command succeeds and uses RT's levels, and DBUF holds what RT
presented. -/
theorem run_withTarget (rt : RefTarget) (i : Instr) (s : State) (hk : ∀ b, budgetOf i = some b → rt.delay < b) :
    ∃ t, exec i (withTarget rt i s) = .next t ∧ t.ok = true ∧ t.cause = .none ∧ t.samples = s.samples ∧
      t.dbuf = rtStored rt i s.dbuf := by
  refine ⟨_, exec_eq_run i _, ?_⟩
  cases hi : isChipCommand i with
  | true =>
    obtain ⟨p, hp, hanswered⟩ := programOf_answeredBy rt i hi hk
    obtain ⟨hgoes, hsamples, hdbuf⟩ := hanswered (dispatch i (withTarget rt i s)) s.samples rfl rfl
    rw [hp, run_append, run_succeed _ hgoes.busy]
    exact ⟨rfl, rfl, hsamples, hdbuf⟩
  | false =>
    obtain ⟨hok, hcause, hsamples, hdbuf⟩ := run_nonchip_succeeds i hi (dispatch i (withTarget rt i s)) rfl
    obtain ⟨hlevels, hstored⟩ := rt_nonchip rt i hi
    exact ⟨hok, hcause, by simpa [withTarget, hlevels] using hsamples, by simpa [withTarget, hstored] using hdbuf⟩

/-- Settles O58: what stands in DBUF after the command is read off entry by entry. -/
theorem referenceTargetMakesEveryCommandSucceed : Obligations.ReferenceTargetMakesEveryCommandSucceed := by
  intro rt s i hk
  obtain ⟨t, hexec, hok, hcause, hsamples, hdbuf⟩ := run_withTarget rt i s hk
  refine ⟨t, hexec, hok, hcause, hsamples, ?_, ?_, ?_⟩
  · rintro a rfl
    rw [dbufGet, hdbuf]
    exact dbufGet_dbufSet_same s 0 (by decide) _
  · rintro a n rfl j hj
    rw [dbufGet, hdbuf]
    exact storeWords_getD _ _ (by omega) s.dbuf j (by omega)
  · rintro rfl
    rw [dbufGet, hdbuf]
    exact dbufGet_dbufSet_same s 0 (by decide) _

/-- Reading RT after a WRITEW of `a` that became ready in time (R77). -/
theorem targetRead_rtAfter_writew (rt : RefTarget) (s : State) (a b : Half) (hw : targetWf rt.mem = true)
    (hk : rt.delay < Config.budgetWrite) :
    targetRead (rtAfter rt (.writew a) s).mem b = if b = a then dbufGet s 0 else targetRead rt.mem b := by
  rw [rtAfter, if_pos hk]
  split
  · rename_i hab
    rw [hab, targetRead_write_same rt.mem a _ hw]
  · rename_i hab
    exact targetRead_write_other rt.mem a b _ hw hab

/-- Settles O59: both commands succeed with RT on the lines (O58), and the read delivers RT's word. -/
theorem writtenWordReadsBack : Obligations.WrittenWordReadsBack := by
  intro rt s u a b hw hk
  obtain ⟨t, hwrite, hok, _⟩ := referenceTargetMakesEveryCommandSucceed rt s (.writew a) fun _ h => by cases h; exact hk
  obtain ⟨r, hread, hok', _, _, hword, _⟩ :=
    referenceTargetMakesEveryCommandSucceed (rtAfter rt (.writew a) s) u (.readw b) nofun
  exact ⟨t, r, hwrite, hok, hread, hok', by rw [hword b rfl, targetRead_rtAfter_writew rt s a b hw hk]⟩

end Sys2Proof.Machine
end

section
/-! PROOFS. The encoding of 30_encoding.md: a command's word and bytes decode back (O1), exactly the legal words decode and
an illegal one runs nothing (O2), words of the test vectors (O3), and the order of the bits on the wire: the frames sent
(O20), the words received (O21) and the status bytes (O22). -/

namespace Sys2Proof.Machine

open Sys2Proof

/-! ## The command word -/

/-- The bytes of a word in address order decode as the word, and what follows them is left (R57, R82). -/
theorem decodeBytes_bytesOfWord {v : Word} {i : Instr} (h : decode v = .ok i) (rest : List Byte) :
    decodeBytes (bytesOfWord v ++ rest) = .ok (i, rest) := by
  simp [bytesOfWord, decodeBytes, wordOfBytes_bytesOfWord, h]

/-- Settles O1: the fields of a word are taken apart and put together without loss (`decode_encode`), and so are its
bytes. -/
theorem encodedCommandDecodesBack : Obligations.EncodedCommandDecodesBack := fun i rest _ =>
  ⟨decode_encode i, decodeBytes_bytesOfWord (decode_encode i) rest⟩

/-- A used CODE names a command (R79). -/
theorem commandOf_isSome_of_codeUsed {c : Cmdw} (h : c.codeUsed = true) : ∃ i, commandOf c = some i := by
  have hrange : 1 ≤ c.code.toNat ∧ c.code.toNat ≤ 0xB := of_decide_eq_true h
  unfold commandOf
  split
  case h_12 => grind
  all_goals exact ⟨_, rfl⟩

/-- The four conditions of R80 leave the decoder no reason to reject. -/
theorem decodeFields_of_legal {c : Cmdw} (h : c.legal = true) : ∃ i, decodeFields c = .ok i := by
  simp only [Cmdw.legal, Bool.and_eq_true] at h
  obtain ⟨⟨⟨hcode, hrsv⟩, hcount⟩, haddr⟩ := h
  obtain ⟨i, hi⟩ := commandOf_isSome_of_codeUsed hcode
  exact ⟨i, by simp [decodeFields, hi, hrsv, hcount, haddr]⟩

/-- R80 bit by bit is R80 field by field. -/
theorem legal_splitWord_of_legalWord {v : Word} (h : legalWord v) : (splitWord v).legal = true := by
  obtain ⟨hcode, hrsv, hcount, haddr⟩ := h
  simp only [Cmdw.legal, Cmdw.codeUsed, Cmdw.reservedClear, Cmdw.countOk, Cmdw.addrOk, Cmdw.usesCount, Cmdw.usesAddr,
    splitWord, Bool.and_eq_true, Bool.or_eq_true, beq_iff_eq]
  simp only [List.mem_cons, List.not_mem_nil, or_false] at hcount haddr
  exact ⟨⟨⟨decide_eq_true hcode, hrsv⟩, hcount⟩, by simpa only [or_assoc] using haddr⟩

/-- Exactly the legal words decode (R80). -/
theorem decode_isOk_iff_legalWord (v : Word) : (∃ i, decode v = .ok i) ↔ legalWord v :=
  ⟨fun ⟨_, h⟩ => legalWord_of_decode h, fun h => decodeFields_of_legal (legal_splitWord_of_legalWord h)⟩

/-- A word that decodes is the word of its command: no other word names it (R78, R79). -/
theorem encode_of_decode {v : Word} {i : Instr} (h : decode v = .ok i) : encode i = v := by
  rw [encode, ← splitWord_of_decode h, joinWord_splitWord]

/-- Settles O2: the decoder accepts what R80 names, and the accepted word of no command meets `step_of_illegal`. -/
theorem illegalWordsRunNothing : Obligations.IllegalWordsRunNothing :=
  ⟨decode_isOk_iff_legalWord, fun _ _ => encode_of_decode, fun s v hill hr hn =>
    step_of_illegal (accept v s) _ hr rfl rfl hn fun _ hd => hill (legalWord_of_decode hd)⟩

/-- Settles O3: the legal words are their commands' words (`decode_encode`); each illegal one meets the first of the four
conditions of R80 that it breaks. -/
theorem writtenWordsDecode : Obligations.WrittenWordsDecode :=
  ⟨decode_encode (.readw 0x1200#16), decode_encode (.readn 0x003E#16 3#5), decode_encode (.writen 0x001F#16 1#5),
    decode_encode (.erasepage 0x1234#16), rfl, rfl, rfl, rfl⟩

/-! ## The frames sent -/

/-- From `s` to `u` a frame with the primitives `es` and `nPulses` pulses went out and its status came in, and its caller
has not looked at the match yet (R85, R86, R88). -/
structure FrameWithStatus (es : List LineEvent) (nPulses : Nat) (s u : State) : Prop where
  trace : u.trace = es.reverse ++ s.trace
  counted : Counted nPulses 8 2 s u
  mode : u.mode = .read
  laststat : u.laststat = statusByte s 0
  matched : u.matched = statusGood s 0
  busy : u.busy = s.busy

/-- From `s` to `t` such a frame went out, and the command goes on if the status is the success constant, and fails with
`c` if not (R18, R115). -/
def FrameSent (c : Cause) (es : List LineEvent) (nPulses : Nat) (s t : State) : Prop :=
  t.trace = es.reverse ++ s.trace ∧ Counted nPulses 8 2 s t ∧ t.mode = .read ∧ t.laststat = statusByte s 0 ∧
    t.busy = (statusByte s 0 == 0xEA#8) ∧ (statusByte s 0 ≠ 0xEA#8 → t.cause = c)

/-- A failure keeps the counts (R145). -/
theorem counted_failCommand {nPulses nSamples nSettles : Nat} {s u : State} (c : Cause)
    (h : Counted nPulses nSamples nSettles s u) : Counted nPulses nSamples nSettles s (failCommand c u) :=
  ⟨h.pulsecnt, h.settlecnt, h.samples, h.sampleDraws⟩

/-- The caller's failure writes the flags only, so the frame stands in both outcomes. -/
theorem FrameWithStatus.sent {es : List LineEvent} {nPulses : Nat} {s u : State} (hu : FrameWithStatus es nPulses s u)
    (hb : s.busy = true) (c : Cause) : FrameSent c es nPulses s (if u.matched then u else failCommand c u) := by
  by_cases hgood : statusByte s 0 = Config.statusOk
  · have hbusy : u.busy = (statusByte s 0 == 0xEA#8) := by rw [hu.busy, hb, hgood]; rfl
    rw [if_pos (hu.matched.trans ((statusGood_iff s 0).mpr hgood))]
    exact ⟨hu.trace, hu.counted, hu.mode, hu.laststat, hbusy, fun hbad => absurd hgood hbad⟩
  · have hbad : ¬ u.matched = true := by rwa [hu.matched, statusGood_iff]
    rw [if_neg hbad]
    exact ⟨hu.trace, counted_failCommand c hu.counted, hu.mode, hu.laststat, (beq_false_of_ne hgood).symm, fun _ => rfl⟩

theorem ofNat_settlesFrom_two (s : State) :
    BitVec.ofNat 32 (settlesFrom s 2) = if s.mode = .write then 1#32 else 2#32 := by
  rw [settlesFrom_two]
  split <;> rfl

theorem sendOpcode_frameWithStatus (src : OpcodeSrc) (s : State) :
    FrameWithStatus (opcodeEvents s.mode (opcodeOf src s) (levels s 0 8)) 25 s (sendOpcode src s) where
  trace := sendOpcode_trace src s
  counted := ⟨sendOpcode_pulsecnt src s, by rw [sendOpcode_settlecnt, ofNat_settlesFrom_two], sendOpcode_samples src s,
    sendOpcode_sampleDraws src s⟩
  mode := sendOpcode_mode src s
  laststat := sendOpcode_laststat src s
  matched := sendOpcode_matched src s
  busy := sendOpcode_busy src s

theorem sendValue_frameWithStatus (src : ValueSrc) (s : State) :
    FrameWithStatus (valueEvents s.mode (valueOf src s) (levels s 0 8)) 41 s (sendValue src s) where
  trace := sendValue_trace src s
  counted := ⟨sendValue_pulsecnt src s, by rw [sendValue_settlecnt, ofNat_settlesFrom_two], sendValue_samples src s,
    sendValue_sampleDraws src s⟩
  mode := sendValue_mode src s
  laststat := sendValue_laststat src s
  matched := sendValue_matched src s
  busy := sendValue_busy src s

/-- Settles O20: each list runs as its frame with the status behind it and then the caller's test of the match. -/
theorem framesGoOutMsbFirstWithComplement : Obligations.FramesGoOutMsbFirstWithComplement := by
  intro s c op v hb
  have hopcode := run_sendOpcodeOps op c [] s hb
  have hvalue := run_sendValueOps v c [] s hb
  rw [List.append_nil, run_nil] at hopcode hvalue
  rw [hopcode, hvalue]
  exact ⟨(sendOpcode_frameWithStatus op s).sent hb c, (sendValue_frameWithStatus v s).sent hb c⟩

/-! ## The receptions -/

/-- Settles O21: the list of RecvWord is the function `recvWord`, whose sample `j` is bit `j` of SHIFT16
(`recvWord_shift16`, by induction on the samples taken). -/
theorem receivedWordIsLsbFirst : Obligations.ReceivedWordIsLsbFirst := by
  intro s hb hin
  rw [run_recvWordOps s hb]
  obtain ⟨hsamples, _⟩ := recvWord_samples s hin
  refine ⟨fun j hj => ?_, recvWord_trace s hin, recvWord_pulsecnt s, hsamples, recvWord_mode s, ?_, recvWord_dbuf s,
    recvWord_laststat s⟩
  · simpa using recvWord_shift16 s hin j hj
  · rw [recvWord_busy, hb]

/-- Settles O22: LASTSTAT is the byte of the eight samples (`recvStatus_laststat`), and the match compares that byte. -/
theorem statusByteIsMsbFirst : Obligations.StatusByteIsMsbFirst := by
  intro s hb hin
  rw [run_recvStatusOps s hb]
  have hlast := recvStatus_laststat s hin
  obtain ⟨hsamples, _⟩ := recvStatus_samples s hin
  refine ⟨fun j hj => ?_, recvStatus_trace s hin, recvStatus_pulsecnt s, hsamples, recvStatus_mode s, ?_⟩
  · rw [hlast, statusByte_getLsbD s 0 (7 - j) (by omega)]
    congr 1
    omega
  · rw [recvStatus_matched s hin, hlast]
    exact statusGood_iff s 0

end Sys2Proof.Machine
end

section
/-! PROOFS. The mode primitives and the clock: no pulse before the settle delay of the last reconfiguration (O49), the
state each mode primitive leaves (O17), the transition table (O18), and the pulse (O19). -/

namespace Sys2Proof.Machine

open Sys2Proof

/-! ## No pulse before the settle delay -/

/-- Entered with no settle delay due, the events start no pulse while one is due, and leave none due: what follows them
is settled exactly when it is so on its own (R106). -/
def SettledEvents (es : List LineEvent) : Prop := ∀ fs, settledFrom false (es ++ fs) = settledFrom false fs

theorem SettledEvents.append {es fs : List LineEvent} (h : SettledEvents es) (k : SettledEvents fs) :
    SettledEvents (es ++ fs) := fun gs => by
  rw [List.append_assoc, h, k]

theorem SettledEvents.settledFrom {es : List LineEvent} (h : SettledEvents es) : settledFrom false es = true := by
  simpa [Machine.settledFrom] using h []

/-- Driving a line makes no settle delay due, and with none due it may be a pulse (R102, R106). -/
theorem settledEvents_drive (l : Line) (b : Bool) : SettledEvents [.drive l b] := fun _ => by
  cases l <;> cases b <;> rfl

theorem settledEvents_sample (l : Line) (b : Bool) : SettledEvents [.sample l b] := fun _ => rfl

theorem settledEvents_clk : SettledEvents clkEvents := fun _ => rfl

/-- SetWriteMode's own delay ends the wait its change of DAT's direction opens (R98). -/
theorem settledEvents_writeMode (m : Mode) : SettledEvents (writeModeEvents m) := fun _ => by
  unfold writeModeEvents
  split <;> rfl

/-- SetReadMode's own delay ends the wait its change of DAT's direction opens (R99). -/
theorem settledEvents_readMode (m : Mode) : SettledEvents (readModeEvents m) := fun _ => by
  unfold readModeEvents
  split <;> rfl

/-- From `s` to `t` the trace grows by settled events. -/
def SettledTo (s t : State) : Prop := ∃ es, t.trace = es.reverse ++ s.trace ∧ SettledEvents es

theorem SettledTo.trans {s t u : State} (h : SettledTo s t) (k : SettledTo t u) : SettledTo s u := by
  obtain ⟨es, hes, hs⟩ := h
  obtain ⟨fs, hfs, ht⟩ := k
  exact ⟨es ++ fs, by simp [hfs, hes], hs.append ht⟩

theorem SettledTo.of_lineSide {s t : State} (h : lineSide t = lineSide s) : SettledTo s t :=
  ⟨[], (congrArg State.trace h :), fun _ => rfl⟩

theorem drive_settledTo (l : Line) (b : Bool) (s : State) : SettledTo s (drive l b s) :=
  ⟨_, rfl, settledEvents_drive l b⟩

theorem clkPulse_settledTo (s : State) : SettledTo s (clkPulse s) := ⟨_, rfl, settledEvents_clk⟩

theorem afterSample_settledTo (s : State) : SettledTo s (afterSample s) := by
  unfold afterSample
  split <;> exact ⟨[_], rfl, settledEvents_sample _ _⟩

theorem setWriteMode_settledTo (s : State) : SettledTo s (setWriteMode s) :=
  ⟨_, setWriteMode_trace s, settledEvents_writeMode s.mode⟩

theorem setReadMode_settledTo (s : State) : SettledTo s (setReadMode s) :=
  ⟨_, setReadMode_trace s, settledEvents_readMode s.mode⟩

theorem enterWriteData_settledTo (s : State) : SettledTo s (enterWriteData s) :=
  ⟨_, rfl, settledEvents_drive .pgm false⟩

theorem loopState_settledTo {g : Nat → State → State} (hg : ∀ j u, SettledTo u (g j u)) (n : Nat) (s : State) :
    SettledTo s (loopState n g s) :=
  loopState_induct (SettledTo s) (fun j u hu => hu.trans (hg j u)) n (.of_lineSide rfl)

/-- The number of a bit noted, OE driven, a pulse: one bit sent (R84). -/
theorem bitOut_settledTo (j : Nat) (b : Bool) (s : State) : SettledTo s (clkPulse (drive .oe b (setBit j s))) :=
  have hbit : SettledTo s (setBit j s) := .of_lineSide rfl
  (hbit.trans (drive_settledTo .oe b _)).trans (clkPulse_settledTo _)

/-- The number of a bit noted, a pulse, a sample: one bit received (R84). -/
theorem bitIn_settledTo {j : Nat} {s t : State} (ht : lineSide t = lineSide (afterSample (clkPulse (setBit j s)))) :
    SettledTo s t :=
  have hbit : SettledTo s (setBit j s) := .of_lineSide rfl
  ((hbit.trans (clkPulse_settledTo _)).trans (afterSample_settledTo _)).trans (.of_lineSide ht)

theorem statusBits_settledTo (n : Nat) (s : State) : SettledTo s (loopState n statusBit s) :=
  loopState_settledTo (fun _ _ => (bitIn_settledTo rfl : SettledTo _ (statusBit _ _))) n s

theorem wordBits_settledTo (n : Nat) (s : State) : SettledTo s (loopState n wordBit s) :=
  loopState_settledTo (fun _ _ => (bitIn_settledTo rfl : SettledTo _ (wordBit _ _))) n s

theorem pulses_settledTo (n : Nat) (s : State) : SettledTo s (pulses n s) :=
  loopState_settledTo (fun _ => clkPulse_settledTo) n s

theorem pollTick_settledTo (s : State) : SettledTo s (pollTick s) :=
  ((clkPulse_settledTo s).trans (afterSample_settledTo _)).trans (.of_lineSide rfl)

theorem pollTicks_settledTo (n : Nat) (s : State) : SettledTo s (pollTicks n s) := by
  induction n generalizing s with
  | zero => exact .of_lineSide rfl
  | succ n ih =>
    unfold pollTicks
    split
    · exact .of_lineSide rfl
    · exact (pollTick_settledTo s).trans (ih _)

theorem unlockBit_settledTo (pair : Byte × Byte) (j : Nat) (s : State) : SettledTo s (unlockBit pair j s) :=
  have hbit : SettledTo s (setBit j s) := .of_lineSide rfl
  ((hbit.trans (drive_settledTo .pgm _ _)).trans (drive_settledTo .oe _ _)).trans (clkPulse_settledTo _)

theorem unlockPairs_settledTo (n : Nat) (s : State) : SettledTo s (loopState n unlockPair s) :=
  loopState_settledTo (fun _ => loopState_settledTo (unlockBit_settledTo _) 8) n s

/-! ### The phases -/

theorem recvStatus_settledTo (s : State) : SettledTo s (recvStatus s) :=
  have hbits := (setReadMode_settledTo s).trans (statusBits_settledTo 8 _)
  (hbits.trans (clkPulse_settledTo _)).trans (.of_lineSide rfl)

theorem sendOpcode_settledTo (src : OpcodeSrc) (s : State) : SettledTo s (sendOpcode src s) :=
  have hbits := (setWriteMode_settledTo s).trans (loopState_settledTo (fun j u => bitOut_settledTo j _ u) 16 _)
  hbits.trans (recvStatus_settledTo _)

theorem sendValue_settledTo (src : ValueSrc) (s : State) : SettledTo s (sendValue src s) :=
  have hmode := (setWriteMode_settledTo s).trans (enterWriteData_settledTo _)
  have hbits := hmode.trans (loopState_settledTo (fun j u => bitOut_settledTo j _ u) 32 _)
  hbits.trans (recvStatus_settledTo _)

theorem pollWait_settledTo (b : Nat) (s : State) : SettledTo s (pollWait b s) :=
  have hstart : SettledTo s (startPoll (setReadMode s)) := (setReadMode_settledTo s).trans (.of_lineSide rfl)
  (hstart.trans (pollTicks_settledTo b _)).trans (.of_lineSide rfl)

theorem pollStatus_settledTo (s : State) : SettledTo s (pollStatus s) :=
  (statusBits_settledTo 8 s).trans (.of_lineSide rfl)

/-- Every phase ends with no settle delay due, so the phases of a chip command follow each other settled (R106). -/
theorem settledTo_primitives (s : State) : PrimitivesKeep (SettledTo s) where
  lineSide hl hs := hs.trans (.of_lineSide hl)
  sendOpcode src t ht := ht.trans (sendOpcode_settledTo src t)
  sendValue src t ht := ht.trans (sendValue_settledTo src t)
  recvStatus t ht := ht.trans (recvStatus_settledTo t)
  recvWord t ht := (ht.trans (setReadMode_settledTo t)).trans (wordBits_settledTo 16 _)
  pulses n t ht := ht.trans (pulses_settledTo n t)
  pollWait b t ht := ht.trans (pollWait_settledTo b t)
  pollStatus t ht := ht.trans (pollStatus_settledTo t)

/-- Every command's run from a busy state. POWERUP and SHUTDOWN change directions and leave the settle delay to the next
chip command, but they start no pulse (R96, R97). -/
theorem run_programOf_settled (i : Instr) (s : State) (hb : s.busy = true) :
    ∃ es, (run (programOf i) s).trace = es.reverse ++ s.trace ∧ settledFrom false es = true := by
  have hsettled : SettledTo s (run (programOf i) s) →
      ∃ es, (run (programOf i) s).trace = es.reverse ++ s.trace ∧ settledFrom false es = true :=
    fun ⟨es, hes, h⟩ => ⟨es, hes, h.settledFrom⟩
  cases hi : isChipCommand i with
  | true => exact hsettled ((settledTo_primitives s).chip i hi s hb (sendOpcode_settledTo _ s))
  | false =>
    cases i with
    | powerup => exact ⟨powerUpEvents, by rw [programOf, run_powerupProgram s hb]; rfl, rfl⟩
    | shutdown => exact ⟨shutdownEvents, by rw [programOf, run_shutdownProgram s hb]; rfl, rfl⟩
    | unlock =>
      apply hsettled
      rw [programOf, run_unlockProgram s hb]
      exact (unlockPairs_settledTo 8 s).trans (.of_lineSide (lineSide_succeedCommand _))
    | _ => cases hi

/-- Settles O49: a command's meaning is the run of its list from the dispatched state, and that run is settled phase by
phase. -/
theorem noPulseBeforeTheSettleDelay : Obligations.NoPulseBeforeTheSettleDelay := by
  intro s i
  obtain ⟨es, htrace, hsettled⟩ := run_programOf_settled i (dispatch i s) rfl
  exact ⟨_, es, exec_eq_run i s, htrace, hsettled⟩

/-! ## The state each mode primitive leaves -/

/-- SetWriteMode from any MODE but its own, field by field, in one equation (R98). -/
theorem setWriteMode_eq (s : State) (hm : s.mode ≠ .write) :
    setWriteMode s =
      { s with
        ports := ⟨s.ports.pwrN, ⟨s.ports.clk.dir, false⟩, ⟨s.ports.oe.dir, false⟩, ⟨s.ports.pgm.dir, true⟩,
          ⟨.output, false⟩⟩
        trace := [.drive .dat false, .setDir .dat .output, .drive .clk false, .drive .oe false, .drive .pgm true,
          .sleep .settle].reverse ++ s.trace
        settlecnt := s.settlecnt + 1#32
        mode := .write } := by
  rw [setWriteMode, if_neg hm]
  rfl

/-- SetReadMode from any MODE but its own; the latch of DAT stays (R99). -/
theorem setReadMode_eq (s : State) (hm : s.mode ≠ .read) :
    setReadMode s =
      { s with
        ports := ⟨s.ports.pwrN, ⟨s.ports.clk.dir, false⟩, ⟨s.ports.oe.dir, false⟩, ⟨s.ports.pgm.dir, false⟩,
          ⟨.input, s.ports.dat.out⟩⟩
        trace := [.setDir .dat .input, .drive .clk false, .drive .oe false, .drive .pgm false,
          .sleep .settle].reverse ++ s.trace
        settlecnt := s.settlecnt + 1#32
        mode := .read } := by
  rw [setReadMode, if_neg hm]
  rfl

/-- Settles O17: the run of each list is its primitive, which does nothing in its own MODE and reconfigures in the
others. -/
theorem modeChangesReconfigureTheLines : Obligations.ModeChangesReconfigureTheLines := by
  intro s hb
  refine ⟨?_, ?_, ?_⟩
  · rw [run_setWriteModeOps s hb]
    split
    case isTrue hm => exact if_pos hm
    case isFalse hm => exact setWriteMode_eq s hm
  · rw [run_setReadModeOps s hb]
    split
    case isTrue hm => exact if_pos hm
    case isFalse hm => exact setReadMode_eq s hm
  · rw [run_enterWriteDataOps s hb]
    rfl

/-! ## The mode transition table -/

theorem run_powerUpOps (s : State) (hb : s.busy = true) : run powerUpOps s = powerUpState s := by
  have hshut : (shutdownState s).busy = true := hb
  rw [powerUpOps, run_append, run_shutdownOps s hb]
  simp [run, execMicro, powerUpState, hshut]

theorem modeStep_setWriteMode_mode (m : Mode) : (modeStep .setWriteMode m).1 = .write := by
  cases m <;> rfl

theorem modeStep_setReadMode_mode (m : Mode) : (modeStep .setReadMode m).1 = .read := by
  cases m <;> rfl

/-- MODE after a mode primitive is what the transition function says (R104). -/
theorem run_modeOps_mode (op : ModeOp) (s : State) (hb : s.busy = true) :
    (run (modeOps op) s).mode = (modeStep op s.mode).1 := by
  cases op with
  | shutdown => rw [modeOps, run_shutdownOps s hb]; rfl
  | setWriteMode => rw [modeOps, run_setWriteModeOps s hb, setWriteMode_mode, modeStep_setWriteMode_mode]
  | setReadMode => rw [modeOps, run_setReadModeOps s hb, setReadMode_mode, modeStep_setReadMode_mode]
  | enterWriteData => rw [modeOps, run_enterWriteDataOps s hb]; rfl

/-- The line primitives of a mode primitive entered in a MODE (R96, R98, R99, R100). -/
def modeEvents : ModeOp → Mode → List LineEvent
  | .shutdown, _ => shutdownEvents
  | .setWriteMode, m => writeModeEvents m
  | .setReadMode, m => readModeEvents m
  | .enterWriteData, _ => [.drive .pgm false]

theorem run_modeOps_trace (op : ModeOp) (s : State) (hb : s.busy = true) :
    (run (modeOps op) s).trace = (modeEvents op s.mode).reverse ++ s.trace := by
  cases op with
  | shutdown => rw [modeOps, run_shutdownOps s hb]; rfl
  | setWriteMode => rw [modeOps, run_setWriteModeOps s hb, setWriteMode_trace]; rfl
  | setReadMode => rw [modeOps, run_setReadModeOps s hb, setReadMode_trace]; rfl
  | enterWriteData => rw [modeOps, run_enterWriteDataOps s hb]; rfl

/-- A mode primitive sleeps T_SETTLE once where the transition function says so, and not at all elsewhere (R104). -/
theorem settlesOf_modeEvents (op : ModeOp) (m : Mode) : settlesOf (modeEvents op m) = (modeStep op m).2.toNat := by
  cases op <;> cases m <;> rfl

/-- Settles O18: each of the sixteen rows is a value of `modeStep`, and every mode primitive runs as `modeStep` says. -/
theorem modePrimitivesFollowTheTable : Obligations.ModePrimitivesFollowTheTable := by
  intro s hb
  refine ⟨fun op m m' settles hrow => ?_, ?_, ?_, fun pair j => ?_, fun n => ?_⟩
  · have hstep : modeStep op m = (m', settles == 1) ∧ settles = (modeStep op m).2.toNat := by
      fin_cases hrow <;> exact ⟨rfl, rfl⟩
    obtain ⟨hvalue, hsettles⟩ := hstep
    refine ⟨hvalue, ?_⟩
    rintro rfl
    refine ⟨?_, modeEvents op s.mode, run_modeOps_trace op s hb, ?_⟩
    · rw [run_modeOps_mode op s hb, hvalue]
    · rw [settlesOf_modeEvents, ← hsettles]
  · rw [run_powerUpOps s hb]; rfl
  · rw [run_clkOps s hb, clkPulse_mode]
  · rw [run_unlockBitOps pair j s hb]; rfl
  · rw [run_pulsesOps n s hb, pulses_mode]

/-! ## The clock -/

/-- Clk, field by field, in one equation (R102, R103). -/
theorem clkPulse_eq (s : State) :
    clkPulse s =
      { s with
        ports := { s.ports with clk := ⟨s.ports.clk.dir, false⟩ }
        trace := clkEvents.reverse ++ s.trace
        pulsecnt := s.pulsecnt + 1#32 } := rfl

/-- A group of at least one bare pulse, field by field, in one equation (R112). -/
theorem pulses_eq (n : Nat) (s : State) :
    pulses (n + 1) s =
      { s with
        ports := { s.ports with clk := ⟨s.ports.clk.dir, false⟩ }
        trace := (List.replicate (n + 1) clkEvents.reverse).flatten ++ s.trace
        pulsecnt := s.pulsecnt + BitVec.ofNat 32 (n + 1) } := by
  induction n with
  | zero => exact clkPulse_eq s
  | succ n ih =>
    calc pulses (n + 2) s = clkPulse (pulses (n + 1) s) := rfl
      _ = _ := by
        rw [ih, clkPulse_eq, List.replicate_succ (n := n + 1), BitVec.ofNat_add (n + 1) 1, ← BitVec.add_assoc]
        simp

/-- Settles O19: one Clk is `clkPulse`, and the bare pulses are counted by induction. -/
theorem clkIsOnePulse : Obligations.ClkIsOnePulse := by
  intro s hb
  refine ⟨?_, fun n hn => ?_⟩
  · rw [run_clkOps s hb]
    exact clkPulse_eq s
  · obtain ⟨k, rfl⟩ := Nat.exists_eq_add_one.mpr hn
    rw [run_pulsesOps _ s hb]
    exact pulses_eq k s

end Sys2Proof.Machine
end

section
/-! PROOFS. The poll (O23), and the commands that poll where the poll fails: no ready within the budget (O42), and a bad
status behind the ready (O43). What every chip command leaves, wherever it ends, is proved for all of them: the lines, and
the frame. -/

namespace Sys2Proof.Machine

open Sys2Proof

/-! ## What a poll receives -/

/-- From `s` to `t` a poll received the bits `bits`, each with a pulse of its own (R89, R116). -/
structure Polled (bits : List Bool) (s t : State) : Prop where
  trace : t.trace = (bitsInEvents bits).reverse ++ s.trace
  pulsecnt : t.pulsecnt = s.pulsecnt + BitVec.ofNat 32 bits.length
  settlecnt : t.settlecnt = s.settlecnt
  samples : t.samples = s.samples.drop bits.length
  sampleDraws : t.sampleDraws = s.sampleDraws + bits.length

theorem bitsInEvents_append (bits more : List Bool) :
    bitsInEvents (bits ++ more) = bitsInEvents bits ++ bitsInEvents more :=
  List.flatMap_append

theorem length_levels (s : State) (k n : Nat) : (levels s k n).length = n := by
  simp [levels]

theorem Polled.append {bits more : List Bool} {s t u : State} (h : Polled bits s t) (k : Polled more t u) :
    Polled (bits ++ more) s u where
  trace := by simp [k.trace, h.trace, bitsInEvents_append]
  pulsecnt := by simp [k.pulsecnt, h.pulsecnt, BitVec.ofNat_add, BitVec.add_assoc]
  settlecnt := k.settlecnt.trans h.settlecnt
  samples := by simp [k.samples, h.samples]
  sampleDraws := by simp [k.sampleDraws, h.sampleDraws, Nat.add_assoc]

/-- What comes after a poll's bits is what came after them before. -/
theorem Polled.upcoming {bits : List Bool} {s t : State} (h : Polled bits s t) (j : Nat) :
    upcoming t j = Machine.upcoming s (j + bits.length) :=
  upcoming_drop s t _ h.samples h.sampleDraws j

/-- The status read of a poll: eight bits and no trailing pulse (R116). -/
theorem pollStatus_polled (s : State) (hi : s.ports.dat.dir = .input) : Polled (levels s 0 8) s (pollStatus s) := by
  obtain ⟨hsamples, hdraws⟩ := pollStatus_samples s hi
  exact ⟨pollStatus_trace s hi, by simp [length_levels], by simp, by rw [hsamples, length_levels],
    by rw [hdraws, length_levels]⟩

/-- A poll of `s` that saw no ready in its budget of `b` ticks stands in `t` (R118). -/
structure PollTimedOut (b : Nat) (s t : State) : Prop where
  polled : Polled (List.replicate b false) s t
  pollcnt : t.pollcnt = BitVec.ofNat 19 b
  laststat : t.laststat = s.laststat

/-- A poll of `s` that saw ready at iteration `k` and read its status stands in `t` (R119). -/
structure PollRead (k : Nat) (s t : State) : Prop where
  polled : Polled (List.replicate k false ++ [true] ++ levels s (k + 1) 8) s t
  pollcnt : t.pollcnt = BitVec.ofNat 19 (k + 1)
  laststat : t.laststat = statusByte s (k + 1)
  matched : t.matched = statusGood s (k + 1)

/-- No ready within the budget: the wait takes all of it (R118). -/
theorem pollWait_of_neverReady {s : State} {b : Nat} (h : Receiving s) (hn : neverReady s 0 b) :
    (pollWait b s).ready = false ∧ PollTimedOut b s (pollWait b s) := by
  obtain ⟨hready, hcount, hpulses, hsettles, hsamples, hdraws, htrace, _⟩ := pollWait_timeout b s h.mode h.input hn
  exact ⟨hready, ⟨htrace, by simp [hpulses], hsettles, by simp [hsamples], by simp [hdraws]⟩, hcount, by simp⟩

/-- Ready at iteration `k` within the budget: `k + 1` ticks, then the status (R117, R119). -/
theorem pollWait_of_readyAt {s : State} {b k : Nat} (h : Receiving s) (hk : k < b) (hr : readyAt s 0 k) :
    (pollWait b s).ready = true ∧ PollRead k s (pollStatus (pollWait b s)) := by
  obtain ⟨hready, hcount, hpulses, hsettles, hsamples, hdraws, htrace, hports⟩ :=
    pollWait_ready b k s h.mode h.input hk hr
  have hinput : (pollWait b s).ports.dat.dir = .input := by rw [hports]; exact h.input
  have hticks : Polled (List.replicate k false ++ [true]) s (pollWait b s) :=
    ⟨htrace, by simp [hpulses], hsettles, by simp [hsamples], by simp [hdraws]⟩
  have hafter : ∀ j, upcoming (pollWait b s) j = upcoming s (j + (k + 1)) := by simpa using hticks.upcoming
  have hstatus := pollStatus_polled (pollWait b s) hinput
  rw [levels_shift s _ (k + 1) 0 8 hafter, Nat.zero_add] at hstatus
  refine ⟨hready, hticks.append hstatus, by rw [pollStatus_pollcnt, hcount], ?_, ?_⟩
  · rw [pollStatus_laststat _ hinput, statusByte_shift s _ (k + 1) 0 hafter, Nat.zero_add]
  · rw [pollStatus_matched _ hinput, statusGood_shift s _ (k + 1) 0 hafter, Nat.zero_add]

/-- Settles O23: the wait takes the budget or ends at the first ready; then the status decides. -/
theorem pollEndsAtTheFirstReadyOrTheBudget : Obligations.PollEndsAtTheFirstReadyOrTheBudget := by
  intro s b hb hm hi _
  have hrun := run_pollOps b [] s hb
  rw [List.append_nil] at hrun
  refine ⟨fun k hk hr => ?_, fun hn => ?_⟩
  · obtain ⟨hready, hpolled, hcount, hlast, hmatched⟩ := pollWait_of_readyAt ⟨hb, hm, hi⟩ hk hr
    have htrace := hpolled.trace
    rw [bitsInEvents_append] at htrace
    have hpulses : (pollStatus (pollWait b s)).pulsecnt = s.pulsecnt + BitVec.ofNat 32 (k + 9) := by
      simpa [length_levels] using hpolled.pulsecnt
    have hsamples : (pollStatus (pollWait b s)).samples = s.samples.drop (k + 9) := by
      simpa [length_levels] using hpolled.samples
    rw [hrun, if_pos hready, hmatched]
    by_cases hgood : statusByte s (k + 1) = Config.statusOk
    · have hbusy : (pollStatus (pollWait b s)).busy = (statusByte s (k + 1) == 0xEA#8) := by
        rw [pollStatus_busy, pollWait_busy, hb, hgood]; rfl
      rw [if_pos ((statusGood_iff s _).mpr hgood), run_nil]
      exact ⟨htrace, hcount, hpulses, hsamples, hlast, hbusy, fun hbad => absurd hgood hbad⟩
    · rw [if_neg (mt (statusGood_iff s _).mp hgood)]
      exact ⟨htrace, hcount, hpulses, hsamples, hlast, (beq_false_of_ne hgood).symm, fun _ => rfl⟩
  · obtain ⟨hready, hpolled, hcount, hlast⟩ := pollWait_of_neverReady ⟨hb, hm, hi⟩ hn
    rw [hrun, if_neg (by simp [hready])]
    exact ⟨hpolled.trace, hcount, by simpa using hpolled.pulsecnt, by simpa using hpolled.samples, hlast, rfl, rfl⟩

/-! ## What every chip command leaves -/

theorem ChipLines.of_portOf {s t u : State} (h : ChipLines s t) (hm : u.mode = .read)
    (hp : ∀ l, portOf u.ports l = portOf t.ports l) : ChipLines s u where
  mode := hm
  pwrN := (hp .pwrN).trans h.pwrN
  clk := (hp .clk).trans h.clk
  oe := (hp .oe).trans h.oe
  pgm := (hp .pgm).trans h.pgm
  dat := (congrArg Port.dir (hp .dat)).trans h.dat
  datLatch hs := (congrArg Port.out (hp .dat)).trans (h.datLatch hs)

/-- A frame and its status, entered in Read mode (R98, R99). -/
theorem ChipLines.of_frame {s t u : State} (h : ChipLines s t) (hm : u.mode = .read)
    (hp : u.ports = ⟨t.ports.pwrN, ⟨t.ports.clk.dir, false⟩, ⟨t.ports.oe.dir, false⟩, ⟨t.ports.pgm.dir, false⟩,
      ⟨.input, if t.mode = .write then t.ports.dat.out else false⟩⟩) : ChipLines s u :=
  ⟨hm, by simp [hp, h.pwrN], by simp [hp, h.clk], by simp [hp, h.oe], by simp [hp, h.pgm], by simp [hp],
    fun _ => by simp [hp, h.mode]⟩

/-- The liveness check leaves the lines so from every state (R107). -/
theorem sendOpcode_chipLines (src : OpcodeSrc) (s : State) : ChipLines s (sendOpcode src s) :=
  ⟨by simp, by simp, by simp, by simp, by simp, by simp, fun hs => by simp [hs]⟩

theorem chipLines_primitives (s : State) : PrimitivesKeep (ChipLines s) where
  lineSide {t u} hl ht := by
    have hm : u.mode = t.mode := (congrArg State.mode hl :)
    have hp : u.ports = t.ports := (congrArg State.ports hl :)
    exact ht.of_portOf (hm.trans ht.mode) fun l => by rw [hp]
  sendOpcode src t ht := ht.of_frame (by simp) (sendOpcode_ports src t)
  sendValue src t ht := ht.of_frame (by simp) (sendValue_ports src t)
  recvStatus t ht := ht.of_portOf (by simp) fun l => by
    cases l <;> simp [portOf, recvStatus_ports, setReadMode_read t ht.mode, ht.clk]
  recvWord t ht := ht.of_portOf (by simp) fun l => by
    cases l <;> simp [portOf, recvWord_ports, setReadMode_read t ht.mode, ht.clk]
  pulses n t ht := ht.of_portOf (by simp [ht.mode]) fun l => by
    cases n with
    | zero => rfl
    | succ n => cases l <;> simp [pulses_eq, portOf, ht.clk]
  pollWait b t ht := ht.of_portOf (by simp) fun l => by
    have hread := setReadMode_read t ht.mode
    cases l with
    | clk =>
      have hdir : (pollTicks b (startPoll t)).ports.clk.dir = s.ports.clk.dir := by simp [ht.clk]
      have hlow := pollTicks_clk_out b (startPoll t) (by simp [ht.clk])
      have hclk : (pollTicks b (startPoll t)).ports.clk = ⟨s.ports.clk.dir, false⟩ := congrArg₂ Port.mk hdir hlow
      simp [portOf, pollWait, hread, hclk, ht.clk]
    | _ => simp [portOf, pollWait, hread]
  pollStatus t ht := ht.of_portOf (by simp [ht.mode]) fun l => by
    cases l <;> simp [portOf, ht.clk]

/-- Every chip command, wherever it ends, leaves the lines as R145 says. -/
theorem run_chip_lines (i : Instr) (hi : isChipCommand i = true) (s : State) (hb : s.busy = true) :
    ChipLines s (run (programOf i) s) :=
  (chipLines_primitives s).chip i hi s hb (sendOpcode_chipLines _ s)

/-- Every command's list ends the command (R17). -/
theorem run_programOf_ends (i : Instr) (s : State) : (run (programOf i) s).busy = false := by
  obtain ⟨p, hp⟩ := programOf_ends i
  rw [hp, run_append]
  cases hb : (run p s).busy with
  | true => rw [run_succeed _ hb]; rfl
  | false => rw [run_idle _ _ hb, hb]

/-- The frame of every command, wherever it ends (R34, R51, R64). -/
theorem run_commandFrame (i : Instr) (s : State) : CommandFrame i s (run (programOf i) (dispatch i s)) := by
  obtain ⟨hcmd, hovr, hcode, hn, haddr, hreads, hdraws, hpending, hreset⟩ := run_keeps (programOf i) (dispatch i s)
  have hends := run_programOf_ends i (dispatch i s)
  exact ⟨hcmd, hovr, hreads, hdraws, hpending, hreset, hcode, hn, haddr, hends, run_seq_idle _ _ rfl hends⟩

/-- A chip command whose run fails: its counts are those of the state that fails (R144, R145). -/
theorem chipFailure_of_run {i : Instr} {c : Cause} {nPulses nSamples nSettles : Nat} {s t : State}
    (hi : isChipCommand i = true) (hrun : run (programOf i) (dispatch i s) = failCommand c t)
    (hc : Counted nPulses nSamples nSettles (dispatch i s) t) :
    ChipFailure i c nPulses nSamples nSettles s (failCommand c t) where
  ok := rfl
  cause := rfl
  counted :=
    have hfail := counted_failCommand c hc
    ⟨hfail.pulsecnt, hfail.settlecnt, hfail.samples, hfail.sampleDraws⟩
  lines := by
    obtain ⟨hmode, hpwrN, hclk, hoe, hpgm, hdat, hlatch⟩ := hrun ▸ run_chip_lines i hi (dispatch i s) rfl
    exact ⟨hmode, hpwrN, hclk, hoe, hpgm, hdat, hlatch⟩
  frame := hrun ▸ run_commandFrame i s

/-! ## The frames before the poll -/

/-- A chip command that began in `s` goes on in `u`: behind the liveness check `k` more frames went out, `nPulses` pulses
in all, and each was answered with 0xEA (R125, R139). -/
structure FramesAnswered (k nPulses : Nat) (s u : State) : Prop where
  counted : Counted nPulses (8 * (k + 1)) (2 * (k + 1)) s u
  receiving : Receiving u
  matched : u.matched = true
  laststat : u.laststat = Config.statusOk
  dbuf : u.dbuf = s.dbuf

namespace FramesAnswered

variable {k nPulses : Nat} {s u : State} (h : FramesAnswered k nPulses s u)
include h

theorem upcoming (j : Nat) : upcoming u j = Machine.upcoming s (j + 8 * (k + 1)) :=
  upcoming_drop s u _ h.counted.samples h.counted.sampleDraws j

/-- One more frame, its status good: in Read mode it takes two settle delays (R98, R99). -/
theorem frame {es : List LineEvent} {m : Nat} {v : State} (hf : FrameWithStatus es m u v)
    (hi : v.ports.dat.dir = .input) (hd : v.dbuf = u.dbuf) (hg : statusGood s (8 * (k + 1)) = true) :
    FramesAnswered (k + 1) (nPulses + m) s v := by
  obtain ⟨hpulses, hsettles, hsamples, hdraws⟩ := h.counted
  obtain ⟨fpulses, fsettles, fsamples, fdraws⟩ := hf.counted
  have hgood : statusGood u 0 = true := by
    rw [statusGood_shift s u _ 0 h.upcoming, Nat.zero_add]; exact hg
  have htwo : settlesFrom s (2 * (k + 1 + 1)) = settlesFrom s (2 * (k + 1)) + settlesFrom u 2 := by
    simp only [settlesFrom, h.receiving.mode]
    split <;> simp <;> omega
  refine ⟨⟨?_, ?_, ?_, ?_⟩, ⟨hf.busy.trans h.receiving.busy, hf.mode, hi⟩, hf.matched.trans hgood,
    hf.laststat.trans ((statusGood_iff u 0).mp hgood), hd.trans h.dbuf⟩
  · rw [fpulses, hpulses, BitVec.ofNat_add, BitVec.add_assoc]
  · rw [fsettles, hsettles, htwo, BitVec.ofNat_add, BitVec.add_assoc]
  · rw [fsamples, hsamples, List.drop_drop]; rfl
  · rw [fdraws, hdraws]; rfl

theorem opcode (src : OpcodeSrc) (hg : statusGood s (8 * (k + 1)) = true) :
    FramesAnswered (k + 1) (nPulses + 25) s (sendOpcode src u) :=
  h.frame (sendOpcode_frameWithStatus src u) (by simp) (by simp) hg

theorem value (src : ValueSrc) (hg : statusGood s (8 * (k + 1)) = true) :
    FramesAnswered (k + 1) (nPulses + 41) s (sendValue src u) :=
  h.frame (sendValue_frameWithStatus src u) (by simp) (by simp) hg

theorem setWidx (i : Nat) : FramesAnswered k nPulses s (setWidx i u) :=
  ⟨⟨h.counted.pulsecnt, h.counted.settlecnt, h.counted.samples, h.counted.sampleDraws⟩,
    ⟨h.receiving.busy, h.receiving.mode, h.receiving.input⟩, h.matched, h.laststat, h.dbuf⟩

/-- The words of WRITEN, every status good (R132). -/
theorem words (n : Nat) (hg : ∀ j, j < n → statusGood s (8 * (k + j + 1)) = true) :
    FramesAnswered (k + n) (nPulses + 41 * n) s (loopState n writeWord u) := by
  induction n with
  | zero => exact h
  | succ n ih => exact ((ih fun j hj => hg j (by omega)).setWidx n).value (.dbuf n) (hg n (by omega))

end FramesAnswered

/-- The liveness check answered with 0xEA, from any state (R125). -/
theorem framesAnswered_check {s : State} (hb : s.busy = true) (hg : statusGood s 0 = true) :
    FramesAnswered 0 25 s (sendOpcode (.const Config.opcCheck) s) :=
  ⟨(sendOpcode_frameWithStatus _ s).counted, ⟨by simp [hb], by simp, by simp⟩, by simp [hg],
    by simpa using (statusGood_iff s 0).mp hg, by simp⟩

/-- The liveness check, the opcode and the address answered with 0xEA: what follows them runs from a state behind three
frames and 91 pulses (R125, R139). -/
theorem addressed_goes_on {s : State} {n : Nat} (hb : s.busy = true) (hg : statusesGood s n) (hn : 3 ≤ n)
    (src : OpcodeSrc) (v : ValueSrc) :
    ∃ u, FramesAnswered 2 91 s u ∧ ∀ next,
      (orFail .checkFail (sendOpcode (.const Config.opcCheck) s) fun s1 =>
        orFail .statusMismatch (sendOpcode src s1) fun s2 => orFail .statusMismatch (sendValue v s2) next) = next u := by
  have hcheck := framesAnswered_check hb (hg 0 (by omega))
  have hopcode := hcheck.opcode src (hg 1 (by omega))
  have hvalue := hopcode.value v (hg 2 (by omega))
  exact ⟨_, hvalue, fun next => by
    rw [orFail_matched _ _ _ hcheck.matched, orFail_matched _ _ _ hopcode.matched, orFail_matched _ _ _ hvalue.matched]⟩

/-- A command that polls, every frame before the poll answered with 0xEA, comes to its poll (R131 to R134). -/
theorem run_comes_to_poll {i : Instr} {b : Nat} {s : State} (hi : budgetOf i = some b) (hb : s.busy = true)
    (hg : statusesGood s (pollStart i / 8)) :
    ∃ u k, run (programOf i) s = pollPhase b u ∧ FramesAnswered k (pulsesBeforePoll i) s u ∧
      pollStart i = 8 * (k + 1) := by
  cases i with
  | writew a =>
    cases hi
    rw [pollStart] at hg
    obtain ⟨u, hu, hnext⟩ := addressed_goes_on hb hg (by decide) (.const Config.opcWrite) .laddr
    have hword := hu.value (.dbuf 0) (hg 3 (by decide))
    refine ⟨_, 3, ?_, hword, rfl⟩
    rw [programOf, run_writewProgram s hb, hnext, orFail_matched _ _ _ hword.matched]
  | writen a n =>
    cases hi
    have hstart : pollStart (.writen a n) = 8 * (2 + (n.toNat + 1) + 1) := by rw [pollStart]; omega
    rw [hstart, Nat.mul_div_cancel_left _ (by decide)] at hg
    obtain ⟨u, hu, hnext⟩ := addressed_goes_on hb hg (by omega) (.withCount Config.opcWritenBase) .laddr
    have hwords := fun m (hm : m ≤ n.toNat + 1) => hu.words m fun j hj => hg (2 + j + 1) (by omega)
    refine ⟨_, _, ?_, hwords _ (Nat.le_refl _), hstart⟩
    rw [programOf, run_writenProgram n s hb, hnext,
      run_writeWords_good _ u hu.receiving.busy fun j hj => (hwords (j + 1) hj).matched]
    exact run_poll_phase _ _ (hwords _ (Nat.le_refl _)).receiving.busy
  | eraseall =>
    cases hi
    obtain ⟨u, hu, hnext⟩ := addressed_goes_on hb hg (by decide) (.const Config.opcEraseAll) (.const 0#16)
    exact ⟨u, 2, (run_eraseallProgram s hb).trans (hnext _), hu, rfl⟩
  | erasepage a =>
    cases hi
    rw [pollStart] at hg
    obtain ⟨u, hu, hnext⟩ := addressed_goes_on hb hg (by decide) (.const Config.opcErasePage) .page
    exact ⟨u, 2, (run_erasepageProgram s hb).trans (hnext _), hu, rfl⟩
  | _ => cases hi

/-! ## The poll of a command -/

theorem isChipCommand_of_budget {i : Instr} {b : Nat} (h : budgetOf i = some b) : isChipCommand i = true := by
  cases i with
  | powerup | shutdown | unlock => cases h
  | _ => rfl

/-- The counts before a poll and the bits it received: a pulse and a sample for each, and no settle delay (R138, R139). -/
theorem FramesAnswered.counted_polled {k nPulses start n : Nat} {bits : List Bool} {s u t : State}
    (h : FramesAnswered k nPulses s u) (hs : start = 8 * (k + 1)) (hp : Polled bits u t) (hn : bits.length = n) :
    Counted (nPulses + n) (start + n) (2 * (start / 8)) s t := by
  subst hs hn
  obtain ⟨hpulses, hsettles, hsamples, hdraws⟩ := h.counted
  refine ⟨?_, ?_, ?_, ?_⟩
  · rw [hp.pulsecnt, hpulses, BitVec.ofNat_add, BitVec.add_assoc]
  · rw [hp.settlecnt, hsettles, Nat.mul_div_cancel_left _ (by decide)]
  · rw [hp.samples, hsamples, List.drop_drop]
  · rw [hp.sampleDraws, hdraws, Nat.add_assoc]

/-- Settles O42: the command comes to its poll, and there the wait takes the whole budget. -/
theorem pollTimeoutEndsTheCommand : Obligations.PollTimeoutEndsTheCommand := by
  intro s i b hi hg hn
  obtain ⟨u, k, hrun, hu, hstart⟩ := run_comes_to_poll (s := dispatch i s) hi rfl hg
  have hnever : neverReady u 0 b := by
    rw [neverReady_shift (dispatch i s) u _ 0 b hu.upcoming, Nat.zero_add, ← hstart]; exact hn
  obtain ⟨hready, hpolled, hcount, hlast⟩ := pollWait_of_neverReady hu.receiving hnever
  have hfail : run (programOf i) (dispatch i s) = failCommand .pollTimeout (pollWait b u) := by
    rw [hrun, pollPhase, if_neg (by simp [hready])]
  have hcounted := hu.counted_polled hstart hpolled List.length_replicate
  exact ⟨_, (exec_eq_run i s).trans (congrArg _ hfail),
    chipFailure_of_run (isChipCommand_of_budget hi) hfail hcounted, hcount, hlast.trans hu.laststat,
    (pollWait_dbuf b u).trans hu.dbuf⟩

/-- Settles O43: the command comes to its poll, which sees ready and then a byte that is not 0xEA. -/
theorem badPollStatusEndsTheCommand : Obligations.BadPollStatusEndsTheCommand := by
  intro s i b k hi hg hr hk hbad
  obtain ⟨u, n, hrun, hu, hstart⟩ := run_comes_to_poll (s := dispatch i s) hi rfl hg
  have hready' : readyAt u 0 k := by
    rw [readyAt_shift (dispatch i s) u _ 0 k hu.upcoming, Nat.zero_add, ← hstart]; exact hr
  obtain ⟨hready, hpolled, hcount, hlast, hmatched⟩ := pollWait_of_readyAt hu.receiving hk hready'
  have hplace : k + 1 + 8 * (n + 1) = pollStart i + k + 1 := by omega
  rw [statusGood_shift (dispatch i s) u _ _ hu.upcoming, hplace] at hmatched
  rw [statusByte_shift (dispatch i s) u _ _ hu.upcoming, hplace] at hlast
  have hfail : run (programOf i) (dispatch i s) = failCommand .pollStatus (pollStatus (pollWait b u)) := by
    rw [hrun, pollPhase, if_pos hready, orFail_unmatched _ _ _ (hmatched.trans hbad)]
  have hcounted := hu.counted_polled hstart hpolled (n := k + 9) (by simp [length_levels])
  simp only [← Nat.add_assoc] at hcounted
  exact ⟨_, (exec_eq_run i s).trans (congrArg _ hfail),
    chipFailure_of_run (isChipCommand_of_budget hi) hfail hcounted, hcount, hlast,
    (pollStatus_dbuf _).trans ((pollWait_dbuf b u).trans hu.dbuf)⟩

end Sys2Proof.Machine
end

section
/-! PROOFS. The commands that are no chip commands: POWERUP (O26) and SHUTDOWN (O27), whose whole next state is given, and
UNLOCK (O28), which sends its pairs and leaves the lines but for three latches. -/

namespace Sys2Proof.Machine

open Sys2Proof

/-! ## POWERUP and SHUTDOWN -/

/-- Settles O26: the list runs as `powerUpState`, whose fields `powerUpState_eq` gives at once. -/
theorem powerupCompletes : Obligations.PowerupCompletes :=
  ⟨rfl, fun s => by rw [exec_eq_run, programOf, run_powerupProgram _ rfl, powerUpState_eq]; rfl⟩

/-- Settles O27: the list runs as `shutdownState`, whose fields `shutdownState_eq` gives at once. -/
theorem shutdownCompletes : Obligations.ShutdownCompletes :=
  ⟨rfl, fun s => by rw [exec_eq_run, programOf, run_shutdownProgram _ rfl, shutdownState_eq]; rfl⟩

/-! ## UNLOCK -/

/-- A loop performs the primitives of its passes one after the other (R16, R17). -/
theorem loopState_trace {g : Nat → State → State} {f : Nat → List LineEvent}
    (h : ∀ j u, (g j u).trace = (f j).reverse ++ u.trace) (n : Nat) (s : State) :
    (loopState n g s).trace = ((List.range n).flatMap f).reverse ++ s.trace := by
  induction n with
  | zero => rfl
  | succ n ih => simp [loopState, h, ih, List.range_succ]

/-- The eight pairs perform the unlock frame (R90). -/
theorem unlockPairs_trace (s : State) : (loopState 8 unlockPair s).trace = unlockEvents.reverse ++ s.trace :=
  loopState_trace (fun _ => loopState_trace (fun _ _ => rfl) 8) 8 s

/-- The unlock frame is 64 pulses (R90). -/
theorem unlockEvents_counts :
    pulsesOf unlockEvents = 64 ∧ settlesOf unlockEvents = 0 ∧ samplesOf unlockEvents = 0 := ⟨rfl, rfl, rfl⟩

/-- What every sub-bit leaves as it is, the pairs leave as it is (R136). -/
theorem unlockPairs_keep {α : Type} (f : State → α) (hf : ∀ pair j u, f (unlockBit pair j u) = f u) (n : Nat)
    (s : State) : f (loopState n unlockPair s) = f s :=
  loopState_preserves f unlockPair (fun _ => loopState_preserves f _ (hf _) 8) n s

/-- The trace names the primitives that account for the counters (R16). -/
theorem Accounted.performed {es : List LineEvent} {s t : State} (h : Accounted s t)
    (ht : t.trace = es.reverse ++ s.trace) : Performed es s t := by
  obtain ⟨fs, hfs⟩ := h
  have hes : es = fs := List.reverse_injective (List.append_cancel_right (ht.symm.trans hfs.trace))
  rwa [hes]

/-- At most the latches of CLK, OE and PGM differ from those of `s` (R136). -/
structure SameButLatches (s u : State) : Prop where
  pwrN : u.ports.pwrN = s.ports.pwrN
  dat : u.ports.dat = s.ports.dat
  clk : u.ports.clk.dir = s.ports.clk.dir
  oe : u.ports.oe.dir = s.ports.oe.dir
  pgm : u.ports.pgm.dir = s.ports.pgm.dir

theorem SameButLatches.unlockBit {s u : State} (h : SameButLatches s u) (pair : Byte × Byte) (j : Nat) :
    SameButLatches s (unlockBit pair j u) :=
  ⟨h.pwrN, h.dat, h.clk, h.oe, h.pgm⟩

/-- A sub-bit leaves CLK low, OE and PGM at its bits of the pair (R90). -/
theorem SameButLatches.unlockBit_ports {s u : State} (h : SameButLatches s u) (pair : Byte × Byte) (j : Nat) :
    (Machine.unlockBit pair j u).ports =
      { s.ports with
        clk := ⟨s.ports.clk.dir, false⟩
        oe := ⟨s.ports.oe.dir, pair.2.getLsbD (7 - j)⟩
        pgm := ⟨s.ports.pgm.dir, pair.1.getLsbD (7 - j)⟩ } := by
  dsimp only
  rw [← h.pwrN, ← h.dat, ← h.clk, ← h.oe, ← h.pgm]
  rfl

/-- The ports after the last sub-bit of the last pair (R136). -/
theorem unlockPairs_ports (s : State) :
    (loopState 8 unlockPair s).ports =
      { s.ports with
        clk := ⟨s.ports.clk.dir, false⟩
        oe := ⟨s.ports.oe.dir, (Config.unlockPairs 7).2.getLsbD 0⟩
        pgm := ⟨s.ports.pgm.dir, (Config.unlockPairs 7).1.getLsbD 0⟩ } := by
  have hbits : ∀ pair n u, SameButLatches s u → SameButLatches s (loopState n (unlockBit pair) u) := fun pair n _ =>
    loopState_induct (SameButLatches s) (fun j _ h => h.unlockBit pair j) n
  have hpairs : SameButLatches s (loopState 7 unlockPair s) :=
    loopState_induct (SameButLatches s) (fun _ => hbits _ 8) 7 ⟨rfl, rfl, rfl, rfl, rfl⟩
  exact (hbits _ 7 _ hpairs).unlockBit_ports (Config.unlockPairs 7) 7

/-- Settles O28: the trace is the unlock frame, the counters are those of the trace, and the last sub-bit leaves the
ports. -/
theorem unlockCompletes : Obligations.UnlockCompletes := by
  refine ⟨rfl, fun s => ?_⟩
  have hrun := run_unlockProgram (dispatch .unlock s) rfl
  have hframe := run_commandFrame .unlock s
  have hexec := exec_eq_run .unlock s
  rw [programOf, hrun] at hframe hexec
  have htrace := unlockPairs_trace (dispatch .unlock s)
  have hports := unlockPairs_ports (dispatch .unlock s)
  obtain ⟨_, hpulses, hsettles, hsamples, hdraws, _⟩ := (unlockPairs_accounted 8 _).performed htrace
  have hmode := unlockPairs_keep (·.mode) (fun _ _ _ => rfl) 8 (dispatch .unlock s)
  have hdbuf := unlockPairs_keep (·.dbuf) (fun _ _ _ => rfl) 8 (dispatch .unlock s)
  have hlast := unlockPairs_keep (·.laststat) (fun _ _ _ => rfl) 8 (dispatch .unlock s)
  have hpoll := unlockPairs_keep (·.pollcnt) (fun _ _ _ => rfl) 8 (dispatch .unlock s)
  obtain ⟨hpulsesOf, hsettlesOf, hsamplesOf⟩ := unlockEvents_counts
  rw [hpulsesOf] at hpulses
  rw [hsettlesOf, BitVec.add_zero] at hsettles
  rw [hsamplesOf] at hsamples hdraws
  generalize loopState 8 unlockPair (dispatch .unlock s) = u at *
  exact ⟨_, hexec, hframe, rfl, rfl, hmode, htrace, hpulses, hsettles, hsamples, hdraws, hdbuf, hlast, hpoll,
    hports⟩

end Sys2Proof.Machine
end

section
/-! PROOFS. A chip command from its liveness check on: how far it has come after each phase, with its line trace beside
what `FramesAnswered` counts; then the commands that end at the check (O29, O37), at the opcode's status (O38) or at the
address's (O39), and what a success leaves. -/

namespace Sys2Proof.Machine

open Sys2Proof

/-! ## How far a chip command has come -/

/-- A chip command that began in `s` has performed `es` and stands in `u`, in Read mode; what it has counted, at least
one settle delay in it (R95, R138). -/
structure Reached (es : List LineEvent) (nPulses nSamples nSettles : Nat) (s u : State) : Prop where
  trace : u.trace = es.reverse ++ s.trace
  counted : Counted nPulses nSamples nSettles s u
  settled : 0 < nSettles
  receiving : Receiving u

/-- As `Reached`, behind a status whose samples began at sample `k`, and its caller has not looked at the match yet
(R18, R88). -/
structure StatusRead (es : List LineEvent) (nPulses k nSettles : Nat) (s u : State) : Prop where
  reached : Reached es nPulses (k + 8) nSettles s u
  laststat : u.laststat = statusByte s k
  matched : u.matched = statusGood s k

/-- Behind the first settle delay, counts add up: MODE is Read, so no later one is spared (R98). -/
theorem Counted.append {p n k p' n' k' : Nat} {s u v : State} (h : Counted p n k s u) (hk : 0 < k)
    (hu : u.mode = .read) (h' : Counted p' n' k' u v) : Counted (p + p') (n + n') (k + k') s v := by
  have hsettles : settlesFrom s (k + k') = settlesFrom s k + settlesFrom u k' := by
    simp only [settlesFrom, hu, reduceCtorEq, if_false]
    split <;> omega
  refine ⟨?_, ?_, ?_, ?_⟩
  · rw [h'.pulsecnt, h.pulsecnt, BitVec.ofNat_add, BitVec.add_assoc]
  · rw [h'.settlecnt, h.settlecnt, hsettles, BitVec.ofNat_add, BitVec.add_assoc]
  · rw [h'.samples, h.samples, List.drop_drop]
  · rw [h'.sampleDraws, h.sampleDraws, Nat.add_assoc]

namespace Reached

variable {es : List LineEvent} {p n k : Nat} {s u : State} (h : Reached es p n k s u)
include h

theorem upcoming (j : Nat) : upcoming u j = Machine.upcoming s (j + n) :=
  upcoming_drop s u n h.counted.samples h.counted.sampleDraws j

theorem levels (j m : Nat) : levels u j m = Machine.levels s (j + n) m := levels_shift s u n j m h.upcoming

theorem append {fs : List LineEvent} {p' n' k' : Nat} {v : State} (ht : v.trace = fs.reverse ++ u.trace)
    (hc : Counted p' n' k' u v) (hr : Receiving v) : Reached (es ++ fs) (p + p') (n + n') (k + k') s v :=
  ⟨by simp [ht, h.trace], h.counted.append h.settled h.receiving.mode hc, Nat.add_pos_left h.settled k', hr⟩

/-- What neither performs a primitive nor ends the command. -/
theorem of_lineSide {v : State} (hl : lineSide v = lineSide u) (hb : v.busy = true) : Reached es p n k s v := by
  obtain ⟨htrace, ⟨hpulses, hsettles, hsamples, hdraws⟩, hsettled, ⟨_, hmode, hinput⟩⟩ := h
  have hports : v.ports = u.ports := (congrArg State.ports hl :)
  exact ⟨(congrArg State.trace hl :).trans htrace, ⟨(congrArg State.pulsecnt hl :).trans hpulses,
    (congrArg State.settlecnt hl :).trans hsettles, (congrArg State.samples hl :).trans hsamples,
    (congrArg State.sampleDraws hl :).trans hdraws⟩, hsettled, hb, (congrArg State.mode hl :).trans hmode,
    by rw [hports, hinput]⟩

/-- A phase that read a status behind `u`. -/
theorem statusRead {fs : List LineEvent} {p' k' : Nat} {v : State} (hv : Reached fs p' (n + 8) k' s v)
    (hl : v.laststat = statusByte u 0) (hm : v.matched = statusGood u 0) : StatusRead fs p' n k' s v :=
  ⟨hv, by rw [hl, statusByte_shift s u n 0 h.upcoming, Nat.zero_add],
    by rw [hm, statusGood_shift s u n 0 h.upcoming, Nat.zero_add]⟩

/-! ## The phases -/

/-- A frame with its status, entered in Read mode: two settle delays (R98, R99). -/
theorem frame {fs : List LineEvent} {m : Nat} {v : State} (hf : FrameWithStatus fs m u v)
    (hi : v.ports.dat.dir = .input) : StatusRead (es ++ fs) (p + m) n (k + 2) s v :=
  h.statusRead (h.append hf.trace hf.counted ⟨hf.busy.trans h.receiving.busy, hf.mode, hi⟩) hf.laststat hf.matched

theorem opcode (src : OpcodeSrc) :
    StatusRead (es ++ opcodeEvents .read (opcodeOf src u) (Machine.levels s n 8)) (p + 25) n (k + 2) s
      (sendOpcode src u) := by
  have hframe := h.frame (sendOpcode_frameWithStatus src u) (by simp)
  rwa [h.receiving.mode, h.levels, Nat.zero_add] at hframe

theorem value (src : ValueSrc) :
    StatusRead (es ++ valueEvents .read (valueOf src u) (Machine.levels s n 8)) (p + 41) n (k + 2) s
      (sendValue src u) := by
  have hframe := h.frame (sendValue_frameWithStatus src u) (by simp)
  rwa [h.receiving.mode, h.levels, Nat.zero_add] at hframe

/-- Bare pulses (R91, R112). -/
theorem pulses (m : Nat) : Reached (es ++ pulseEvents m) (p + m) n k s (pulses m u) := by
  obtain ⟨hb, hm, hi⟩ := h.receiving
  exact h.append (n' := 0) (k' := 0) (pulses_trace m u) ⟨by simp, by simp [settlesFrom], by simp, by simp⟩
    ⟨by simp [hb], by simp [hm], by simp [hi]⟩

/-- Bits received in Read mode, each with a pulse of its own: no settle delay (R84, R99). -/
theorem bits {bs : List Bool} {m : Nat} {v : State} (hp : Polled bs u v) (hm : bs.length = m) (hr : Receiving v) :
    Reached (es ++ bitsInEvents bs) (p + m) (n + m) k s v := by
  subst hm
  obtain ⟨htrace, hpulses, hsettles, hsamples, hdraws⟩ := hp
  exact h.append (k' := 0) htrace ⟨hpulses, by simp [hsettles, settlesFrom], hsamples, hdraws⟩ hr

/-- A word received and stored: sixteen bits (R110, R129). -/
theorem word (i : Nat) :
    Reached (es ++ bitsInEvents (Machine.levels s n 16)) (p + 16) (n + 16) k s (storeWord i (recvWord u)) := by
  obtain ⟨hb, hm, hi⟩ := h.receiving
  obtain ⟨hsamples, hdraws⟩ := recvWord_samples u fun _ => hi
  have htrace := recvWord_trace u fun _ => hi
  rw [hm, readModeEvents, if_pos rfl, List.nil_append, h.levels, Nat.zero_add] at htrace
  have hpolled : Polled (Machine.levels s n 16) u (recvWord u) :=
    ⟨htrace, by simp [length_levels], by simp [recvWord_settlecnt, hm], by rw [hsamples, length_levels],
      by rw [hdraws, length_levels]⟩
  have hword := h.bits hpolled (length_levels s n 16)
    ⟨by simp [hb], by simp, by simpa [recvWord_ports] using setReadMode_input u fun _ => hi⟩
  exact hword.of_lineSide rfl (by simp [hb])

/-- A status read in Read mode, with its trailing pulse (R88, R111). -/
theorem status : StatusRead (es ++ statusEvents .read (Machine.levels s n 8)) (p + 9) n k s (recvStatus u) := by
  obtain ⟨hb, hm, hi⟩ := h.receiving
  obtain ⟨hsamples, hdraws⟩ := recvStatus_samples u fun _ => hi
  have htrace := recvStatus_trace u fun _ => hi
  rw [hm, h.levels, Nat.zero_add] at htrace
  have hreached : Reached (es ++ statusEvents .read (Machine.levels s n 8)) (p + 9) (n + 8) k s (recvStatus u) :=
    h.append (k' := 0) htrace
      ⟨by simp, by simp [recvStatus_settlecnt, hm, settlesFrom], hsamples, hdraws⟩
      ⟨by simp [hb], by simp, by simpa [recvStatus_ports] using setReadMode_input u fun _ => hi⟩
  exact h.statusRead hreached (recvStatus_laststat u fun _ => hi) (recvStatus_matched u fun _ => hi)

/-- A poll that sees ready at iteration `j` within its budget, and its status without a trailing pulse (R117, R119). -/
theorem poll {b j : Nat} (hj : j < b) (hr : readyAt s n j) :
    (pollWait b u).ready = true ∧
      (pollStatus (pollWait b u)).pollcnt = BitVec.ofNat 19 (j + 1) ∧
      StatusRead (es ++ pollEvents j (Machine.levels s (n + 1 + j) 8)) (p + 9 + j) (n + 1 + j) k s
        (pollStatus (pollWait b u)) := by
  have hready : readyAt u 0 j := (readyAt_shift s u n 0 j h.upcoming).mpr (by rwa [Nat.zero_add])
  obtain ⟨hseen, hpolled, hcount, hlast, hmatched⟩ := pollWait_of_readyAt h.receiving hj hready
  have hplace : j + 1 + n = n + 1 + j := by omega
  have hinput : (pollWait b u).ports.dat.dir = .input := by
    obtain ⟨_, _, _, _, _, _, _, hports⟩ := pollWait_ready b j u h.receiving.mode h.receiving.input hj hready
    rw [hports]
    exact h.receiving.input
  have hbits := h.bits hpolled (m := j + 9) (by simp [length_levels])
    ⟨by simp [h.receiving.busy], by simp, by simp [hinput]⟩
  rw [bitsInEvents_append, h.levels, hplace] at hbits
  refine ⟨hseen, hcount, ?_, ?_, ?_⟩
  · rw [show p + 9 + j = p + (j + 9) by omega, show n + 1 + j + 8 = n + (j + 9) by omega]
    exact hbits
  · rw [hlast, statusByte_shift s u n _ h.upcoming, hplace]
  · rw [hmatched, statusGood_shift s u n _ h.upcoming, hplace]

end Reached

/-- The liveness check, from any state (R125). -/
theorem check_statusRead {s : State} (hb : s.busy = true) :
    StatusRead (opcodeEvents s.mode Config.opcCheck (levels s 0 8)) 25 0 2 s (sendOpcode (.const Config.opcCheck) s) :=
  have hf := sendOpcode_frameWithStatus (.const Config.opcCheck) s
  ⟨⟨hf.trace, hf.counted, by decide, hf.busy.trans hb, hf.mode, by simp⟩, hf.laststat, hf.matched⟩

/-! ## The first frames of a command -/

/-- The liveness check and the opcode, then `next` (R125, R107). -/
def openThen (src : OpcodeSrc) (next : State → State) (s : State) : State :=
  orFail .checkFail (sendOpcode (.const Config.opcCheck) s) fun u => orFail .statusMismatch (sendOpcode src u) next

/-- The liveness check, the opcode and the address, then `next` (R125, R107, R109). -/
def addressThen (src : OpcodeSrc) (v : ValueSrc) (next : State → State) (s : State) : State :=
  openThen src (fun u => orFail .statusMismatch (sendValue v u) next) s

/-- Behind the liveness check and the opcode. -/
def opened (src : OpcodeSrc) (s : State) : State := sendOpcode src (sendOpcode (.const Config.opcCheck) s)

/-- Behind the liveness check, the opcode and the address. -/
def addressed (src : OpcodeSrc) (v : ValueSrc) (s : State) : State := sendValue v (opened src s)

section
variable (src : OpcodeSrc) (v : ValueSrc) (s : State)

@[simp] theorem opened_dbuf : (opened src s).dbuf = s.dbuf := by simp [opened]
@[simp] theorem opened_pollcnt : (opened src s).pollcnt = s.pollcnt := by simp [opened]
@[simp] theorem opened_laddr : (opened src s).laddr = s.laddr := by simp [opened]
@[simp] theorem addressed_dbuf : (addressed src v s).dbuf = s.dbuf := by simp [addressed]
@[simp] theorem addressed_pollcnt : (addressed src v s).pollcnt = s.pollcnt := by simp [addressed]

end

/-- The events of the liveness check and the opcode. -/
def openedEvents (src : OpcodeSrc) (s : State) : List LineEvent :=
  opcodeEvents s.mode Config.opcCheck (levels s 0 8) ++ opcodeEvents .read (opcodeOf src s) (levels s 8 8)

/-- The events of the liveness check, the opcode and the address. -/
def addressedEvents (src : OpcodeSrc) (v : ValueSrc) (s : State) : List LineEvent :=
  openedEvents src s ++ valueEvents .read (valueOf v s) (levels s 16 8)

theorem opened_statusRead {s : State} (hb : s.busy = true) (src : OpcodeSrc) :
    StatusRead (openedEvents src s) 50 8 4 s (opened src s) := by
  have hframe := (check_statusRead hb).reached.opcode src
  rwa [opcodeOf_congr src _ s (by simp)] at hframe

theorem addressed_statusRead {s : State} (hb : s.busy = true) (src : OpcodeSrc) (v : ValueSrc) :
    StatusRead (addressedEvents src v s) 91 16 6 s (addressed src v s) := by
  have hframe := (opened_statusRead hb src).reached.value v
  rwa [valueOf_congr v _ s (by simp) (by simp)] at hframe

section
variable {s : State} (hb : s.busy = true) {src : OpcodeSrc} {v : ValueSrc} {next : State → State}
include hb

theorem openThen_good (hg : statusesGood s 2) : openThen src next s = next (opened src s) := by
  rw [openThen, orFail_matched _ _ _ ((check_statusRead hb).matched.trans (hg 0 (by decide)))]
  exact orFail_matched _ _ _ ((opened_statusRead hb src).matched.trans (hg 1 (by decide)))

theorem openThen_bad (hg : statusGood s 0 = true) (hbad : statusGood s 8 = false) :
    openThen src next s = failCommand .statusMismatch (opened src s) := by
  rw [openThen, orFail_matched _ _ _ ((check_statusRead hb).matched.trans hg)]
  exact orFail_unmatched _ _ _ ((opened_statusRead hb src).matched.trans hbad)

theorem addressThen_good (hg : statusesGood s 3) : addressThen src v next s = next (addressed src v s) := by
  rw [addressThen, openThen_good hb fun j hj => hg j (by omega)]
  exact orFail_matched _ _ _ ((addressed_statusRead hb src v).matched.trans (hg 2 (by decide)))

theorem addressThen_bad (hg : statusesGood s 2) (hbad : statusGood s 16 = false) :
    addressThen src v next s = failCommand .statusMismatch (addressed src v s) := by
  rw [addressThen, openThen_good hb hg]
  exact orFail_unmatched _ _ _ ((addressed_statusRead hb src v).matched.trans hbad)

end

/-- A run that begins with the liveness check, an opcode and an address, their statuses good, goes on behind them. -/
theorem reached_of_addressThen {s t : State} {src : OpcodeSrc} {v : ValueSrc} {next : State → State}
    (hb : s.busy = true) (hrun : t = addressThen src v next s) (hg : statusesGood s 3) :
    Reached (addressedEvents src v s) 91 24 6 s (addressed src v s) ∧ t = next (addressed src v s) :=
  ⟨(addressed_statusRead hb src v).reached, hrun.trans (addressThen_good hb hg)⟩

/-- Every chip command but CHECK and READID begins with the liveness check, an opcode and an address (R129 to R134). -/
theorem run_addresses {i : Instr} (hi : isChipCommand i = true) (hc : i ≠ .check) (hr : i ≠ .readid) {s : State}
    (hb : s.busy = true) : ∃ src v next, run (programOf i) s = addressThen src v next s := by
  cases i with
  | powerup | shutdown | unlock => cases hi
  | check => exact absurd rfl hc
  | readid => exact absurd rfl hr
  | readw a => exact ⟨_, _, _, run_readwProgram s hb⟩
  | readn a n => exact ⟨_, _, _, run_readnProgram n s hb⟩
  | writew a => exact ⟨_, _, _, run_writewProgram s hb⟩
  | writen a n => exact ⟨_, _, _, run_writenProgram n s hb⟩
  | eraseall => exact ⟨_, _, _, run_eraseallProgram s hb⟩
  | erasepage a => exact ⟨_, _, _, run_erasepageProgram s hb⟩

/-- Every chip command but CHECK begins with the liveness check and an opcode (R129 to R135). -/
theorem run_opens {i : Instr} (hi : isChipCommand i = true) (hc : i ≠ .check) {s : State} (hb : s.busy = true) :
    ∃ src next, run (programOf i) s = openThen src next s := by
  by_cases hr : i = .readid
  · subst hr
    exact ⟨_, _, run_readidProgram s hb⟩
  · obtain ⟨src, _, _, hrun⟩ := run_addresses hi hc hr hb
    exact ⟨src, _, hrun⟩

/-- Every chip command begins with the liveness check (R125). -/
theorem run_checks {i : Instr} (hi : isChipCommand i = true) {s : State} (hb : s.busy = true) :
    ∃ next, run (programOf i) s = orFail .checkFail (sendOpcode (.const Config.opcCheck) s) next := by
  by_cases hc : i = .check
  · subst hc
    exact ⟨_, run_checkProgram s hb⟩
  · obtain ⟨_, _, hrun⟩ := run_opens hi hc hb
    exact ⟨_, hrun⟩

/-! ## Where the first frames fail -/

theorem statusGood_eq_false {s : State} {k : Nat} (h : statusByte s k ≠ 0xEA#8) : statusGood s k = false :=
  beq_false_of_ne h

/-- A chip command whose run fails at a status: LASTSTAT holds the byte read, and no word was stored (R144, R145). -/
theorem chip_fails {i : Instr} {c : Cause} {es : List LineEvent} {p k q : Nat} {s u : State}
    (hi : isChipCommand i = true) (hrun : run (programOf i) (dispatch i s) = failCommand c u)
    (h : StatusRead es p k q (dispatch i s) u) (hd : u.dbuf = s.dbuf) (hp : u.pollcnt = s.pollcnt) :
    ∃ t, exec i s = .next t ∧ ChipFailure i c p (k + 8) q s t ∧ t.trace = es.reverse ++ s.trace ∧
      t.laststat = statusByte s k ∧ t.dbuf = s.dbuf ∧ t.pollcnt = s.pollcnt :=
  ⟨_, (exec_eq_run i s).trans (congrArg _ hrun), chipFailure_of_run hi hrun h.reached.counted, h.reached.trace,
    h.laststat, hd, hp⟩

/-- A failed liveness check, whatever was to follow (R125). -/
theorem chip_fails_check {i : Instr} (hi : isChipCommand i = true) {s : State} (hbad : statusByte s 0 ≠ 0xEA#8) :
    ∃ t, exec i s = .next t ∧ ChipFailure i .checkFail 25 8 2 s t ∧
      t.trace = (opcodeEvents s.mode 0x00#8 (levels s 0 8)).reverse ++ s.trace ∧
      t.laststat = statusByte s 0 ∧ t.dbuf = s.dbuf ∧ t.pollcnt = s.pollcnt := by
  have hcheck := check_statusRead (s := dispatch i s) rfl
  obtain ⟨next, hrun⟩ := run_checks hi (s := dispatch i s) rfl
  rw [orFail_unmatched _ _ _ (hcheck.matched.trans (statusGood_eq_false hbad))] at hrun
  exact chip_fails hi hrun hcheck (by simp) (by simp)

/-- Settles O37: a chip command fails at its check (`chip_fails_check`); each of the three others takes no sample. -/
theorem failedCheckEndsEveryChipCommand : Obligations.FailedCheckEndsEveryChipCommand := by
  refine fun s i => ⟨fun hi hbad => chip_fails_check hi hbad, fun hi => ?_⟩
  cases i with
  | powerup =>
    obtain ⟨_, hexec⟩ := powerupCompletes
    exact ⟨_, powerUpEvents, hexec s, rfl, rfl, rfl⟩
  | shutdown =>
    obtain ⟨_, hexec⟩ := shutdownCompletes
    exact ⟨_, shutdownEvents, hexec s, rfl, rfl, rfl⟩
  | unlock =>
    obtain ⟨_, hunlock⟩ := unlockCompletes
    obtain ⟨t, hexec, _, hok, _, _, htrace, _⟩ := hunlock s
    obtain ⟨_, _, hsamples⟩ := unlockEvents_counts
    exact ⟨t, unlockEvents, hexec, htrace, hsamples, hok⟩
  | _ => cases hi

/-- Settles O38: behind a good check the opcode's status fails the command. -/
theorem badOpcodeStatusEndsTheCommand : Obligations.BadOpcodeStatusEndsTheCommand := by
  intro s i hi hc hg hbad
  obtain ⟨src, next, hrun⟩ := run_opens hi hc (s := dispatch i s) rfl
  rw [openThen_bad (s := dispatch i s) rfl hg hbad] at hrun
  obtain ⟨t, hexec, hfailure, _, hrest⟩ := chip_fails hi hrun (opened_statusRead rfl src) (by simp) (by simp)
  exact ⟨t, hexec, hfailure, hrest⟩

/-- Settles O39: behind a good check and opcode the address's status fails the command. -/
theorem badAddressStatusEndsTheCommand : Obligations.BadAddressStatusEndsTheCommand := by
  intro s i hi hc hr hg hbad
  obtain ⟨src, v, next, hrun⟩ := run_addresses hi hc hr (s := dispatch i s) rfl
  rw [addressThen_bad (s := dispatch i s) rfl hg hbad] at hrun
  obtain ⟨t, hexec, hfailure, _, hrest⟩ := chip_fails hi hrun (addressed_statusRead rfl src v) (by simp) (by simp)
  exact ⟨t, hexec, hfailure, hrest⟩

/-! ## Where a command succeeds -/

/-- A chip command whose run succeeds in `u` (R17, R138). -/
theorem chipSuccess_of_run {i : Instr} {j p n k : Nat} {s u : State} (hi : isChipCommand i = true)
    (hrun : run (programOf i) (dispatch i s) = succeedCommand u)
    (h : Reached (commandEvents i s j) p n k (dispatch i s) u) (hl : u.laststat = Config.statusOk) :
    ChipSuccess i j p n k s (succeedCommand u) where
  ok := rfl
  cause := rfl
  laststat := hl
  counted :=
    have hc := h.counted
    ⟨hc.pulsecnt, hc.settlecnt, hc.samples, hc.sampleDraws⟩
  trace := h.trace
  lines := by
    obtain ⟨hmode, hpwrN, hclk, hoe, hpgm, hdat, hlatch⟩ := hrun ▸ run_chip_lines i hi (dispatch i s) rfl
    exact ⟨hmode, hpwrN, hclk, hoe, hpgm, hdat, hlatch⟩
  frame := hrun ▸ run_commandFrame i s

/-- Settles O29: the command is the liveness check, and its status decides. -/
theorem checkCompletes : Obligations.CheckCompletes := by
  refine ⟨rfl, fun s => ?_⟩
  by_cases hgood : statusByte s 0 = 0xEA#8
  · have hcheck := check_statusRead (s := dispatch .check s) rfl
    have hrun := run_checkProgram (dispatch .check s) rfl
    rw [orFail_matched _ _ _ (hcheck.matched.trans ((statusGood_iff s 0).mpr hgood))] at hrun
    have hsuccess := chipSuccess_of_run (i := .check) (j := 0) rfl hrun hcheck.reached (hcheck.laststat.trans hgood)
    exact ⟨_, (exec_eq_run .check s).trans (congrArg _ hrun), fun _ => hsuccess, fun hbad => absurd hgood hbad,
      hcheck.reached.trace, hcheck.laststat, by simp, by simp⟩
  · obtain ⟨t, hexec, hfailure, hrest⟩ := chip_fails_check (i := .check) rfl hgood
    exact ⟨t, hexec, fun h => absurd h hgood, fun _ => hfailure, hrest⟩

end Sys2Proof.Machine
end

section
/-! PROOFS. The read commands READW, READN and READID, up to their final status: the words received stand in DBUF, and
the status makes the command succeed (O30, O31, O32) or fail (O40). -/

namespace Sys2Proof.Machine

open Sys2Proof

/-! ## Words received -/

theorem levels_add (s : State) (k m n : Nat) : levels s k (m + n) = levels s k m ++ levels s (k + m) n := by
  simp [levels, List.range_add, Nat.add_assoc]

theorem dbufGet_storeWord_same (s : State) {i : Nat} (hi : i < 32) : dbufGet (storeWord i s) i = s.shift16 :=
  dbufGet_dbufSet_same s i hi s.shift16

theorem dbufGet_storeWord_ne (s : State) {i j : Nat} (hj : j < 32) (hne : j ≠ i) :
    dbufGet (storeWord i s) j = dbufGet s j :=
  dbufGet_dbufSet_ne s i j hj hne s.shift16

theorem dbufGet_congr {s t : State} (h : t.dbuf = s.dbuf) (j : Nat) : dbufGet t j = dbufGet s j := by
  rw [dbufGet, h, dbufGet]

/-- In `t`, DBUF's first `m` entries hold the words received from sample `k` of `s` on, back to back, and the entries
above are those of `s` (R110, R130). -/
structure WordsStored (m k : Nat) (s t : State) : Prop where
  received : ∀ j, j < m → wordBitsAre s (k + 16 * j) (dbufGet t j)
  kept : ∀ j, m ≤ j → j < 32 → dbufGet t j = dbufGet s j

theorem WordsStored.of_dbuf {m k : Nat} {s t u : State} (h : WordsStored m k s t) (hd : u.dbuf = t.dbuf) :
    WordsStored m k s u where
  received j hj := by rw [dbufGet_congr hd]; exact h.received j hj
  kept j hj hj32 := by rw [dbufGet_congr hd]; exact h.kept j hj hj32

/-- The next word received and stored. -/
theorem WordsStored.word {es : List LineEvent} {m k p q : Nat} {s u : State} (h : WordsStored m k s u) (hm : m < 32)
    (hu : Reached es p (k + 16 * m) q s u) : WordsStored (m + 1) k s (storeWord m (recvWord u)) where
  received j hj := by
    by_cases hjm : j = m
    · subst hjm
      rw [dbufGet_storeWord_same _ hm, ← Nat.zero_add (k + 16 * j), ← wordBitsAre_shift s u _ 0 _ hu.upcoming]
      exact recvWord_shift16 u fun _ => hu.receiving.input
    · rw [dbufGet_storeWord_ne _ (by omega) hjm, dbufGet_congr (recvWord_dbuf u)]
      exact h.received j (by omega)
  kept j hj hj32 := by
    rw [dbufGet_storeWord_ne _ hj32 (by omega), dbufGet_congr (recvWord_dbuf u)]
    exact h.kept j (by omega) hj32

theorem wordsStored_zero {s u : State} (k : Nat) (hd : u.dbuf = s.dbuf) : WordsStored 0 k s u :=
  ⟨nofun, fun j _ _ => dbufGet_congr hd j⟩

theorem readWords_pollcnt (m : Nat) (u : State) : (loopState m readWord u).pollcnt = u.pollcnt :=
  loopState_preserves (·.pollcnt) readWord (fun _ _ => by simp [readWord]) m u

/-- The words of READN (R130). -/
theorem Reached.words {es : List LineEvent} {p k q : Nat} {s u : State} (h : Reached es p k q s u)
    (hd : u.dbuf = s.dbuf) (m : Nat) (hm : m ≤ 32) :
    Reached (es ++ bitsInEvents (Machine.levels s k (16 * m))) (p + 16 * m) (k + 16 * m) q s
        (loopState m readWord u) ∧
      WordsStored m k s (loopState m readWord u) := by
  induction m with
  | zero =>
    rw [show bitsInEvents (Machine.levels s k (16 * 0)) = [] from rfl, List.append_nil]
    exact ⟨h, wordsStored_zero k hd⟩
  | succ m ih =>
    obtain ⟨hreached, hstored⟩ := ih (by omega)
    have hindexed : Reached _ _ _ _ s (setWidx m (loopState m readWord u)) :=
      hreached.of_lineSide rfl hreached.receiving.busy
    have hindexedStored : WordsStored m k s (setWidx m (loopState m readWord u)) := hstored.of_dbuf rfl
    have hword := hindexed.word m
    rw [List.append_assoc, ← bitsInEvents_append, ← levels_add] at hword
    exact ⟨hword, hindexedStored.word hm hindexed⟩

/-- The final status of a read command, and its trailing pulses (R129, R130, R135). -/
def readEnd (u : State) : State := orFail .statusMismatch (recvStatus u) fun t => succeedCommand (pulses 2 t)

/-- A read command from `s` comes to its final status in `u`: `m` words received from sample `k` on, behind `p` pulses
that received no word and `q` settle delays (R129, R130, R135). -/
structure ComesToReadEnd (i : Instr) (m k p q : Nat) (s u : State) : Prop where
  chip : isChipCommand i = true
  runs : run (programOf i) (dispatch i s) = readEnd u
  reached : ∃ es, Reached es (p + 16 * m) (k + 16 * m) q (dispatch i s) u ∧
    commandEvents i s 0 = es ++ statusEvents .read (levels (dispatch i s) (k + 16 * m) 8) ++ pulseEvents 2
  stored : WordsStored m k (dispatch i s) u
  pollcnt : u.pollcnt = s.pollcnt

/-- The final status is 0xEA: two trailing pulses and the success (R138). -/
theorem ComesToReadEnd.succeeds {i : Instr} {m k p q : Nat} {s u : State} (h : ComesToReadEnd i m k p q s u)
    (hg : statusGood s (k + 16 * m) = true) :
    ∃ t, exec i s = .next t ∧ ChipSuccess i 0 (p + 11 + 16 * m) (k + 8 + 16 * m) q s t ∧ t.pollcnt = s.pollcnt ∧
      WordsStored m k s t := by
  obtain ⟨hi, hrun, ⟨es, hreached, hevents⟩, ⟨hreceived, hkept⟩, hpoll⟩ := h
  have hstatus := hreached.status
  have hlast : (pulses 2 (recvStatus u)).laststat = Config.statusOk := by
    rw [pulses_laststat, hstatus.laststat]
    exact (statusGood_iff s _).mp hg
  rw [readEnd, orFail_matched _ _ _ (hstatus.matched.trans hg)] at hrun
  have hend := hstatus.reached.pulses 2
  rw [← hevents, show p + 16 * m + 9 + 2 = p + 11 + 16 * m by omega,
    show k + 16 * m + 8 = k + 8 + 16 * m by omega] at hend
  have hstored : WordsStored m k s u := ⟨hreceived, hkept⟩
  exact ⟨_, (exec_eq_run i s).trans (congrArg _ hrun), chipSuccess_of_run hi hrun hend hlast, by simp [hpoll],
    hstored.of_dbuf (by simp)⟩

/-- The final status is bad: no trailing pulse, and the words stay (R139, R144). -/
theorem ComesToReadEnd.fails {i : Instr} {m k p q : Nat} {s u : State} (h : ComesToReadEnd i m k p q s u)
    (hbad : statusGood s (k + 16 * m) = false) :
    ∃ t, exec i s = .next t ∧ ChipFailure i .statusMismatch (p + 9 + 16 * m) (k + 8 + 16 * m) q s t ∧
      t.laststat = statusByte s (k + 16 * m) ∧ WordsStored m k s t := by
  obtain ⟨hi, hrun, ⟨es, hreached, _⟩, ⟨hreceived, hkept⟩, _⟩ := h
  have hstatus := hreached.status
  rw [readEnd, orFail_unmatched _ _ _ (hstatus.matched.trans hbad)] at hrun
  have hcounted := hstatus.reached.counted
  rw [show p + 16 * m + 9 = p + 9 + 16 * m by omega, show k + 16 * m + 8 = k + 8 + 16 * m by omega] at hcounted
  have hstored : WordsStored m k s u := ⟨hreceived, hkept⟩
  exact ⟨_, (exec_eq_run i s).trans (congrArg _ hrun), chipFailure_of_run hi hrun hcounted, hstatus.laststat,
    hstored.of_dbuf (by simp)⟩

theorem readw_comesToReadEnd {s : State} (a : Half) (hg : statusesGood s 3) :
    ∃ u, ComesToReadEnd (.readw a) 1 24 93 6 s u := by
  obtain ⟨haddressed, hrun⟩ := reached_of_addressThen rfl (run_readwProgram (dispatch (.readw a) s) rfl) hg
  have hpulses := haddressed.pulses 2
  have hstored := (wordsStored_zero 24 (by simp)).word (by decide) hpulses
  exact ⟨_, rfl, hrun, ⟨_, hpulses.word 0, rfl⟩, hstored, by simp⟩

theorem readn_comesToReadEnd {s : State} (a : Half) (n : Count) (hg : statusesGood s 3) :
    ∃ u, ComesToReadEnd (.readn a n) (n.toNat + 1) 24 93 6 s u := by
  obtain ⟨haddressed, hrun⟩ := reached_of_addressThen rfl (run_readnProgram n (dispatch (.readn a n) s) rfl) hg
  obtain ⟨hreached, hstored⟩ := (haddressed.pulses 2).words (by simp) (n.toNat + 1) (by omega)
  exact ⟨_, rfl, hrun, ⟨_, hreached, rfl⟩, hstored, (readWords_pollcnt _ _).trans (by simp)⟩

theorem readid_comesToReadEnd {s : State} (hg : statusesGood s 2) : ∃ u, ComesToReadEnd .readid 1 16 53 4 s u := by
  have hpulses := (opened_statusRead (s := dispatch .readid s) rfl (.const Config.opcChipid)).reached.pulses 3
  have hrun := (run_readidProgram (dispatch .readid s) rfl).trans
    (openThen_good rfl hg (src := .const Config.opcChipid))
  have hstored := (wordsStored_zero 16 (by simp)).word (by decide) hpulses
  exact ⟨_, rfl, hrun, ⟨_, hpulses.word 0, rfl⟩, hstored, by simp⟩

/-- Settles O30: the command comes to its final status, and that is 0xEA. -/
theorem readWordSucceeds : Obligations.ReadWordSucceeds := by
  intro s a hg hgood
  obtain ⟨u, hend⟩ := readw_comesToReadEnd a hg
  obtain ⟨t, hexec, hsuccess, hpoll, hreceived, hkept⟩ := hend.succeeds hgood
  exact ⟨t, hexec, hsuccess, hpoll, hreceived 0 (by decide), hkept⟩

/-- Settles O31: the command comes to its final status, and that is 0xEA. -/
theorem readWordsSucceeds : Obligations.ReadWordsSucceeds := by
  intro s a n hg hgood
  obtain ⟨u, hend⟩ := readn_comesToReadEnd a n hg
  obtain ⟨t, hexec, hsuccess, hpoll, hreceived, hkept⟩ := hend.succeeds hgood
  exact ⟨t, hexec, hsuccess, hpoll, fun j hj => hreceived j (Nat.lt_succ_of_le hj), hkept⟩

/-- Settles O32: the command comes to its final status, and that is 0xEA. -/
theorem readChipIdSucceeds : Obligations.ReadChipIdSucceeds := by
  intro s hg hgood
  obtain ⟨u, hend⟩ := readid_comesToReadEnd hg
  obtain ⟨t, hexec, hsuccess, hpoll, hreceived, hkept⟩ := hend.succeeds hgood
  exact ⟨t, hexec, hsuccess, hpoll, hreceived 0 (by decide), hkept⟩

/-- Settles O40: each read comes to its final status with its words stored, and that status is bad. -/
theorem badFinalStatusOfReadsKeepsTheWords : Obligations.BadFinalStatusOfReadsKeepsTheWords := by
  refine ⟨fun s a hg hbad => ?_, fun s a n hg hbad => ?_, fun s hg hbad => ?_⟩
  · obtain ⟨u, hend⟩ := readw_comesToReadEnd a hg
    obtain ⟨t, hexec, hfailure, hlast, hreceived, hkept⟩ := hend.fails hbad
    exact ⟨t, hexec, hfailure, hlast, hreceived 0 (by decide), hkept⟩
  · obtain ⟨u, hend⟩ := readn_comesToReadEnd a n hg
    obtain ⟨t, hexec, hfailure, hlast, hreceived, hkept⟩ := hend.fails hbad
    exact ⟨t, hexec, hfailure, hlast, fun j hj => hreceived j (Nat.lt_succ_of_le hj), hkept⟩
  · obtain ⟨u, hend⟩ := readid_comesToReadEnd hg
    obtain ⟨t, hexec, hfailure, hlast, hreceived, hkept⟩ := hend.fails hbad
    exact ⟨t, hexec, hfailure, hlast, hreceived 0 (by decide), hkept⟩

end Sys2Proof.Machine
end

section
/-! PROOFS. The write and erase commands: a word whose status is bad ends the command (O41); with every status good it
comes to its poll, and succeeds when ready comes within the budget (O33 to O36). -/

namespace Sys2Proof.Machine

open Sys2Proof

/-! ## Words sent -/

theorem wordFrameEvents_succ (s : State) (k m : Nat) :
    wordFrameEvents s k (m + 1) =
      wordFrameEvents s k m ++ valueEvents .read (dbufGet s m) (levels s (k + 8 * m) 8) := by
  simp [wordFrameEvents, List.range_succ]

@[simp] theorem writeWord_dbuf (j : Nat) (u : State) : (writeWord j u).dbuf = u.dbuf := by simp [writeWord]
@[simp] theorem writeWord_pollcnt (j : Nat) (u : State) : (writeWord j u).pollcnt = u.pollcnt := by simp [writeWord]

theorem writeWords_dbuf (m : Nat) (u : State) : (loopState m writeWord u).dbuf = u.dbuf :=
  loopState_preserves (·.dbuf) writeWord writeWord_dbuf m u

theorem writeWords_pollcnt (m : Nat) (u : State) : (loopState m writeWord u).pollcnt = u.pollcnt :=
  loopState_preserves (·.pollcnt) writeWord writeWord_pollcnt m u

/-- A DBUF entry sent, its status read (R131). -/
theorem Reached.entry {es : List LineEvent} {p k q : Nat} {s u : State} (h : Reached es p k q s u)
    (hd : u.dbuf = s.dbuf) (j : Nat) :
    StatusRead (es ++ valueEvents .read (dbufGet s j) (Machine.levels s k 8)) (p + 41) k (q + 2) s
      (sendValue (.dbuf j) u) := by
  have hframe := h.value (.dbuf j)
  rwa [valueOf, dbufGet_congr hd] at hframe

/-- The words of WRITEN up to word `j`, its status read (R132); `hw` says how far the words below it came. -/
theorem Reached.wordEntry {es : List LineEvent} {p k q : Nat} {s u : State} {j : Nat}
    (hw : Reached (es ++ wordFrameEvents s k j) (p + 41 * j) (k + 8 * j) (q + 2 * j) s (loopState j writeWord u))
    (hd : u.dbuf = s.dbuf) :
    StatusRead (es ++ wordFrameEvents s k (j + 1)) (p + 41 * (j + 1)) (k + 8 * j) (q + 2 * (j + 1)) s
      (loopState (j + 1) writeWord u) := by
  have hindexed : Reached _ _ _ _ s (setWidx j (loopState j writeWord u)) := hw.of_lineSide rfl hw.receiving.busy
  have hentry := hindexed.entry (show _ = s.dbuf from (writeWords_dbuf j u).trans hd) j
  rwa [List.append_assoc, ← wordFrameEvents_succ] at hentry

/-- The first words of WRITEN, whatever their statuses (R132). -/
theorem Reached.entries {es : List LineEvent} {p k q : Nat} {s u : State} (h : Reached es p k q s u)
    (hd : u.dbuf = s.dbuf) (m : Nat) :
    Reached (es ++ wordFrameEvents s k m) (p + 41 * m) (k + 8 * m) (q + 2 * m) s (loopState m writeWord u) := by
  induction m with
  | zero =>
    rw [show wordFrameEvents s k 0 = [] from rfl, List.append_nil]
    exact h
  | succ m ih => exact (Reached.wordEntry ih hd).reached

/-- The words of WRITEN up to word `j`, its status read (R132). -/
theorem Reached.entryStatus {es : List LineEvent} {p k q : Nat} {s u : State} (h : Reached es p k q s u)
    (hd : u.dbuf = s.dbuf) (j : Nat) :
    StatusRead (es ++ wordFrameEvents s k (j + 1)) (p + 41 * (j + 1)) (k + 8 * j) (q + 2 * (j + 1)) s
      (loopState (j + 1) writeWord u) :=
  Reached.wordEntry (h.entries hd j) hd

/-- The statuses of the words sent follow the three first ones (R132). -/
theorem wordStatus_good {s : State} {m : Nat} (hg : statusesGood s (m + 3)) (j : Nat) (hj : j < m) :
    statusGood s (24 + 8 * j) = true := by
  rw [show 24 + 8 * j = 8 * (j + 3) by omega]
  exact hg (j + 3) (by omega)

/-- Settles O41: behind three good statuses, and the good ones of the words below it, the status of word `j` is bad. -/
theorem badWordStatusEndsTheWrite : Obligations.BadWordStatusEndsTheWrite := by
  refine ⟨fun s a hg hbad => ?_, fun s a n j hj hg hbad => ?_⟩
  · obtain ⟨haddressed, hrun⟩ := reached_of_addressThen rfl (run_writewProgram (dispatch (.writew a) s) rfl) hg
    have hword := haddressed.entry (by simp) 0
    rw [orFail_unmatched _ _ _ (hword.matched.trans hbad)] at hrun
    obtain ⟨t, hexec, hfailure, _, _, hrest⟩ := chip_fails (i := .writew a) rfl hrun hword (by simp) (by simp)
    exact ⟨t, hexec, hfailure, hrest⟩
  · obtain ⟨haddressed, hrun⟩ := reached_of_addressThen rfl (run_writenProgram n (dispatch (.writen a n) s) rfl)
      fun m hm => hg m (by omega)
    have hword := haddressed.entryStatus (by simp)
    rw [show 8 * (j + 3) = 24 + 8 * j by omega] at hbad
    rw [run_writeWords_bad (n.toNat + 1) j _ haddressed.receiving.busy (by omega)
      (fun m hm => (hword m).matched.trans (wordStatus_good hg m hm)) ((hword j).matched.trans hbad),
      run_failCommand] at hrun
    obtain ⟨t, hexec, hfailure, _, _, hrest⟩ := chip_fails (i := .writen a n) rfl hrun (hword j)
      (by rw [writeWords_dbuf]; simp) (by rw [writeWords_pollcnt]; simp)
    exact ⟨t, hexec, hfailure, hrest⟩

/-! ## The polls that end well -/

/-- A command from `s` that polls with budget `b` comes to its poll in `u`, behind three frames and `m` words sent (R131
to R134). -/
structure ComesToPoll (i : Instr) (b m : Nat) (s u : State) : Prop where
  chip : isChipCommand i = true
  runs : run (programOf i) (dispatch i s) = pollPhase b u
  reached : ∃ es, Reached es (91 + 41 * m) (24 + 8 * m) (6 + 2 * m) (dispatch i s) u ∧
    ∀ j, commandEvents i s j = es ++ pollEvents j (levels (dispatch i s) (25 + 8 * m + j) 8) ++ pulseEvents 2
  dbuf : u.dbuf = s.dbuf

/-- Ready at iteration `j` within the budget, and then 0xEA: the poll succeeds (R119, R120). -/
theorem ComesToPoll.succeeds {i : Instr} {b m j : Nat} {s u : State} (h : ComesToPoll i b m s u)
    (hr : readyAt s (24 + 8 * m) j) (hj : j < b) (hg : statusGood s (25 + 8 * m + j) = true) :
    ∃ t, exec i s = .next t ∧ ChipSuccess i j (102 + 41 * m + j) (33 + 8 * m + j) (6 + 2 * m) s t ∧
      t.pollcnt = BitVec.ofNat 19 (j + 1) ∧ t.dbuf = s.dbuf := by
  obtain ⟨hi, hrun, ⟨es, hreached, hevents⟩, hdbuf⟩ := h
  obtain ⟨hready, hcount, hstatus⟩ := hreached.poll hj hr
  rw [show 24 + 8 * m + 1 + j = 25 + 8 * m + j by omega] at hstatus
  have hlast : (pulses 2 (pollStatus (pollWait b u))).laststat = Config.statusOk := by
    rw [pulses_laststat, hstatus.laststat]
    exact (statusGood_iff s _).mp hg
  rw [pollPhase, if_pos hready, orFail_matched _ _ _ (hstatus.matched.trans hg)] at hrun
  have hend := hstatus.reached.pulses 2
  rw [← hevents j, show 91 + 41 * m + 9 + j + 2 = 102 + 41 * m + j by omega,
    show 25 + 8 * m + j + 8 = 33 + 8 * m + j by omega] at hend
  exact ⟨_, (exec_eq_run i s).trans (congrArg _ hrun), chipSuccess_of_run hi hrun hend hlast, by simpa using hcount,
    by simpa using hdbuf⟩

theorem writew_comesToPoll {s : State} (a : Half) (hg : statusesGood s 4) :
    ∃ u, ComesToPoll (.writew a) Config.budgetWrite 1 s u := by
  obtain ⟨haddressed, hrun⟩ := reached_of_addressThen rfl (run_writewProgram (dispatch (.writew a) s) rfl)
    fun m hm => hg m (by omega)
  have hword := haddressed.entry (by simp) 0
  rw [orFail_matched _ _ _ (hword.matched.trans (hg 3 (by decide)))] at hrun
  exact ⟨_, rfl, hrun, ⟨_, hword.reached, fun _ => rfl⟩, by simp⟩

theorem writen_comesToPoll {s : State} (a : Half) (n : Count) (hg : statusesGood s (n.toNat + 4)) :
    ∃ u, ComesToPoll (.writen a n) Config.budgetWrite (n.toNat + 1) s u := by
  obtain ⟨haddressed, hrun⟩ := reached_of_addressThen rfl (run_writenProgram n (dispatch (.writen a n) s) rfl)
    fun m hm => hg m (by omega)
  have hword := haddressed.entryStatus (by simp)
  have hwords := haddressed.entries (by simp) (n.toNat + 1)
  rw [run_writeWords_good _ _ haddressed.receiving.busy fun m hm => (hword m).matched.trans (wordStatus_good hg m hm),
    run_poll_phase _ _ hwords.receiving.busy] at hrun
  exact ⟨_, rfl, hrun, ⟨_, hwords, fun _ => rfl⟩, by rw [writeWords_dbuf]; simp⟩

theorem eraseall_comesToPoll {s : State} (hg : statusesGood s 3) :
    ∃ u, ComesToPoll .eraseall Config.budgetEraseAll 0 s u := by
  obtain ⟨haddressed, hrun⟩ := reached_of_addressThen rfl (run_eraseallProgram (dispatch .eraseall s) rfl) hg
  exact ⟨_, rfl, hrun, ⟨_, haddressed, fun _ => rfl⟩, by simp⟩

theorem erasepage_comesToPoll {s : State} (a : Half) (hg : statusesGood s 3) :
    ∃ u, ComesToPoll (.erasepage a) Config.budgetErasePage 0 s u := by
  obtain ⟨haddressed, hrun⟩ := reached_of_addressThen rfl (run_erasepageProgram (dispatch (.erasepage a) s) rfl) hg
  exact ⟨_, rfl, hrun, ⟨_, haddressed, fun _ => rfl⟩, by simp⟩

/-- Settles O33: the command comes to its poll, and that ends well. -/
theorem writeWordSucceeds : Obligations.WriteWordSucceeds := by
  intro s a k hg hr hk hgood
  obtain ⟨u, hpoll⟩ := writew_comesToPoll a hg
  exact hpoll.succeeds hr hk hgood

/-- Settles O34: the command comes to its poll, and that ends well. -/
theorem writeWordsSucceeds : Obligations.WriteWordsSucceeds := by
  intro s a n k hg hr hk hgood
  obtain ⟨u, hpoll⟩ := writen_comesToPoll a n hg
  exact hpoll.succeeds hr hk hgood

/-- Settles O35: the command comes to its poll, and that ends well. -/
theorem eraseAllSucceeds : Obligations.EraseAllSucceeds := by
  intro s k hg hr hk hgood
  obtain ⟨u, hpoll⟩ := eraseall_comesToPoll hg
  exact hpoll.succeeds hr hk hgood

/-- Settles O36: the command comes to its poll, and that ends well; the frame of a command names LADDR. -/
theorem erasePageSucceeds : Obligations.ErasePageSucceeds := by
  intro s a k hg hr hk hgood
  obtain ⟨u, hpoll⟩ := erasepage_comesToPoll a hg
  obtain ⟨t, hexec, hsuccess, hcount, hdbuf⟩ := hpoll.succeeds hr hk hgood
  exact ⟨t, hexec, hsuccess, hcount, hdbuf, hsuccess.frame.laddr⟩

end Sys2Proof.Machine
end

section
/-! PROOFS. The causes of R143: a command reports only those its list can fail with, and OK exactly without one (O44);
each cause the table lists is reported before a target whose levels lead to it (O45). -/

namespace Sys2Proof.Machine

open Sys2Proof

/-! ## The causes a list can fail with -/

/-- The cause an operation fails with, when it can fail (R18, R143). -/
def Micro.failure : Micro → Option Cause
  | .failUnlessMatch c | .failUnlessReady c | .fail c => some c
  | .unlessMode _ a => a.failure
  | _ => none

/-- The causes the operations of a list can fail with, in order. -/
def failuresOf (p : List Micro) : List Cause := p.filterMap Micro.failure

/-! The equations of `failuresOf`: a list is read off part by part; no primitive can fail. -/

@[simp] theorem failuresOf_nil : failuresOf [] = [] := rfl

@[simp] theorem failuresOf_cons (m : Micro) (p : List Micro) :
    failuresOf (m :: p) = m.failure.toList ++ failuresOf p := by
  cases h : m.failure <;> simp [failuresOf, h]

@[simp] theorem failuresOf_append (p q : List Micro) : failuresOf (p ++ q) = failuresOf p ++ failuresOf q :=
  List.filterMap_append

@[simp] theorem failuresOf_repeatOps (n : Nat) (f : Nat → List Micro) :
    failuresOf (repeatOps n f) = (List.range n).flatMap fun j => failuresOf (f j) :=
  List.filterMap_flatMap

@[simp] theorem failuresOf_clkOps : failuresOf clkOps = [] := rfl
@[simp] theorem failuresOf_shutdownOps : failuresOf shutdownOps = [] := rfl
@[simp] theorem failuresOf_setWriteModeOps : failuresOf setWriteModeOps = [] := rfl
@[simp] theorem failuresOf_setReadModeOps : failuresOf setReadModeOps = [] := rfl
@[simp] theorem failuresOf_enterWriteDataOps : failuresOf enterWriteDataOps = [] := rfl
@[simp] theorem failuresOf_pulsesOps (n : Nat) : failuresOf (pulsesOps n) = [] := by simp [pulsesOps]
@[simp] theorem failuresOf_statusBitOps (j : Nat) : failuresOf (statusBitOps j) = [] := rfl
@[simp] theorem failuresOf_recvWordOps : failuresOf recvWordOps = [] := by
  simp [recvWordOps, wordBitOps, Micro.failure]

/-! Each frame fails at its status with its caller's cause (R18), a poll for want of ready or at its status (R116). -/

@[simp] theorem failuresOf_checkStatusOps (c : Cause) : failuresOf (checkStatusOps c) = [c] := by
  simp [checkStatusOps, recvStatusOps, Micro.failure]

@[simp] theorem failuresOf_sendOpcodeOps (src : OpcodeSrc) (c : Cause) : failuresOf (sendOpcodeOps src c) = [c] := by
  simp [sendOpcodeOps, opcodeBitOps, Micro.failure]

@[simp] theorem failuresOf_sendValueOps (src : ValueSrc) (c : Cause) : failuresOf (sendValueOps src c) = [c] := by
  simp [sendValueOps, valueBitOps, Micro.failure]

@[simp] theorem failuresOf_checkOps : failuresOf checkOps = [.checkFail] := failuresOf_sendOpcodeOps _ _

@[simp] theorem failuresOf_pollOps (b : Nat) : failuresOf (pollOps b) = [.pollTimeout, .pollStatus] := by
  simp [pollOps, Micro.failure]

@[simp] theorem failuresOf_readWordOps (i : Nat) : failuresOf (readWordOps i) = [] := by
  simp [readWordOps, Micro.failure]

@[simp] theorem failuresOf_writeWordOps (i : Nat) : failuresOf (writeWordOps i) = [.statusMismatch] := by
  simp [writeWordOps, Micro.failure]

/-- The list of a command can fail with the causes R143 gives the command, and with no others. -/
theorem mem_failuresOf_programOf (i : Instr) (c : Cause) :
    c ∈ failuresOf (programOf i) ↔ c ∈ causesOf i ∧ c ≠ .none := by
  cases i with
  | powerup => cases c <;> simp [programOf, powerupProgram, powerUpOps, Micro.failure, causesOf]
  | shutdown => cases c <;> simp [programOf, shutdownProgram, Micro.failure, causesOf]
  | unlock => cases c <;> simp [programOf, unlockProgram, unlockPairOps, unlockBitOps, Micro.failure, causesOf]
  | check => cases c <;> simp [programOf, checkProgram, Micro.failure, causesOf]
  | readw _ => cases c <;> simp [programOf, readwProgram, Micro.failure, causesOf]
  | readn _ _ => cases c <;> simp [programOf, readnProgram, Micro.failure, causesOf]
  | readid => cases c <;> simp [programOf, readidProgram, Micro.failure, causesOf]
  | writew _ => cases c <;> simp [programOf, writewProgram, Micro.failure, causesOf]
  | writen _ _ => cases c <;> simp [programOf, writenProgram, Micro.failure, causesOf]
  | eraseall => cases c <;> simp [programOf, eraseallProgram, Micro.failure, causesOf]
  | erasepage _ => cases c <;> simp [programOf, erasepageProgram, Micro.failure, causesOf]

/-! ## What a list reports -/

/-- A running command, or one that has ended with a cause of `cs`, and OK exactly without one (R141, R144, R149). -/
def Reporting (cs : List Cause) (s : State) : Prop :=
  s.busy = true ∨ s.cause ∈ cs ∧ (s.ok = true ↔ s.cause = .none)

theorem Reporting.congr {cs : List Cause} {s t : State} (h : Reporting cs s) (hb : t.busy = s.busy) (ho : t.ok = s.ok)
    (hc : t.cause = s.cause) : Reporting cs t := by
  unfold Reporting at h ⊢
  rwa [hb, ho, hc]

theorem reporting_failCommand {cs : List Cause} {c : Cause} (h : c ∈ cs ∧ c ≠ .none) (s : State) :
    Reporting cs (failCommand c s) :=
  .inr ⟨h.1, by simp [failCommand, h.2]⟩

theorem reporting_succeedCommand {cs : List Cause} (h : .none ∈ cs) (s : State) : Reporting cs (succeedCommand s) :=
  .inr ⟨h, by simp [succeedCommand]⟩

/-- An operation fails with its own cause, succeeds, or leaves BUSY, OK and CAUSE as they are (R144). -/
theorem execMicro_reporting {cs : List Cause} (hnone : .none ∈ cs) (m : Micro)
    (hm : ∀ c, m.failure = some c → c ∈ cs ∧ c ≠ .none) (s : State) (hs : Reporting cs s) :
    Reporting cs (execMicro m s) := by
  induction m with
  | unlessMode _ a ih =>
    unfold execMicro
    split
    · exact hs
    · exact ih hm
  | failUnlessMatch c | failUnlessReady c =>
    unfold execMicro
    split
    · exact hs
    · exact reporting_failCommand (hm c rfl) s
  | fail c => exact reporting_failCommand (hm c rfl) s
  | succeed => exact reporting_succeedCommand hnone s
  | _ => exact hs.congr (by simp [execMicro]) (by simp [execMicro]) (by simp [execMicro])

theorem none_mem_causesOf (i : Instr) : .none ∈ causesOf i := by
  cases i <;> exact List.mem_cons_self

/-- Settles O44: a command's list keeps `Reporting` from the busy state it starts in, and ends the command. -/
theorem commandsReportOnlyTheirCauses : Obligations.CommandsReportOnlyTheirCauses := by
  intro s i
  have hreport : Reporting (causesOf i) (run (programOf i) (dispatch i s)) :=
    run_induct (Reporting (causesOf i)) (programOf i)
      (fun m hm u => execMicro_reporting (none_mem_causesOf i) m
        (fun c hc => (mem_failuresOf_programOf i c).mp (List.mem_filterMap.mpr ⟨m, hm, hc⟩)) u)
      (dispatch i s) (.inl rfl)
  have hends := run_programOf_ends i (dispatch i s)
  exact ⟨_, exec_eq_run i s, hreport.resolve_left (by simp [hends])⟩

/-! ## Levels that lead to each cause -/

/-- The reset state before a target that presents `n` good statuses and then `ls` (R74). -/
def presenting (n : Nat) (ls : List Bool) : State :=
  { State.reset with samples := ((List.replicate n statusLevels).flatten ++ ls).map .drives }

theorem length_goodStatuses (n : Nat) : (List.replicate n statusLevels).flatten.length = 8 * n := by
  simp [statusLevels, Nat.mul_comm]

theorem presenting_good (n : Nat) (ls : List Bool) : statusesGood (presenting n ls) n :=
  statusesGood_of_levels _ n ls [] (by simp only [presenting, List.append_nil])

/-- Eight zeros behind the good statuses are a bad one. -/
theorem presenting_zeros_bad (n : Nat) : statusGood (presenting n (List.replicate 8 false)) (8 * n) = false := by
  rw [← length_goodStatuses n]
  exact statusBad_of_levels _ _ [] [] (by simp only [presenting, List.append_nil])

/-- As many zeros as the budget allows are no ready (R118). -/
theorem presenting_zeros_neverReady (n b : Nat) : neverReady (presenting n (List.replicate b false)) (8 * n) b := by
  rw [← length_goodStatuses n]
  exact neverReady_of_levels _ _ [] b [] (by simp only [presenting, List.append_nil])

/-- A one and eight zeros behind the good statuses are ready at once, and a bad status of the poll (R117, R119). -/
theorem presenting_ready_bad (n : Nat) :
    readyAt (presenting n (true :: List.replicate 8 false)) (8 * n) 0 ∧
      statusGood (presenting n (true :: List.replicate 8 false)) (8 * n + 0 + 1) = false := by
  rw [← length_goodStatuses n]
  refine ⟨readyAt_of_levels _ _ (List.replicate 8 false) 0 [] (by simp [presenting]), ?_⟩
  rw [Nat.add_zero, ← List.length_singleton (a := true), ← List.length_append]
  exact statusBad_of_levels _ _ [] [] (by simp [presenting])

/-! ## The table of R143 -/

theorem isChipCommand_of_checkFail {i : Instr} (h : .checkFail ∈ causesOf i) : isChipCommand i = true := by
  cases i with
  | powerup | shutdown | unlock => simp [causesOf] at h
  | _ => rfl

theorem isChipCommand_of_statusMismatch {i : Instr} (h : .statusMismatch ∈ causesOf i) :
    isChipCommand i = true ∧ i ≠ .check := by
  cases i with
  | powerup | shutdown | unlock | check => simp [causesOf] at h
  | _ => exact ⟨rfl, nofun⟩

/-- The commands that report a cause of the poll are those that poll (R121). -/
theorem budgetOf_of_pollCause {i : Instr} (h : .pollTimeout ∈ causesOf i ∨ .pollStatus ∈ causesOf i) :
    ∃ b, budgetOf i = some b := by
  cases i with
  | writew _ | writen _ _ | eraseall | erasepage _ => exact ⟨_, rfl⟩
  | _ => simp [causesOf] at h

/-- The samples before a poll are whole statuses (R139). -/
theorem eight_mul_statusesBeforePoll (i : Instr) : 8 * (pollStart i / 8) = pollStart i := by
  cases i with
  | writen _ n => rw [pollStart]; omega
  | _ => simp [pollStart]

theorem illegal_not_mem_causesOf (i : Instr) : .illegal ∉ causesOf i := by
  cases i <;> simp [causesOf]

theorem budgetOf_pos {i : Instr} {b : Nat} (h : budgetOf i = some b) : 0 < b := by
  cases i with
  | writew _ | writen _ _ | eraseall | erasepage _ => cases h; decide
  | _ => cases h

/-- Settles O45: with RT on the lines the command succeeds; a bad first status, a bad second one, a poll that sees no
ready and a poll that reads a bad status make it fail with the four causes. -/
theorem everyListedCauseOccurs : Obligations.EveryListedCauseOccurs := by
  intro i c hc
  cases c with
  | none =>
    obtain ⟨t, hexec, _, hcause, _⟩ :=
      run_withTarget ⟨⟨0#16, []⟩, 0#16, 0⟩ i State.reset fun _ => budgetOf_pos
    exact ⟨_, t, hexec, hcause⟩
  | illegal => exact absurd hc (illegal_not_mem_causesOf i)
  | checkFail =>
    obtain ⟨t, hexec, hfailure, _⟩ := chip_fails_check (isChipCommand_of_checkFail hc)
      (ne_of_beq_false (presenting_zeros_bad 0))
    exact ⟨_, t, hexec, hfailure.cause⟩
  | statusMismatch =>
    obtain ⟨hchip, hcheck⟩ := isChipCommand_of_statusMismatch hc
    obtain ⟨t, hexec, hfailure, _⟩ := badOpcodeStatusEndsTheCommand _ i hchip hcheck
      (presenting_good 1 _ 0 Nat.one_pos) (presenting_zeros_bad 1)
    exact ⟨_, t, hexec, hfailure.cause⟩
  | pollTimeout =>
    obtain ⟨b, hbudget⟩ := budgetOf_of_pollCause (.inl hc)
    have hnever := presenting_zeros_neverReady (pollStart i / 8) b
    rw [eight_mul_statusesBeforePoll] at hnever
    obtain ⟨t, hexec, hfailure, _⟩ := pollTimeoutEndsTheCommand _ i b hbudget (presenting_good _ _) hnever
    exact ⟨_, t, hexec, hfailure.cause⟩
  | pollStatus =>
    obtain ⟨b, hbudget⟩ := budgetOf_of_pollCause (.inr hc)
    obtain ⟨hready, hbad⟩ := presenting_ready_bad (pollStart i / 8)
    rw [eight_mul_statusesBeforePoll] at hready hbad
    obtain ⟨t, hexec, hfailure, _⟩ := badPollStatusEndsTheCommand _ i b 0 hbudget (presenting_good _ _) hready
      (budgetOf_pos hbudget) hbad
    exact ⟨_, t, hexec, hfailure.cause⟩

end Sys2Proof.Machine
end

section
/-! PROOFS. What a command's trace costs: at most so many pulses (O51), and delays that add up to those of the pulses and
the settle delays (O52). Both are read off the command's list of operations, part by part; a run may end early, so a bound
on the whole list bounds the failing runs too. -/

namespace Sys2Proof.Machine

open Sys2Proof

/-! ## What a list of operations takes -/

theorem sleepTime_append (es fs : List LineEvent) : sleepTime (es ++ fs) = sleepTime es + sleepTime fs := by
  induction es using sleepTime.induct with
  | case1 => simp [sleepTime]
  | case2 d es ih => simp only [List.cons_append, sleepTime, ih]; omega
  | case3 e es he ih => simp [sleepTime, ih]

/-- At most `n` pulses, and the delays are two half periods a pulse and one settle delay each (R173). -/
structure TimedEvents (n : Nat) (es : List LineEvent) : Prop where
  pulses : pulsesOf es ≤ n
  delays : sleepTime es = pulsesOf es * (2 * Config.duration .half) + settlesOf es * Config.duration .settle

theorem TimedEvents.append {m n : Nat} {es fs : List LineEvent} (h : TimedEvents m es) (k : TimedEvents n fs) :
    TimedEvents (m + n) (es ++ fs) where
  pulses := by rw [pulsesOf_append]; exact Nat.add_le_add h.pulses k.pulses
  delays := by
    rw [sleepTime_append, pulsesOf_append, settlesOf_append, h.delays, k.delays, Nat.add_mul, Nat.add_mul]
    omega

/-- Nothing performed costs nothing. -/
theorem timedEvents_nil (n : Nat) : TimedEvents n [] := ⟨n.zero_le, by simp [sleepTime, pulsesOf, settlesOf]⟩

/-- A line other than CLK driven is no pulse (R102). -/
theorem timedEvents_drive {l : Line} (hl : l ≠ .clk) (b : Bool) : TimedEvents 0 [.drive l b] := by
  cases l with
  | clk => exact absurd rfl hl
  | _ => exact ⟨Nat.le_refl 0, by simp [sleepTime, pulsesOf, settlesOf]⟩

theorem timedEvents_sample (l : Line) (b : Bool) : TimedEvents 0 [.sample l b] :=
  ⟨Nat.le_refl 0, by simp [sleepTime, pulsesOf, settlesOf]⟩

/-- A pulse holds each level for half a period (R102, R103). -/
theorem timedEvents_clk : TimedEvents 1 clkEvents :=
  ⟨Nat.le_refl 1, by simp [clkEvents, sleepTime, pulsesOf, settlesOf]; omega⟩

/-- SetWriteMode drives CLK low only, so its one delay is the settle delay (R98). -/
theorem timedEvents_writeMode (m : Mode) : TimedEvents 0 (writeModeEvents m) := by
  unfold writeModeEvents
  split
  · exact timedEvents_nil 0
  · exact ⟨Nat.le_refl 0, by simp [sleepTime, pulsesOf, settlesOf]⟩

/-- SetReadMode drives CLK low only, so its one delay is the settle delay (R99). -/
theorem timedEvents_readMode (m : Mode) : TimedEvents 0 (readModeEvents m) := by
  unfold readModeEvents
  split
  · exact timedEvents_nil 0
  · exact ⟨Nat.le_refl 0, by simp [sleepTime, pulsesOf, settlesOf]⟩

/-- Shutdown has neither a pulse nor a delay (R96). -/
theorem timedEvents_shutdown : TimedEvents 0 shutdownEvents :=
  ⟨Nat.le_refl 0, by simp [shutdownEvents, sleepTime, pulsesOf, settlesOf]⟩

/-- From `s` to `t` the trace grows by events of at most `n` pulses, timed as R173 says. -/
def TimedTo (n : Nat) (s t : State) : Prop := ∃ es, t.trace = es.reverse ++ s.trace ∧ TimedEvents n es

theorem TimedTo.trans {m n : Nat} {s t u : State} (h : TimedTo m s t) (k : TimedTo n t u) : TimedTo (m + n) s u := by
  obtain ⟨es, hes, hs⟩ := h
  obtain ⟨fs, hfs, ht⟩ := k
  exact ⟨es ++ fs, by simp [hfs, hes], hs.append ht⟩

theorem TimedTo.of_trace {n : Nat} {s t : State} (h : t.trace = s.trace) : TimedTo n s t := ⟨[], h, timedEvents_nil n⟩

theorem TimedTo.mono {m n : Nat} {s t : State} (h : TimedTo m s t) (hmn : m ≤ n) : TimedTo n s t :=
  have ⟨es, hes, ht⟩ := h
  ⟨es, hes, ht.pulses.trans hmn, ht.delays⟩

theorem clkPulse_timedTo (s : State) : TimedTo 1 s (clkPulse s) := ⟨_, rfl, timedEvents_clk⟩

theorem drive_timedTo {l : Line} (hl : l ≠ .clk) (b : Bool) (s : State) : TimedTo 0 s (drive l b s) :=
  ⟨_, rfl, timedEvents_drive hl b⟩

theorem afterSample_timedTo (s : State) : TimedTo 0 s (afterSample s) := by
  unfold afterSample
  split <;> exact ⟨[_], rfl, timedEvents_sample _ _⟩

/-- A poll takes a pulse a tick, and no tick after the first ready (R116). -/
theorem pollTicks_timedTo (n : Nat) (s : State) : TimedTo n s (pollTicks n s) := by
  induction n generalizing s with
  | zero => exact .of_trace rfl
  | succ n ih =>
    unfold pollTicks
    split
    · exact .of_trace rfl
    · have htick : TimedTo 1 s (pollTick s) := (clkPulse_timedTo s).trans (afterSample_timedTo _)
      rw [Nat.add_comm]
      exact htick.trans (ih _)

/-- The run of a list, from every state and wherever it ends, takes at most `n` pulses and is timed as R173 says. -/
def Timed (n : Nat) (p : List Micro) : Prop := ∀ s, TimedTo n s (run p s)

theorem Timed.mono {m n : Nat} {p : List Micro} (h : Timed m p) (hmn : m ≤ n) : Timed n p := fun s => (h s).mono hmn

theorem Timed.append {m n : Nat} {p q : List Micro} (hp : Timed m p) (hq : Timed n q) : Timed (m + n) (p ++ q) :=
  fun s => by rw [run_append]; exact (hp s).trans (hq _)

theorem Timed.repeatOps {m : Nat} {f : Nat → List Micro} (hf : ∀ j, Timed m (f j)) (n : Nat) :
    Timed (n * m) (repeatOps n f) := by
  induction n with
  | zero => exact fun _ => .of_trace rfl
  | succ n ih =>
    rw [repeatOps_succ, Nat.succ_mul]
    exact ih.append (hf n)

/-- An idle engine performs nothing (R144). -/
theorem timed_of_busy {n : Nat} {p : List Micro} (h : ∀ s, s.busy = true → TimedTo n s (run p s)) : Timed n p := by
  intro s
  cases hb : s.busy with
  | true => exact h s hb
  | false => exact .of_trace (by rw [run_idle p s hb])

theorem timed_single {n : Nat} {m : Micro} (h : ∀ s, TimedTo n s (execMicro m s)) : Timed n [m] :=
  timed_of_busy fun s hb => by rw [run_cons m [] s hb]; exact h s

/-- A register write performs no line primitive. -/
theorem timed_of_trace {m : Micro} (h : ∀ s, (execMicro m s).trace = s.trace) : Timed 0 [m] :=
  timed_single fun s => .of_trace (h s)

/-! ## The primitives -/

theorem clkOps_timed : Timed 1 clkOps :=
  timed_of_busy fun s hb => by rw [run_clkOps s hb]; exact clkPulse_timedTo s

theorem setWriteModeOps_timed : Timed 0 setWriteModeOps := timed_of_busy fun s hb => by
  rw [run_setWriteModeOps s hb]
  exact ⟨_, setWriteMode_trace s, timedEvents_writeMode s.mode⟩

theorem setReadModeOps_timed : Timed 0 setReadModeOps := timed_of_busy fun s hb => by
  rw [run_setReadModeOps s hb]
  exact ⟨_, setReadMode_trace s, timedEvents_readMode s.mode⟩

theorem drive_timed {l : Line} (hl : l ≠ .clk) (b : Bool) : Timed 0 [.drive l b] := timed_single (drive_timedTo hl b)

theorem enterWriteDataOps_timed : Timed 0 enterWriteDataOps :=
  (drive_timed (by decide) false).append (timed_of_trace fun _ => rfl)

theorem setBit_timed (j : Nat) : Timed 0 [.setBit j] := timed_of_trace fun _ => rfl

theorem failUnlessMatch_timed (c : Cause) : Timed 0 [.failUnlessMatch c] := timed_of_trace fun s => by
  unfold execMicro
  split <;> rfl

theorem failUnlessReady_timed (c : Cause) : Timed 0 [.failUnlessReady c] := timed_of_trace fun s => by
  unfold execMicro
  split <;> rfl

theorem succeed_timed : Timed 0 [.succeed] := timed_of_trace fun _ => rfl

/-- The loop goes on from the ticks already counted, so it takes at most its budget (R116). -/
theorem pollLoop_timed (b : Nat) : Timed b [.pollLoop b] :=
  timed_single fun s => (pollTicks_timedTo (b - s.pollctr.toNat) s).mono (Nat.sub_le _ _)

theorem pulsesOps_timed (n : Nat) : Timed n (pulsesOps n) := by
  have h := Timed.repeatOps (fun _ => clkOps_timed) n
  rwa [Nat.mul_one] at h

/-! ## The bits and the frames -/

theorem opcodeBitOps_timed (src : OpcodeSrc) (j : Nat) : Timed 1 (opcodeBitOps src j) :=
  have hbit : Timed 0 [.driveOpcodeBit src (15 - j)] := timed_single fun s => drive_timedTo (by decide) _ s
  ((setBit_timed j).append hbit).append clkOps_timed

theorem valueBitOps_timed (src : ValueSrc) (j : Nat) : Timed 1 (valueBitOps src j) :=
  have hbit : Timed 0 [.driveValueBit src (31 - j)] := timed_single fun s => drive_timedTo (by decide) _ s
  ((setBit_timed j).append hbit).append clkOps_timed

theorem statusBitOps_timed (j : Nat) : Timed 1 (statusBitOps j) :=
  have hsample : Timed 0 [.sampleStatus] := timed_single afterSample_timedTo
  ((setBit_timed j).append clkOps_timed).append hsample

theorem wordBitOps_timed (j : Nat) : Timed 1 (wordBitOps j) :=
  have hsample : Timed 0 [.sampleWord] := timed_single afterSample_timedTo
  ((setBit_timed j).append clkOps_timed).append hsample

theorem unlockBitOps_timed (pair : Byte × Byte) (j : Nat) : Timed 1 (unlockBitOps pair j) :=
  (((setBit_timed j).append (drive_timed (by decide) _)).append (drive_timed (by decide) _)).append clkOps_timed

/-- A status takes eight pulses and the trailing one (R88, R111). -/
theorem checkStatusOps_timed (c : Cause) : Timed 9 (checkStatusOps c) :=
  have hbits := setReadModeOps_timed.append (.repeatOps statusBitOps_timed 8)
  have hlatch : Timed 0 [.latchStatus] := timed_of_trace fun _ => rfl
  ((hbits.append clkOps_timed).append hlatch).append (failUnlessMatch_timed c)

/-- An opcode frame takes sixteen pulses and its status (R85, R107). -/
theorem sendOpcodeOps_timed (src : OpcodeSrc) (c : Cause) : Timed 25 (sendOpcodeOps src c) :=
  (setWriteModeOps_timed.append (.repeatOps (opcodeBitOps_timed src) 16)).append (checkStatusOps_timed c)

/-- A value frame takes thirty-two pulses and its status (R86, R109). -/
theorem sendValueOps_timed (src : ValueSrc) (c : Cause) : Timed 41 (sendValueOps src c) :=
  have hmode := setWriteModeOps_timed.append enterWriteDataOps_timed
  (hmode.append (.repeatOps (valueBitOps_timed src) 32)).append (checkStatusOps_timed c)

theorem recvWordOps_timed : Timed 16 recvWordOps := setReadModeOps_timed.append (.repeatOps wordBitOps_timed 16)

/-- A poll takes a pulse a tick and the eight of its status (R89, R116). -/
theorem pollOps_timed (b : Nat) : Timed (b + 8) (pollOps b) := by
  have hstart : Timed 0 [.startPoll] := timed_of_trace fun _ => rfl
  have hcount : Timed 0 [.latchPollCount] := timed_of_trace fun _ => rfl
  have hlatch : Timed 0 [.latchStatus] := timed_of_trace fun _ => rfl
  have hwait := ((hstart.append (pollLoop_timed b)).append hcount).append (failUnlessReady_timed .pollTimeout)
  have hstatus := (Timed.repeatOps statusBitOps_timed 8).append (hlatch.append (failUnlessMatch_timed .pollStatus))
  have hpoll := (setReadModeOps_timed.append hwait).append hstatus
  simpa [pollOps] using hpoll

theorem storeWord_timed (i : Nat) : Timed 0 [.storeWord i] := timed_of_trace fun _ => rfl

theorem setWidx_timed (i : Nat) : Timed 0 [.setWidx i] := timed_of_trace fun _ => rfl

theorem readWordOps_timed (i : Nat) : Timed 16 (readWordOps i) :=
  ((setWidx_timed i).append recvWordOps_timed).append (storeWord_timed i)

theorem writeWordOps_timed (i : Nat) : Timed 41 (writeWordOps i) :=
  (setWidx_timed i).append (sendValueOps_timed (.dbuf i) .statusMismatch)

/-! ## The commands -/

/-- The most pulses a command takes, one that polls with ready at its last iteration (R138, R174). -/
def pulseLimit (i : Instr) : Nat :=
  match i with
  | .powerup | .shutdown => 0
  | .check => 25
  | .readw _ => 120
  | .readn _ n => 104 + 16 * (n.toNat + 1)
  | .readid => 80
  | .unlock => 64
  | .writew _ | .writen _ _ => pulsesBeforePoll i + Config.budgetWrite + 10
  | .eraseall => pulsesBeforePoll i + Config.budgetEraseAll + 10
  | .erasepage _ => pulsesBeforePoll i + Config.budgetErasePage + 10

/-- The liveness check and the opcode of a command (R125). -/
theorem opcode_timed (src : OpcodeSrc) : Timed 50 (checkOps ++ sendOpcodeOps src .statusMismatch) :=
  (sendOpcodeOps_timed _ _).append (sendOpcodeOps_timed src _)

/-- The liveness check, the opcode and the address of a command (R125). -/
theorem address_timed (src : OpcodeSrc) (v : ValueSrc) :
    Timed 91 (checkOps ++ sendOpcodeOps src .statusMismatch ++ sendValueOps v .statusMismatch) :=
  (opcode_timed src).append (sendValueOps_timed v _)

/-- The two trailing pulses and the success (R91). -/
theorem trailing_timed {n : Nat} {p : List Micro} (hp : Timed n p) : Timed (n + 2) (p ++ pulsesOps 2 ++ [.succeed]) :=
  (hp.append (pulsesOps_timed 2)).append succeed_timed

/-- A poll, the two trailing pulses and the success (R91, R116). -/
theorem polled_timed {n b : Nat} {p : List Micro} (hp : Timed n p) :
    Timed (n + b + 10) (p ++ pollOps b ++ pulsesOps 2 ++ [.succeed]) :=
  trailing_timed (hp.append (pollOps_timed b))

/-- Every command but POWERUP, whose power-off time is no settle delay (R97), phase by phase. -/
theorem programOf_timed (i : Instr) (hi : i ≠ .powerup) : Timed (pulseLimit i) (programOf i) := by
  have hstatus := checkStatusOps_timed .statusMismatch
  have hstore := storeWord_timed 0
  cases i with
  | powerup => exact absurd rfl hi
  | shutdown =>
    refine timed_of_busy fun s hb => ⟨shutdownEvents, ?_, timedEvents_shutdown⟩
    rw [programOf, run_shutdownProgram s hb]; rfl
  | check => exact (sendOpcodeOps_timed _ _).append succeed_timed
  | unlock =>
    have hpair (pair : Byte × Byte) : Timed 8 (unlockPairOps pair) := .repeatOps (unlockBitOps_timed pair) 8
    exact (Timed.repeatOps (fun _ => hpair _) 8).append succeed_timed
  | readw _ =>
    have haddr := address_timed (.const Config.opcRead) .laddr
    have hword := ((haddr.append (pulsesOps_timed 2)).append recvWordOps_timed).append hstore
    exact trailing_timed (hword.append hstatus)
  | readn _ n =>
    have haddr := address_timed (.withCount Config.opcReadnBase) .laddr
    have hwords := (haddr.append (pulsesOps_timed 2)).append (.repeatOps readWordOps_timed (n.toNat + 1))
    exact (trailing_timed (hwords.append hstatus)).mono (by simp only [pulseLimit]; omega)
  | readid =>
    have hop := opcode_timed (.const Config.opcChipid)
    have hword := ((hop.append (pulsesOps_timed 3)).append recvWordOps_timed).append hstore
    exact trailing_timed (hword.append hstatus)
  | writew _ =>
    have haddr := address_timed (.const Config.opcWrite) .laddr
    exact polled_timed (haddr.append (sendValueOps_timed (.dbuf 0) .statusMismatch))
  | writen _ n =>
    have haddr := address_timed (.withCount Config.opcWritenBase) .laddr
    have hwords := haddr.append (.repeatOps writeWordOps_timed (n.toNat + 1))
    exact (polled_timed hwords).mono (by simp only [pulseLimit, pulsesBeforePoll]; omega)
  | eraseall => exact polled_timed (address_timed (.const Config.opcEraseAll) (.const 0#16))
  | erasepage _ => exact polled_timed (address_timed (.const Config.opcErasePage) .page)

/-- The pulses and the delays of every command's trace: POWERUP's only delay is the power-off time (R97, R173). -/
theorem exec_timed (s : State) (i : Instr) :
    ∃ t es, exec i s = .next t ∧ t.trace = es.reverse ++ s.trace ∧ pulsesOf es ≤ pulseLimit i ∧
      sleepTime es =
        pulsesOf es * (2 * Config.duration .half) + settlesOf es * Config.duration .settle
          + (if i = .powerup then Config.duration .pwroff else 0) := by
  by_cases hi : i = .powerup
  · subst hi
    refine ⟨_, powerUpEvents, exec_eq_run _ s, ?_, Nat.le_refl 0, ?_⟩
    · rw [programOf, run_powerupProgram _ rfl, powerUpState_eq]; rfl
    · simp [powerUpEvents, shutdownEvents, sleepTime, pulsesOf, settlesOf]
  · obtain ⟨es, htrace, htimed⟩ := programOf_timed i hi (dispatch i s)
    exact ⟨_, es, exec_eq_run i s, htrace, htimed.pulses, by rw [if_neg hi]; exact htimed.delays⟩

/-- No command's limit is above ERASEALL's, which has the largest budget; a count stands for 32 words at most (R121,
R174). -/
theorem pulseLimit_le (i : Instr) : pulseLimit i ≤ 393317 := by
  cases i with
  | readn _ n => have := n.isLt; simp only [pulseLimit]; omega
  | writew _ => simp only [pulseLimit, pulsesBeforePoll, Config.budgetWrite]; omega
  | writen _ n => have := n.isLt; simp only [pulseLimit, pulsesBeforePoll, Config.budgetWrite]; omega
  | eraseall => simp only [pulseLimit, pulsesBeforePoll, Config.budgetEraseAll]; omega
  | erasepage _ => simp only [pulseLimit, pulsesBeforePoll, Config.budgetErasePage]; omega
  | _ => simp [pulseLimit]

/-- Settles O51: each command's limit is 393317 at most, and those of READN and WRITEN grow with a count below 32. -/
theorem noCommandTakesMorePulses : Obligations.NoCommandTakesMorePulses := by
  intro s i
  obtain ⟨t, es, hexec, htrace, hpulses, _⟩ := exec_timed s i
  refine ⟨t, es, hexec, htrace, hpulses.trans (pulseLimit_le i), ?_, ?_⟩
  · rintro a n rfl
    have := n.isLt
    simp only [pulseLimit] at hpulses
    omega
  · rintro a n rfl
    have := n.isLt
    simp only [pulseLimit, pulsesBeforePoll, Config.budgetWrite] at hpulses
    omega

/-- Settles O52: the delays of every command's trace, with POWERUP's power-off time. -/
theorem delaysAddUpToTheMinimumDuration : Obligations.DelaysAddUpToTheMinimumDuration := by
  intro s i
  obtain ⟨t, es, hexec, htrace, _, hdelays⟩ := exec_timed s i
  exact ⟨t, es, hexec, htrace, hdelays⟩

end Sys2Proof.Machine
end

section
/-! PROOFS. The block reset (O9): it lands like any act of the outside and gives every register its reset value; while the
input is asserted, no act moves the engine from there. -/

namespace Sys2Proof.Machine

open Sys2Proof

/-! ## The reset values -/

/-- The block reset gives every register its reset value (R47, R158). -/
theorem atReset_blockReset (s : State) : AtReset (blockReset s) :=
  ⟨rfl, rfl, fun l => by cases l <;> rfl, rfl, rfl, rfl, rfl, rfl, rfl, rfl, rfl, rfl, rfl, rfl, rfl⟩

/-- A state the block reset leaves as it is has the reset values; what stands outside the engine may be anything. -/
theorem AtReset.of_blockReset_eq {t : State} (h : blockReset t = t) : AtReset t := h ▸ atReset_blockReset t

/-- With every register at its reset value, STATUS reads 0 (R38, R159). -/
theorem AtReset.statusReg {s : State} (h : AtReset s) : statusReg s = 0#32 := by
  simp [Machine.statusReg, h.mode, h.cause, h.ovr, h.ok, h.busy, modeCode, causeCode]

/-! ## Acts that land -/

/-- An act due after `n` more sequencer steps of the running command lands there (R7). -/
theorem step_of_lands {s : State} {n : Nat} {a : HostAct} {rest : List HostEvent} (hr : s.resetAsserted = false)
    (hb : s.busy = true) (hp : s.pending = ⟨some n, a⟩ :: rest) :
    step s = serve a (advance n { s with pending := rest }) := by
  rw [step_released s hr, nextTurn]
  simp [hp, hb]

/-- With the reset input asserted, the next act finds the reset values (R158). -/
theorem step_asserted_cons {s : State} {g : Option Nat} {a : HostAct} {rest : List HostEvent}
    (hr : s.resetAsserted = true) (hp : s.pending = ⟨g, a⟩ :: rest) :
    step s = serve a { blockReset s with pending := rest } := by
  rw [step_asserted s hr, hp]

/-- In an idle state the next act happens at once, at the reset values when the reset input is asserted (R7, R158). -/
theorem step_of_idle {s : State} {g : Option Nat} {a : HostAct} {rest : List HostEvent} (hb : s.busy = false)
    (hp : s.pending = ⟨g, a⟩ :: rest) : step s = serve a { underReset s with pending := rest } := by
  cases hr : s.resetAsserted with
  | true => rw [step_asserted_cons hr hp, underReset_asserted s hr]
  | false =>
    rw [step_released s hr, underReset_released s hr, nextTurn]
    simp [hp, hb]

/-! ## While the reset input is asserted -/

/-- What an act of the outside can do at the reset values with the reset input asserted: only a release changes the level
of the input, and a write has no effect (R158). -/
theorem serve_at_reset {a : HostAct} {s t : State} (hr : s.resetAsserted = true) (hs : blockReset s = s)
    (ht : serve a s = .next t) :
    AtReset t ∧ t.trace = s.trace ∧ t.pending = s.pending ∧ (t.resetAsserted = false ↔ a = .releaseReset) := by
  rcases serve_next a s t ht with ⟨off, rfl, _, rfl⟩ | ⟨off, v, rfl, _, rfl⟩ | ⟨rfl, rfl⟩ | ⟨rfl, rfl⟩
  · have hread : blockReset (hostRead off s) = hostRead off s := by rw [hostRead, ← hs]; rfl
    exact ⟨.of_blockReset_eq hread, rfl, rfl, by simp [hr]⟩
  · rw [hostWrite_asserted s off v hr]
    exact ⟨.of_blockReset_eq hs, rfl, rfl, by simp [hr]⟩
  · exact ⟨.of_blockReset_eq rfl, rfl, rfl, by simp [assertReset]⟩
  · rw [releaseReset, underReset_asserted s hr]
    exact ⟨.of_blockReset_eq rfl, rfl, rfl, by simp⟩

/-- Every step under an asserted reset input leaves the reset values and the line trace, and uses up the next act. -/
theorem step_holds_reset {s t : State} (hr : s.resetAsserted = true) (ht : step s = .next t) :
    AtReset t ∧ t.trace = s.trace ∧ t.pending = s.pending.tail ∧
      (t.resetAsserted = false ↔ ∃ g rest, s.pending = ⟨g, .releaseReset⟩ :: rest) := by
  rcases step_cases s t ht with ⟨hr', _⟩ | ⟨_, hp, rfl⟩ | ⟨_, g, a, rest, hp, hserve⟩
  · rw [hr] at hr'; cases hr'
  · exact ⟨atReset_blockReset s, rfl, by rw [blockReset_pending, hp]; rfl, by simp [hr, hp]⟩
  · obtain ⟨hreset, htrace, hpending, hrelease⟩ :=
      serve_at_reset (s := { blockReset s with pending := rest }) hr rfl hserve
    exact ⟨hreset, htrace, by rw [hpending, hp]; rfl, hrelease.trans (by simp [hp])⟩

/-- Settles O9: asserted, the reset lands after its sequencer steps, or at once in an idle state; held, it is
`step_holds_reset`, and the acts named answer from the reset values. -/
theorem resetAbortsARunningCommand : Obligations.ResetAbortsARunningCommand := by
  refine ⟨fun s n rest hr hb hp => ?_, fun s g rest hb hp => ?_, fun s t hr ht => step_holds_reset hr ht,
    fun s hr => ⟨fun hp => ?_, fun g v rest hp => ?_, fun g rest hp => ?_⟩⟩
  · obtain ⟨_, hpending, _⟩ := advance_keeps n { s with pending := rest }
    have hreset : AtReset (assertReset (advance n { s with pending := rest })) := .of_blockReset_eq rfl
    exact ⟨_, step_of_lands hr hb hp, hreset, hreset.statusReg, rfl, rfl, hpending⟩
  · exact ⟨_, step_of_idle hb hp, .of_blockReset_eq rfl, rfl, underReset_trace s, rfl⟩
  · exact ⟨_, by rw [step_asserted s hr, hp]⟩
  · exact ⟨_, step_asserted_cons hr hp⟩
  · exact ⟨_, step_asserted_cons hr hp⟩

end Sys2Proof.Machine
end
